-- ==== Sys2Proof/Word.lean ====
section
/-! DEFINITION. The word types of the machine (`spec/00_scope.md` R12, R13): 16-bit words, bytes, 24-bit physical word
addresses. Arithmetic on words is that of `BitVec`: modulo 2^16. -/

namespace Sys2Proof

/-- A machine word: 16 bits, bit 0 the least significant (R12). -/
abbrev Word := BitVec 16

/-- A byte: eight bits. -/
abbrev Byte := BitVec 8

/-- A physical word address: 24 bits (`spec/20_memory.md` R111). -/
abbrev PhysAddr := BitVec 24

/-- The word that a natural number stands for, modulo 2^16. -/
abbrev Word.ofNat (n : Nat) : Word := BitVec.ofNat 16 n

end Sys2Proof
end

