-- ==== Sys2Proof/Config.lean ====
section
/-! DEFINITION. What the installation fixes (`spec/00_scope.md` R10) and the free values: constants without a body, for what
`spec/93_implementation_defined.md` leaves open. Nothing can be proved of the value of a free constant. -/

namespace Sys2Proof

/-- The positions of the ALD thumbwheel that `spec/70_reset_and_hazards.md` R866 lists; the other four are refused by the
spec and cannot be set here (log 35). -/
inductive AldSwitch where
  | p15 | p14 | p13 | p12 | p11 | p10 | p7 | p6 | p5 | p4 | p3 | p2
deriving DecidableEq, Repr

/-- The installation: the parameters of R10 that are fixed for a machine. It is a field of the state that no step changes
(log 3). The cache and the panel processor stand on the memory management module, so `hasCache` and `hasPanel` count
only with `hasMms`. -/
structure Installation where
  /-- HAS_MMS: the memory management module is present. -/
  hasMms : Bool
  /-- HAS_CACHE: the cache is present and enabled by its switch. -/
  hasCache : Bool
  /-- HAS_CX: the CX option. -/
  hasCx : Bool
  /-- FP32: the 32-bit floating format instead of the 48-bit one. -/
  fp32 : Bool
  /-- HAS_WCS: the writable control store. -/
  hasWcs : Bool
  /-- HAS_PANEL: the display panel processor. -/
  hasPanel : Bool
  /-- Main memory in units of 32K words, contiguous from address 0 (R111). -/
  memModules : Nat
  /-- ALD_SWITCH. -/
  ald : AldSwitch
  /-- CONSOLE_SPEED, a switch position (timing only). -/
  consoleSpeed : BitVec 4
  /-- FAST_CPU (timing only). -/
  fastCpu : Bool
  /-- MICROPROGRAM_VERSION is one of the early ones (`spec/51_physical_memory.md` R570). -/
  earlyMicroprogram : Bool
  /-- How many words the panel processor's FIFO takes (`spec/61_io_devices.md` R770 gives no number). -/
  panelFifoDepth : Nat
deriving DecidableEq, Repr

namespace Config

/-- An arbitrary 16-bit value, one for each draw (U2 to U7 of `spec/93_implementation_defined.md`; log 6). -/
opaque freeWord : Nat → BitVec 16

/-- An arbitrary bit, one for each draw (log 6). -/
opaque freeBit : Nat → Bool

/-- FpArith for the 48-bit format: the result of an operation outside the cases that R346 fixes, by the code of the
operation (0 FAD, 1 FSB, 2 FMU, 3 FDV, 4 NLZ) and the operands (log 12). -/
opaque fpResult48 : Nat → BitVec 48 → BitVec 48 → BitVec 48

/-- FpArith for the 32-bit format (log 12). -/
opaque fpResult32 : Nat → BitVec 32 → BitVec 32 → BitVec 32

/-- FpTG: the rounding indicator after a floating instruction, by operation and operands (log 12). -/
opaque fpTg : Nat → BitVec 48 → BitVec 48 → Bool

/-- FDIV0: the floating accumulator after a division by zero, by format and operands (log 12). -/
opaque fdvByZero48 : BitVec 48 → BitVec 48 → BitVec 48

/-- FDIV0 in the 32-bit format (log 12). -/
opaque fdvByZero32 : BitVec 32 → BitVec 32 → BitVec 32

/-- RMPYFLAGS: C, O and Q after RMPY, bits 2, 1 and 0, by the operands (log 36). -/
opaque rmpyFlags : BitVec 16 → BitVec 16 → BitVec 3

/-- RDIVOVF: A and D after an overflowing RDIV, by dividend and divisor (log 36). -/
opaque rdivOverflow : BitVec 32 → BitVec 16 → BitVec 32

/-- RDIVFLAGS: C, O and Q after RDIV, bits 2, 1 and 0, by dividend and divisor (log 36). -/
opaque rdivFlags : BitVec 32 → BitVec 16 → BitVec 3

/-- STACK_OVF: whether the stack overflows, by the new STP and SMAX (`spec/53_ce_stack_misc.md` R611; log 37). -/
opaque stackOverflow : BitVec 16 → BitVec 16 → Bool

end Config

end Sys2Proof
end

