-- ==== Sys2Proof/Machine/State.lean ====
section
/-! DEFINITION. The state of the machine as plain data: everything `spec/10_state.md` lists, the devices of
`spec/61_io_devices.md`, the operator's communication of `spec/62_operator.md`, and the reasons a step can stop. -/

namespace Sys2Proof.Machine

/-- The eight registers of one program level (R30, R31); only bits 7-0 of STS are held per level (R36). -/
structure RegSet where
  sts : BitVec 8
  d : Word
  p : Word
  b : Word
  l : Word
  a : Word
  t : Word
  x : Word
deriving DecidableEq, Repr

/-- A paging control register: the normal and alternative page table and the ring (R66). -/
structure Pcr where
  pt : BitVec 2
  apt : BitVec 2
  ring : BitVec 2
deriving DecidableEq, Repr

/-- A used entry of the cache (R76, `spec/20_memory.md` R155). -/
structure CacheLine where
  index : BitVec 10
  data : Word
  cpn : BitVec 14
deriving DecidableEq, Repr

/-- A sparse memory of bytes: the listed cells, addresses strictly rising, no listed byte zero; an unlisted address
reads as zero (log 1). -/
structure Memory where
  cells : List Host.Cell
deriving DecidableEq, Repr

/-- The run state (R79, `spec/62_operator.md` R800); `loading` is a bootstrap loader in the place of the program (R842,
R845), `off` the time after POWER_OFF (`spec/70_reset_and_hazards.md` R864). -/
inductive RunState where
  | run | stop | loading | off
deriving DecidableEq, Repr

/-- The real-time clock of the CPU board (`spec/61_io_devices.md` R750). Of RTC_CNT the state keeps whether it has been
cleared since the last pulse. -/
structure Clock where
  cleared : Bool
  ready : Bool
  ie : Bool
  ff : Bool
deriving DecidableEq, Repr

/-- The console terminal interface of the CPU board (`spec/61_io_devices.md` R756): the input channel, the character
format, the output channel; `sending` is the character in the transmitter, `output` the stream already sent, the
latest first. -/
structure Console where
  data : Byte
  avail : Bool
  fe : Bool
  pe : Bool
  ovr : Bool
  inIe : Bool
  inFf : Bool
  len : BitVec 2
  oneStop : Bool
  par : Bool
  outReady : Bool
  outIe : Bool
  outFf : Bool
  sending : Option Byte
  output : List Byte
deriving DecidableEq, Repr

/-- The panel processor (`spec/61_io_devices.md` R770 to R775). `holding` are the four holding bytes of the calendar, low
seconds lowest; `calKnown` says that no second has passed since the calendar was written, so that a sample gives the bytes
written (R774); `request` is PANREQ, `packet` the bytes it has taken of a packet that is not yet whole (R775). -/
structure Panel where
  fifo : List Word
  comRdy : Bool
  read : Bool
  pcom : BitVec 3
  rpan : Byte
  text : List Byte
  rotating : Bool
  active : Bool
  calSec : Word
  calDay : Word
  calKnown : Bool
  holding : BitVec 32
  request : Bool
  packet : List Byte
deriving DecidableEq, Repr

/-- One interrupt flip-flop of a device for each of the levels 10, 11, 12, 13 and 15 (R740, R745). -/
structure Lines where
  l10 : Bool
  l11 : Bool
  l12 : Bool
  l13 : Bool
  l15 : Bool
deriving DecidableEq, Repr

/-- An interface of which the spec gives only the device interface of R740: the values its registers present when read,
its flip-flops and ident codes, and the accesses made to it, the latest first (log 17). `statusRegs` are the numbers of its
status registers, whose bits the bus signal master clear resets (R744). -/
structure External where
  base : Word
  size : Nat
  presents : List Word
  statusRegs : List Nat
  ff : Lines
  ident10 : BitVec 9
  ident11 : BitVec 9
  ident12 : BitVec 9
  ident13 : BitVec 9
  reads : List Word
  writes : List (Word × Word)
deriving DecidableEq, Repr

/-- The input channel of a terminal interface (R761): enables, activity, readiness, errors and flip-flop. -/
structure InputChannel where
  ie : Bool
  errIe : Bool
  active : Bool
  ready : Bool
  framing : Bool
  parity : Bool
  overrun : Bool
  ff : Bool
deriving DecidableEq, Repr

/-- The output channel of a terminal interface (R761): enables, the broken loop, flip-flop, and the double buffer: the
character that is being transmitted and the one in the data register behind it. -/
structure OutputChannel where
  ie : Bool
  errIe : Bool
  broken : Bool
  ff : Bool
  sending : Option Byte
  holding : Option Byte
deriving DecidableEq, Repr

/-- A terminal interface of R761 and R762. `motorCalled` says that a character has been transmitted since the motor stopped, so
that it is about to start; `rateSwitch` is the position of its data rate switch. -/
structure Terminal where
  base : Word
  ident : BitVec 9
  inp : InputChannel
  out : OutputChannel
  data : Byte
  test : Bool
  len : BitVec 2
  oneStop : Bool
  par : Bool
  autostop : Bool
  motorStopped : Bool
  motorCalled : Bool
  rate : BitVec 8
  rateSwitch : BitVec 8
  output : List Byte
deriving DecidableEq, Repr

/-- A paper tape reader (R763). -/
structure TapeReader where
  base : Word
  ident : BitVec 9
  ie : Bool
  active : Bool
  test : Bool
  ready : Bool
  ff : Bool
  data : Byte
deriving DecidableEq, Repr

/-- A paper tape punch (R764). -/
structure TapePunch where
  base : Word
  ident : BitVec 9
  ie : Bool
  active : Bool
  test : Bool
  ready : Bool
  ff : Bool
  buffer : Byte
  punched : List Byte
deriving DecidableEq, Repr

/-- A DMA controller with the register map of the 10 MB disk (R765) and the transfers of R766. `marHigh` says that the
first of the two accesses to the memory address register has been made. -/
structure DmaController where
  base : Word
  ident : BitVec 9
  mar : PhysAddr
  marHigh : Bool
  marRead : Bool
  bar : Word
  sector : Word
  wc : Word
  control : Word
  ready : Bool
  error : Bool
  ff : Bool
deriving DecidableEq, Repr

/-- An interface plugged into the bus (R740). -/
inductive Device where
  | external (d : External)
  | terminal (d : Terminal)
  | reader (d : TapeReader)
  | punch (d : TapePunch)
  | dma (d : DmaController)
deriving DecidableEq, Repr

/-- Examine mode XMODE of MOPC (`spec/62_operator.md` R805). -/
inductive ExamineMode where
  | phys
  | virt (table : BitVec 2)
deriving DecidableEq, Repr

/-- What the last examine addressed, LAST (R805). -/
inductive Examined where
  | none
  | mem
  | reg (level : BitVec 4) (n : BitVec 3)
  | ireg (code : BitVec 4)
  | opr
  | user
deriving DecidableEq, Repr

/-- The semi-RUN mode, SEMI (R805, R820 to R822). -/
inductive SemiRun where
  | none
  | count (k : Nat)
  | brk (address : Word)
  | manual (word : Word)
deriving DecidableEq, Repr

/-- A memory dump being printed (R829): the next and the last address of the 64K area. -/
structure Dump where
  next : Word
  last : Word
deriving DecidableEq, Repr

/-- What the display shows, the source of DISP (R805, R827, R830, R833 to R835, R839). -/
inductive DisplaySource where
  | activity
  | memory
  | register (level : BitVec 4) (n : BitVec 3)
  | internal (code : BitVec 4)
  | opr
  | user
  | bus
deriving DecidableEq, Repr

/-- The state of MOPC (R805). `num` is the number before the letters of a line, `arg` the one after them; `letters`
holds the letters typed in succession, the latest first; `format`, `source` and `bus`, internal register 23 (R850), are
DISP, `packets` the packets that its last changes have still to send, and `sampleDue` says that the panel status has shown a
PANREQ which no sample has answered yet (`spec/61_io_devices.md` R775; log 47). `lineStart` says that the prompt of a new line
is due (R804); `due` that an instruction of a semi-RUN has been executed since MOPC was last
entered (R802). -/
structure Mopc where
  num : BitVec 24
  haveNum : Bool
  low : BitVec 24
  haveLow : Bool
  letters : List Byte
  arg : BitVec 24
  haveArg : Bool
  xmode : ExamineMode
  pseg : Byte
  clc : PhysAddr
  last : Examined
  semi : SemiRun
  format : BitVec 24
  source : DisplaySource
  bus : BitVec 5
  packets : List (List Byte)
  sampleDue : Bool
  outq : List Byte
  lineStart : Bool
  due : Bool
  dump : Option Dump
deriving DecidableEq, Repr

/-- Where a binary load stands in its input (R843). -/
inductive LoaderPart where
  | text | addressHi | addressLo | countHi | countLo | dataHi | dataLo | sumHi | sumLo | action
deriving DecidableEq, Repr

/-- A bootstrap loader at work (R842, R843, R845). -/
structure Loader where
  mass : Bool
  device : BitVec 11
  part : LoaderPart
  num : Word
  bnum : Word
  address : Word
  remaining : Word
  sum : Word
  hold : Byte
deriving DecidableEq, Repr

/-- The position of the panel key (R801). -/
inductive PanelKey where
  | lock | on | standBy
deriving DecidableEq, Repr

/-- What the outside world does to a device between two steps (R740, R761 to R766). -/
inductive DeviceEvent where
  /-- An external interface takes on what its mechanics bring about. -/
  | external (presents : List Word) (ff : Lines)
  /-- A terminal receives a character, with its framing and parity errors. -/
  | received (c : Byte) (framing parity : Bool)
  /-- The transmitter of a terminal moves on, the reader has read a character, or the punch has punched one. -/
  | ready (c : Byte)
  /-- The time after which the motor of a terminal stops or starts is over. -/
  | motor (stopped : Bool)
  /-- The current loop of a terminal is broken or whole again. -/
  | loop (broken : Bool)
  /-- The sector counter of a disk turns, or a disk reports an error. -/
  | disk (sector : Word) (error : Bool)
deriving DecidableEq, Repr

/-- A bus cycle of another agent than the CPU (`spec/20_memory.md` R180, R182; `spec/61_io_devices.md` R766). -/
inductive BusCycle where
  /-- The DMA controller among the interfaces with this number moves a word into memory. -/
  | dmaIn (n : Nat) (w : Word)
  /-- The DMA controller with this number takes a word from memory. -/
  | dmaOut (n : Nat)
  | foreignWrite (pa : PhysAddr) (w : Word)
  | foreignRead (pa : PhysAddr)
deriving DecidableEq, Repr

/-- What the outside world does to the machine between two steps (R855, `spec/70_reset_and_hazards.md` R860 to R868;
log 5). -/
inductive HostEvent where
  /-- Nothing happens before the next step of the machine itself. -/
  | run
  | clockPulse
  | charReceived (c : Byte) (framing parity : Bool)
  | transmitterReady
  | panelProcess
  | calendarSecond
  | mopcEntry
  | buttonMcl
  | buttonStop
  | buttonLoad
  | buttonOpcom
  | turnKey (k : PanelKey)
  | powerFail
  | powerOff
  | powerOn (k : PanelKey) (standbyOk : Bool)
  | remoteMcl
  | remoteLoad
  /-- The MASTER CLEAR button, or the bus line MCL, during the next instruction (R860). -/
  | clearWithin (remote : Bool)
  | cacheReady
  | busCycle (c : BusCycle)
  /-- What other agents do on the bus before each of the next accesses of the CPU (`spec/20_memory.md` R182). -/
  | steal (plan : List (List BusCycle))
  | memoryUpset (pa : PhysAddr) (data : Word) (check : BitVec 6)
  | device (n : Nat) (e : DeviceEvent)
  | loaderByte (c : Byte)
  | massBlock (words : Option (List Word))
deriving DecidableEq, Repr

/-- Why the machine stops with a fault. -/
inductive Fault where
  /-- Raised by `step` when the power is off and no host event is left: the machine has no next state until POWER_ON
  (`spec/70_reset_and_hazards.md` R869). Safe: nothing runs without power. -/
  | powerOff
deriving DecidableEq, Repr

/-- Why the model has no meaning for a step. All are safe: the model stops where the hardware would go on in a way the
spec does not describe. -/
inductive Refusal where
  /-- An arm of `exec` whose meaning is not written. -/
  | notModelled (mnemonic : String)
  /-- A customer code after LWCS: its loaded microprogram is outside the spec (`spec/49_system_control.md` R522). -/
  | customerMicroprogram (entry : Word)
  /-- A CX instruction of which the sources give only name and code (`spec/53_ce_stack_misc.md` R620). -/
  | nameOnly (mnemonic : String)
  /-- LDBTX of an early microprogram that is not followed by `0o177777` (`spec/51_physical_memory.md` R570). -/
  | earlyLdbtx
  /-- A command written into the full FIFO of the panel processor (`spec/61_io_devices.md` R770). -/
  | panelFifoFull
  /-- Letters typed to MOPC that the spec does not list (`spec/62_operator.md` R806). -/
  | unknownCommand
  /-- A dump whose lower bound exceeds the upper one (`spec/62_operator.md` R829). -/
  | dumpBounds
  /-- A mass-storage load that fails (`spec/62_operator.md` R845). -/
  | massLoadFailure
deriving DecidableEq, Repr

/-- The state of the machine. Fields marked MODEL's own are not in the spec. -/
structure State where
  /-- MODEL's own: the installation of R10, never changed (log 3). -/
  cfg : Installation
  /-- The register sets of the sixteen levels (R30). -/
  regs : Vector RegSet 16
  /-- The current program level (R50). -/
  pil : BitVec 4
  /-- The previous program level (R51). -/
  pvl : BitVec 4
  /-- STS bit 15, interrupt system on (R36). -/
  ioni : Bool
  /-- STS bit 14, memory management on (R36). -/
  poni : Bool
  /-- STS bit 13, extended address mode (R36). -/
  sexi : Bool
  /-- Priority interrupt enable (R45). -/
  pie : Word
  /-- Priority interrupt detect, the part programs and the internal interrupt system set (R46). -/
  pid : Word
  /-- Internal interrupt enable (R52). -/
  iie : Word
  /-- Internal interrupt detect (R53). -/
  iid : Word
  /-- Internal interrupt code (R54). -/
  iic : BitVec 4
  /-- IIC_LOCK (R54). -/
  iicLock : Bool
  /-- The operator's switch register (R56). -/
  opr : Word
  /-- The lamp register (R57). -/
  lmp : Word
  /-- The paging control registers of the sixteen levels (R66). -/
  pcr : Vector Pcr 16
  /-- Paging status (R67). -/
  psr : Word
  /-- PSR_LOCK (R67). -/
  psrLock : Bool
  /-- Memory error status (R68). -/
  pes : Word
  /-- Memory error address (R69). -/
  pea : Word
  /-- PES_LOCK (R68, R69). -/
  pesLock : Bool
  /-- Error correction control (R70). -/
  eccr : BitVec 5
  /-- The protect halves of the page table entries, entry 64 t + v (R72, `spec/20_memory.md` R121). -/
  prot : Vector Word 256
  /-- The map halves of the page table entries (R72, `spec/20_memory.md` R122). -/
  map : Vector Word 256
  /-- Lower cache inhibit limit (R63). -/
  lcil : BitVec 14
  /-- Upper cache inhibit limit (R63). -/
  ucil : BitVec 14
  /-- The used entries of the cache, indexes strictly rising (R76). -/
  cache : List CacheLine
  /-- The 60 microseconds after a cache clear are not over (`spec/20_memory.md` R159, R160; log 14). -/
  cacheClearing : Bool
  /-- Main memory: word `pa` has its high byte at byte address 2 pa and its low byte at 2 pa + 1 (R83, R102). -/
  mem : Memory
  /-- At a word address, in bits 5-0, by how much the stored check bits differ from the right ones (R83,
  `spec/20_memory.md` R170). -/
  ecc : Memory
  /-- The writable control store as 1024 words (R81, `spec/49_system_control.md` R520). -/
  wcs : List Word
  /-- WCS_LOADED (R81). -/
  wcsLoaded : Bool
  /-- The run state (R79). -/
  runState : RunState
  /-- OPCOM_ACTIVE (R79). -/
  opcomActive : Bool
  /-- MODEL's own: the test between instructions has been made at this boundary (log 5). -/
  boundaryDone : Bool
  /-- The real-time clock (R82). -/
  clock : Clock
  /-- The console interface (R82). -/
  console : Console
  /-- The panel processor (R82). -/
  panel : Panel
  /-- The plugged-in interfaces, the nearest to the CPU first (`spec/61_io_devices.md` R740). -/
  devices : List Device
  /-- The operator's communication (R80). -/
  mopc : Mopc
  /-- The Bus Monitor Register, internal register 22 and 23 read (`spec/62_operator.md` R850; log 40). -/
  busMonitor : BitVec 24
  /-- The bootstrap loader (`spec/62_operator.md` R842). -/
  loader : Loader
  /-- The panel key (`spec/00_scope.md` R10). -/
  panelKey : PanelKey
  /-- MODEL's own: what the outside world will do, before which steps (log 5). -/
  events : List HostEvent
  /-- MODEL's own: the bus cycles of other agents before each of the next accesses of the CPU (`spec/20_memory.md` R180,
  R182; log 18). -/
  steals : List (List BusCycle)
  /-- MODEL's own: the page table entries through which accesses pass, and whether they write, while an instruction is looked
  at that a master clear cuts off; none in the states of a run (`spec/70_reset_and_hazards.md` R860; log 10). -/
  watch : Option (List (BitVec 8 × Bool))
  /-- MODEL's own: how many free values have been drawn (log 6). -/
  freeCount : Nat
deriving DecidableEq, Repr

/-- A register set of zeros, the value the model names where the spec gives none (log 2). -/
def RegSet.zero : RegSet := { sts := 0, d := 0, p := 0, b := 0, l := 0, a := 0, t := 0, x := 0 }

/-- The installation that reset presumes (log 3). -/
def Installation.default : Installation :=
  { hasMms := true, hasCache := true, hasCx := true, fp32 := false, hasWcs := true, hasPanel := true,
    memModules := 16, ald := .p15, consoleSpeed := 7, fastCpu := false, earlyMicroprogram := false,
    panelFifoDepth := 16 }

/-- The console after master clear (`spec/61_io_devices.md` R757, R760). -/
def Console.initial : Console :=
  { data := 0, avail := false, fe := false, pe := false, ovr := false, inIe := false, inFf := false, len := 1,
    oneStop := false, par := true, outReady := true, outIe := false, outFf := false, sending := none, output := [] }

/-- The panel processor with the named values of log 2. -/
def Panel.initial : Panel :=
  { fifo := [], comRdy := false, read := false, pcom := 0, rpan := 0, text := [], rotating := false,
    active := false, calSec := 0, calDay := 0, calKnown := false, holding := 0, request := true,
    packet := [] }

/-- MOPC after master clear (`spec/62_operator.md` R805). -/
def Mopc.initial : Mopc :=
  { num := 0, haveNum := false, low := 0, haveLow := false, letters := [], arg := 0, haveArg := false,
    xmode := .phys, pseg := 0, clc := 0, last := .none, semi := .none, format := 0, source := .activity, bus := 0,
    packets := [], sampleDue := false, outq := [], lineStart := true, due := false, dump := none }

/-- No loader at work. -/
def Loader.idle : Loader :=
  { mass := false, device := 0, part := .text, num := 0, bnum := 0, address := 0, remaining := 0, sum := 0,
    hold := 0 }

/-- The machine after power-up and master clear (R90 to R93, `spec/70_reset_and_hazards.md` R861): stopped on level 0, paging
and interrupts off. What the spec leaves arbitrary holds the values log 2 names. -/
def State.reset : State :=
  { cfg := Installation.default
    regs := Vector.replicate 16 RegSet.zero
    pil := 0, pvl := 0, ioni := false, poni := false, sexi := false
    pie := 0, pid := 0, iie := 0, iid := 0, iic := 0, iicLock := false
    opr := 0, lmp := 0
    pcr := Vector.replicate 16 { pt := 0, apt := 0, ring := 0 }
    psr := 0, psrLock := false, pes := 0, pea := 0, pesLock := false, eccr := 0
    prot := Vector.replicate 256 0
    map := Vector.replicate 256 0
    lcil := 0, ucil := 0o37777
    cache := [], cacheClearing := true
    mem := { cells := [] }, ecc := { cells := [] }
    wcs := [], wcsLoaded := false
    runState := .stop, opcomActive := true, boundaryDone := false
    clock := { cleared := false, ready := false, ie := false, ff := false }
    console := Console.initial, panel := Panel.initial, devices := []
    mopc := Mopc.initial, busMonitor := 0, loader := Loader.idle, panelKey := .on
    events := [], steals := [], watch := none, freeCount := 0 }

end Sys2Proof.Machine
end

