-- ==== Sys2Proof/Syntax.lean ====
section
/-! DEFINITION. The instructions as syntax: one constructor per row of `spec/opcode_table.json`, its operand fields as the
formats of `spec/30_encoding.md` (R203 to R222) give them. -/
namespace Sys2Proof

/-- A register field `sr` or `dr` (R223): the register's number is its index in the register set of a level.
`zero` is number 0: the constant zero, no destination, or the status register, as the instruction's rule says. -/
inductive RField where
  | zero | d | p | b | l | a | t | x
deriving DecidableEq, Repr

/-- The number of a register field (R223). -/
def RField.toNat : RField → Nat
  | .zero => 0 | .d => 1 | .p => 2 | .b => 3 | .l => 4 | .a => 5 | .t => 6 | .x => 7

/-- The shift types of bits 10-9 of a shift word (R219). -/
inductive ShiftType where
  | arithmetic | rotational | zeroEnd | linkEnd
deriving DecidableEq, Repr

/-- The number of a shift type (R219). -/
def ShiftType.toNat : ShiftType → Nat
  | .arithmetic => 0 | .rotational => 1 | .zeroEnd => 2 | .linkEnd => 3

/-- The operand of the memory reference format (R203): the address mode bits `,X`, `I`, `,B` and the signed
displacement. All eight combinations of the mode bits are legal. -/
structure MemRef where
  x : Bool
  i : Bool
  b : Bool
  disp : BitVec 8
deriving DecidableEq, Repr

/-- One instruction of the machine. The bits an encoding calls ignored (bit 6 of a shift word, R219; bits 2-0 of RDIV,
R207; bits 5-0 of a customer code or of MOVEW) are operands, so that a word and its instruction name each other. The
seven assembler names inside RADD (R209) are constructors of their own; `radd` covers the remaining words (log 7). -/
inductive Instr where
  | stz (m : MemRef)
  | sta (m : MemRef)
  | stt (m : MemRef)
  | stx (m : MemRef)
  | std (m : MemRef)
  | ldd (m : MemRef)
  | stf (m : MemRef)
  | ldf (m : MemRef)
  | min (m : MemRef)
  | lda (m : MemRef)
  | ldt (m : MemRef)
  | ldx (m : MemRef)
  | add (m : MemRef)
  | sub (m : MemRef)
  | and (m : MemRef)
  | ora (m : MemRef)
  | fad (m : MemRef)
  | fsb (m : MemRef)
  | fmu (m : MemRef)
  | fdv (m : MemRef)
  | mpy (m : MemRef)
  | jmp (m : MemRef)
  | jpl (m : MemRef)
  | jap (disp : BitVec 8)
  | jan (disp : BitVec 8)
  | jaz (disp : BitVec 8)
  | jaf (disp : BitVec 8)
  | jpc (disp : BitVec 8)
  | jnc (disp : BitVec 8)
  | jxz (disp : BitVec 8)
  | jxn (disp : BitVec 8)
  | skpEql (sr dr : RField)
  | skpGeq (sr dr : RField)
  | skpGre (sr dr : RField)
  | skpMgre (sr dr : RField)
  | skpUeq (sr dr : RField)
  | skpLss (sr dr : RField)
  | skpLst (sr dr : RField)
  | skpMlst (sr dr : RField)
  | addd
  | subd
  | comd
  | tset
  | pack
  | upack
  | shde
  | rdus
  | bfill
  | movb
  | movbf
  | init
  | entr
  | leave
  | eleav
  | setpt
  | clept
  | clnreent
  | chreentpages
  | clepu
  | lbyt
  | sbyt
  | mix3
  | lwcs
  | identPl10
  | identPl11
  | identPl12
  | identPl13
  | cust1 (low : BitVec 6)
  | cust2 (low : BitVec 6)
  | cust3 (low : BitVec 6)
  | cust4 (low : BitVec 6)
  | cust5 (low : BitVec 6)
  | cust6 (low : BitVec 6)
  | cust7 (low : BitVec 6)
  | cust10 (low : BitVec 6)
  | cust11 (low : BitVec 6)
  | cust12 (low : BitVec 6)
  | cust13 (low : BitVec 6)
  | exr (sr : RField)
  | rmpy (sr dr : RField)
  | rdiv (sr : RField) (ignored : BitVec 3)
  | movew (low : BitVec 6)
  | ldatx (delta : BitVec 3)
  | ldxtx (delta : BitVec 3)
  | lddtx (delta : BitVec 3)
  | ldbtx (delta : BitVec 3)
  | statx (delta : BitVec 3)
  | stztx (delta : BitVec 3)
  | stdtx (delta : BitVec 3)
  | swap (cm1 cld : Bool) (sr dr : RField)
  | rand (cm1 cld : Bool) (sr dr : RField)
  | rexo (cm1 cld : Bool) (sr dr : RField)
  | rora (cm1 cld : Bool) (sr dr : RField)
  | radd (adc ad1 cm1 cld : Bool) (sr dr : RField)
  | rsub (sr dr : RField)
  | copy (sr dr : RField)
  | copyCm2 (sr dr : RField)
  | exit
  | rclr (dr : RField)
  | rinc (dr : RField)
  | rdcr (dr : RField)
  | tra (n : BitVec 4)
  | trr (n : BitVec 4)
  | mcl (n : BitVec 4)
  | mst (n : BitVec 4)
  | opcom
  | iof
  | ion
  | pof
  | piof
  | sex
  | rex
  | pon
  | pion
  | ioxt
  | exam
  | depo
  | wait (number : BitVec 8)
  | nlz (sc : BitVec 8)
  | dnz (sc : BitVec 8)
  | srb (level : BitVec 4)
  | lrb (level : BitVec 4)
  | mon (number : BitVec 8)
  | irw (level : BitVec 4) (dr : RField)
  | irr (level : BitVec 4) (dr : RField)
  | sht (type : ShiftType) (ignored : Bool) (count : BitVec 6)
  | shd (type : ShiftType) (ignored : Bool) (count : BitVec 6)
  | sha (type : ShiftType) (ignored : Bool) (count : BitVec 6)
  | sad (type : ShiftType) (ignored : Bool) (count : BitVec 6)
  | iox (address : BitVec 11)
  | sab (arg : BitVec 8)
  | saa (arg : BitVec 8)
  | sat (arg : BitVec 8)
  | sax (arg : BitVec 8)
  | aab (arg : BitVec 8)
  | aaa (arg : BitVec 8)
  | aat (arg : BitVec 8)
  | aax (arg : BitVec 8)
  | bsetZro (bn : BitVec 4) (dr : RField)
  | bsetOne (bn : BitVec 4) (dr : RField)
  | bsetBcm (bn : BitVec 4) (dr : RField)
  | bsetBac (bn : BitVec 4) (dr : RField)
  | bskpZro (bn : BitVec 4) (dr : RField)
  | bskpOne (bn : BitVec 4) (dr : RField)
  | bskpBcm (bn : BitVec 4) (dr : RField)
  | bskpBac (bn : BitVec 4) (dr : RField)
  | bstc (bn : BitVec 4) (dr : RField)
  | bsta (bn : BitVec 4) (dr : RField)
  | bldc (bn : BitVec 4) (dr : RField)
  | blda (bn : BitVec 4) (dr : RField)
  | banc (bn : BitVec 4) (dr : RField)
  | band (bn : BitVec 4) (dr : RField)
  | borc (bn : BitVec 4) (dr : RField)
  | bora (bn : BitVec 4) (dr : RField)
deriving DecidableEq, Repr

end Sys2Proof
end

