-- ==== Sys2Proof/Machine/Registers.lean ====
section
/-! DEFINITION. Access to the register file (`spec/10_state.md` R30 to R37), to the paging control registers (R66), the status
word, and the draw of free values (log 6). Each register has one home; everything reads and writes it here. -/

namespace Sys2Proof.Machine

/-- What a meaning answers. -/
abbrev Result := Host.Outcome State Fault Refusal

/-- Bit `i` of a word set to `b`. -/
def setBit {w : Nat} (v : BitVec w) (i : Nat) (b : Bool) : BitVec w :=
  if b then v ||| BitVec.twoPow w i else v &&& ~~~ BitVec.twoPow w i

/-- An 8-bit number sign-extended to a word (R13). -/
def sext8 (v : BitVec 8) : Word := v.signExtend 16

/-- The register set of a level (R30). -/
def State.reg (s : State) (l : BitVec 4) : RegSet := s.regs[l.toNat]'l.isLt

/-- Replace the register set of a level. -/
def State.setReg (s : State) (l : BitVec 4) (r : RegSet) : State :=
  { s with regs := s.regs.set l.toNat r l.isLt }

/-- The register set of the current level (R30). -/
def State.cur (s : State) : RegSet := s.reg s.pil

/-- Replace the register set of the current level. -/
def State.setCur (s : State) (r : RegSet) : State := s.setReg s.pil r

/-- STS bits 7-0 of the current level (R36). -/
def State.sts (s : State) : BitVec 8 := s.cur.sts
/-- Register D of the current level (R31). -/
def State.d (s : State) : Word := s.cur.d
/-- Register P of the current level: the address of the instruction being executed (R34). -/
def State.p (s : State) : Word := s.cur.p
/-- Register B of the current level (R31). -/
def State.b (s : State) : Word := s.cur.b
/-- Register L of the current level (R31). -/
def State.l (s : State) : Word := s.cur.l
/-- Register A of the current level (R31). -/
def State.a (s : State) : Word := s.cur.a
/-- Register T of the current level (R31). -/
def State.t (s : State) : Word := s.cur.t
/-- Register X of the current level (R31). -/
def State.x (s : State) : Word := s.cur.x

/-- Write STS bits 7-0 of the current level. -/
def State.setSts (s : State) (v : BitVec 8) : State := s.setCur { s.cur with sts := v }
/-- Write D of the current level. -/
def State.setD (s : State) (v : Word) : State := s.setCur { s.cur with d := v }
/-- Write P of the current level. -/
def State.setP (s : State) (v : Word) : State := s.setCur { s.cur with p := v }
/-- Write B of the current level. -/
def State.setB (s : State) (v : Word) : State := s.setCur { s.cur with b := v }
/-- Write L of the current level. -/
def State.setL (s : State) (v : Word) : State := s.setCur { s.cur with l := v }
/-- Write A of the current level. -/
def State.setA (s : State) (v : Word) : State := s.setCur { s.cur with a := v }
/-- Write T of the current level. -/
def State.setT (s : State) (v : Word) : State := s.setCur { s.cur with t := v }
/-- Write X of the current level. -/
def State.setX (s : State) (v : Word) : State := s.setCur { s.cur with x := v }

/-- The instruction ends: P is that of the next word (R34). -/
def State.advance (s : State) : State := s.setP (s.p + 1)

/-- The instruction ends with the next word skipped (R34). -/
def State.skip (s : State) : State := s.setP (s.p + 2)

/-- End with P + 1 or, where the condition holds, with P + 2. -/
def State.skipIf (s : State) (c : Bool) : State := if c then s.skip else s.advance

/-- Register number `n` of a set; number 0 is STS with zeros above it (R31, R37). -/
def RegSet.get (r : RegSet) : RField → Word
  | .zero => r.sts.zeroExtend 16
  | .d => r.d | .p => r.p | .b => r.b | .l => r.l | .a => r.a | .t => r.t | .x => r.x

/-- Write register number `n` of a set; of a value for number 0 the low byte goes into STS (R37). -/
def RegSet.put (r : RegSet) (n : RField) (v : Word) : RegSet :=
  match n with
  | .zero => { r with sts := v.setWidth 8 }
  | .d => { r with d := v } | .p => { r with p := v } | .b => { r with b := v } | .l => { r with l := v }
  | .a => { r with a := v } | .t => { r with t := v } | .x => { r with x := v }

/-- The paging control register of a level (R66). -/
def State.pcrOf (s : State) (l : BitVec 4) : Pcr := s.pcr[l.toNat]'l.isLt

/-- Replace the paging control register of a level. -/
def State.setPcr (s : State) (l : BitVec 4) (r : Pcr) : State :=
  { s with pcr := s.pcr.set l.toNat r l.isLt }

/-- The paging control register of the current level (R66). -/
def State.curPcr (s : State) : Pcr := s.pcrOf s.pil

/-- The ring of the current level (R66). -/
def State.ring (s : State) : BitVec 2 := s.curPcr.ring

/-- The whole status word: IONI, PONI, SEXI, N100, PIL and the eight bits of the level (R36). -/
def State.statusWord (s : State) : Word :=
  BitVec.ofBool s.ioni ++ BitVec.ofBool s.poni ++ BitVec.ofBool s.sexi ++ (1 : BitVec 1) ++ s.pil ++ s.sts

/-- Draw an arbitrary word (log 6). -/
def State.drawWord (s : State) : Word × State :=
  (Config.freeWord s.freeCount, { s with freeCount := s.freeCount + 1 })

/-- Draw an arbitrary bit (log 6). -/
def State.drawBit (s : State) : Bool × State :=
  (Config.freeBit s.freeCount, { s with freeCount := s.freeCount + 1 })

end Sys2Proof.Machine
end

