-- ==== Sys2Proof/Machine/Flags.lean ====
section
/-! DEFINITION. The flags of STS bits 7-0 (`spec/10_state.md` R36 to R44) and the computations that set them: the 16-bit
adder of `spec/40_memory_reference.md` R263 and the overflow convention of R40. -/

namespace Sys2Proof.Machine

/-- The flags of a level (R36). -/
inductive Flag where
  | ptm | tg | k | z | q | o | c | m
deriving DecidableEq, Repr

/-- The bit of STS that holds a flag (R36). -/
def Flag.bit : Flag → Nat
  | .ptm => 0 | .tg => 1 | .k => 2 | .z => 3 | .q => 4 | .o => 5 | .c => 6 | .m => 7

/-- A flag of the current level. -/
def State.flag (s : State) (f : Flag) : Bool := s.sts.getLsbD f.bit

/-- Write a flag of the current level. -/
def State.setFlag (s : State) (f : Flag) (b : Bool) : State := s.setSts (setBit s.sts f.bit b)

/-- What the 16-bit adder delivers (R263). -/
structure Sum16 where
  r : Word
  carry : Bool
  ovf : Bool
deriving DecidableEq, Repr

/-- The 16-bit adder (R263): the sum, the carry out of bit 15, the signed overflow. -/
def add16 (a b : Word) (cin : Bool) : Sum16 :=
  let s33 := a.toNat + b.toNat + cin.toNat
  let r := Word.ofNat s33
  { r := r, carry := decide (2 ^ 16 ≤ s33), ovf := a.msb == b.msb && r.msb != a.msb }

/-- Subtraction `a - b` is the sum of `a`, the complement of `b` and one (R263, decision D18 of the spec). -/
def sub16 (a b : Word) : Sum16 := add16 a (~~~ b) true

/-- Overflow: Q follows the condition, O is only ever set (R40). -/
def State.setOverflow (s : State) (ovf : Bool) : State :=
  let s := s.setFlag .q ovf
  if ovf then s.setFlag .o true else s

/-- The flag update "as for ADD" (R263): C, Q and the sticky O. -/
def State.setAddFlags (s : State) (r : Sum16) : State := (s.setFlag .c r.carry).setOverflow r.ovf

end Sys2Proof.Machine
end

