-- ==== Sys2Proof/Machine/Memory.lean ====
section
/-! DEFINITION. Main memory as bytes and words (`spec/20_memory.md` R100 to R112) and the error correction code of its modules
(R170 to R173). -/

namespace Sys2Proof.Machine

/-- What an unlisted address reads as: the named reset content (log 1). -/
def Memory.unlisted : Byte := 0

/-- The byte that a list of cells holds at an address. -/
def lookupCell (a : Nat) : List Host.Cell → Byte
  | [] => Memory.unlisted
  | (b, v) :: r => if b = a then v else lookupCell a r

/-- Put a cell into a list in rising order of address. -/
def insertCell (a : Nat) (v : Byte) : List Host.Cell → List Host.Cell
  | [] => [(a, v)]
  | (b, w) :: r => if a < b then (a, v) :: (b, w) :: r else (b, w) :: insertCell a v r

/-- Take the cells of an address out of a list. -/
def removeCell (a : Nat) : List Host.Cell → List Host.Cell
  | [] => []
  | (b, w) :: r => if b = a then removeCell a r else (b, w) :: removeCell a r

/-- The byte at an address. -/
def Memory.read (m : Memory) (a : Nat) : Byte := lookupCell a m.cells

/-- Write a byte; the value that an unlisted address reads as removes the entry. -/
def Memory.write (m : Memory) (a : Nat) (v : Byte) : Memory :=
  { cells := if v = Memory.unlisted then removeCell a m.cells else insertCell a v (removeCell a m.cells) }

/-- Addresses strictly rising and no entry equal to what an unlisted address reads as. -/
def canonicalCells : List Host.Cell → Bool
  | [] => true
  | [(_, v)] => v != Memory.unlisted
  | (a, v) :: (b, w) :: r => decide (a < b) && v != Memory.unlisted && canonicalCells ((b, w) :: r)

/-- The canonical form of a memory. -/
def Memory.wf (m : Memory) : Bool := canonicalCells m.cells

/-- The word at a physical address: its high byte first (R102). -/
def Memory.readWord (m : Memory) (pa : PhysAddr) : Word :=
  m.read (2 * pa.toNat) ++ m.read (2 * pa.toNat + 1)

/-- Write the word at a physical address (R102). -/
def Memory.writeWord (m : Memory) (pa : PhysAddr) (w : Word) : Memory :=
  (m.write (2 * pa.toNat) (w.extractLsb' 8 8)).write (2 * pa.toNat + 1) (w.extractLsb' 0 8)

/-- MEM_PRESENT: the words from 0 to the upper limit of the last module answer (R111). -/
def State.memPresent (s : State) (pa : PhysAddr) : Bool := decide (pa.toNat < s.cfg.memModules * 32768)

/-- The parity of a word's bits. -/
def parity (w : Word) : Bool := (List.range 16).foldl (fun p i => p ^^ w.getLsbD i) false

/-- The data bits that enter each check bit T16 to T21, in that order (R170). -/
def checkMasks : List Word :=
  [0b0000010101011111, 0b0101011010010101, 0b1001100011100110, 0b1110000011111000,
   0b1111111100000000, 0b0010101100101011]

/-- The six check bits of a word, T16 in bit 0 (R170). -/
def checkBits (w : Word) : BitVec 6 :=
  (checkMasks.zipIdx).foldl (fun c (m, i) => setBit c i (parity (w &&& m))) 0

/-- The word as the check-bit generator sees it under the test bits of ECCR (R70, R170). -/
def State.eccForced (s : State) (w : Word) : Word :=
  let w := if s.eccr.getLsbD 0 then setBit w 0 true else w
  let w := if s.eccr.getLsbD 4 then setBit w 6 true else w
  if s.eccr.getLsbD 1 then setBit w 15 true else w

/-- What a module finds in a word when it is read (R171). -/
inductive EccFinding where
  | good
  | dataBit (i : Nat)
  | checkBit
  | multiple
deriving DecidableEq, Repr

/-- The data bit that a single-error syndrome names (R172). -/
def syndromeBit : Nat → Option Nat
  | 0o03 => some 0 | 0o05 => some 1 | 0o07 => some 2 | 0o11 => some 3 | 0o13 => some 4 | 0o14 => some 5
  | 0o15 => some 6 | 0o16 => some 7 | 0o21 => some 8 | 0o22 => some 9 | 0o23 => some 10 | 0o24 => some 11
  | 0o26 => some 12 | 0o30 => some 13 | 0o32 => some 14 | 0o34 => some 15
  | _ => none

/-- The finding and the six-bit error code of PES for the syndrome bits S5 to S0 (R171, R172). -/
def eccClassify (syn : BitVec 6) : EccFinding × BitVec 6 :=
  let ptot := parity (syn.zeroExtend 16)
  let s := (syn.toNat) % 32
  if ptot then
    if s = 0 then (.checkBit, 0o37)
    else if s = 1 ∨ s = 2 ∨ s = 4 ∨ s = 8 ∨ s = 16 then (.checkBit, BitVec.ofNat 6 s)
    else
      match syndromeBit s with
      | some i => (.dataBit i, BitVec.ofNat 6 s)
      | none => (.multiple, BitVec.ofNat 6 (32 + s))
  else if s = 0 then (.good, 0) else (.multiple, BitVec.ofNat 6 (32 + s))

/-- The syndrome of the word stored at an address: by how much its check bits differ from the right ones (R171). -/
def State.syndrome (s : State) (pa : PhysAddr) : BitVec 6 := (s.ecc.read pa.toNat).setWidth 6

end Sys2Proof.Machine
end

