-- ==== Sys2Proof/Machine/Ops.lean ====
section
/-! DEFINITION. The shared operations: internal interrupts and the level change (`spec/60_exceptions.md`), physical memory with
its errors, the cache, translation and protection (`spec/20_memory.md`), and the privilege check. -/

namespace Sys2Proof.Machine

/-! ### Taking an exception (`spec/60_exceptions.md`) -/

/-- The ten sources of internal interrupts (R671). -/
inductive Source where
  | mc | mpv | pf | ii | z | pi | iox | pty | mor | pow
deriving DecidableEq, Repr

/-- The code of a source, and its bit in IIE and IID (R671). -/
def Source.code : Source → Nat
  | .mc => 1 | .mpv => 2 | .pf => 3 | .ii => 4 | .z => 5 | .pi => 6 | .iox => 7 | .pty => 8 | .mor => 9 | .pow => 10

/-- `raise X` (R672): the condition is recorded in IID whatever IIE holds. The saved state is the level's own register
set; the change to level 14 is made by the test between instructions (R660), which is `latchInternal` and
`changeLevel`. -/
def State.raise (s : State) (x : Source) : State := { s with iid := setBit s.iid x.code true }

/-- The highest bit below position `n` that is 1, or 0. -/
def highestBit (w : Word) : Nat → Nat
  | 0 => 0
  | n + 1 => if w.getLsbD n then n else highestBit w n

/-- The sources that are enabled and pending, Z taken from the running level's flag (R660 steps 1 and 2, R680). -/
def State.pendingInternal (s : State) : Word := setBit s.iid Source.z.code (s.flag .z) &&& s.iie

/-- Step 2 of the test between instructions (R660): latch the code of one pending source, power fail first, lock IIC,
clear its detect bit and request level 14. -/
def State.latchInternal (s : State) : State :=
  let pending := s.pendingInternal
  if pending = 0 ∨ s.iicLock then s
  else
    let n := if pending.getLsbD Source.pow.code then Source.pow.code else highestBit pending 16
    { s with iic := BitVec.ofNat 4 n, iicLock := true, iid := setBit s.iid n false, pid := setBit s.pid 14 true }

/-- The interrupt line that a device drives on a level (R745); level 15 has a line and no IDENT. -/
def Device.drives (d : Device) (level : Nat) : Bool :=
  match d with
  | .external e =>
    match level with
    | 10 => e.ff.l10 | 11 => e.ff.l11 | 12 => e.ff.l12 | 13 => e.ff.l13 | 15 => e.ff.l15 | _ => false
  | .terminal e => (level == 10 && e.out.ff) || (level == 12 && e.inp.ff)
  | .reader e => level == 12 && e.ff
  | .punch e => level == 10 && e.ff
  | .dma e => level == 11 && e.ff

/-- The interrupt line of a level: the clock, the console, then the plugged-in interfaces (R745, R750, R756). -/
def State.line (s : State) (level : Nat) : Bool :=
  (level == 13 && s.clock.ff) || (level == 10 && s.console.outFf) || (level == 12 && s.console.inFf) ||
  s.devices.any (fun d => d.drives level)

/-- The device lines as bits of a word (`spec/10_state.md` R46, R78). -/
def State.lines (s : State) : Word :=
  setBit (setBit (setBit (setBit (setBit (0 : Word) 10 (s.line 10)) 11 (s.line 11)) 12 (s.line 12)) 13 (s.line 13))
    15 (s.line 15)

/-- PID as a program and the level test see it (`spec/10_state.md` R46). -/
def State.pidSeen (s : State) : Word := s.pid ||| s.lines

/-- PK: the highest level enabled and requested, or 0 (`spec/10_state.md` R47). -/
def State.pk (s : State) : BitVec 4 := BitVec.ofNat 4 (highestBit (s.pie &&& s.pidSeen) 16)

/-- The level change (R661): the new level's registers, page tables and ring are those kept for it. -/
def State.changeLevel (s : State) : State := { s with pvl := s.pil, pil := s.pk }

/-- Steps 1 to 3 of the test between instructions (R660). -/
def State.test (s : State) : State :=
  let s := s.latchInternal
  { (if s.ioni ∧ s.pk ≠ s.pil then s.changeLevel else s) with boundaryDone := true }

/-- The way back from a level (R663): its own request is dropped; the test between instructions then finds a lower PK. -/
def State.giveUpLevel (s : State) : State := { s with pid := setBit s.pid s.pil.toNat false }

/-! ### Physical memory (`spec/20_memory.md` R140, R170 to R174) -/

/-- What makes a memory reference (R174). -/
inductive MemSource where
  | fetch | data | examDepo | dma
deriving DecidableEq, Repr

/-- Latch PES and PEA for a reference, unless they are locked (R174). -/
def State.latchMemError (s : State) (src : MemSource) (pa : PhysAddr) (code : BitVec 6) : State :=
  if s.pesLock then s
  else
    { s with
      pes := BitVec.ofBool (src == .fetch || src == .examDepo) ++ BitVec.ofBool (src == .dma) ++ code ++
        pa.extractLsb' 16 8
      pea := pa.extractLsb' 0 16
      pesLock := true }

/-- Memory out of range: MOR is raised, the error code of PES is open (R140, R174). -/
def State.outOfRange (s : State) (src : MemSource) (pa : PhysAddr) : State :=
  let (code, s) := s.drawWord
  (s.latchMemError src pa (code.setWidth 6)).raise .mor

/-- A memory error that interrupts (R173, R174). -/
def State.memoryError (s : State) (src : MemSource) (pa : PhysAddr) (code : BitVec 6) : State :=
  (s.latchMemError src pa code).raise .pty

/-- Whether ECCR lets an error interrupt: never when disabled, a corrected one only with ANY (R173). -/
def State.eccReports (s : State) (f : EccFinding) : Bool :=
  !s.eccr.getLsbD 3 &&
    match f with
    | .good => false
    | .multiple => true
    | _ => s.eccr.getLsbD 2

/-- The word a module delivers, corrected where it can be (R171, R173). -/
def State.eccDeliver (s : State) (f : EccFinding) (w : Word) : Word :=
  if s.eccr.getLsbD 3 then w
  else
    match f with
    | .dataBit i => w ^^^ BitVec.twoPow 16 i
    | _ => w

/-- Whether internal register 23 selects the cycles of the CPU, or of DMA, and among them reads or writes, for the bus monitor
of the memory management module: bit 3 DMA, bit 1 writes, bit 0 reads (`spec/62_operator.md` R850). -/
def State.monitors (s : State) (dma write : Bool) : Bool :=
  s.cfg.hasMms && s.mopc.bus.getLsbD 3 == dma && s.mopc.bus.getLsbD (if write then 1 else 0)

/-- A memory cycle on the bus: the Bus Monitor Register takes its address, or its word with zeros above it, where internal
register 23 selects such a cycle (`spec/62_operator.md` R839, R850; log 40). -/
def State.strobe (s : State) (src : MemSource) (write : Bool) (pa : PhysAddr) (w : Word) : State :=
  if s.monitors (src == .dma) write then
    { s with busMonitor := if s.mopc.bus.getLsbD 4 then pa else w.zeroExtend 24 }
  else s

/-- `PhysRead` (R140, R171): one bus cycle. What a read that no module answers delivers is open (U2). -/
def State.physRead (s : State) (src : MemSource) (pa : PhysAddr) : Word × State :=
  if s.memPresent pa then
    let w := s.mem.readWord pa
    let (f, code) := eccClassify (s.syndrome pa)
    let v := s.eccDeliver f w
    let s := s.strobe src false pa v
    (v, if s.eccReports f then s.memoryError src pa code else s)
  else
    let (w, s) := s.drawWord
    (w, (s.strobe src false pa w).outOfRange src pa)

/-- `PhysWrite` (R140, R170): the word and its check bits; without a module nothing is written. -/
def State.physWrite (s : State) (src : MemSource) (pa : PhysAddr) (w : Word) : State :=
  let s := s.strobe src true pa w
  if s.memPresent pa then
    { s with
      mem := s.mem.writeWord pa w
      ecc := s.ecc.write pa.toNat ((checkBits (s.eccForced w) ^^^ checkBits w).zeroExtend 8) }
  else s.outOfRange src pa

/-! ### Other agents on the bus (`spec/20_memory.md` R180, R182; `spec/61_io_devices.md` R766) -/

/-- A word has been transferred: address and count move on, and the last word ends the transfer (R766); a count that begins at
0 takes 65536 words (log 17). -/
def DmaController.moved (d : DmaController) : DmaController :=
  let d := { d with mar := d.mar + 1, wc := d.wc - 1 }
  if d.wc = 0 then
    { d with ready := true, control := setBit d.control 2 false, ff := d.ff || d.control.getLsbD 0 }
  else d

/-- The operation in bits 12 and 11 of a DMA control word, bit 12 the left digit (R765; log 17). -/
def DmaController.operation (d : DmaController) : BitVec 2 := d.control.extractLsb' 11 2

/-- A DMA transfer of one word, where the controller is active with such an operation: 00 moves the given word into memory,
01 and 11 take one out of it, and 10, read parity, moves none (R765, R766; log 17); physical addresses, past the cache. -/
def State.dmaTransfer (s : State) (d : DmaController) (word : Option Word) : DmaController × State :=
  if !d.control.getLsbD 2 then (d, s)
  else
    match word with
    | some w => if d.operation = 0 then (d.moved, s.physWrite .dma d.mar w) else (d, s)
    | none => if d.operation = 1 ∨ d.operation = 3 then (d.moved, (s.physRead .dma d.mar).2) else (d, s)

/-- Replace an element of the list of interfaces. -/
def setDevice (n : Nat) (d : Device) : List Device → List Device
  | [] => []
  | x :: r => match n with | 0 => d :: r | n + 1 => x :: setDevice n d r

/-- The DMA controller among the interfaces with this number transfers a word. -/
def State.dmaCycle (s : State) (n : Nat) (word : Option Word) : State :=
  match s.devices[n]? with
  | some (.dma d) =>
    let (d, s) := s.dmaTransfer d word
    { s with devices := setDevice n (.dma d) s.devices }
  | _ => s

/-- A bus cycle of another agent than the CPU; none of them looks into the cache (R180, R183). -/
def State.busCycle (s : State) (c : BusCycle) : State :=
  match c with
  | .dmaIn n w => s.dmaCycle n (some w)
  | .dmaOut n => s.dmaCycle n none
  | .foreignWrite pa w => s.physWrite .dma pa w
  | .foreignRead pa => (s.physRead .dma pa).2

/-- Some bus cycles of other agents, one after another. -/
def State.busCycles (s : State) : List BusCycle → State
  | [] => s
  | c :: r => (s.busCycle c).busCycles r

/-- The bus before an access of the CPU: the cycles that other agents get first (R180, R182; log 18). -/
def State.yieldBus (s : State) : State :=
  match s.steals with
  | [] => s
  | cs :: r => { s with steals := r }.busCycles cs

/-! ### The cache (`spec/20_memory.md` R155 to R162) -/

/-- Whether the cache is in use (R159). -/
def State.cacheEnabled (s : State) : Bool := s.cfg.hasMms && s.cfg.hasCache && !s.cacheClearing

/-- The cache entry for an address (R155). -/
def cacheIndex (pa : PhysAddr) : BitVec 10 := pa.extractLsb' 0 10

/-- The physical page number of an address (R138). -/
def pageOf (pa : PhysAddr) : BitVec 14 := pa.extractLsb' 10 14

/-- The cached word of an address (R156). -/
def State.cacheHit (s : State) (pa : PhysAddr) : Option Word :=
  match s.cache.find? (fun e => e.index == cacheIndex pa) with
  | some e => if e.cpn = pageOf pa then some e.data else none
  | none => none

/-- Whether a page is excluded from the cache (R161). -/
def State.cacheInhibited (s : State) (ppn : BitVec 14) : Bool := s.lcil ≤ ppn && ppn ≤ s.ucil

/-- Take the entry of an index out of the cache. -/
def dropLine (i : BitVec 10) : List CacheLine → List CacheLine
  | [] => []
  | e :: r => if e.index = i then dropLine i r else e :: dropLine i r

/-- Put an entry in its place. -/
def insertLine (n : CacheLine) : List CacheLine → List CacheLine
  | [] => [n]
  | e :: r => if n.index < e.index then n :: e :: r else e :: insertLine n r

/-- Fill the entry of an address unless its page is inhibited (R156, R157, R161). -/
def State.cacheFill (s : State) (pa : PhysAddr) (w : Word) : State :=
  if s.cacheInhibited (pageOf pa) then s
  else
    { s with
      cache := insertLine { index := cacheIndex pa, data := w, cpn := pageOf pa } (dropLine (cacheIndex pa) s.cache) }

/-- A CPU read through the cache (R156), after the bus cycles of other agents that come before it. -/
def State.busRead (s : State) (src : MemSource) (pa : PhysAddr) : Word × State :=
  let s := s.yieldBus
  if s.cacheEnabled then
    match s.cacheHit pa with
    | some w => (w, s)
    | none =>
      let (w, s) := s.physRead src pa
      (w, s.cacheFill pa w)
  else s.physRead src pa

/-- A word that the CPU stores: to memory, and into the cache when it is enabled (R157); where no module answers it has no
effect but MOR (R140, `spec/60_exceptions.md` R675; log 49). -/
def State.storeThrough (s : State) (src : MemSource) (pa : PhysAddr) (w : Word) : State :=
  let s' := s.physWrite src pa w
  if s.cacheEnabled && s.memPresent pa then s'.cacheFill pa w else s'

/-- A CPU write, after the bus cycles of other agents that come before it (R157, R182). -/
def State.busWrite (s : State) (src : MemSource) (pa : PhysAddr) (w : Word) : State :=
  s.yieldBus.storeThrough src pa w

/-- Clear the cache; it stays disabled until a host event says that the 60 microseconds are over (R160; log 14). -/
def State.cacheClear (s : State) : State := { s with cache := [], cacheClearing := true }

/-! ### Translation and protection (`spec/20_memory.md` R120 to R138) -/

/-- The kind of an access (R130). -/
inductive Kind where
  | fetch | rop | raddr | sto
deriving DecidableEq, Repr

/-- P relative or not (R123). -/
inductive Rel where
  | prel | nonprel
deriving DecidableEq, Repr

/-- An access succeeds with a value, or aborts the instruction with the interrupt recorded (R672). -/
inductive Access (α : Type) where
  | done (v : α) (s : State)
  | aborted (s : State)

/-- Go on with the value of an access. -/
def Access.bind {α β : Type} (x : Access α) (f : α → State → Access β) : Access β :=
  match x with
  | .done v s => f v s
  | .aborted s => .aborted s

/-- End an instruction with the value of its accesses; an instruction that aborts in a data cycle leaves P at the next
word (R676). -/
def Access.complete {α : Type} (x : Access α) (k : α → State → Result) : Result :=
  match x with
  | .done v s => k v s
  | .aborted s => .next s.advance

/-- Whether an address lies in the shadow range (R124, R125, R126). -/
def State.inShadow (s : State) (va : Word) : Bool := if s.sexi then 0o177000 ≤ va else 0o177400 ≤ va

/-- Whether an access goes to the page tables (R126). -/
def State.shadowReached (s : State) (va : Word) : Bool :=
  s.cfg.hasMms && s.inShadow va && (!s.poni || s.ring == 3)

/-- Entry `64 t + v` of the protect halves (R120). -/
def State.protAt (s : State) (e : BitVec 8) : Word := s.prot[e.toNat]'e.isLt

/-- Entry `64 t + v` of the map halves (R120). -/
def State.mapAt (s : State) (e : BitVec 8) : Word := s.map[e.toNat]'e.isLt

/-- Write an entry of the protect halves. -/
def State.setProt (s : State) (e : BitVec 8) (w : Word) : State :=
  { s with prot := s.prot.set e.toNat w e.isLt }

/-- Write an entry of the map halves. -/
def State.setMap (s : State) (e : BitVec 8) (w : Word) : State :=
  { s with map := s.map.set e.toNat w e.isLt }

/-- Read the page tables: an entry's word in normal mode (R127), one of its two words in extended mode (R128). -/
def State.shadowRead (s : State) (va : Word) : Word :=
  if s.sexi then
    let e := va.extractLsb' 1 8
    if va.getLsbD 0 then s.mapAt e else s.protAt e
  else
    let e := va.extractLsb' 0 8
    (s.protAt e).extractLsb' 9 7 ++ (s.mapAt e).extractLsb' 0 9

/-- Write the page tables (R127, R128); in normal mode the bits that the word does not show stay. -/
def State.shadowWrite (s : State) (va : Word) (w : Word) : State :=
  if s.sexi then
    let e := va.extractLsb' 1 8
    if va.getLsbD 0 then s.setMap e w else s.setProt e w
  else
    let e := va.extractLsb' 0 8
    (s.setProt e (w.extractLsb' 9 7 ++ (s.protAt e).extractLsb' 0 9)).setMap e
      ((s.mapAt e).extractLsb' 9 7 ++ w.extractLsb' 0 9)

/-- The page table of an access (R123). -/
def State.tableFor (s : State) (rel : Rel) : BitVec 2 :=
  if s.flag .ptm && rel == .nonprel then s.curPcr.apt else s.curPcr.pt

/-- The page table entry of an access. -/
def State.entryFor (s : State) (rel : Rel) (va : Word) : BitVec 8 := s.tableFor rel ++ va.extractLsb' 10 6

/-- WPM of a protect half (R121). -/
def wpm (p : Word) : Bool := p.getLsbD 15
/-- RPM of a protect half (R121). -/
def rpm (p : Word) : Bool := p.getLsbD 14
/-- FPM of a protect half (R121). -/
def fpm (p : Word) : Bool := p.getLsbD 13
/-- RING of a protect half (R121). -/
def ringOf (p : Word) : BitVec 2 := p.extractLsb' 9 2

/-- Why a page refuses an access (R131 to R133). -/
inductive PageRefusal where
  | pageFault | permit | ring
deriving DecidableEq, Repr

/-- The permit bit for a kind of access (R132). -/
def permitted (kind : Kind) (p : Word) : Bool :=
  match kind with
  | .fetch => fpm p
  | .rop => rpm p
  | .raddr => fpm p || rpm p
  | .sto => wpm p

/-- The checks of an access in their order: page fault, permit, ring, as R130, R133 and R134 have it; D15 and N19 print ring before
permit (log 51). -/
def pageCheck (kind : Kind) (p : Word) (userRing : BitVec 2) : Option PageRefusal :=
  if !wpm p && !rpm p && !fpm p then some .pageFault
  else if !permitted kind p then some .permit
  else if userRing < ringOf p then some .ring
  else none

/-- The paging status of a refused access (R137). -/
def pagingStatus (kind : Kind) (r : PageRefusal) (e : BitVec 8) : Word :=
  BitVec.ofBool (kind == .fetch) ++ BitVec.ofBool (r == .permit) ++ (0 : BitVec 6) ++ e

/-- Record a refused access in PSR, unless it is locked, and raise its interrupt (R130, R137). -/
def State.refuseAccess (s : State) (kind : Kind) (r : PageRefusal) (e : BitVec 8) : State :=
  let s' := if s.psrLock then s else { s with psr := pagingStatus kind r e, psrLock := true }
  s'.raise (if r == .pageFault then .pf else .mpv)

/-- Ring degradation by the fetch of code of a lower ring (R135). -/
def State.degrade (s : State) (kind : Kind) (p : Word) : State :=
  if kind == .fetch && ringOf p < s.ring then s.setPcr s.pil { s.curPcr with ring := ringOf p } else s

/-- PGU is set by every access, WIP by a write (R136). -/
def markUsed (kind : Kind) (p : Word) : Word :=
  let p := setBit p 11 true
  if kind == .sto then setBit p 12 true else p

/-- An access through an entry `e` with the protect half `p` has passed: PGU and WIP (R136), and the entry is noted where the
instruction is looked at (`spec/70_reset_and_hazards.md` R860; log 10). -/
def State.usePage (s : State) (kind : Kind) (e : BitVec 8) (p : Word) : State :=
  { s.setProt e (markUsed kind p) with watch := s.watch.map ((e, kind == .sto) :: ·) }

/-- The physical page of an entry: nine bits in normal mode (R122, R138). -/
def State.pageNumber (s : State) (e : BitVec 8) : BitVec 14 :=
  if s.sexi then (s.mapAt e).extractLsb' 0 14 else ((s.mapAt e).extractLsb' 0 9).zeroExtend 14

/-- Steps 3 to 8 of R130: the physical address of an access that does not go to the page tables. -/
def State.translate (s : State) (kind : Kind) (rel : Rel) (va : Word) : Access PhysAddr :=
  if s.cfg.hasMms && s.poni then
    let e := s.entryFor rel va
    let p := s.protAt e
    match pageCheck kind p s.ring with
    | some r => .aborted (s.refuseAccess kind r e)
    | none => .done (s.pageNumber e ++ va.extractLsb' 0 10) ((s.degrade kind p).usePage kind e p)
  else .done (va.zeroExtend 24) s

/-- The source of a reference by its kind (R174). -/
def Kind.source : Kind → MemSource
  | .fetch => .fetch
  | _ => .data

/-- `MemRead` (R130). -/
def State.memRead (s : State) (kind : Kind) (rel : Rel) (va : Word) : Access Word :=
  if s.shadowReached va then .done (s.shadowRead va) s
  else
    (s.translate kind rel va).bind fun pa s =>
      let (w, s) := s.busRead kind.source pa
      .done w s

/-- `MemWrite` (R130). -/
def State.memWrite (s : State) (rel : Rel) (va : Word) (w : Word) : Access Unit :=
  if s.shadowReached va then .done () (s.shadowWrite va w)
  else (s.translate .sto rel va).bind fun pa s => .done () (s.busWrite .data pa w)

/-- The effect of the prefetch of the word after the current instruction: PGU of its page, if it would pass (R880). -/
def State.prefetch (s : State) : State :=
  let va := s.p + 1
  if s.cfg.hasMms && s.poni && !s.shadowReached va then
    let e := s.entryFor .prel va
    let p := s.protAt e
    match pageCheck .fetch p s.ring with
    | some _ => s
    | none => s.usePage .fetch e p
  else s

/-! ### STOP and OPCOM (`spec/62_operator.md` R800, R802) -/

/-- MOPC takes the console over; where it was not active its prompt is due (R802, R804). -/
def State.enterOpcom (s : State) : State :=
  { s with
    opcomActive := true
    mopc := { s.mopc with lineStart := s.mopc.lineStart || !s.opcomActive } }

/-- The machine enters STOP: MOPC is active, no semi-RUN goes on, and a new line begins (R800, R804, R812). -/
def State.enterStop (s : State) : State :=
  { s with
    runState := .stop, opcomActive := true
    mopc := { s.mopc with semi := .none, lineStart := true } }

/-! ### Privilege (`spec/60_exceptions.md` R700) -/

/-- Whether a privileged instruction may be executed: without paging, on rings 2 and 3, or as the operator's manual
instruction (R700, R822). -/
def State.mayRunPrivileged (s : State) : Bool :=
  !s.cfg.hasMms || !s.poni || s.ring ≥ 2 ||
    match s.mopc.semi with
    | .manual _ => true
    | _ => false

/-- A privileged instruction: its effect where allowed, else PI and the next word (R700). -/
def State.privileged (s : State) (effect : Result) : Result :=
  if s.mayRunPrivileged then effect else .next (s.raise .pi).advance

/-- An instruction that is not implemented: II, and P at the next word (R672, R676, R684). -/
def State.illegal (s : State) : Result := .next (s.raise .ii).advance

end Sys2Proof.Machine
end

