-- ==== Sys2Proof/Machine/Operands.lean ====
section
/-! DEFINITION. The operand forms: the effective location of the memory reference instructions
(`spec/40_memory_reference.md` R250, R251), register sources and destinations (`spec/45_register_ops.md`). -/

namespace Sys2Proof.Machine

/-- The effective location and whether accesses to it are P relative (R251): pre-indexing by B, one level of indirection,
post-indexing by X. -/
def State.effLoc (s : State) (m : MemRef) : Access (Word × Rel) :=
  let disp := sext8 m.disp
  let index := if m.x then s.x else 0
  let base := if m.b then s.b else s.p
  if m.i then
    (s.memRead .raddr (if m.b then .nonprel else .prel) (base + disp)).bind fun iw s => .done (iw + index, .nonprel) s
  else if !m.b && m.x then .done (s.x + disp, .nonprel) s
  else .done (base + disp + index, if m.b || m.x then .nonprel else .prel) s

/-- The operand word at the effective location (R251, kind ROP). -/
def State.readOperand (s : State) (m : MemRef) : Access Word :=
  (s.effLoc m).bind fun (el, rel) s => s.memRead .rop rel el

/-- Store a word at the effective location; the indirect word is read first (R251, kind STO). -/
def State.writeOperand (s : State) (m : MemRef) (w : Word) : Access Unit :=
  (s.effLoc m).bind fun (el, rel) s => s.memWrite rel el w

/-- Two consecutive words, the address wrapping (`spec/20_memory.md` R106). -/
def State.readDouble (s : State) (kind : Kind) (rel : Rel) (va : Word) : Access (Word × Word) :=
  (s.memRead kind rel va).bind fun w0 s => (s.memRead kind rel (va + 1)).bind fun w1 s => .done (w0, w1) s

/-- Store two consecutive words in ascending order (R106, R257). -/
def State.writeDouble (s : State) (rel : Rel) (va : Word) (w0 w1 : Word) : Access Unit :=
  (s.memWrite rel va w0).bind fun _ s => s.memWrite rel (va + 1) w1

/-- Three consecutive words (R106). -/
def State.readTriple (s : State) (kind : Kind) (rel : Rel) (va : Word) : Access (Word × Word × Word) :=
  (s.memRead kind rel va).bind fun w0 s =>
    (s.memRead kind rel (va + 1)).bind fun w1 s => (s.memRead kind rel (va + 2)).bind fun w2 s => .done (w0, w1, w2) s

/-- Store three consecutive words in ascending order (R106). -/
def State.writeTriple (s : State) (rel : Rel) (va : Word) (w0 w1 w2 : Word) : Access Unit :=
  (s.memWrite rel va w0).bind fun _ s =>
    (s.memWrite rel (va + 1) w1).bind fun _ s => s.memWrite rel (va + 2) w2

/-- A register as an operand of a register instruction: number 0 is the constant zero, P reads as the address of the
next word (`spec/45_register_ops.md` R391, R394). -/
def State.regValue (s : State) : RField → Word
  | .zero => 0
  | .p => s.p + 1
  | n => s.cur.get n

/-- Write a register without ending the instruction; number 0 discards the value (R392). -/
def State.putReg (s : State) (n : RField) (v : Word) : State :=
  match n with
  | .zero => s
  | n => s.setCur (s.cur.put n v)

/-- Write the destination and end the instruction: a write to P is a jump (R392). -/
def State.endReg (s : State) (n : RField) (v : Word) : State :=
  match n with
  | .p => s.setP v
  | n => (s.putReg n v).advance

end Sys2Proof.Machine
end

