-- ==== Sys2Proof/Machine/Argument.lean ====
section
/-! DEFINITION. Argument instructions (`spec/47_argument.md`). -/

namespace Sys2Proof.Machine

/-- SAB (R446, R448). -/
def execSab (arg : BitVec 8) (s : State) : Result := .next (s.setB (sext8 arg)).advance
/-- SAA (R446, R449). -/
def execSaa (arg : BitVec 8) (s : State) : Result := .next (s.setA (sext8 arg)).advance
/-- SAT (R446, R450). -/
def execSat (arg : BitVec 8) (s : State) : Result := .next (s.setT (sext8 arg)).advance
/-- SAX (R446, R451). -/
def execSax (arg : BitVec 8) (s : State) : Result := .next (s.setX (sext8 arg)).advance

/-- Add an argument to a register and set the flags as for ADD (R447). -/
def addArgument (n : RField) (arg : BitVec 8) (s : State) : Result :=
  let r := add16 (s.regValue n) (sext8 arg) false
  .next ((s.putReg n r.r).setAddFlags r).advance

/-- AAB (R452). -/
def execAab (arg : BitVec 8) (s : State) : Result := addArgument .b arg s
/-- AAA (R453). -/
def execAaa (arg : BitVec 8) (s : State) : Result := addArgument .a arg s
/-- AAT (R454). -/
def execAat (arg : BitVec 8) (s : State) : Result := addArgument .t arg s
/-- AAX (R455). -/
def execAax (arg : BitVec 8) (s : State) : Result := addArgument .x arg s

end Sys2Proof.Machine
end

