-- ==== Sys2Proof/Machine/Bits.lean ====
section
/-! DEFINITION. Bit operation instructions (`spec/48_bit.md`). -/

namespace Sys2Proof.Machine

/-- `getbit` (R460): of register 0 the eight flags, of P the address of the next word; bits 15-8 of STS read as 0. -/
def State.getBit (s : State) (bn : BitVec 4) (dr : RField) : Bool :=
  match dr with
  | .zero => s.sts.getLsbD bn.toNat
  | n => (s.regValue n).getLsbD bn.toNat

/-- `putbit` and the end of the instruction (R460): bits 15-8 of STS discard the write, a write to P is a jump. -/
def State.putBit (s : State) (bn : BitVec 4) (dr : RField) (v : Bool) : State :=
  match dr with
  | .zero => if bn.toNat < 8 then s.setSts (setBit s.sts bn.toNat v) else s
  | n => s.putReg n (setBit (s.regValue n) bn.toNat v)

/-- End of an instruction that wrote a bit of `dr`: the default increment unless P was written (R460). -/
def State.endBit (s : State) (dr : RField) : State := if dr = .p then s else s.advance

/-- BSET: the bit becomes `v` (R461 to R464). -/
def bitSet (v : Bool) (bn : BitVec 4) (dr : RField) (s : State) : Result := .next ((s.putBit bn dr v).endBit dr)

/-- BSET ZRO (R461). -/
def execBsetZro (bn : BitVec 4) (dr : RField) (s : State) : Result := bitSet false bn dr s
/-- BSET ONE (R462). -/
def execBsetOne (bn : BitVec 4) (dr : RField) (s : State) : Result := bitSet true bn dr s
/-- BSET BCM (R463). -/
def execBsetBcm (bn : BitVec 4) (dr : RField) (s : State) : Result := bitSet (!s.getBit bn dr) bn dr s
/-- BSET BAC (R464). -/
def execBsetBac (bn : BitVec 4) (dr : RField) (s : State) : Result := bitSet (s.flag .k) bn dr s

/-- BSKP ZRO (R465). -/
def execBskpZro (bn : BitVec 4) (dr : RField) (s : State) : Result := .next (s.skipIf (!s.getBit bn dr))
/-- BSKP ONE (R466). -/
def execBskpOne (bn : BitVec 4) (dr : RField) (s : State) : Result := .next (s.skipIf (s.getBit bn dr))
/-- BSKP BCM (R467). -/
def execBskpBcm (bn : BitVec 4) (dr : RField) (s : State) : Result :=
  .next (s.skipIf (s.getBit bn dr != s.flag .k))
/-- BSKP BAC (R468). -/
def execBskpBac (bn : BitVec 4) (dr : RField) (s : State) : Result :=
  .next (s.skipIf (s.getBit bn dr == s.flag .k))

/-- Store a bit, then give K a value (R469, R470, R477). -/
def bitStore (v k : Bool) (bn : BitVec 4) (dr : RField) (s : State) : Result :=
  .next (((s.putBit bn dr v).setFlag .k k).endBit dr)

/-- BSTC (R469). -/
def execBstc (bn : BitVec 4) (dr : RField) (s : State) : Result := bitStore (!s.flag .k) true bn dr s
/-- BSTA (R470). -/
def execBsta (bn : BitVec 4) (dr : RField) (s : State) : Result := bitStore (s.flag .k) false bn dr s

/-- Give K a value (R471 to R476). -/
def bitLoad (k : Bool) (s : State) : Result := .next (s.setFlag .k k).advance

/-- BLDC (R471). -/
def execBldc (bn : BitVec 4) (dr : RField) (s : State) : Result := bitLoad (!s.getBit bn dr) s
/-- BLDA (R472). -/
def execBlda (bn : BitVec 4) (dr : RField) (s : State) : Result := bitLoad (s.getBit bn dr) s
/-- BANC (R473). -/
def execBanc (bn : BitVec 4) (dr : RField) (s : State) : Result := bitLoad (!s.getBit bn dr && s.flag .k) s
/-- BAND (R474). -/
def execBand (bn : BitVec 4) (dr : RField) (s : State) : Result := bitLoad (s.getBit bn dr && s.flag .k) s
/-- BORC (R475). -/
def execBorc (bn : BitVec 4) (dr : RField) (s : State) : Result := bitLoad (!s.getBit bn dr || s.flag .k) s
/-- BORA (R476). -/
def execBora (bn : BitVec 4) (dr : RField) (s : State) : Result := bitLoad (s.getBit bn dr || s.flag .k) s

end Sys2Proof.Machine
end

