-- ==== Sys2Proof/Machine/Bytes.lean ====
section
/-! DEFINITION. Byte instructions (`spec/42_byte.md`): byte addresses, LBYT, SBYT, BFILL, MOVB, MOVBF. -/

namespace Sys2Proof.Machine

/-- A byte address: a word address and the half, `right` for bits 7-0 (R320). -/
structure ByteAddr where
  word : Word
  right : Bool
deriving DecidableEq, Repr

/-- The byte after a byte (R320). -/
def ByteAddr.next (a : ByteAddr) : ByteAddr :=
  if a.right then { word := a.word + 1, right := false } else { a with right := true }

/-- The byte `n` bytes further on (R328). -/
def ByteAddr.plus (a : ByteAddr) (n : Nat) : ByteAddr :=
  let k := a.right.toNat + n
  { word := a.word + Word.ofNat (k / 2), right := k % 2 == 1 }

/-- One half of a word (R320). -/
def halfOf (w : Word) (right : Bool) : Byte := if right then w.extractLsb' 0 8 else w.extractLsb' 8 8

/-- A word with one half replaced (R320). -/
def withHalf (w : Word) (right : Bool) (b : Byte) : Word :=
  if right then w.extractLsb' 8 8 ++ b else b ++ w.extractLsb' 0 8

/-- `LoadByte` (R320). -/
def State.loadByte (s : State) (rel : Rel) (a : ByteAddr) : Access Byte :=
  (s.memRead .rop rel a.word).bind fun w s => .done (halfOf w a.right) s

/-- `StoreByte` (R320): a read and a write of the whole word. -/
def State.storeByte (s : State) (rel : Rel) (a : ByteAddr) (b : Byte) : Access Unit :=
  (s.memRead .rop rel a.word).bind fun w s => s.memWrite rel a.word (withHalf w a.right b)

/-- The byte that LBYT and SBYT address with T and X (R321). -/
def State.stringByte (s : State) : ByteAddr :=
  { word := s.t + s.x.ushiftRight 1, right := s.x.getLsbD 0 }

/-- LBYT (R322). -/
def execLbyt (s : State) : Result :=
  (s.loadByte .nonprel s.stringByte).complete fun b s => .next (s.setA (b.zeroExtend 16)).advance

/-- SBYT (R323). -/
def execSbyt (s : State) : Result :=
  (s.storeByte .nonprel s.stringByte (s.a.setWidth 8)).complete fun _ s => .next s.advance

/-- The half bit of a descriptor's second word (R324). -/
def descRight (d2 : Word) : Bool := d2.getLsbD 15

/-- How the operand of a descriptor is accessed (R325). -/
def descRel (d2 : Word) : Rel := if d2.getLsbD 14 then .nonprel else .prel

/-- The field length of a descriptor in bytes (R324). -/
def descLength (d2 : Word) : BitVec 12 := d2.extractLsb' 0 12

/-- The start of a descriptor's field (R324). -/
def descAddr (d1 d2 : Word) : ByteAddr := { word := d1, right := descRight d2 }

/-- A descriptor's second word with half, length and bits 14-12 given. -/
def descWord (right : Bool) (mid : BitVec 3) (length : BitVec 12) : Word := BitVec.ofBool right ++ mid ++ length

/-- The destination descriptor moved to an address and a length, bits 14-12 of T as given (R324). -/
def State.setDest (s : State) (a : ByteAddr) (mid : BitVec 3) (length : BitVec 12) : State :=
  (s.setX a.word).setT (descWord a.right mid length)

/-- The source descriptor moved to an address and a length, bits 14-12 of D as given (R324). -/
def State.setSource (s : State) (a : ByteAddr) (mid : BitVec 3) (length : BitVec 12) : State :=
  (s.setA a.word).setD (descWord a.right mid length)

/-- Bits 14-12 of a descriptor's second word. -/
def descMid (d2 : Word) : BitVec 3 := d2.extractLsb' 12 3

/-- The loop of BFILL, `n` bytes still to fill: its progress is kept in X and T (R327). -/
def fillBytes : Nat → State → Access Unit
  | 0, s => .done () s
  | n + 1, s =>
    (s.storeByte (descRel s.t) (descAddr s.x s.t) (s.a.setWidth 8)).bind fun _ s =>
      fillBytes n (s.setDest (descAddr s.x s.t).next (descMid s.t) (descLength s.t - 1))

/-- BFILL (R327): always a skip return. -/
def execBfill (s : State) : Result :=
  (fillBytes (descLength s.t).toNat s).complete fun _ s => .next s.skip

/-- Read `n` bytes in ascending order. -/
def readBytes (rel : Rel) : Nat → ByteAddr → State → Access (List Byte)
  | 0, _, s => .done [] s
  | n + 1, a, s =>
    (s.loadByte rel a).bind fun b s => (readBytes rel n a.next s).bind fun r s => .done (b :: r) s

/-- Store bytes in ascending order. -/
def writeBytes (rel : Rel) : List Byte → ByteAddr → State → Access Unit
  | [], _, s => .done () s
  | b :: r, a, s => (s.storeByte rel a b).bind fun _ s => writeBytes rel r a.next s

/-- The shorter of two field lengths (R328). -/
def shorter (d2 t2 : Word) : BitVec 12 := if descLength d2 ≤ descLength t2 then descLength d2 else descLength t2

/-- The number of bytes that MOVB and MOVBF move (R328). -/
def State.moveLength (s : State) : BitVec 12 := shorter s.d s.t

/-- The number of a byte address: twice the word plus the half (R329). -/
def ByteAddr.number (a : ByteAddr) : Nat := 2 * a.word.toNat + a.right.toNat

/-- The registers that let a MOVB begun in `s` be executed again as it was: the same two fields, of which the shorter has the
same length, and the bits that MOVB leaves alone (R328, U3; log 11). -/
def State.resumesMove (s : State) (a d x t : Word) : Bool :=
  descAddr a d == descAddr s.a s.d && descAddr x t == descAddr s.x s.t && shorter d t == s.moveLength &&
    descMid d &&& 0b110 == descMid s.d &&& 0b110 && descMid t &&& 0b100 == descMid s.t &&& 0b100

/-- The registers after a MOVB that a page fault or protect violation abandons: any with which it completes the move when it
is executed again (R328, U3; log 11). -/
def State.abandonMove (now s : State) : State :=
  let (a, t') := now.drawWord
  let (d, t') := t'.drawWord
  let (x, t') := t'.drawWord
  let (t, t') := t'.drawWord
  if s.resumesMove a d x t then (((t'.setA a).setD d).setX x).setT t else t'

/-- The state that the first refused store of a list leaves, each tried from the same state. -/
def firstRefusal (rel : Rel) (s : State) : List Byte → ByteAddr → Option State
  | [], _ => none
  | b :: r, a =>
    match s.storeByte rel a b with
    | .aborted t => some t
    | .done _ _ => firstRefusal rel s r a.next

/-- Whether bytes that have been read from an address on still stand there. -/
def State.stillReads (s : State) (rel : Rel) (a : ByteAddr) (bytes : List Byte) : Bool :=
  match readBytes rel bytes.length a { s with steals := [] } with
  | .done now _ => now == bytes
  | .aborted _ => false

/-- The stores of MOVB in ascending order. Where a refused one would leave a source that no longer reads as it did, since the
stores before it, another agent or absent memory have changed it, it comes before them, so that the move can be executed again
(R328, U3). Where no store is refused before these, since they have rewritten the page tables themselves, the stores made are
kept (log 11). -/
def State.storeMoved (s : State) (src dst : ByteAddr) (bytes : List Byte) : Access Unit :=
  match writeBytes (descRel s.t) bytes dst s with
  | .aborted now =>
    if now.stillReads (descRel s.d) src bytes then .aborted now
    else .aborted ((firstRefusal (descRel s.t) s bytes dst).getD now)
  | done => done

/-- MOVB (R328): all bytes are read before the first is stored. -/
def execMovb (s : State) : Result :=
  let n := s.moveLength
  let src := descAddr s.a s.d
  let dst := descAddr s.x s.t
  match (readBytes (descRel s.d) n.toNat src s).bind fun bytes s' => s'.storeMoved src dst bytes with
  | .aborted now => .next (now.abandonMove s).advance
  | .done _ t =>
    let t := t.setSource (src.plus n.toNat) (descMid s.d &&& 0b110) 0
    .next (t.setDest (dst.plus n.toNat) (descMid s.t &&& 0b100) n).skip

/-- Forbidden overlap of `n` bytes: the destination begins inside the source, behind its first byte (R329). -/
def forbiddenOverlap (src dst : ByteAddr) (n : Nat) : Bool :=
  decide (0 < n ∧ src.number < dst.number ∧ dst.number < src.number + n)

/-- The loop of MOVBF, `n` bytes still to move: its progress is kept in A, D, X and T (R329). -/
def moveForward : Nat → State → Access Unit
  | 0, s => .done () s
  | n + 1, s =>
    (s.loadByte (descRel s.d) (descAddr s.a s.d)).bind fun b s =>
      (s.storeByte (descRel s.t) (descAddr s.x s.t) b).bind fun _ s =>
        moveForward n
          ((s.setSource (descAddr s.a s.d).next (descMid s.d) (descLength s.d - 1)).setDest
            (descAddr s.x s.t).next (descMid s.t) (descLength s.t - 1))

/-- MOVBF (R329): a forbidden overlap returns without skip and moves nothing. -/
def execMovbf (s : State) : Result :=
  let n := s.moveLength.toNat
  if forbiddenOverlap (descAddr s.a s.d) (descAddr s.x s.t) n then .next s.advance
  else
    (moveForward n s).complete fun _ s =>
      .next
        ((s.setSource (descAddr s.a s.d) (descMid s.d &&& 0b110) (descLength s.d)).setDest (descAddr s.x s.t)
          (descMid s.t &&& 0b100) (descLength s.t)).skip

end Sys2Proof.Machine
end

