-- ==== Sys2Proof/Machine/Decimal.lean ====
section
/-! DEFINITION. Decimal instructions of the CX option (`spec/52_ce_decimal.md`). -/

namespace Sys2Proof.Machine

/-- A decimal operand as read: its sign and its digits, the most significant first (R583). -/
structure DecimalValue where
  neg : Bool
  digits : List Nat
deriving DecidableEq, Repr

/-- The magnitude of a list of digits. -/
def magnitude (digits : List Nat) : Nat := digits.foldl (fun v d => 10 * v + d) 0

/-- The signed value of an operand (R583). -/
def DecimalValue.toInt (v : DecimalValue) : Int :=
  if v.neg then -(magnitude v.digits : Int) else magnitude v.digits

/-- Whether a digit has none of the codes 0 to 9 (R580). -/
def DecimalValue.illegal (v : DecimalValue) : Bool := v.digits.any (fun d => 9 < d)

/-- The last `n` decimal digits of a number, the most significant first. -/
def lowDigits : Nat → Nat → List Nat
  | 0, _ => []
  | n + 1, v => lowDigits n (v / 10) ++ [v % 10]

/-- The field length of a decimal descriptor (R582). -/
def decLength (d2 : Word) : Nat := (d2.extractLsb' 0 5).toNat

/-- The position of the decimal point of a descriptor (R582). -/
def decPoint (d2 : Word) : Nat := (d2.extractLsb' 5 5).toNat

/-- Bit 13 of a descriptor: an unsigned field (R582). -/
def decUnsigned (d2 : Word) : Bool := d2.getLsbD 13

/-- How many bytes a packed field occupies (R583). -/
def packedBytes (d2 : Word) : Nat := (decLength d2 + 1) / 2

/-- How many digits a packed field has (R583). -/
def packedDigits (d2 : Word) : Nat := decLength d2 - 1

/-- The two halves of a byte. -/
def nibbles (b : Byte) : List Nat := [b.toNat / 16, b.toNat % 16]

/-- The sign of a packed field by its code: minus when bit 0 is 1, but for 1111 (R583). -/
def packedNegative (code : Nat) : Bool := code % 2 == 1 && code != 15

/-- The value that the bytes of a packed field hold (R583). -/
def packedValue (length : Nat) (bytes : List Byte) : DecimalValue :=
  let ns := bytes.flatMap nibbles
  let field := ns.drop (ns.length - length)
  { neg := packedNegative (field.getLastD 0), digits := field.dropLast }

/-- Read a packed operand; an empty one is plus zero and no memory is read (R583). -/
def State.readPacked (s : State) (d1 d2 : Word) : Access DecimalValue :=
  (readBytes .nonprel (packedBytes d2) (descAddr d1 d2) s).bind fun bytes s =>
    .done (packedValue (decLength d2) bytes) s

/-- Replace a byte by a function of itself: a read and a write of its word (`spec/42_byte.md` R320). -/
def State.updateByte (s : State) (rel : Rel) (a : ByteAddr) (f : Byte → Byte) : Access Unit :=
  (s.memRead .rop rel a.word).bind fun w s =>
    s.memWrite rel a.word (withHalf w a.right (f (halfOf w a.right)))

/-- Write nibbles into consecutive bytes; of an odd number the first goes into the lower half of the first byte, whose
upper half is kept (R583). -/
def writeNibbles : Bool → List Nat → ByteAddr → State → Access Unit
  | _, [], _, s => .done () s
  | true, n :: r, a, s =>
    (s.updateByte .nonprel a fun b => BitVec.ofNat 8 (b.toNat / 16 * 16 + n)).bind fun _ s =>
      writeNibbles false r a.next s
  | false, [n], a, s => s.updateByte .nonprel a fun b => BitVec.ofNat 8 (n * 16 + b.toNat % 16)
  | false, m :: n :: r, a, s =>
    (s.storeByte .nonprel a (BitVec.ofNat 8 (m * 16 + n))).bind fun _ s => writeNibbles false r a.next s

/-- Write the nibbles of a whole field in ascending order of address (R583, R584). -/
def State.writeField (s : State) (d1 d2 : Word) (ns : List Nat) : Access Unit :=
  writeNibbles (ns.length % 2 == 1) ns (descAddr d1 d2) s

/-- The sign code that the instructions write (R583). -/
def signCode (d2 : Word) (neg : Bool) : Nat := if decUnsigned d2 then 15 else if neg then 13 else 12

/-- Write a packed operand: the low-order digits that the field holds, and the sign; an empty field takes nothing
(R583). -/
def State.writePacked (s : State) (d1 d2 : Word) (neg : Bool) (mag : Nat) : Access Unit :=
  if decLength d2 = 0 then .done () s
  else s.writeField d1 d2 (lowDigits (packedDigits d2) mag ++ [signCode d2 neg])

/-- Draw arbitrary nibbles (R583; log 6). -/
def drawNibbles : Nat → State → List Nat × State
  | 0, s => ([], s)
  | n + 1, s =>
    let (w, s) := s.drawWord
    let (r, s) := drawNibbles n s
    (w.toNat % 16 :: r, s)

/-- The result of an operation on an operand with an illegal digit: an arbitrary field and an arbitrary return (R583). -/
def arbitraryField (d1 d2 : Word) (s : State) : Access Bool :=
  let (ns, s) := drawNibbles (decLength d2) s
  let (ok, s) := s.drawBit
  (s.writeField d1 d2 ns).bind fun _ s => .done ok s

/-- The return of a decimal instruction: the next word after an error, else a skip (R584). -/
def decimalReturn (x : Access Bool) : Result := x.complete fun ok s => .next (s.skipIf ok)

/-- Read the packed operands A, D and X, T, the first one first (R584). -/
def State.readBoth (s : State) : Access (DecimalValue × DecimalValue) :=
  (s.readPacked s.a s.d).bind fun v1 s => (s.readPacked s.x s.t).bind fun v2 s => .done (v1, v2) s

/-- The sign of a result `r`: that of the number, open where it is zero and the rule leaves it open (R585, R586). -/
def sumSign (r : Int) (isOpen : Bool) (s : State) : Bool × State :=
  if r = 0 ∧ isOpen then s.drawBit else (decide (r < 0), s)

/-- Add the second packed operand to the first, or subtract it; open is the sign of a zero difference, and of a zero sum of
operands with opposite signs (R585, R586; log 39). C has no part in it, in these rules, though `spec/10_state.md` R39 names the
decimal instructions as readers of C (log 39). -/
def decimalAdd (negate : Bool) (s : State) : Result :=
  decimalReturn <|
    s.readBoth.bind fun (v1, v2) s =>
      if v1.illegal || v2.illegal then arbitraryField s.a s.d s
      else
        let r := if negate then v1.toInt - v2.toInt else v1.toInt + v2.toInt
        let (neg, s) := sumSign r (negate || v1.neg != v2.neg) s
        (s.writePacked s.a s.d neg r.natAbs).bind fun _ s =>
          .done (decide (r.natAbs < 10 ^ packedDigits s.d)) s

/-- An instruction that only the CX option has; without it the code is not implemented (R226). -/
def withCx (s : State) (r : Result) : Result := if s.cfg.hasCx then r else s.illegal

/-- ADDD (R585). -/
def execAddd (s : State) : Result := withCx s (decimalAdd false s)
/-- SUBD (R586). -/
def execSubd (s : State) : Result := withCx s (decimalAdd true s)

/-- The code of a comparison (R587). -/
def compareCode (x y : Int) : Word := if x = y then 0 else if y < x then 1 else 0o177777

/-- COMD (R587): always a skip return. -/
def execComd (s : State) : Result :=
  withCx s <|
    s.readBoth.complete fun (v1, v2) s =>
      if v1.illegal || v2.illegal then
        let (a, s) := s.drawWord
        .next (s.setA a).skip
      else .next (s.setA (compareCode v1.toInt v2.toInt)).skip

/-- The sign representations of an ASCII operand (R581, R582). -/
inductive SignForm where
  | embeddedTrailing | separateTrailing | embeddedLeading | separateLeading | unsigned
deriving DecidableEq, Repr

/-- The sign representation in bits 13-11 of a descriptor (R582). -/
def signForm (d2 : Word) : SignForm :=
  if d2.getLsbD 13 then .unsigned
  else
    match (d2.extractLsb' 11 2).toNat with
    | 0 => .embeddedTrailing
    | 1 => .separateTrailing
    | 2 => .embeddedLeading
    | _ => .separateLeading

/-- What one byte of an ASCII operand stands for. -/
inductive AsciiCode where
  | digit (d : Nat)
  | sign (neg : Bool)
  | both (neg : Bool) (d : Nat)
deriving DecidableEq, Repr

/-- A digit byte, the parity bit ignored (R581, R589). -/
def digitCode (b : Byte) : Option AsciiCode :=
  let c := b.toNat % 128
  if 0o60 ≤ c ∧ c ≤ 0o71 then some (.digit (c - 0o60)) else none

/-- A separate sign byte (R581). -/
def separateCode (b : Byte) : Option AsciiCode :=
  match b.toNat % 128 with
  | 0o53 => some (.sign false)
  | 0o55 => some (.sign true)
  | _ => none

/-- A byte with an embedded sign (R581). -/
def embeddedCode (b : Byte) : Option AsciiCode :=
  let c := b.toNat % 128
  if c = 0o173 then some (.both false 0)
  else if c = 0o175 then some (.both true 0)
  else if 0o101 ≤ c ∧ c ≤ 0o111 then some (.both false (c - 0o100))
  else if 0o112 ≤ c ∧ c ≤ 0o122 then some (.both true (c - 0o111))
  else none

/-- The byte number `i` of an ASCII field of `length` bytes (R583). -/
def asciiCode (form : SignForm) (length i : Nat) (b : Byte) : Option AsciiCode :=
  match form with
  | .embeddedTrailing => if i + 1 = length then embeddedCode b else digitCode b
  | .separateTrailing => if i + 1 = length then separateCode b else digitCode b
  | .embeddedLeading => if i = 0 then embeddedCode b else digitCode b
  | .separateLeading => if i = 0 then separateCode b else digitCode b
  | .unsigned => digitCode b

/-- Take one more byte, to the left of those already taken, into a value. -/
def AsciiCode.prepend (c : AsciiCode) (v : DecimalValue) : DecimalValue :=
  match c with
  | .digit d => { v with digits := d :: v.digits }
  | .sign neg => { v with neg := neg }
  | .both neg d => { neg := neg, digits := d :: v.digits }

/-- Read the bytes of an ASCII field from the last to the first; the number of the first illegal one found (R588, R589). -/
def scanAscii (form : SignForm) (length : Nat) : Nat → List Byte → Except Nat DecimalValue
  | _, [] => .ok { neg := false, digits := [] }
  | i, b :: r =>
    match scanAscii form length (i + 1) r with
    | .error j => .error j
    | .ok v =>
      match asciiCode form length i b with
      | none => .error i
      | some c => .ok (c.prepend v)

/-- An error return of PACK and UPACK: the code in D bits 4-0 (R588). -/
def State.decimalError (s : State) (code : BitVec 5) : State := (s.setD (s.d.extractLsb' 5 11 ++ code)).advance

/-- An illegal code: A and D bit 15 point to its byte (R588). -/
def State.illegalCode (s : State) (at_ : ByteAddr) : State :=
  ((s.setA at_.word).setD (BitVec.ofBool at_.right ++ s.d.extractLsb' 0 15)).decimalError 2

/-- End of PACK and UPACK: overflow is an error return (R588). -/
def convertReturn (x : Access Bool) : Result :=
  x.complete fun fits s => .next (if fits then s.skip else s.decimalError 3)

/-- Read the bytes of two fields, the first one first (R584). -/
def State.readFields (s : State) (n1 n2 : Nat) : Access (List Byte) :=
  (readBytes .nonprel n1 (descAddr s.a s.d) s).bind fun bytes s =>
    (readBytes .nonprel n2 (descAddr s.x s.t) s).bind fun _ s => .done bytes s

/-- PACK (R584, R589). -/
def execPack (s : State) : Result :=
  withCx s <|
    (s.readFields (decLength s.d) (packedBytes s.t)).complete fun bytes s =>
      match scanAscii (signForm s.d) (decLength s.d) 0 bytes with
      | .error i => .next (s.illegalCode ((descAddr s.a s.d).plus i))
      | .ok v =>
        convertReturn <|
          (s.writePacked s.x s.t v.neg (magnitude v.digits)).bind fun _ s =>
            .done (decide (magnitude v.digits < 10 ^ packedDigits s.t)) s

/-- How many digits an ASCII field has (R583). -/
def asciiDigits (d2 : Word) : Nat :=
  match signForm d2 with
  | .separateTrailing | .separateLeading => decLength d2 - 1
  | _ => decLength d2

/-- The digit byte of a digit (R581). -/
def digitByte (d : Nat) : Byte := BitVec.ofNat 8 (0o60 + d)

/-- The separate sign byte (R581). -/
def signByte (neg : Bool) : Byte := if neg then 0o55 else 0o53

/-- The byte of an embedded sign with a digit (R581). -/
def embeddedByte (neg : Bool) (d : Nat) : Byte :=
  if d = 0 then (if neg then 0o175 else 0o173) else BitVec.ofNat 8 ((if neg then 0o111 else 0o100) + d)

/-- The bytes of an ASCII field with a sign and as many digits as it holds (R581, R590). -/
def asciiBytes (form : SignForm) (neg : Bool) (ds : List Nat) : List Byte :=
  match form with
  | .embeddedTrailing => ds.dropLast.map digitByte ++ (ds.getLast?.toList.map (embeddedByte neg))
  | .separateTrailing => ds.map digitByte ++ [signByte neg]
  | .embeddedLeading =>
    match ds with
    | [] => []
    | d :: r => embeddedByte neg d :: r.map digitByte
  | .separateLeading => signByte neg :: ds.map digitByte
  | .unsigned => ds.map digitByte

/-- Write an ASCII operand; an empty field takes nothing (R590). -/
def State.writeAscii (s : State) (d1 d2 : Word) (neg : Bool) (mag : Nat) : Access Unit :=
  if decLength d2 = 0 then .done () s
  else Sys2Proof.Machine.writeBytes .nonprel (asciiBytes (signForm d2) neg (lowDigits (asciiDigits d2) mag)) (descAddr d1 d2) s

/-- The last position of an illegal digit in a list of digits. -/
def lastIllegal : Nat → List Nat → Option Nat
  | _, [] => none
  | i, d :: r =>
    match lastIllegal (i + 1) r with
    | some j => some j
    | none => if 9 < d then some i else none

/-- The byte of a packed field that holds its nibble number `j` (R583). -/
def packedByteOf (d2 : Word) (j : Nat) : Nat := (2 * packedBytes d2 - decLength d2 + j) / 2

/-- UPACK (R584, R590). -/
def execUpack (s : State) : Result :=
  withCx s <|
    (s.readFields (packedBytes s.d) (decLength s.t)).complete fun bytes s =>
      let v := packedValue (decLength s.d) bytes
      match lastIllegal 0 v.digits with
      | some j => .next (s.illegalCode ((descAddr s.a s.d).plus (packedByteOf s.d j)))
      | none =>
        convertReturn <|
          (s.writeAscii s.x s.t v.neg (magnitude v.digits)).bind fun _ s =>
            .done (decide (magnitude v.digits < 10 ^ asciiDigits s.t)) s

/-- The shifted magnitude of SHDE: left by the difference of the decimal positions, or right with rounding (R591,
R594). -/
def shiftDecimal (v p1 p2 : Nat) (rounding : Bool) : Nat :=
  if p1 ≤ p2 then v * 10 ^ (p2 - p1)
  else
    let k := p1 - p2
    let last := v / 10 ^ (k - 1) % 10
    v / 10 ^ k + (if rounding && decide (5 ≤ last) then 1 else 0)

/-- SHDE (R584, R591). The old content of operand 2 is read but not looked at, whatever its digits (log 39). -/
def execShde (s : State) : Result :=
  withCx s <|
    decimalReturn <|
      s.readBoth.bind fun (v, _) s =>
        if v.illegal then arbitraryField s.x s.t s
        else
          let m := shiftDecimal (magnitude v.digits) (decPoint s.d) (decPoint s.t) (!s.t.getLsbD 10)
          (s.writePacked s.x s.t v.neg m).bind fun _ s => .done (decide (m < 10 ^ packedDigits s.t)) s

end Sys2Proof.Machine
end

