-- ==== Sys2Proof/Machine/Floating.lean ====
section
/-! DEFINITION. Floating point instructions (`spec/43_floating.md`) in the 48-bit and the optional 32-bit format. The results
follow R346: exact where the exact result is representable (P1), within one unit of the last place where it is in range
(P2), and open elsewhere (log 12). -/

namespace Sys2Proof.Machine

/-- A finite number: `(-1)^neg * mant * 2^exp`. -/
structure FpNum where
  neg : Bool
  mant : Nat
  exp : Int
deriving DecidableEq, Repr

/-- An exact result: `(-1)^neg * num / den * 2^exp`. -/
structure Exact where
  neg : Bool
  num : Nat
  den : Nat
  exp : Int
deriving DecidableEq, Repr

/-- A floating format: mantissa bits, exponent bias and range, the standard numbers that words are as operands, the numbers
that they are as results, and the words of numbers (R340, R341, R348). -/
structure FpFormat (w : Nat) where
  digits : Nat
  bias : Int
  maxExp : Int
  decode : BitVec w → Option FpNum
  value : BitVec w → Option FpNum
  encode : Bool → Nat → Nat → BitVec w

/-- The value of a standard 48-bit word; none for the words of R348. -/
def decode48 (v : BitVec 48) : Option FpNum :=
  if v = 0 then some { neg := false, mant := 0, exp := 0 }
  else if v.getLsbD 31 then
    some { neg := v.msb, mant := (v.extractLsb' 0 32).toNat, exp := (v.extractLsb' 32 15).toNat - 16416 }
  else none

/-- The 48-bit word of a sign, a normalized mantissa and a biased exponent (R340). -/
def encode48 (neg : Bool) (mant e : Nat) : BitVec 48 :=
  BitVec.ofBool neg ++ BitVec.ofNat 15 e ++ BitVec.ofNat 32 mant

/-- The value of a 32-bit word by the formula of R341, which covers the biased exponent 0 too. -/
def value32 (v : BitVec 32) : FpNum :=
  if v = 0 then { neg := false, mant := 0, exp := 0 }
  else { neg := v.msb, mant := 2 ^ 22 + (v.extractLsb' 0 22).toNat, exp := (v.extractLsb' 22 9).toNat - 279 }

/-- The value of a standard 32-bit word as an operand; none for the words of R348, whose exponent is 0. -/
def decode32 (v : BitVec 32) : Option FpNum :=
  if v ≠ 0 ∧ v.extractLsb' 22 9 = 0 then none else some (value32 v)

/-- The 32-bit word of a sign, a mantissa whose first bit is not stored, and a biased exponent (R341). -/
def encode32 (neg : Bool) (mant e : Nat) : BitVec 32 :=
  BitVec.ofBool neg ++ BitVec.ofNat 9 e ++ BitVec.ofNat 22 mant

/-- The standard format (R340). -/
def format48 : FpFormat 48 :=
  { digits := 32, bias := 16384, maxExp := 32767, decode := decode48, value := decode48, encode := encode48 }

/-- The optional format (R341); a result may have the biased exponent 0 (log 12). -/
def format32 : FpFormat 32 :=
  { digits := 23, bias := 256, maxExp := 511, decode := decode32, value := fun v => some (value32 v), encode := encode32 }

/-- A shift of a natural number by a signed count; bits that leave on the right are lost. -/
def shiftNat (m : Nat) (k : Int) : Nat := if 0 ≤ k then m * 2 ^ k.toNat else m / 2 ^ (-k).toNat

/-- The signed integer of a magnitude. -/
def signed (neg : Bool) (m : Nat) : Int := if neg then -(m : Int) else m

/-- The exact sum of two numbers. -/
def exactAdd (x y : FpNum) : Exact :=
  let e := min x.exp y.exp
  let v := signed x.neg (shiftNat x.mant (x.exp - e)) + signed y.neg (shiftNat y.mant (y.exp - e))
  { neg := decide (v < 0), num := v.natAbs, den := 1, exp := e }

/-- The exact product of two numbers. -/
def exactMul (x y : FpNum) : Exact :=
  { neg := x.neg != y.neg, num := x.mant * y.mant, den := 1, exp := x.exp + y.exp }

/-- The exact quotient of two numbers, the second not zero. -/
def exactDiv (x y : FpNum) : Exact :=
  { neg := x.neg != y.neg, num := x.mant, den := y.mant, exp := x.exp - y.exp }

/-- Whether a number differs from an exact result by less than `2^ulp` (P2 of R346). -/
def within (c : FpNum) (r : Exact) (ulp : Int) : Bool :=
  let k := min (min c.exp r.exp) ulp
  let have_ := signed c.neg (shiftNat c.mant (c.exp - k) * r.den)
  let want := signed r.neg (shiftNat r.num (r.exp - k))
  decide ((have_ - want).natAbs < shiftNat r.den (ulp - k))

/-- FpResult on standard operands (R346): zero for an exact zero; the word itself where it is exactly representable; in
range, the open candidate if it lies within one unit of the last place and else the truncated result; out of range, the
open candidate. The all-zero word is no result but zero: of the smallest positive number of the 32-bit format, whose word
it would be, the result is open, and a number that it would truncate takes the next word (log 12). -/
def fpRound {w : Nat} (f : FpFormat w) (r : Exact) (open_ : BitVec w) : BitVec w :=
  if r.num = 0 then 0
  else
    let wide := r.num * 2 ^ 64
    let q := wide / r.den
    let length := Nat.log2 q + 1
    let drop := length - f.digits
    let mant := q / 2 ^ drop
    let e : Int := r.exp - 64 + length + f.bias
    if e < 0 ∨ f.maxExp < e then open_
    else
      let word := f.encode r.neg mant e.toNat
      if wide % r.den = 0 ∧ q % 2 ^ drop = 0 then if word = 0 then open_ else word
      else
        let near := if word = 0 then f.encode r.neg (mant + 1) e.toNat else word
        match f.value open_ with
        | some c => if within c r (r.exp - 64 + drop) then open_ else near
        | none => near

/-- The four floating operations. -/
inductive FpOp where
  | fad | fsb | fmu | fdv
deriving DecidableEq, Repr

/-- The number by which an operation goes into the open functions of `Config`. -/
def FpOp.code : FpOp → Nat
  | .fad => 0 | .fsb => 1 | .fmu => 2 | .fdv => 3

/-- The exact result of an operation; a division by zero does not come here (R345). -/
def FpOp.exact (op : FpOp) (x y : FpNum) : Exact :=
  match op with
  | .fad => exactAdd x y
  | .fsb => exactAdd x { y with neg := !y.neg }
  | .fmu => exactMul x y
  | .fdv => exactDiv x y

/-- FpResult (R346): of operands that are not both standard nothing is assumed. -/
def fpResult {w : Nat} (f : FpFormat w) (op : FpOp) (x y open_ : BitVec w) : BitVec w :=
  match f.decode x, f.decode y with
  | some a, some b => fpRound f (op.exact a b) open_
  | _, _ => open_

/-- Whether a divisor is zero: decided for the standard words, open for the words of R348 that may count as zero, a zero
mantissa in the 48-bit format and a zero exponent in the 32-bit one (log 13). -/
def divisorZero48 (v : BitVec 48) (guess : Bool) : Bool :=
  if v = 0 then true else if v.extractLsb' 0 32 = 0 then guess else false

/-- The same for the 32-bit format. -/
def divisorZero32 (v : BitVec 32) (guess : Bool) : Bool :=
  if v = 0 then true else if v.extractLsb' 22 9 = 0 then guess else false

/-- The 48-bit floating accumulator T, A, D (R342). -/
def State.fa48 (s : State) : BitVec 48 := s.t ++ s.a ++ s.d

/-- Write T, A, D. -/
def State.setFa48 (s : State) (v : BitVec 48) : State :=
  ((s.setT (v.extractLsb' 32 16)).setA (v.extractLsb' 16 16)).setD (v.extractLsb' 0 16)

/-- The 32-bit floating accumulator A, D (R342). -/
def State.fa32 (s : State) : BitVec 32 := s.a ++ s.d

/-- Write A, D. -/
def State.setFa32 (s : State) (v : BitVec 32) : State := (s.setA (v.extractLsb' 16 16)).setD (v.extractLsb' 0 16)

/-- A floating operation in the 48-bit format on an operand that has been read (R345, R347). -/
def State.floating48 (s : State) (op : FpOp) (y : BitVec 48) : State :=
  let x := s.fa48
  let (guess, s) := s.drawBit
  let (carry, s) := s.drawBit
  let s :=
    if op = .fdv ∧ divisorZero48 y guess then (s.setFlag .z true).setFa48 (Config.fdvByZero48 x y)
    else s.setFa48 (fpResult format48 op x y (Config.fpResult48 op.code x y))
  (s.setFlag .tg (Config.fpTg op.code x y)).setFlag .c carry

/-- A floating operation in the 32-bit format: T is not written (R341, R345, R347). -/
def State.floating32 (s : State) (op : FpOp) (y : BitVec 32) : State :=
  let x := s.fa32
  let (guess, s) := s.drawBit
  let (carry, s) := s.drawBit
  let s :=
    if op = .fdv ∧ divisorZero32 y guess then (s.setFlag .z true).setFa32 (Config.fdvByZero32 x y)
    else s.setFa32 (fpResult format32 op x y (Config.fpResult32 op.code x y))
  (s.setFlag .tg (Config.fpTg op.code (x.zeroExtend 48) (y.zeroExtend 48))).setFlag .c carry

/-- A floating instruction with a memory operand (R345). -/
def floatingOp (op : FpOp) (m : MemRef) (s : State) : Result :=
  if s.cfg.fp32 then
    ((s.effLoc m).bind fun (el, rel) s => s.readDouble .rop rel el).complete fun (a, d) s =>
      .next (s.floating32 op (a ++ d)).advance
  else
    ((s.effLoc m).bind fun (el, rel) s => s.readTriple .rop rel el).complete fun (t, a, d) s =>
      .next (s.floating48 op (t ++ a ++ d)).advance

/-- FAD (R345). -/
def execFad (m : MemRef) (s : State) : Result := floatingOp .fad m s
/-- FSB (R345). -/
def execFsb (m : MemRef) (s : State) : Result := floatingOp .fsb m s
/-- FMU (R345). -/
def execFmu (m : MemRef) (s : State) : Result := floatingOp .fmu m s
/-- FDV (R345). -/
def execFdv (m : MemRef) (s : State) : Result := floatingOp .fdv m s

/-- LDF (R343): three words in both formats. -/
def execLdf (m : MemRef) (s : State) : Result :=
  ((s.effLoc m).bind fun (el, rel) s => s.readTriple .rop rel el).complete fun (t, a, d) s =>
    .next (s.setFa48 (t ++ a ++ d)).advance

/-- STF (R344): three words in both formats. -/
def execStf (m : MemRef) (s : State) : Result :=
  ((s.effLoc m).bind fun (el, rel) s' => s'.writeTriple rel el s.t s.a s.d).complete fun _ s => .next s.advance

/-- The 48-bit number of an integer times `2^(sc - 16)` (R349). -/
def normalize48 (a : Word) (sc : BitVec 8) : BitVec 48 :=
  if a = 0 then 0
  else
    let m := a.toInt.natAbs
    let k := Nat.log2 m
    let e : Int := 16384 + sc.toInt - (15 - k)
    encode48 a.msb (m * 2 ^ (31 - k)) e.toNat

/-- The 32-bit number of an integer times `2^(sc - 16)`; an exponent out of range is open (R350). -/
def normalize32 (a : Word) (sc : BitVec 8) : BitVec 32 :=
  if a = 0 then 0
  else
    let m := a.toInt.natAbs
    let k := Nat.log2 m
    let e : Int := 256 + sc.toInt - (15 - k)
    if e < 0 ∨ 511 < e then Config.fpResult32 4 (a.zeroExtend 32) (sc.zeroExtend 32)
    else encode32 a.msb (m * 2 ^ (22 - k)) e.toNat

/-- NLZ (R349, R350). -/
def execNlz (sc : BitVec 8) (s : State) : Result :=
  if s.cfg.fp32 then .next (s.setFa32 (normalize32 s.a sc)).advance
  else .next (s.setFa48 (normalize48 s.a sc)).advance

/-- The truncated magnitude of the 48-bit accumulator times `2^(sc + 16)` (R351). -/
def denormalize48 (v : BitVec 48) (sc : BitVec 8) : Nat :=
  if v = 0 then 0
  else shiftNat (v.extractLsb' 0 32).toNat ((v.extractLsb' 32 15).toNat - 16384 + sc.toInt + 16 - 32)

/-- The truncated magnitude of the 32-bit accumulator, the scaling ignored (R353). -/
def denormalize32 (v : BitVec 32) : Nat :=
  if v = 0 then 0
  else shiftNat (2 ^ 22 + (v.extractLsb' 0 22).toNat) ((v.extractLsb' 22 9).toNat - 256 - 23)

/-- A and Z from a truncated magnitude and a sign; after an overflow A is open (R351). -/
def State.setInteger (s : State) (neg : Bool) (q : Nat) : State :=
  if 32767 < q then
    let (a, s) := s.drawWord
    (s.setFlag .z true).setA a
  else s.setA (BitVec.ofInt 16 (signed neg q))

/-- DNZ (R351, R353): T is cleared in the 48-bit format only. -/
def execDnz (sc : BitVec 8) (s : State) : Result :=
  if s.cfg.fp32 then .next ((s.setInteger s.a.msb (denormalize32 s.fa32)).setD 0).advance
  else .next (((s.setInteger s.t.msb (denormalize48 s.fa48 sc)).setD 0).setT 0).advance

end Sys2Proof.Machine
end

