-- ==== Sys2Proof/WellFormed.lean ====
section
/-! DEFINITION. Which instruction terms stand for a word of an installation: the seven names inside RADD share no word
with `radd` nor with each other (log 7), and the codes of the CX option exist only with it (R208, R226). -/

namespace Sys2Proof

/-- The settings of RADD's four modifier bits that an assembler name of its own covers, given the source (R209, log 7). -/
def raddHasName (adc ad1 cm1 cld : Bool) (sr : RField) : Bool :=
  match adc, ad1, cm1, cld with
  | false, false, false, true => true
  | false, true, true, false => true
  | false, true, true, true => true
  | false, true, false, false => sr == .zero
  | false, false, true, false => sr == .zero
  | _, _, _, _ => false

/-- Whether a COPY is one of the words named RCLR or EXIT (R209, log 7). -/
def copyHasName (sr dr : RField) : Bool := sr == .zero || (sr == .l && dr == .p)

/-- The instructions that only the CX option has (R207, R208, R226). -/
def Instr.isCx : Instr → Bool
  | .addd => true
  | .subd => true
  | .comd => true
  | .tset => true
  | .pack => true
  | .upack => true
  | .shde => true
  | .rdus => true
  | .init => true
  | .entr => true
  | .leave => true
  | .eleav => true
  | .setpt => true
  | .clept => true
  | .clnreent => true
  | .chreentpages => true
  | .clepu => true
  | .movew _ => true
  | _ => false

/-- Well-formed: the one instruction of its word in an installation with or without the CX option. -/
def Instr.wellFormed (hasCx : Bool) : Instr → Bool
  | .radd adc ad1 cm1 cld sr _ => !raddHasName adc ad1 cm1 cld sr
  | .copy sr dr => !copyHasName sr dr
  | .cust2 _ => !hasCx
  | i => hasCx || !i.isCx

end Sys2Proof
end

