-- ==== Sys2Proof/Decode.lean ====
section
/-! DEFINITION. Decoding of instruction words, total, with named refusals, and the encoder (`spec/30_encoding.md`).
Fields are cut out of the word by division and remainder on natural numbers. -/

namespace Sys2Proof

/-- Why bytes or a word are no instruction. Safe: the machine answers an unassigned word with the illegal instruction
interrupt II (R225), and an instruction is always fetched whole. -/
inductive DecodeError where
  /-- Fewer than two bytes were given to `decode`. -/
  | truncated
  /-- The word matches no assigned pattern of the installation's options (R225, R226). -/
  | unassigned
deriving DecidableEq, Repr

/-- The register that a number names, by its three least significant bits (R223). -/
def RField.fromBits (n : Nat) : RField :=
  match n % 8 with
  | 0 => .zero | 1 => .d | 2 => .p | 3 => .b | 4 => .l | 5 => .a | 6 => .t | _ => .x

/-- The shift type that a number names, by its two least significant bits (R219). -/
def ShiftType.fromBits (n : Nat) : ShiftType :=
  match n % 4 with
  | 0 => .arithmetic | 1 => .rotational | 2 => .zeroEnd | _ => .linkEnd

/-- Bit `i` of a number. -/
def decBit (n i : Nat) : Bool := n / 2 ^ i % 2 == 1

/-- The source register field, bits 5-3 (R223). -/
def decSr (n : Nat) : RField := RField.fromBits (n / 8)

/-- The destination register field, bits 2-0 (R223). -/
def decDr (n : Nat) : RField := RField.fromBits n

/-- The operand of the memory reference format (R203). -/
def decMem (n : Nat) : MemRef :=
  { x := decBit n 10, i := decBit n 9, b := decBit n 8, disp := BitVec.ofNat 8 n }

/-- The level or bit number in bits 6-3 (R216, R218, R222). -/
def decNibble3 (n : Nat) : BitVec 4 := BitVec.ofNat 4 (n / 8)

/-- The conditional jumps, bits 15-11 = 10110, by the condition in bits 10-8 (R205). -/
def decodeJump (n : Nat) : Instr :=
  match n / 256 % 8 with
  | 0 => .jap (BitVec.ofNat 8 n)
  | 1 => .jan (BitVec.ofNat 8 n)
  | 2 => .jaz (BitVec.ofNat 8 n)
  | 3 => .jaf (BitVec.ofNat 8 n)
  | 4 => .jpc (BitVec.ofNat 8 n)
  | 5 => .jnc (BitVec.ofNat 8 n)
  | 6 => .jxz (BitVec.ofNat 8 n)
  | _ => .jxn (BitVec.ofNat 8 n)

/-- SKP, bits 15-11 = 11000 and bits 7-6 = 00, by the condition in bits 10-8 (R206). -/
def decodeSkp (n : Nat) : Instr :=
  match n / 256 % 8 with
  | 0 => .skpEql (decSr n) (decDr n)
  | 1 => .skpGeq (decSr n) (decDr n)
  | 2 => .skpGre (decSr n) (decDr n)
  | 3 => .skpMgre (decSr n) (decDr n)
  | 4 => .skpUeq (decSr n) (decDr n)
  | 5 => .skpLss (decSr n) (decDr n)
  | 6 => .skpLst (decSr n) (decDr n)
  | _ => .skpMlst (decSr n) (decDr n)

/-- The codes `0o1401XX`, by bits 5-0 (R207): those of the CX option exist only with it (R226). -/
def decode1401 (hasCx : Bool) (n : Nat) : Except DecodeError Instr :=
  match n % 64, hasCx with
  | 0o30, _ => .ok .bfill
  | 0o31, _ => .ok .movb
  | 0o32, _ => .ok .movbf
  | 0o20, true => .ok .addd
  | 0o21, true => .ok .subd
  | 0o22, true => .ok .comd
  | 0o23, true => .ok .tset
  | 0o24, true => .ok .pack
  | 0o25, true => .ok .upack
  | 0o26, true => .ok .shde
  | 0o27, true => .ok .rdus
  | 0o34, true => .ok .init
  | 0o35, true => .ok .entr
  | 0o36, true => .ok .leave
  | 0o37, true => .ok .eleav
  | _, _ => .error .unassigned

/-- The codes `0o1403XX` (R208): five segment instructions with the CX option, customer instruction 2 without it. -/
def decode1403 (hasCx : Bool) (n : Nat) : Except DecodeError Instr :=
  match hasCx, n % 64 with
  | false, _ => .ok (.cust2 (BitVec.ofNat 6 n))
  | true, 0 => .ok .setpt
  | true, 1 => .ok .clept
  | true, 2 => .ok .clnreent
  | true, 3 => .ok .chreentpages
  | true, 4 => .ok .clepu
  | true, _ => .error .unassigned

/-- The physical memory instructions `0o1433XX`, by the type in bits 2-0 (R210). -/
def decodePhysical (n : Nat) : Except DecodeError Instr :=
  match n % 8 with
  | 0 => .ok (.ldatx (BitVec.ofNat 3 (n / 8)))
  | 1 => .ok (.ldxtx (BitVec.ofNat 3 (n / 8)))
  | 2 => .ok (.lddtx (BitVec.ofNat 3 (n / 8)))
  | 3 => .ok (.ldbtx (BitVec.ofNat 3 (n / 8)))
  | 4 => .ok (.statx (BitVec.ofNat 3 (n / 8)))
  | 5 => .ok (.stztx (BitVec.ofNat 3 (n / 8)))
  | 6 => .ok (.stdtx (BitVec.ofNat 3 (n / 8)))
  | _ => .error .unassigned

/-- IDENT `0o1436XX`, by bits 5-0 (R207). -/
def decodeIdent (n : Nat) : Except DecodeError Instr :=
  match n % 64 with
  | 0o04 => .ok .identPl10
  | 0o11 => .ok .identPl11
  | 0o22 => .ok .identPl12
  | 0o43 => .ok .identPl13
  | _ => .error .unassigned

/-- An instruction that is one value of the field in the last `m` values, the rest unassigned. -/
def onlyZero (n m : Nat) (i : Instr) : Except DecodeError Instr :=
  if n % m = 0 then .ok i else .error .unassigned

/-- The group `0o140000` (bits 15-11 = 11000), by bits 10-6 (R206, R207). -/
def decodeExtended (hasCx : Bool) (n : Nat) : Except DecodeError Instr :=
  match n / 64 % 32 with
  | 0o01 => decode1401 hasCx n
  | 0o2 => .ok (.cust1 (BitVec.ofNat 6 n))
  | 0o5 => .ok (.cust3 (BitVec.ofNat 6 n))
  | 0o7 => .ok (.cust4 (BitVec.ofNat 6 n))
  | 0o11 => .ok (.cust5 (BitVec.ofNat 6 n))
  | 0o13 => .ok (.cust6 (BitVec.ofNat 6 n))
  | 0o15 => .ok (.cust7 (BitVec.ofNat 6 n))
  | 0o17 => .ok (.cust10 (BitVec.ofNat 6 n))
  | 0o21 => .ok (.cust11 (BitVec.ofNat 6 n))
  | 0o23 => .ok (.cust12 (BitVec.ofNat 6 n))
  | 0o25 => .ok (.cust13 (BitVec.ofNat 6 n))
  | 0o03 => decode1403 hasCx n
  | 0o6 => onlyZero n 8 (.exr (decSr n))
  | 0o12 => .ok (.rmpy (decSr n) (decDr n))
  | 0o16 => .ok (.rdiv (decSr n) (BitVec.ofNat 3 n))
  | 0o22 => onlyZero n 64 .lbyt
  | 0o26 => onlyZero n 64 .sbyt
  | 0o31 => if hasCx then .ok (.movew (BitVec.ofNat 6 n)) else .error .unassigned
  | 0o32 => onlyZero n 64 .mix3
  | 0o33 => decodePhysical n
  | 0o35 => onlyZero n 64 .lwcs
  | 0o36 => decodeIdent n
  | k => if k % 4 = 0 then .ok (decodeSkp n) else .error .unassigned

/-- The additions between registers, bit 10 = 1, by bits 9-6 (R209): the words that an assembler name of its own covers
go to that name, the most special first (log 7). -/
def decodeRadd (n : Nat) : Instr :=
  match n / 64 % 16 with
  | 0o01 =>
    match n / 8 % 8 with
    | 0 => .rclr (decDr n)
    | 4 => if n % 8 = 2 then .exit else .copy (decSr n) (decDr n)
    | _ => .copy (decSr n) (decDr n)
  | 0o02 =>
    match n / 8 % 8 with
    | 0 => .rdcr (decDr n)
    | _ => .radd false false true false (decSr n) (decDr n)
  | 0o04 =>
    match n / 8 % 8 with
    | 0 => .rinc (decDr n)
    | _ => .radd false true false false (decSr n) (decDr n)
  | 0o06 => .rsub (decSr n) (decDr n)
  | 0o07 => .copyCm2 (decSr n) (decDr n)
  | _ => .radd (decBit n 9) (decBit n 8) (decBit n 7) (decBit n 6) (decSr n) (decDr n)

/-- The register operations (bits 15-11 = 11001), by bits 10-8 (R209). -/
def decodeRop (n : Nat) : Instr :=
  match n / 256 % 8 with
  | 0 => .swap (decBit n 7) (decBit n 6) (decSr n) (decDr n)
  | 1 => .rand (decBit n 7) (decBit n 6) (decSr n) (decDr n)
  | 2 => .rexo (decBit n 7) (decBit n 6) (decSr n) (decDr n)
  | 3 => .rora (decBit n 7) (decBit n 6) (decSr n) (decDr n)
  | _ => decodeRadd n

/-- TRA, TRR, MCL, MST, by bits 7-4 (R212): bits 5-4 must be zero. -/
def decodeTransfer (n : Nat) : Except DecodeError Instr :=
  match n / 16 % 16 with
  | 0 => .ok (.tra (BitVec.ofNat 4 n))
  | 4 => .ok (.trr (BitVec.ofNat 4 n))
  | 8 => .ok (.mcl (BitVec.ofNat 4 n))
  | 12 => .ok (.mst (BitVec.ofNat 4 n))
  | _ => .error .unassigned

/-- The single words `0o1504XX`, by bits 7-0 (R213). -/
def decodeSingle (n : Nat) : Except DecodeError Instr :=
  match n % 256 with
  | 0o0 => .ok .opcom
  | 0o1 => .ok .iof
  | 0o2 => .ok .ion
  | 0o4 => .ok .pof
  | 0o5 => .ok .piof
  | 0o6 => .ok .sex
  | 0o7 => .ok .rex
  | 0o10 => .ok .pon
  | 0o12 => .ok .pion
  | 0o15 => .ok .ioxt
  | 0o16 => .ok .exam
  | 0o17 => .ok .depo
  | _ => .error .unassigned

/-- SRB and LRB, by bit 7 and bits 2-0 (R216). -/
def decodeBlock (n : Nat) : Except DecodeError Instr :=
  match n / 128 % 2, n % 8 with
  | 0, 2 => .ok (.srb (decNibble3 n))
  | 1, 0 => .ok (.lrb (decNibble3 n))
  | _, _ => .error .unassigned

/-- The system group (bits 15-11 = 11010), by bits 10-8 (R211 to R218). -/
def decodeSystem (n : Nat) : Except DecodeError Instr :=
  match n / 256 % 8 with
  | 0 => decodeTransfer n
  | 1 => decodeSingle n
  | 2 => .ok (.wait (BitVec.ofNat 8 n))
  | 3 => .ok (.nlz (BitVec.ofNat 8 n))
  | 4 => .ok (.dnz (BitVec.ofNat 8 n))
  | 5 => decodeBlock n
  | 6 => .ok (.mon (BitVec.ofNat 8 n))
  | _ => if decBit n 7 then .ok (.irr (decNibble3 n) (decDr n)) else .ok (.irw (decNibble3 n) (decDr n))

/-- The shifts (bits 15-11 = 11011), by the register in bits 8-7 (R219). -/
def decodeShift (n : Nat) : Instr :=
  match n / 128 % 4 with
  | 0 => .sht (ShiftType.fromBits (n / 512)) (decBit n 6) (BitVec.ofNat 6 n)
  | 1 => .shd (ShiftType.fromBits (n / 512)) (decBit n 6) (BitVec.ofNat 6 n)
  | 2 => .sha (ShiftType.fromBits (n / 512)) (decBit n 6) (BitVec.ofNat 6 n)
  | _ => .sad (ShiftType.fromBits (n / 512)) (decBit n 6) (BitVec.ofNat 6 n)

/-- The argument instructions (bits 15-11 = 11110), by bits 10-8 (R221). -/
def decodeArgument (n : Nat) : Instr :=
  match n / 256 % 8 with
  | 0 => .sab (BitVec.ofNat 8 n)
  | 1 => .saa (BitVec.ofNat 8 n)
  | 2 => .sat (BitVec.ofNat 8 n)
  | 3 => .sax (BitVec.ofNat 8 n)
  | 4 => .aab (BitVec.ofNat 8 n)
  | 5 => .aaa (BitVec.ofNat 8 n)
  | 6 => .aat (BitVec.ofNat 8 n)
  | _ => .aax (BitVec.ofNat 8 n)

/-- The bit operations (bits 15-11 = 11111), by the function in bits 10-7 (R222). -/
def decodeBop (n : Nat) : Instr :=
  match n / 128 % 16 with
  | 0 => .bsetZro (decNibble3 n) (decDr n)
  | 1 => .bsetOne (decNibble3 n) (decDr n)
  | 2 => .bsetBcm (decNibble3 n) (decDr n)
  | 3 => .bsetBac (decNibble3 n) (decDr n)
  | 4 => .bskpZro (decNibble3 n) (decDr n)
  | 5 => .bskpOne (decNibble3 n) (decDr n)
  | 6 => .bskpBcm (decNibble3 n) (decDr n)
  | 7 => .bskpBac (decNibble3 n) (decDr n)
  | 8 => .bstc (decNibble3 n) (decDr n)
  | 9 => .bsta (decNibble3 n) (decDr n)
  | 10 => .bldc (decNibble3 n) (decDr n)
  | 11 => .blda (decNibble3 n) (decDr n)
  | 12 => .banc (decNibble3 n) (decDr n)
  | 13 => .band (decNibble3 n) (decDr n)
  | 14 => .borc (decNibble3 n) (decDr n)
  | _ => .bora (decNibble3 n) (decDr n)

/-- The instruction of the word whose value is `n`, in an installation with or without the CX option, by its five most
significant bits (R201, R202). -/
def decodeNat (hasCx : Bool) (n : Nat) : Except DecodeError Instr :=
  match n / 2048 % 32 with
  | 0 => .ok (.stz (decMem n))
  | 1 => .ok (.sta (decMem n))
  | 2 => .ok (.stt (decMem n))
  | 3 => .ok (.stx (decMem n))
  | 4 => .ok (.std (decMem n))
  | 5 => .ok (.ldd (decMem n))
  | 6 => .ok (.stf (decMem n))
  | 7 => .ok (.ldf (decMem n))
  | 8 => .ok (.min (decMem n))
  | 9 => .ok (.lda (decMem n))
  | 10 => .ok (.ldt (decMem n))
  | 11 => .ok (.ldx (decMem n))
  | 12 => .ok (.add (decMem n))
  | 13 => .ok (.sub (decMem n))
  | 14 => .ok (.and (decMem n))
  | 15 => .ok (.ora (decMem n))
  | 16 => .ok (.fad (decMem n))
  | 17 => .ok (.fsb (decMem n))
  | 18 => .ok (.fmu (decMem n))
  | 19 => .ok (.fdv (decMem n))
  | 20 => .ok (.mpy (decMem n))
  | 21 => .ok (.jmp (decMem n))
  | 22 => .ok (decodeJump n)
  | 23 => .ok (.jpl (decMem n))
  | 24 => decodeExtended hasCx n
  | 25 => .ok (decodeRop n)
  | 26 => decodeSystem n
  | 27 => .ok (decodeShift n)
  | 28 => .error .unassigned
  | 29 => .ok (.iox (BitVec.ofNat 11 n))
  | 30 => .ok (decodeArgument n)
  | _ => .ok (decodeBop n)

/-- The instruction of a word (R200, R202). -/
def decodeWord (hasCx : Bool) (w : Word) : Except DecodeError Instr := decodeNat hasCx w.toNat

/-- The word that two bytes of memory make, the byte at the lower address in bits 15-8 (`spec/20_memory.md` R102). -/
def wordOfBytes (hi lo : Byte) : Word := hi ++ lo

/-- Decode the first instruction of a list of bytes; the rest of the list comes with it (R200). -/
def decode (hasCx : Bool) : List Byte → Except DecodeError (Instr × List Byte)
  | hi :: lo :: rest => (decodeWord hasCx (wordOfBytes hi lo)).map fun i => (i, rest)
  | _ => .error .truncated

/-- A field of one bit with its weight. -/
def encBit (b : Bool) (weight : Nat) : Nat := if b then weight else 0

/-- The fields of the memory reference format (R203). -/
def encMem (m : MemRef) : Nat := encBit m.x 1024 + encBit m.i 512 + encBit m.b 256 + m.disp.toNat

/-- The fields sr and dr (R223). -/
def encSrDr (sr dr : RField) : Nat := sr.toNat * 8 + dr.toNat

/-- The value of an instruction's word: its code of R229 plus its fields (R204 to R222). -/
def encodeNat : Instr → Nat
  | .stz m => 0o0 + encMem m
  | .sta m => 0o4000 + encMem m
  | .stt m => 0o10000 + encMem m
  | .stx m => 0o14000 + encMem m
  | .std m => 0o20000 + encMem m
  | .ldd m => 0o24000 + encMem m
  | .stf m => 0o30000 + encMem m
  | .ldf m => 0o34000 + encMem m
  | .min m => 0o40000 + encMem m
  | .lda m => 0o44000 + encMem m
  | .ldt m => 0o50000 + encMem m
  | .ldx m => 0o54000 + encMem m
  | .add m => 0o60000 + encMem m
  | .sub m => 0o64000 + encMem m
  | .and m => 0o70000 + encMem m
  | .ora m => 0o74000 + encMem m
  | .fad m => 0o100000 + encMem m
  | .fsb m => 0o104000 + encMem m
  | .fmu m => 0o110000 + encMem m
  | .fdv m => 0o114000 + encMem m
  | .mpy m => 0o120000 + encMem m
  | .jmp m => 0o124000 + encMem m
  | .jpl m => 0o134000 + encMem m
  | .jap disp => 0o130000 + disp.toNat
  | .jan disp => 0o130400 + disp.toNat
  | .jaz disp => 0o131000 + disp.toNat
  | .jaf disp => 0o131400 + disp.toNat
  | .jpc disp => 0o132000 + disp.toNat
  | .jnc disp => 0o132400 + disp.toNat
  | .jxz disp => 0o133000 + disp.toNat
  | .jxn disp => 0o133400 + disp.toNat
  | .skpEql sr dr => 0o140000 + encSrDr sr dr
  | .skpGeq sr dr => 0o140400 + encSrDr sr dr
  | .skpGre sr dr => 0o141000 + encSrDr sr dr
  | .skpMgre sr dr => 0o141400 + encSrDr sr dr
  | .skpUeq sr dr => 0o142000 + encSrDr sr dr
  | .skpLss sr dr => 0o142400 + encSrDr sr dr
  | .skpLst sr dr => 0o143000 + encSrDr sr dr
  | .skpMlst sr dr => 0o143400 + encSrDr sr dr
  | .addd => 0o140120
  | .subd => 0o140121
  | .comd => 0o140122
  | .tset => 0o140123
  | .pack => 0o140124
  | .upack => 0o140125
  | .shde => 0o140126
  | .rdus => 0o140127
  | .bfill => 0o140130
  | .movb => 0o140131
  | .movbf => 0o140132
  | .init => 0o140134
  | .entr => 0o140135
  | .leave => 0o140136
  | .eleav => 0o140137
  | .setpt => 0o140300
  | .clept => 0o140301
  | .clnreent => 0o140302
  | .chreentpages => 0o140303
  | .clepu => 0o140304
  | .lbyt => 0o142200
  | .sbyt => 0o142600
  | .mix3 => 0o143200
  | .lwcs => 0o143500
  | .identPl10 => 0o143604
  | .identPl11 => 0o143611
  | .identPl12 => 0o143622
  | .identPl13 => 0o143643
  | .cust1 low => 0o140200 + low.toNat
  | .cust2 low => 0o140300 + low.toNat
  | .cust3 low => 0o140500 + low.toNat
  | .cust4 low => 0o140700 + low.toNat
  | .cust5 low => 0o141100 + low.toNat
  | .cust6 low => 0o141300 + low.toNat
  | .cust7 low => 0o141500 + low.toNat
  | .cust10 low => 0o141700 + low.toNat
  | .cust11 low => 0o142100 + low.toNat
  | .cust12 low => 0o142300 + low.toNat
  | .cust13 low => 0o142500 + low.toNat
  | .exr sr => 0o140600 + sr.toNat * 8
  | .rmpy sr dr => 0o141200 + encSrDr sr dr
  | .rdiv sr ignored => 0o141600 + sr.toNat * 8 + ignored.toNat
  | .movew low => 0o143100 + low.toNat
  | .ldatx delta => 0o143300 + delta.toNat * 8
  | .ldxtx delta => 0o143301 + delta.toNat * 8
  | .lddtx delta => 0o143302 + delta.toNat * 8
  | .ldbtx delta => 0o143303 + delta.toNat * 8
  | .statx delta => 0o143304 + delta.toNat * 8
  | .stztx delta => 0o143305 + delta.toNat * 8
  | .stdtx delta => 0o143306 + delta.toNat * 8
  | .swap cm1 cld sr dr => 0o144000 + encBit cm1 128 + encBit cld 64 + encSrDr sr dr
  | .rand cm1 cld sr dr => 0o144400 + encBit cm1 128 + encBit cld 64 + encSrDr sr dr
  | .rexo cm1 cld sr dr => 0o145000 + encBit cm1 128 + encBit cld 64 + encSrDr sr dr
  | .rora cm1 cld sr dr => 0o145400 + encBit cm1 128 + encBit cld 64 + encSrDr sr dr
  | .radd adc ad1 cm1 cld sr dr => 0o146000 + encBit adc 512 + encBit ad1 256 + encBit cm1 128 + encBit cld 64 + encSrDr sr dr
  | .rsub sr dr => 0o146600 + encSrDr sr dr
  | .copy sr dr => 0o146100 + encSrDr sr dr
  | .copyCm2 sr dr => 0o146700 + encSrDr sr dr
  | .exit => 0o146142
  | .rclr dr => 0o146100 + dr.toNat
  | .rinc dr => 0o146400 + dr.toNat
  | .rdcr dr => 0o146200 + dr.toNat
  | .tra n => 0o150000 + n.toNat
  | .trr n => 0o150100 + n.toNat
  | .mcl n => 0o150200 + n.toNat
  | .mst n => 0o150300 + n.toNat
  | .opcom => 0o150400
  | .iof => 0o150401
  | .ion => 0o150402
  | .pof => 0o150404
  | .piof => 0o150405
  | .sex => 0o150406
  | .rex => 0o150407
  | .pon => 0o150410
  | .pion => 0o150412
  | .ioxt => 0o150415
  | .exam => 0o150416
  | .depo => 0o150417
  | .wait number => 0o151000 + number.toNat
  | .nlz sc => 0o151400 + sc.toNat
  | .dnz sc => 0o152000 + sc.toNat
  | .srb level => 0o152402 + level.toNat * 8
  | .lrb level => 0o152600 + level.toNat * 8
  | .mon number => 0o153000 + number.toNat
  | .irw level dr => 0o153400 + level.toNat * 8 + dr.toNat
  | .irr level dr => 0o153600 + level.toNat * 8 + dr.toNat
  | .sht type ignored count => 0o154000 + type.toNat * 512 + encBit ignored 64 + count.toNat
  | .shd type ignored count => 0o154200 + type.toNat * 512 + encBit ignored 64 + count.toNat
  | .sha type ignored count => 0o154400 + type.toNat * 512 + encBit ignored 64 + count.toNat
  | .sad type ignored count => 0o154600 + type.toNat * 512 + encBit ignored 64 + count.toNat
  | .iox address => 0o164000 + address.toNat
  | .sab arg => 0o170000 + arg.toNat
  | .saa arg => 0o170400 + arg.toNat
  | .sat arg => 0o171000 + arg.toNat
  | .sax arg => 0o171400 + arg.toNat
  | .aab arg => 0o172000 + arg.toNat
  | .aaa arg => 0o172400 + arg.toNat
  | .aat arg => 0o173000 + arg.toNat
  | .aax arg => 0o173400 + arg.toNat
  | .bsetZro bn dr => 0o174000 + bn.toNat * 8 + dr.toNat
  | .bsetOne bn dr => 0o174200 + bn.toNat * 8 + dr.toNat
  | .bsetBcm bn dr => 0o174400 + bn.toNat * 8 + dr.toNat
  | .bsetBac bn dr => 0o174600 + bn.toNat * 8 + dr.toNat
  | .bskpZro bn dr => 0o175000 + bn.toNat * 8 + dr.toNat
  | .bskpOne bn dr => 0o175200 + bn.toNat * 8 + dr.toNat
  | .bskpBcm bn dr => 0o175400 + bn.toNat * 8 + dr.toNat
  | .bskpBac bn dr => 0o175600 + bn.toNat * 8 + dr.toNat
  | .bstc bn dr => 0o176000 + bn.toNat * 8 + dr.toNat
  | .bsta bn dr => 0o176200 + bn.toNat * 8 + dr.toNat
  | .bldc bn dr => 0o176400 + bn.toNat * 8 + dr.toNat
  | .blda bn dr => 0o176600 + bn.toNat * 8 + dr.toNat
  | .banc bn dr => 0o177000 + bn.toNat * 8 + dr.toNat
  | .band bn dr => 0o177200 + bn.toNat * 8 + dr.toNat
  | .borc bn dr => 0o177400 + bn.toNat * 8 + dr.toNat
  | .bora bn dr => 0o177600 + bn.toNat * 8 + dr.toNat

/-- The word of an instruction (R200). -/
def encodeWord (i : Instr) : Word := Word.ofNat (encodeNat i)

/-- The words of an instruction: always one (R200). -/
def encode (i : Instr) : List Word := [encodeWord i]

/-- The bytes of an instruction as memory holds them, the high byte first (`spec/20_memory.md` R102). -/
def encodeBytes (i : Instr) : List Byte :=
  [(encodeWord i).extractLsb' 8 8, (encodeWord i).extractLsb' 0 8]

/-- The instruction of a table word of `nbits` bits, its bits above `nbits` zero. The word is laid out as two bytes, the
high byte first, and given to `decode` for an installation with the CX option; a word that only an installation without
it assigns (customer instruction 2, R208) is read for that one. -/
def decodeTableWord (nbits w : Nat) : Option Instr :=
  let word := Word.ofNat (w % 2 ^ nbits)
  let bytes := [word.extractLsb' 8 8, word.extractLsb' 0 8]
  match decode true bytes with
  | .ok (i, _) => some i
  | .error _ =>
    match decode false bytes with
    | .ok (i, _) => some i
    | .error _ => none

end Sys2Proof
end

