-- ==== Sys2Proof/Machine/Devices.lean ====
section
/-! DEFINITION. Input and output (`spec/61_io_devices.md`): the clock and the console of the CPU board (R750 to R760), the
plugged-in interfaces (R740, R761 to R766), the transfer that IOX makes (`spec/49_system_control.md` R495), the search
that IDENT makes (R746), and device clear (R744). -/

namespace Sys2Proof.Machine

/-- A word whose bits 0, 1, 2, … are the given ones. -/
def wordOfBits : List Bool → Word
  | [] => 0
  | b :: r => (wordOfBits r <<< 1) ||| (if b then 1 else 0)

/-! ### The real-time clock (R750 to R755) -/

/-- Read a clock register (R752, R754). -/
def Clock.read (c : Clock) (reg : BitVec 2) : Word :=
  if reg = 2 then wordOfBits [c.ie, false, false, c.ready] else 0

/-- Write a clock register (R753, R755). -/
def Clock.write (c : Clock) (reg : BitVec 2) (v : Word) : Clock :=
  if reg = 3 then
    let ready := c.ready && !v.getLsbD 13
    { c with ie := v.getLsbD 0, ready := ready, ff := c.ff || (!c.ie && v.getLsbD 0 && ready) }
  else { c with cleared := true }

/-- A clock pulse (R751). -/
def Clock.pulse (c : Clock) : Clock := { cleared := false, ready := true, ie := c.ie, ff := c.ff || c.ie }

/-- Master clear of the clock (R755). -/
def Clock.clear (c : Clock) : Clock := { c with ready := false, ie := false, ff := false }

/-! ### The console (R756 to R760) -/

/-- The low bits of a character that a length code keeps: 00 eight, 01 seven, 10 six, 11 five (R757, R758). -/
def cutCharacter (len : BitVec 2) (c : Byte) : Byte := c &&& ((255 : Byte) >>> len.toNat)

/-- Read a console register: 300 data, 302 input status, 304 zero, 306 output status (R757 to R759). -/
def Console.read (c : Console) (opcom : Bool) (reg : BitVec 3) : Word × Console :=
  if reg = 0 then
    (c.data.zeroExtend 16, { c with avail := c.avail && opcom, fe := false, pe := false, ovr := false })
  else if reg = 2 then
    (wordOfBits [c.inIe, false, false, c.avail && !opcom, c.fe || c.pe || c.ovr, c.fe, c.pe, c.ovr], c)
  else if reg = 6 then (wordOfBits [c.outIe, false, false, c.outReady], c)
  else (0, c)

/-- The input control word (R757). -/
def Console.inputControl (c : Console) (opcom : Bool) (v : Word) : Console :=
  { c with
    inIe := v.getLsbD 0, len := v.extractLsb' 11 2, oneStop := v.getLsbD 13, par := v.getLsbD 14
    inFf := c.inFf || (!c.inIe && v.getLsbD 0 && c.avail && !opcom) }

/-- The output control word (R758). -/
def Console.outputControl (c : Console) (v : Word) : Console :=
  { c with outIe := v.getLsbD 0, outFf := c.outFf || (!c.outIe && v.getLsbD 0 && c.outReady) }

/-- Put a character into the transmitter (R758). -/
def Console.send (c : Console) (ch : Byte) : Console := { c with sending := some ch, outReady := false }

/-- The character in the transmitter joins those sent. -/
def Console.flush (c : Console) : Console :=
  match c.sending with
  | some ch => { c with sending := none, output := ch :: c.output }
  | none => c

/-- The transmitter is ready again (R758). -/
def Console.transmitted (c : Console) : Console :=
  if c.outReady then c else { c.flush with outReady := true, outFf := c.outFf || c.outIe }

/-- A character arrives (R757). -/
def Console.receive (c : Console) (opcom : Bool) (ch : Byte) (fe pe : Bool) : Console :=
  { c with
    data := cutCharacter c.len ch, ovr := c.ovr || c.avail, avail := true, fe := fe, pe := pe
    inFf := c.inFf || (c.inIe && !opcom) }

/-- Master clear of the console (R760). -/
def Console.clear (c : Console) : Console :=
  { c.flush with
    inIe := false, outIe := false, inFf := false, outFf := false, avail := false, fe := false, pe := false
    ovr := false, outReady := true, len := 1, par := true }

/-- Write a console register: 301 nothing, 303 and 307 control, 305 data; a character written while the transmitter is
not ready replaces the one in it or is lost (R757 to R759; U-row of `spec/93_implementation_defined.md`). -/
def State.consoleWrite (s : State) (reg : BitVec 3) (v : Word) : State :=
  if reg = 3 then { s with console := s.console.inputControl s.opcomActive v }
  else if reg = 7 then { s with console := s.console.outputControl v }
  else if reg = 5 then
    let ch := cutCharacter s.console.len (v.setWidth 8)
    if s.console.outReady then { s with console := s.console.send ch }
    else
      let (replaces, s) := s.drawBit
      if replaces then { s with console := s.console.send ch } else s
  else s

/-! ### The plugged-in interfaces (R740, R742 to R744, R761 to R766; log 17) -/

/-- A control write to an input channel: enables, activity, and the flip-flop by R747; `error` is status bit 4 (R742,
R747). -/
def InputChannel.control (c : InputChannel) (error : Bool) (v : Word) : InputChannel :=
  { c with
    ie := v.getLsbD 0, errIe := v.getLsbD 1, active := v.getLsbD 2
    ff := c.ff || (!c.ie && v.getLsbD 0 && c.ready) || (!c.errIe && v.getLsbD 1 && error) }

/-- An input channel whose control and status bits are 0 (R742, R744). -/
def InputChannel.cleared : InputChannel :=
  { ie := false, errIe := false, active := false, ready := false, framing := false, parity := false, overrun := false
    ff := false }

/-- Status bit 4 of an input channel (R743, R761). -/
def InputChannel.error (c : InputChannel) : Bool := c.framing || c.parity || c.overrun

/-- An output channel whose control and status bits are 0, its characters dropped; status bit 3 of it is 1, as R761 says of an
empty data register, though R744 says 0 (R742, R744; log 17). -/
def OutputChannel.cleared : OutputChannel :=
  { ie := false, errIe := false, broken := false, ff := false, sending := none, holding := none }

/-- Output status bit 3 of a terminal: the data register is empty (R743, R761). -/
def OutputChannel.ready (c : OutputChannel) : Bool := c.holding.isNone

/-- Output status bit 2 of a terminal: busy transmitting (R761). -/
def OutputChannel.busy (c : OutputChannel) : Bool := c.sending.isSome || c.holding.isSome

/-- A control write to an output channel: enables, and the flip-flop by R747; bit 2 does nothing of its own, since data
activate the channel (R761; log 17). -/
def OutputChannel.control (c : OutputChannel) (v : Word) : OutputChannel :=
  { c with
    ie := v.getLsbD 0, errIe := v.getLsbD 1
    ff := c.ff || (!c.ie && v.getLsbD 0 && c.ready) || (!c.errIe && v.getLsbD 1 && c.broken) }

/-- The input status of a terminal (R761). -/
def Terminal.inputStatus (t : Terminal) : Word :=
  wordOfBits [t.inp.ie, t.inp.errIe, t.inp.active, t.inp.ready, t.inp.error, t.inp.framing, t.inp.parity, t.inp.overrun,
    false, false, false, false, false, false, false, t.motorStopped]

/-- The output status of a terminal; its one error is the broken loop (R761). -/
def Terminal.outputStatus (t : Terminal) : Word :=
  wordOfBits [t.out.ie, t.out.errIe, t.out.busy, t.out.ready, t.out.broken, t.out.broken,
    false, false, false, false, false, false, false, false, false, t.motorStopped]

/-- A character reaches the input channel of a terminal, if the channel is active; one from the line also in test mode. Its own
framing and parity bits replace those of a character not yet read (R761; log 17). -/
def Terminal.receive (t : Terminal) (ch : Byte) (framing parity : Bool) : Terminal :=
  if t.inp.active then
    let error := framing || (parity && t.par) || t.inp.ready
    { t with
      data := cutCharacter t.len ch
      inp := { t.inp with
        overrun := t.inp.overrun || t.inp.ready, ready := true, framing := framing, parity := parity && t.par
        ff := t.inp.ff || t.inp.ie || (t.inp.errIe && error && !t.inp.error) } }
  else t

/-- Device clear of a terminal: all its control and status bits are 0 but output status bit 3 (R742, R744, R761; log 17). -/
def Terminal.clear (t : Terminal) : Terminal :=
  { t with
    inp := InputChannel.cleared, out := OutputChannel.cleared, test := false, len := 0, oneStop := false, par := false
    autostop := false, motorStopped := false, motorCalled := false }

/-- Write a terminal register: 1 data rate, 3 input control, 5 data, 7 output control (R761, R762). A character written
before the data register is empty replaces the one in it; a character to transmit calls for a motor that has stopped (log 17). -/
def Terminal.write (t : Terminal) (reg : BitVec 3) (v : Word) : Terminal :=
  if reg = 1 then { t with rate := v.setWidth 8 }
  else if reg = 3 then
    if v.getLsbD 4 then t.clear
    else
      { t with
        inp := t.inp.control t.inp.error v
        test := v.getLsbD 3, len := v.extractLsb' 11 2, oneStop := v.getLsbD 13, par := v.getLsbD 14
        autostop := v.getLsbD 15 }
  else if reg = 5 then
    { t with
      out := { t.out with holding := some (cutCharacter t.len (v.setWidth 8)) }, motorCalled := t.motorStopped }
  else { t with out := t.out.control v }

/-- Read a terminal register: 0 data, which clears the error bits, 2 input status, 6 output status; 4 has no function and
reads 0 (R761; log 17). -/
def Terminal.read (t : Terminal) (reg : BitVec 3) : Word × Terminal :=
  if reg = 0 then
    (t.data.zeroExtend 16,
      { t with inp := { t.inp with ready := false, framing := false, parity := false, overrun := false } })
  else if reg = 2 then (t.inputStatus, t)
  else if reg = 6 then (t.outputStatus, t)
  else (0, t)

/-- Control of the paper tape reader (R763): activation starts the reading of a character and clears ready; under test with
the reader ready the data register counts. Ready is looked at after the activation (R747; log 17). DESIGN CHOICE: a control write
that activates a ready reader under test counts too and leaves ready at 1; the rule does not say (log 17). -/
def TapeReader.control (r : TapeReader) (v : Word) : TapeReader :=
  if v.getLsbD 4 then { r with ie := false, active := false, test := false, ready := false, ff := false }
  else
    let counting := v.getLsbD 3 && r.ready
    let ready := r.ready && (counting || !v.getLsbD 2)
    { r with
      ie := v.getLsbD 0, active := v.getLsbD 2, test := v.getLsbD 3, ready := ready
      data := if counting then r.data + 1 else r.data
      ff := r.ff || (!r.ie && v.getLsbD 0 && ready) }

/-- Read a reader register: 0 the character, 2 the status (R763). -/
def TapeReader.read (r : TapeReader) (reg : BitVec 2) : Word :=
  if reg = 0 then r.data.zeroExtend 16 else wordOfBits [r.ie, false, r.active, r.ready]

/-- Write a punch register: 1 the buffer, 3 the control; activation clears ready at once, and ready is looked at after it
(R747, R764; log 17). DESIGN CHOICE: a character written to the buffer while the punch is not ready, which R764 calls not wise,
replaces the one in it, so that this one is punched (log 17). -/
def TapePunch.write (p : TapePunch) (reg : BitVec 2) (v : Word) : TapePunch :=
  if reg = 1 then { p with buffer := v.setWidth 8 }
  else if v.getLsbD 4 then { p with ie := false, active := false, test := false, ready := false, ff := false }
  else
    let ready := p.ready && !v.getLsbD 2
    { p with
      ie := v.getLsbD 0, active := v.getLsbD 2, test := v.getLsbD 3, ready := ready
      ff := p.ff || (!p.ie && v.getLsbD 0 && ready) }

/-- Read a punch register: 2 the status, 0 the buffer under test; otherwise what 0 reads is open (R764). -/
def TapePunch.read (p : TapePunch) (reg : BitVec 2) : Option Word :=
  if reg = 2 then some (wordOfBits [p.ie, false, p.active, p.ready])
  else if p.test then some (p.buffer.zeroExtend 16) else none

/-- The status of a DMA controller (R743, R765). -/
def DmaController.status (d : DmaController) : Word :=
  wordOfBits [d.control.getLsbD 0, d.control.getLsbD 1, d.control.getLsbD 2, d.ready, d.error, false, false, false, false,
    d.control.getLsbD 9, d.control.getLsbD 10]

/-- Read a DMA register: 0 memory address in two reads, low part first, 2 sector counter, 4 status, 6 block address
(R765). -/
def DmaController.read (d : DmaController) (reg : BitVec 3) : Word × DmaController :=
  if reg = 0 then
    if d.marRead then ((d.mar.extractLsb' 16 8).zeroExtend 16, { d with marRead := false })
    else (d.mar.extractLsb' 0 16, { d with marRead := true })
  else if reg = 2 then (d.sector, d)
  else if reg = 4 then (d.status, d)
  else (d.bar, d)

/-- The control word of a DMA controller; activation starts a transfer and clears ready and error, which are looked at after
it; a device clear also resets the order of the two accesses to the memory address; bit 3, test mode, has no effect (R742, R744,
R747, R765, R766; log 17). -/
def DmaController.load (d : DmaController) (v : Word) : DmaController :=
  if v.getLsbD 4 then
    { d with control := 0, ready := false, error := false, ff := false, marHigh := false, marRead := false }
  else
    let ready := d.ready && !v.getLsbD 2
    { d with
      control := v, ready := ready, error := d.error && !v.getLsbD 2
      ff := d.ff || (!d.control.getLsbD 0 && v.getLsbD 0 && ready) ||
        (!d.control.getLsbD 1 && v.getLsbD 1 && d.error && !v.getLsbD 2) }

/-- Write a DMA register: 1 memory address in two writes, high part first, 3 block address, 5 control, 7 word counter
(R765). -/
def DmaController.write (d : DmaController) (reg : BitVec 3) (v : Word) : DmaController :=
  if reg = 1 then
    if d.marHigh then { d with mar := d.mar.extractLsb' 16 8 ++ v, marHigh := false }
    else { d with mar := v.extractLsb' 0 8 ++ d.mar.extractLsb' 0 16, marHigh := true }
  else if reg = 3 then { d with bar := v }
  else if reg = 5 then d.load v
  else { d with wc := v }

/-- The lowest address of an interface (R734). -/
def Device.base : Device → Word
  | .external e => e.base
  | .terminal e => e.base
  | .reader e => e.base
  | .punch e => e.base
  | .dma e => e.base

/-- How many addresses an interface has (R734). -/
def Device.size : Device → Nat
  | .external e => e.size
  | .terminal _ => 8
  | .reader _ => 4
  | .punch _ => 4
  | .dma _ => 8

/-- `d.decodes(addr)` (R740, R741). -/
def Device.decodes (d : Device) (addr : Word) : Bool :=
  decide (d.base.toNat ≤ addr.toNat ∧ addr.toNat < d.base.toNat + d.size)

/-- `d.read(addr)` (R740); no value where the spec leaves it open. -/
def Device.read (d : Device) (addr : Word) : Option Word × Device :=
  match d with
  | .external e => (e.presents[(addr - e.base).toNat]?, .external { e with reads := addr :: e.reads })
  | .terminal e => let (v, e') := e.read ((addr - e.base).setWidth 3); (some v, .terminal e')
  | .reader e => (some (e.read ((addr - e.base).setWidth 2)), d)
  | .punch e => (e.read ((addr - e.base).setWidth 2), d)
  | .dma e => let (v, e') := e.read ((addr - e.base).setWidth 3); (some v, .dma e')

/-- `d.write(addr, v)` (R740). -/
def Device.write (d : Device) (addr v : Word) : Device :=
  match d with
  | .external e => .external { e with writes := (addr, v) :: e.writes }
  | .terminal e => .terminal (e.write ((addr - e.base).setWidth 3) v)
  | .reader e => if (addr - e.base).setWidth 2 = (3 : BitVec 2) then .reader (e.control v) else d
  | .punch e => .punch (e.write ((addr - e.base).setWidth 2) v)
  | .dma e => .dma (e.write ((addr - e.base).setWidth 3) v)

/-- No flip-flop set. -/
def Lines.none : Lines := { l10 := false, l11 := false, l12 := false, l13 := false, l15 := false }

/-- The values that the registers of an external interface present after a clear: status registers present 0 (R744). -/
def External.clearedValues (e : External) : List Word :=
  e.presents.zipIdx.map fun (v, i) => if e.statusRegs.contains i then 0 else v

/-- `d.clear()`: the bus signal master clear; a terminal returns to the data rate of its switch (R740, R744, R762). -/
def Device.clear : Device → Device
  | .external e => .external { e with presents := e.clearedValues, ff := Lines.none }
  | .terminal e => .terminal { e.clear with rate := e.rateSwitch }
  | .reader e => .reader { e with ie := false, active := false, test := false, ready := false, ff := false }
  | .punch e => .punch { e with ie := false, active := false, test := false, ready := false, ff := false }
  | .dma e => .dma { e with control := 0, ready := false, error := false, ff := false, marHigh := false, marRead := false }

/-- The flip-flop of one level cleared. -/
def Lines.clear (l : Lines) (level : Nat) : Lines :=
  match level with
  | 10 => { l with l10 := false }
  | 11 => { l with l11 := false }
  | 12 => { l with l12 := false }
  | 13 => { l with l13 := false }
  | _ => l

/-- Answer an IDENT on a level: the ident code and the device with that flip-flop cleared (R746). -/
def Device.identified (d : Device) (level : Nat) : BitVec 9 × Device :=
  match d with
  | .external e =>
    ((match level with | 10 => e.ident10 | 11 => e.ident11 | 12 => e.ident12 | _ => e.ident13),
      .external { e with ff := e.ff.clear level })
  | .terminal e =>
    (e.ident, if level == 10 then .terminal { e with out := { e.out with ff := false } }
      else .terminal { e with inp := { e.inp with ff := false } })
  | .reader e => (e.ident, .reader { e with ff := false })
  | .punch e => (e.ident, .punch { e with ff := false })
  | .dma e => (e.ident, .dma { e with ff := false })

/-- The first interface that decodes an address reads (R741). -/
def readDevices (addr : Word) : List Device → Option (Option Word × List Device)
  | [] => none
  | d :: r =>
    if d.decodes addr then some ((d.read addr).1, (d.read addr).2 :: r)
    else
      match readDevices addr r with
      | some (v, r') => some (v, d :: r')
      | none => none

/-- The first interface that decodes an address is written (R741). -/
def writeDevices (addr v : Word) : List Device → Option (List Device)
  | [] => none
  | d :: r => if d.decodes addr then some (d.write addr v :: r) else (writeDevices addr v r).map (d :: ·)

/-- A data rate written to one terminal of a module holds for its four (R762). -/
def Device.followRate (written : Terminal) (d : Device) : Device :=
  match d with
  | .terminal e => if e.base.toNat / 32 = written.base.toNat / 32 then .terminal { e with rate := written.rate } else d
  | _ => d

/-- The interfaces after a write to an address: a new data rate reaches the other terminals of the module (R762). -/
def spreadRate (addr : Word) (ds : List Device) : List Device :=
  match ds.find? fun d => d.decodes addr with
  | some (.terminal t) => if (addr - t.base).toNat = 1 then ds.map (Device.followRate t) else ds
  | _ => ds

/-- The search of IDENT along the bus (R746). -/
def identDevices (level : Nat) : List Device → Option (BitVec 9 × List Device)
  | [] => none
  | d :: r =>
    if d.drives level then some ((d.identified level).1, (d.identified level).2 :: r)
    else
      match identDevices level r with
      | some (c, r') => some (c, d :: r')
      | none => none

/-! ### The transfer and the search -/

/-- Whether an address is one of the clock's (R750). -/
def isClock (addr : Word) : Bool := addr &&& 0o177774 == 0o10

/-- Whether an address is one of the console's (R756). -/
def isConsole (addr : Word) : Bool := addr &&& 0o177770 == 0o300

/-- The address of ECCR on the bus (R730, R732). -/
def eccrAddress : Word := 0o100115

/-- `IoTransfer` from an even address: the value read; without an answer IOX is raised and the value is open (R495,
U4). -/
def State.ioRead (s : State) (addr : Word) : Word × State :=
  if isClock addr then (s.clock.read (addr.setWidth 2), s)
  else if isConsole addr then
    let (v, c) := s.console.read s.opcomActive (addr.setWidth 3)
    (v, { s with console := c })
  else
    match readDevices addr s.devices with
    | some (some v, ds) => (v, { s with devices := ds })
    | some (none, ds) => { s with devices := ds }.drawWord
    | none => (s.raise .iox).drawWord

/-- `IoTransfer` to an odd address; without an answer IOX is raised (R495). -/
def State.ioWrite (s : State) (addr v : Word) : State :=
  if isClock addr then { s with clock := s.clock.write (addr.setWidth 2) v }
  else if isConsole addr then s.consoleWrite (addr.setWidth 3) v
  else if addr = eccrAddress then { s with eccr := v.setWidth 5 }
  else
    match writeDevices addr v s.devices with
    | some ds => { s with devices := spreadRate addr ds }
    | none => s.raise .iox

/-- `IoTransfer` for the A register (R495), a bus cycle before which other agents may get theirs (R766). -/
def State.ioTransfer (s : State) (addr : Word) : State :=
  let s := s.yieldBus
  if addr.getLsbD 0 then s.ioWrite addr s.a
  else
    let (v, s) := s.ioRead addr
    s.setA v

/-- `IdentSearch`, clock and console first, and what the device found does (R492, R746, R750, R756, R760). -/
def State.identSearch (s : State) (level : Nat) : Option (BitVec 9 × State) :=
  if level == 13 && s.clock.ff then some (1, { s with clock := { s.clock with ff := false } })
  else if level == 10 && s.console.outFf then some (1, { s with console := { s.console with outFf := false } })
  else if level == 12 && s.console.inFf then some (1, { s with console := { s.console with inFf := false } })
  else
    match identDevices level s.devices with
    | some (c, ds) => some (c, { s with devices := ds })
    | none => none

/-! ### What devices do on their own (R740, R761 to R766) -/

/-- The paper tape reader has read a character (R763); the active bit is static (R742). -/
def TapeReader.readOne (r : TapeReader) (c : Byte) : TapeReader :=
  if r.active && !r.ready then
    { r with ready := true, data := if r.test then r.data else c, ff := r.ff || r.ie }
  else r

/-- The punch has punched its character (R764); the active bit is static (R742). DESIGN CHOICE: under test it becomes ready
in the same way, but punches nothing; the rule does not say whether it does (log 17). -/
def TapePunch.punchOne (p : TapePunch) : TapePunch :=
  if p.active && !p.ready then
    { p with ready := true, punched := if p.test then p.punched else p.buffer :: p.punched, ff := p.ff || p.ie }
  else p

/-- The character in the transmitter of a terminal leaves: to the peripheral, or under test to the input channel (R761). -/
def Terminal.transmit (t : Terminal) : Terminal :=
  match t.out.sending with
  | some c =>
    let t := { t with out := { t.out with sending := none } }
    if t.test then t.receive c false false else { t with output := c :: t.output }
  | none => t

/-- The data register of a terminal passes its character to the transmitter and is ready for the next (R747, R761). -/
def OutputChannel.refill (c : OutputChannel) : OutputChannel :=
  match c.holding with
  | some ch => { c with sending := some ch, holding := none, ff := c.ff || c.ie }
  | none => c

/-- The transmitter of a terminal moves on: a character leaves it, and the next one enters it (R761). -/
def Terminal.sentOne (t : Terminal) : Terminal :=
  let t := t.transmit
  { t with out := t.out.refill }

/-- The motor of a terminal some time after a character was transmitted, by control bit 15, motor autostop (R761): a running one
stops after the last character, a stopped one starts after a new one. Without autostop none stops, and a stopped one starts
(log 17). -/
def Terminal.turnMotor (t : Terminal) (stopped : Bool) : Terminal :=
  if stopped then if t.autostop && !t.motorStopped && !t.out.busy then { t with motorStopped := true } else t
  else if t.motorCalled || !t.autostop then { t with motorStopped := false, motorCalled := false }
  else t

/-- The disk of a DMA controller turns, or reports an error: status bit 4, with the flip-flop by R747. DESIGN CHOICE: an error
does not end a transfer, since R766 ends it only when the word counter is 0 (log 17). -/
def DmaController.turnDisk (d : DmaController) (sector : Word) (error : Bool) : DmaController :=
  { d with sector := sector, error := d.error || error, ff := d.ff || (d.control.getLsbD 1 && error && !d.error) }

/-- A transition of an interface that touches no memory. The broken loop is an error as long as the loop is broken (R761;
log 17). -/
def Device.onEvent (d : Device) (e : DeviceEvent) : Device :=
  match d, e with
  | .external x, .external presents ff => .external { x with presents := presents, ff := ff }
  | .terminal t, .received c framing parity => .terminal (t.receive c framing parity)
  | .terminal t, .ready _ => .terminal t.sentOne
  | .terminal t, .motor stopped => .terminal (t.turnMotor stopped)
  | .terminal t, .loop broken =>
    .terminal { t with
      out := { t.out with broken := broken, ff := t.out.ff || (t.out.errIe && broken && !t.out.broken) } }
  | .reader r, .ready c => .reader (r.readOne c)
  | .punch p, .ready _ => .punch p.punchOne
  | .dma x, .disk sector error => .dma (x.turnDisk sector error)
  | d, _ => d

/-- Interface number `n` makes a transition of its own (R740). -/
def State.deviceEvent (s : State) (n : Nat) (e : DeviceEvent) : State :=
  match s.devices[n]? with
  | some d => { s with devices := setDevice n (d.onEvent e) s.devices }
  | none => s

end Sys2Proof.Machine
end

