-- ==== Sys2Proof/Machine/InternalRegisters.lean ====
section
/-! DEFINITION. Internal registers and the register sets of other levels (`spec/50_internal_register_instr.md`): TRA, TRR, MCL,
MST, IRR, IRW, SRB, LRB. -/

namespace Sys2Proof.Machine

/-- HAS_PANEL: the panel processor stands on the memory management module (`spec/61_io_devices.md` R770). -/
def State.panelPresent (s : State) : Bool := s.cfg.hasMms && s.cfg.hasPanel

/-- The microprogram reads the panel status, internal register 40: this resets PANREQ, which MOPC then owes a sample
(`spec/61_io_devices.md` R775; `spec/62_operator.md` R850; log 47). -/
def State.readPanelStatus (s : State) : State :=
  { s with
    panel := { s.panel with request := false }
    mopc := { s.mopc with sampleDue := s.mopc.sampleDue || s.panel.request } }

/-- The panel status word with its bit 11 as given (`spec/10_state.md` R58; `spec/61_io_devices.md` R771). -/
def State.pans (s : State) (bit11 : Bool) : Word :=
  BitVec.ofBool true ++ BitVec.ofBool (decide (s.panel.fifo.length < s.cfg.panelFifoDepth)) ++
    BitVec.ofBool s.panel.read ++ BitVec.ofBool s.panel.comRdy ++ BitVec.ofBool bit11 ++ s.panel.pcom ++ s.panel.rpan

/-- PVL as TRA delivers it: the word of IRR for the previous level's P (`spec/10_state.md` R51). -/
def State.pvlWord (s : State) : Word := 0o153602 ||| (s.pvl.zeroExtend 16 <<< 3)

/-- The level that bits 6-3 of a word name (`spec/10_state.md` R66). -/
def levelField (v : Word) : BitVec 4 := v.extractLsb' 3 4

/-- A paging control register in the layout of TRA PGC (`spec/10_state.md` R66). -/
def Pcr.word (r : Pcr) : Word :=
  (0 : BitVec 5) ++ r.pt ++ r.apt ++ (0 : BitVec 5) ++ r.ring

/-- CUP: whether the fetch at P + 1 would write into the cache (`spec/70_reset_and_hazards.md` R881). -/
def State.cacheUpdate (s : State) : Bool :=
  s.cacheEnabled && !s.shadowReached (s.p + 1) &&
    match s.translate .fetch .prel (s.p + 1) with
    | .done pa _ => !s.cacheInhibited (pageOf pa) && (s.cacheHit pa).isNone
    | .aborted _ => false

/-- CSR (`spec/10_state.md` R60): without a cache only bit 2. -/
def State.csr (s : State) : Word :=
  if s.cfg.hasMms && s.cfg.hasCache then wordOfBits [s.cacheUpdate, s.cacheEnabled] else 4

/-- ALD, the value of the thumbwheel (`spec/70_reset_and_hazards.md` R866). -/
def aldValue : AldSwitch → Word
  | .p15 => 0o000000 | .p14 => 0o001560 | .p13 => 0o020500 | .p12 => 0o021540 | .p11 => 0o000400 | .p10 => 0o001600
  | .p7 => 0o100000 | .p6 => 0o101560 | .p5 => 0o120500 | .p4 => 0o121540 | .p3 => 0o100400 | .p2 => 0o101600

/-- `TraValue` with the side effects of the read (R532). -/
def State.traRead (s : State) (n : BitVec 4) : Word × State :=
  match n.toNat with
  | 0 =>
    if s.panelPresent then
      let (b, s) := s.drawBit
      (s.pans b, { s with panel := { s.panel with comRdy := false } })
    else (0, s)
  | 1 => (s.statusWord, s)
  | 2 => (s.opr, s)
  | 3 => if s.cfg.hasMms then (s.psr, { s with psrLock := false }) else (0, s)
  | 4 => (s.pvlWord, s)
  | 5 => (s.iic.zeroExtend 16, { s with iic := 0, iicLock := false })
  | 6 => (s.pidSeen, s)
  | 7 => (s.pie, s)
  | 8 => (s.csr, s)
  | 9 => (BitVec.twoPow 16 s.pil.toNat, s)
  | 10 => (aldValue s.cfg.ald, s)
  | 11 => (s.pes, s)
  | 12 => (if s.cfg.hasMms then (s.pcrOf (levelField s.a)).word else 0, s)
  | 13 => (s.pea, { s with pesLock := false })
  | _ => (0, s)

/-- `TrrWrite` (R533); nothing for a command that finds the panel's FIFO full
(`spec/61_io_devices.md` R770). -/
def State.trrWrite (s : State) (n : BitVec 4) (v : Word) : Option State :=
  match n.toNat with
  | 0 =>
    if !s.panelPresent then some s
    else if s.panel.fifo.length < s.cfg.panelFifoDepth then
      some { s with panel := { s.panel with fifo := s.panel.fifo ++ [v] } }
    else none
  | 1 => some (s.setSts (v.setWidth 8))
  | 2 => some { s with lmp := v }
  | 3 =>
    if s.cfg.hasMms then
      some (s.setPcr (levelField v)
        { pt := v.extractLsb' 9 2, apt := v.extractLsb' 7 2, ring := v.extractLsb' 0 2 })
    else some s
  | 5 => some { s with iie := v &&& 0o3776 }
  | 6 => some { s with pid := v }
  | 7 => some { s with pie := v }
  | 8 => some s.cacheClear
  | 9 => some { s with lcil := v.extractLsb' 0 14 }
  | 10 => some { s with ucil := v.extractLsb' 0 14 }
  | 13 => some { s.yieldBus with eccr := v.extractLsb' 0 5 }
  | _ => some s

/-- TRA (R532). -/
def execTra (n : BitVec 4) (s : State) : Result :=
  s.privileged <|
    let (v, s) := s.traRead n
    .next (s.setA v).advance

/-- TRR (R533). -/
def execTrr (n : BitVec 4) (s : State) : Result :=
  s.privileged <|
    match s.trrWrite n s.a with
    | some s => .next s.advance
    | none => .refused .panelFifoFull

/-- MCL (R534). -/
def execMcl (n : BitVec 4) (s : State) : Result :=
  s.privileged <| .next <| State.advance <|
    match n.toNat with
    | 1 => s.setSts (s.sts &&& ~~~ (s.a.setWidth 8))
    | 6 => { s with pid := s.pid &&& ~~~ s.a }
    | 7 => { s with pie := s.pie &&& ~~~ s.a }
    | _ => s

/-- MST (R535). -/
def execMst (n : BitVec 4) (s : State) : Result :=
  s.privileged <| .next <| State.advance <|
    match n.toNat with
    | 1 => s.setSts (s.sts ||| s.a.setWidth 8)
    | 6 => { s with pid := s.pid ||| s.a }
    | 7 => { s with pie := s.pie ||| s.a }
    | _ => s

/-- A register of a level as IRR and SRB read it: P of the current level is that of the next word (R537, R540). -/
def State.levelRegister (s : State) (level : BitVec 4) (r : RField) : Word :=
  if r = .p ∧ level = s.pil then s.p + 1 else (s.reg level).get r

/-- IRR (R537). -/
def execIrr (level : BitVec 4) (dr : RField) (s : State) : Result :=
  s.privileged <| .next (s.setA (s.levelRegister level dr)).advance

/-- IRW (R538): a write to P of the current level is a dummy. -/
def execIrw (level : BitVec 4) (dr : RField) (s : State) : Result :=
  s.privileged <| .next <| State.advance <|
    if dr = .p ∧ level = s.pil then s else s.setReg level ((s.reg level).put dr s.a)

/-- The order of a register block (R539). -/
def blockOrder : List RField := [.p, .x, .t, .a, .d, .l, .zero, .b]

/-- Store words in ascending order, not P relative (R540). -/
def State.storeWords (s : State) : Word → List Word → Access Unit
  | _, [] => .done () s
  | va, w :: r => (s.memWrite .nonprel va w).bind fun _ s => s.storeWords (va + 1) r

/-- Read words in ascending order, not P relative (R541). -/
def State.loadWords (s : State) : Nat → Word → Access (List Word)
  | 0, _ => .done [] s
  | n + 1, va =>
    (s.memRead .rop .nonprel va).bind fun w s => (s.loadWords n (va + 1)).bind fun r s => .done (w :: r) s

/-- SRB (R540): the values are those at the start of the instruction. -/
def execSrb (level : BitVec 4) (s : State) : Result :=
  s.privileged <|
    (s.storeWords s.x (blockOrder.map (s.levelRegister level))).complete fun _ s => .next s.advance

/-- A register set loaded from the eight words of a block; P stays where `keepP` says so (R541). -/
def RegSet.ofBlock (r : RegSet) (keepP : Bool) (m : List Word) : RegSet :=
  { p := if keepP then r.p else m.getD 0 0
    x := m.getD 1 0, t := m.getD 2 0, a := m.getD 3 0, d := m.getD 4 0, l := m.getD 5 0
    sts := (m.getD 6 0).setWidth 8, b := m.getD 7 0 }

/-- LRB (R541): no register is written before all eight words have been read. -/
def execLrb (level : BitVec 4) (s : State) : Result :=
  s.privileged <|
    (s.loadWords 8 s.x).complete fun m s =>
      .next (s.setReg level ((s.reg level).ofBlock (decide (level = s.pil)) m)).advance

end Sys2Proof.Machine
end

