-- ==== Sys2Proof/Machine/MemoryReference.lean ====
section
/-! DEFINITION. Memory reference instructions (`spec/40_memory_reference.md`): stores, loads, MIN, integer arithmetic and
logic. -/

namespace Sys2Proof.Machine

/-- A store instruction of one word: the value goes to the effective location (R253 to R256). -/
def storeWord (m : MemRef) (w : Word) (s : State) : Result :=
  (s.writeOperand m w).complete fun _ s => .next s.advance

/-- An instruction that reads its operand word and then changes registers (R259 to R268). -/
def withOperand (m : MemRef) (s : State) (f : Word → State → State) : Result :=
  (s.readOperand m).complete fun w s => .next (f w s).advance

/-- STZ (R253). -/
def execStz (m : MemRef) (s : State) : Result := storeWord m 0 s
/-- STA (R254). -/
def execSta (m : MemRef) (s : State) : Result := storeWord m s.a s
/-- STT (R255). -/
def execStt (m : MemRef) (s : State) : Result := storeWord m s.t s
/-- STX (R256). -/
def execStx (m : MemRef) (s : State) : Result := storeWord m s.x s

/-- STD (R257): A, then D at the next address. -/
def execStd (m : MemRef) (s : State) : Result :=
  ((s.effLoc m).bind fun (el, rel) s' => s'.writeDouble rel el s.a s.d).complete fun _ s => .next s.advance

/-- LDD (R262): A, and D from the next address. -/
def execLdd (m : MemRef) (s : State) : Result :=
  ((s.effLoc m).bind fun (el, rel) s => s.readDouble .rop rel el).complete fun (a, d) s =>
    .next ((s.setA a).setD d).advance

/-- MIN (R258): increment the word, skip when it becomes zero. -/
def execMin (m : MemRef) (s : State) : Result :=
  ((s.effLoc m).bind fun (el, rel) s =>
    (s.memRead .rop rel el).bind fun v s => (s.memWrite rel el (v + 1)).bind fun _ s => .done (v + 1) s).complete
    fun r s => .next (s.skipIf (r == 0))

/-- LDA (R259). -/
def execLda (m : MemRef) (s : State) : Result := withOperand m s fun w s => s.setA w
/-- LDT (R260). -/
def execLdt (m : MemRef) (s : State) : Result := withOperand m s fun w s => s.setT w
/-- LDX (R261). -/
def execLdx (m : MemRef) (s : State) : Result := withOperand m s fun w s => s.setX w

/-- ADD (R264). -/
def execAdd (m : MemRef) (s : State) : Result :=
  withOperand m s fun w s =>
    let r := add16 s.a w false
    (s.setA r.r).setAddFlags r

/-- SUB (R265). -/
def execSub (m : MemRef) (s : State) : Result :=
  withOperand m s fun w s =>
    let r := sub16 s.a w
    (s.setA r.r).setAddFlags r

/-- AND (R266). -/
def execAnd (m : MemRef) (s : State) : Result := withOperand m s fun w s => s.setA (s.a &&& w)
/-- ORA (R267). -/
def execOra (m : MemRef) (s : State) : Result := withOperand m s fun w s => s.setA (s.a ||| w)

/-- MPY (R268): the low half of the signed product; overflow when it exceeds 32767 in absolute value. -/
def execMpy (m : MemRef) (s : State) : Result :=
  withOperand m s fun w s =>
    let p := s.a.toInt * w.toInt
    (s.setA (BitVec.ofInt 16 p)).setOverflow (decide (32767 < p.natAbs))

end Sys2Proof.Machine
end

