-- ==== Sys2Proof/Machine/PhysicalMemory.lean ====
section
/-! DEFINITION. Physical memory instructions (`spec/51_physical_memory.md`): EXAM, DEPO and the xxxTX group, all privileged. -/

namespace Sys2Proof.Machine

/-- The address of EXAM and DEPO: the low byte of A above D (R562). -/
def State.adAddress (s : State) : PhysAddr := s.a.extractLsb' 0 8 ++ s.d

/-- EXAM (R563). -/
def execExam (s : State) : Result :=
  s.privileged <|
    let (w, s) := s.busRead .examDepo s.adAddress
    .next (s.setT w).advance

/-- DEPO (R564). -/
def execDepo (s : State) : Result :=
  s.privileged <| .next (s.busWrite .examDepo s.adAddress s.t).advance

/-- The effective location of the xxxTX instructions, `k` words on: a carry out of X is dropped (R565). -/
def State.txAddress (s : State) (delta : BitVec 3) (k : Word) : PhysAddr :=
  s.t.extractLsb' 0 8 ++ (s.x + delta.zeroExtend 16 + k)

/-- Whether a physical address lies in the page-table range (R566). -/
def State.txShadow (s : State) (pa : PhysAddr) : Bool :=
  s.cfg.hasMms && pa.extractLsb' 16 8 == 0 && s.inShadow (pa.extractLsb' 0 16)

/-- `XRead` (R566, R567). -/
def State.xRead (s : State) (pa : PhysAddr) : Word × State :=
  if s.txShadow pa then (s.shadowRead (pa.extractLsb' 0 16), s) else s.busRead .data pa

/-- `XWrite` (R566, R567). -/
def State.xWrite (s : State) (pa : PhysAddr) (w : Word) : State :=
  if s.txShadow pa then s.shadowWrite (pa.extractLsb' 0 16) w else s.busWrite .data pa w

/-- LDATX (R567). -/
def execLdatx (delta : BitVec 3) (s : State) : Result :=
  s.privileged <|
    let (w, s) := s.xRead (s.txAddress delta 0)
    .next (s.setA w).advance

/-- LDXTX (R568). -/
def execLdxtx (delta : BitVec 3) (s : State) : Result :=
  s.privileged <|
    let (w, s) := s.xRead (s.txAddress delta 0)
    .next (s.setX w).advance

/-- LDDTX (R569). -/
def execLddtx (delta : BitVec 3) (s : State) : Result :=
  s.privileged <|
    let (a, s) := s.xRead (s.txAddress delta 0)
    let (d, s) := s.xRead (s.txAddress delta 1)
    .next ((s.setA a).setD d).advance

/-- The word that stands at an address of the running program, looked at without any effect: as it is stored, uncorrected,
and whether or not a module answers or the page may be fetched from (log 23). -/
def State.peek (s : State) (va : Word) : Word :=
  if s.shadowReached va then s.shadowRead va
  else
    let pa : PhysAddr :=
      if s.cfg.hasMms && s.poni then s.pageNumber (s.entryFor .prel va) ++ va.extractLsb' 0 10 else va.zeroExtend 24
    if s.cacheEnabled then (s.cacheHit pa).getD (s.mem.readWord pa) else s.mem.readWord pa

/-- LDBTX (R570): the doubled word as an address of the extended shadow range. An early microprogram wants the word
`0o177777` behind it, at P + 1 also where MOPC executes it without a fetch; what it does otherwise is not in the sources and is
refused (log 23). -/
def execLdbtx (delta : BitVec 3) (s : State) : Result :=
  s.privileged <|
    if s.cfg.earlyMicroprogram && s.peek (s.p + 1) != 0o177777 then .refused .earlyLdbtx
    else
      let (w, s) := s.xRead (s.txAddress delta 0)
      .next (s.setB (0o177000 ||| (w + w))).advance

/-- STATX (R571). -/
def execStatx (delta : BitVec 3) (s : State) : Result :=
  s.privileged <| .next (s.xWrite (s.txAddress delta 0) s.a).advance

/-- STZTX (R572). -/
def execStztx (delta : BitVec 3) (s : State) : Result :=
  s.privileged <| .next (s.xWrite (s.txAddress delta 0) 0).advance

/-- STDTX (R573): the first word first. -/
def execStdtx (delta : BitVec 3) (s : State) : Result :=
  s.privileged <|
    .next ((s.xWrite (s.txAddress delta 0) s.a).xWrite (s.txAddress delta 1) s.d).advance

end Sys2Proof.Machine
end

