-- ==== Sys2Proof/Machine/RegisterOps.lean ====
section
/-! DEFINITION. Register operations (`spec/45_register_ops.md`); EXR stands in `Machine/Inner.lean`. -/

namespace Sys2Proof.Machine

/-- The source operand of a register operation (R391): the register, complemented with CM1. -/
def State.ropSource (s : State) (cm1 : Bool) (sr : RField) : Word :=
  if cm1 then ~~~ s.regValue sr else s.regValue sr

/-- The destination operand of a register operation (R391): zero with CLD. -/
def State.ropDest (s : State) (cld : Bool) (dr : RField) : Word := if cld then 0 else s.regValue dr

/-- Swap of a register with itself: the two writes conflict and one of them is kept, which is open (R396). -/
def swapSame (s : State) (r : RField) (v d : Word) : Result :=
  if v = d then .next (s.endReg r v)
  else
    let (first, s) := s.drawBit
    .next (s.endReg r (if first then v else d))

/-- SWAP (R393, R396): both writes are of the values read before. -/
def execSwap (cm1 cld : Bool) (sr dr : RField) (s : State) : Result :=
  let v := s.ropSource cm1 sr
  let d := s.ropDest cld dr
  if dr = .zero then .next s.advance
  else if sr = dr then swapSame s dr v d
  else
    let s' := (s.putReg dr v).putReg sr d
    .next (if dr = .p ∨ sr = .p then s' else s'.advance)

/-- A logical register operation (R393, R395). -/
def ropLogic (f : Word → Word → Word) (cm1 cld : Bool) (sr dr : RField) (s : State) : Result :=
  .next (s.endReg dr (f (s.ropDest cld dr) (s.ropSource cm1 sr)))

/-- RAND (R397). -/
def execRand (cm1 cld : Bool) (sr dr : RField) (s : State) : Result :=
  ropLogic (fun d v => d &&& v) cm1 cld sr dr s
/-- REXO (R398). -/
def execRexo (cm1 cld : Bool) (sr dr : RField) (s : State) : Result :=
  ropLogic (fun d v => d ^^^ v) cm1 cld sr dr s
/-- RORA (R399). -/
def execRora (cm1 cld : Bool) (sr dr : RField) (s : State) : Result :=
  ropLogic (fun d v => d ||| v) cm1 cld sr dr s

/-- The carry into the addition: one with AD1, the old carry with ADC alone (R400). -/
def State.ropCarryIn (s : State) (adc ad1 : Bool) : Bool := ad1 || (adc && s.flag .c)

/-- An addition between registers (R393, R400). -/
def ropAdd (adc ad1 cm1 cld : Bool) (sr dr : RField) (s : State) : Result :=
  let r := add16 (s.ropDest cld dr) (s.ropSource cm1 sr) (s.ropCarryIn adc ad1)
  if dr = .zero then .next (s.setFlag .c false).advance
  else .next ((s.setAddFlags r).endReg dr r.r)

/-- RADD (R400, R401). -/
def execRadd (adc ad1 cm1 cld : Bool) (sr dr : RField) (s : State) : Result := ropAdd adc ad1 cm1 cld sr dr s
/-- RSUB, which is RADD AD1 CM1 (R402). -/
def execRsub (sr dr : RField) (s : State) : Result := ropAdd false true true false sr dr s
/-- COPY, which is RADD CLD (R403). -/
def execCopy (sr dr : RField) (s : State) : Result := ropAdd false false false true sr dr s
/-- COPY CM2, which is RADD AD1 CM1 CLD (R404). -/
def execCopyCm2 (sr dr : RField) (s : State) : Result := ropAdd false true true true sr dr s
/-- EXIT, which is COPY SL DP (R405). -/
def execExit (s : State) : Result := ropAdd false false false true .l .p s
/-- RCLR, which is COPY without a source (R406). -/
def execRclr (dr : RField) (s : State) : Result := ropAdd false false false true .zero dr s
/-- RINC, which is RADD AD1 without a source (R407). -/
def execRinc (dr : RField) (s : State) : Result := ropAdd false true false false .zero dr s
/-- RDCR, which is RADD CM1 without a source (R408). -/
def execRdcr (dr : RField) (s : State) : Result := ropAdd false false true false .zero dr s

/-- C, O and Q from an open function of the installation, bits 2, 1 and 0 (R410, R411; log 36). -/
def State.setOpenFlags (s : State) (f : BitVec 3) : State :=
  ((s.setFlag .c (f.getLsbD 2)).setFlag .o (f.getLsbD 1)).setFlag .q (f.getLsbD 0)

/-- Write A and D with the halves of a double word (`spec/20_memory.md` R103). -/
def State.setAD (s : State) (v : BitVec 32) : State := (s.setA (v.extractLsb' 16 16)).setD (v.extractLsb' 0 16)

/-- RMPY (R410): the signed product in A and D. -/
def execRmpy (sr dr : RField) (s : State) : Result :=
  let v := s.regValue sr
  let d := s.regValue dr
  let s := s.setAD (BitVec.ofInt 32 (v.toInt * d.toInt))
  .next (s.setOpenFlags (Config.rmpyFlags v d)).advance

/-- RDIV (R411): quotient in A, remainder in D, the remainder with the sign of the dividend; Z on a quotient that A
cannot hold and on a zero divisor. -/
def execRdiv (sr : RField) (_ignored : BitVec 3) (s : State) : Result :=
  let ad := s.a ++ s.d
  let v := s.regValue sr
  let q := ad.toInt.tdiv v.toInt
  let r := ad.toInt.tmod v.toInt
  let s :=
    if v = 0 ∨ q < -32768 ∨ 32767 < q then (s.setFlag .z true).setAD (Config.rdivOverflow ad v)
    else (s.setA (BitVec.ofInt 16 q)).setD (BitVec.ofInt 16 r)
  .next (s.setOpenFlags (Config.rdivFlags ad v)).advance

/-- MIX3 (R415). -/
def execMix3 (s : State) : Result := .next (s.setX ((s.a - 1) * 3)).advance

end Sys2Proof.Machine
end

