-- ==== Sys2Proof/Machine/Sequencing.lean ====
section
/-! DEFINITION. Jumps (`spec/41_sequencing.md`). -/

namespace Sys2Proof.Machine

/-- JMP (R300). -/
def execJmp (m : MemRef) (s : State) : Result := (s.effLoc m).complete fun (el, _) s => .next (s.setP el)

/-- JPL (R301): L points behind the jump. -/
def execJpl (m : MemRef) (s : State) : Result :=
  (s.effLoc m).complete fun (el, _) s => .next ((s.setL (s.p + 1)).setP el)

/-- A conditional jump relative to its own address (R302). -/
def State.jumpIf (s : State) (c : Bool) (disp : BitVec 8) : State :=
  if c then s.setP (s.p + sext8 disp) else s.advance

/-- JAP (R303): A not negative. -/
def execJap (disp : BitVec 8) (s : State) : Result := .next (s.jumpIf (!s.a.msb) disp)
/-- JAN (R304): A negative. -/
def execJan (disp : BitVec 8) (s : State) : Result := .next (s.jumpIf s.a.msb disp)
/-- JAZ (R305): A zero. -/
def execJaz (disp : BitVec 8) (s : State) : Result := .next (s.jumpIf (s.a == 0) disp)
/-- JAF (R306): A not zero. -/
def execJaf (disp : BitVec 8) (s : State) : Result := .next (s.jumpIf (s.a != 0) disp)

/-- JPC (R307): count X up, jump when it is not negative. -/
def execJpc (disp : BitVec 8) (s : State) : Result :=
  let x := s.x + 1
  .next ((s.setX x).jumpIf (!x.msb) disp)

/-- JNC (R308): count X up, jump when it is negative. -/
def execJnc (disp : BitVec 8) (s : State) : Result :=
  let x := s.x + 1
  .next ((s.setX x).jumpIf x.msb disp)

/-- JXZ (R309): X zero. -/
def execJxz (disp : BitVec 8) (s : State) : Result := .next (s.jumpIf (s.x == 0) disp)
/-- JXN (R310): X negative. -/
def execJxn (disp : BitVec 8) (s : State) : Result := .next (s.jumpIf s.x.msb disp)

end Sys2Proof.Machine
end

