-- ==== Sys2Proof/Machine/Shift.lean ====
section
/-! DEFINITION. Shift instructions (`spec/44_shift.md`). -/

namespace Sys2Proof.Machine

/-- A shift operand with the link indicator M. -/
structure Shifted (w : Nat) where
  v : BitVec w
  m : Bool
deriving DecidableEq, Repr

/-- The bit that enters, given the one that leaves, the sign for an arithmetic right shift, and M (R372). -/
def shiftIn (type : ShiftType) (out sign link : Bool) : Bool :=
  match type with
  | .arithmetic => sign
  | .rotational => out
  | .zeroEnd => false
  | .linkEnd => link

/-- One place to the left (R372). -/
def shiftLeftStep {w : Nat} (type : ShiftType) (x : Shifted w) : Shifted w :=
  let out := x.v.msb
  { v := setBit (x.v <<< 1) 0 (shiftIn type out false x.m), m := out }

/-- One place to the right (R372). -/
def shiftRightStep {w : Nat} (type : ShiftType) (x : Shifted w) : Shifted w :=
  let out := x.v.getLsbD 0
  { v := setBit (x.v.ushiftRight 1) (w - 1) (shiftIn type out x.v.msb x.m), m := out }

/-- A step repeated. -/
def repeatStep {α : Type} (f : α → α) : Nat → α → α
  | 0, x => x
  | n + 1, x => repeatStep f n (f x)

/-- A shift by the signed six-bit count: left by it, or right by 64 minus it (R371, R373). -/
def shiftBy {w : Nat} (type : ShiftType) (count : BitVec 6) (x : Shifted w) : Shifted w :=
  if count.msb then repeatStep (shiftRightStep type) (64 - count.toNat) x
  else repeatStep (shiftLeftStep type) count.toNat x

/-- SHT (R370, R373): T. Bit 6 of the word is ignored. -/
def execSht (type : ShiftType) (_ignored : Bool) (count : BitVec 6) (s : State) : Result :=
  let r := shiftBy type count { v := s.t, m := s.flag .m }
  .next ((s.setT r.v).setFlag .m r.m).advance

/-- SHD (R370, R373): D. -/
def execShd (type : ShiftType) (_ignored : Bool) (count : BitVec 6) (s : State) : Result :=
  let r := shiftBy type count { v := s.d, m := s.flag .m }
  .next ((s.setD r.v).setFlag .m r.m).advance

/-- SHA (R370, R373): A. -/
def execSha (type : ShiftType) (_ignored : Bool) (count : BitVec 6) (s : State) : Result :=
  let r := shiftBy type count { v := s.a, m := s.flag .m }
  .next ((s.setA r.v).setFlag .m r.m).advance

/-- SAD (R370, R373): A and D connected, A the upper half. -/
def execSad (type : ShiftType) (_ignored : Bool) (count : BitVec 6) (s : State) : Result :=
  let r := shiftBy type count ({ v := s.a ++ s.d, m := s.flag .m } : Shifted 32)
  .next (((s.setA (r.v.extractLsb' 16 16)).setD (r.v.extractLsb' 0 16)).setFlag .m r.m).advance

end Sys2Proof.Machine
end

