-- ==== Sys2Proof/Machine/Skip.lean ====
section
/-! DEFINITION. SKP with its eight conditions (`spec/46_skip.md`). -/

namespace Sys2Proof.Machine

/-- The difference `(dr) - (sr)` that a SKP tests (R430). -/
def State.skpSum (s : State) (sr dr : RField) : Sum16 := sub16 (s.regValue dr) (s.regValue sr)

/-- A SKP: the condition is on the difference; no register and no flag changes (R430). -/
def skipOn (c : Sum16 → Bool) (sr dr : RField) (s : State) : Result := .next (s.skipIf (c (s.skpSum sr dr)))

/-- SKP EQL (R431): the result is zero. -/
def execSkpEql (sr dr : RField) (s : State) : Result := skipOn (fun r => r.r == 0) sr dr s
/-- SKP GEQ (R432): the sign is 0, overflow not taken care of. -/
def execSkpGeq (sr dr : RField) (s : State) : Result := skipOn (fun r => !r.r.msb) sr dr s
/-- SKP GRE (R433): sign and overflow agree. -/
def execSkpGre (sr dr : RField) (s : State) : Result := skipOn (fun r => r.r.msb == r.ovf) sr dr s
/-- SKP MGRE (R434): a carry. -/
def execSkpMgre (sr dr : RField) (s : State) : Result := skipOn (fun r => r.carry) sr dr s
/-- SKP UEQ (R435): the result is not zero. -/
def execSkpUeq (sr dr : RField) (s : State) : Result := skipOn (fun r => r.r != 0) sr dr s
/-- SKP LSS (R436): the sign is 1, overflow not taken care of. -/
def execSkpLss (sr dr : RField) (s : State) : Result := skipOn (fun r => r.r.msb) sr dr s
/-- SKP LST (R437): sign and overflow differ. -/
def execSkpLst (sr dr : RField) (s : State) : Result := skipOn (fun r => r.r.msb != r.ovf) sr dr s
/-- SKP MLST (R438): no carry. -/
def execSkpMlst (sr dr : RField) (s : State) : Result := skipOn (fun r => !r.carry) sr dr s

end Sys2Proof.Machine
end

