-- ==== Sys2Proof/Machine/Stack.lean ====
section
/-! DEFINITION. Stack instructions of the CX option and the CX instructions known by name only (`spec/53_ce_stack_misc.md`). -/

namespace Sys2Proof.Machine

/-- The header of a stack frame as INIT and ENTR write it from its first word on (R610). -/
structure Frame where
  link : Word
  prevb : Word
  stp : Word
  smax : Word
deriving DecidableEq, Repr

/-- Write a frame header in ascending order of address (R611). -/
def State.writeFrame (s : State) (start : Word) (f : Frame) : Access Unit :=
  (s.writeTriple .nonprel start f.link f.prevb f.stp).bind fun _ s => s.memWrite .nonprel (start + 3) f.smax

/-- The first free word after a frame with the given B and demand (R610). -/
def frameEnd (newB demand : Word) : Word := demand - 0o172 + newB

/-- Enter a frame: write its header, set B and continue at the normal return (R611 to R613). -/
def enterFrame (newB : Word) (f : Frame) (normal : Word) (s : State) : Result :=
  (s.writeFrame (newB - 0o200) f).complete fun _ s => .next ((s.setB newB).setP normal)

/-- The four parameter words of INIT that are used: demand, start, maximum size, flag (R612). -/
def State.initParameters (s : State) : Access (Word × Word × Word × Word) :=
  (s.readTriple .rop .prel (s.p + 1)).bind fun (demand, start, max) s =>
    (s.memRead .rop .prel (s.p + 4)).bind fun flag s => .done (demand, start, max, flag) s

/-- INIT (R612). -/
def execInit (s : State) : Result :=
  s.initParameters.complete fun (demand, start, max, flag) s =>
    let newB := start + 0o200
    let stp := frameEnd newB demand
    let smax := start + max
    if flag.getLsbD 0 != s.flag .ptm || Config.stackOverflow stp smax then .next (s.setP (s.p + 6))
    else enterFrame newB { link := s.l + 1, prevb := s.b, stp := stp, smax := smax } (s.p + 7) s

/-- The parameter word of ENTR and the STP and SMAX of the old frame (R613). -/
def State.entrParameters (s : State) : Access (Word × Word × Word) :=
  (s.memRead .rop .prel (s.p + 1)).bind fun demand s =>
    (s.readDouble .rop .nonprel (s.b - 0o176)).bind fun (oldStp, smax) s => .done (demand, oldStp, smax) s

/-- ENTR (R613). -/
def execEntr (s : State) : Result :=
  s.entrParameters.complete fun (demand, oldStp, smax) s =>
    let newB := oldStp + 0o200
    let stp := frameEnd newB demand
    if Config.stackOverflow stp smax then .next (s.setP (s.p + 2))
    else enterFrame newB { link := s.l + 1, prevb := s.b, stp := stp, smax := smax } (s.p + 3) s

/-- LINK and PREVB of the current frame (R614). -/
def State.readLink (s : State) : Access (Word × Word) := s.readDouble .rop .nonprel (s.b - 0o200)

/-- LEAVE (R614). -/
def execLeave (s : State) : Result :=
  s.readLink.complete fun (link, prevb) s => .next ((s.setP link).setB prevb)

/-- ELEAV (R615): LINK is decremented, ERRCODE receives A. Where the store of ERRCODE is refused, the decremented LINK stays, as
R674 says of stores in ascending order, although R611 has such an instruction executed again from the start (log 52). -/
def execEleav (s : State) : Result :=
  (s.readLink.bind fun (link, prevb) s =>
    (s.memWrite .nonprel (s.b - 0o200) (link - 1)).bind fun _ s =>
      (s.memWrite .nonprel (s.b - 0o173) s.a).bind fun _ s => .done (link, prevb) s).complete
    fun (link, prevb) s => .next ((s.setP (link - 1)).setB prevb)

/-- An instruction of the CX option of which the sources give name and code only; without the option it is not
implemented (R620, `spec/30_encoding.md` R226; log 22). -/
def nameOnly (mnemonic : String) (s : State) : Result :=
  if s.cfg.hasCx then .refused (.nameOnly mnemonic) else s.illegal

/-- SETPT (R620). -/
def execSetpt (s : State) : Result := nameOnly "SETPT" s
/-- CLEPT (R620). -/
def execClept (s : State) : Result := nameOnly "CLEPT" s
/-- CLNREENT (R620). -/
def execClnreent (s : State) : Result := nameOnly "CLNREENT" s
/-- CHREENTPAGES (R620). -/
def execChreentpages (s : State) : Result := nameOnly "CHREENTPAGES" s
/-- CLEPU (R620). -/
def execClepu (s : State) : Result := nameOnly "CLEPU" s
/-- MOVEW (R620). -/
def execMovew (_low : BitVec 6) (s : State) : Result := nameOnly "MOVEW" s
/-- TSET (R620). -/
def execTset (s : State) : Result := nameOnly "TSET" s
/-- RDUS (R620). -/
def execRdus (s : State) : Result := nameOnly "RDUS" s

end Sys2Proof.Machine
end

