-- ==== Sys2Proof/Machine/SystemControl.lean ====
section
/-! DEFINITION. System control, input and output, and the writable control store (`spec/49_system_control.md`). -/

namespace Sys2Proof.Machine

/-- MON (R481): the number into T of level 14, and MC. -/
def execMon (number : BitVec 8) (s : State) : Result :=
  .next ((s.setReg 14 { s.reg 14 with t := sext8 number }).raise .mc).advance

/-- WAIT (R482): stop with the interrupt system off; otherwise give up the level, level 0 excepted. -/
def execWait (_number : BitVec 8) (s : State) : Result :=
  s.privileged <|
    let s := s.advance
    .next (if !s.ioni then s.enterStop
      else if s.pil = 0 then s else s.giveUpLevel)

/-- ION (R483). -/
def execIon (s : State) : Result := s.privileged <| .next { s with ioni := true }.advance
/-- IOF (R484). -/
def execIof (s : State) : Result := s.privileged <| .next { s with ioni := false }.advance
/-- PON (R485). -/
def execPon (s : State) : Result := s.privileged <| .next { s with poni := s.poni || s.cfg.hasMms }.advance
/-- POF (R486). -/
def execPof (s : State) : Result := s.privileged <| .next { s with poni := false }.advance
/-- PION (R487). -/
def execPion (s : State) : Result :=
  s.privileged <| .next { s with poni := s.poni || s.cfg.hasMms, ioni := true }.advance
/-- PIOF (R488). -/
def execPiof (s : State) : Result := s.privileged <| .next { s with poni := false, ioni := false }.advance
/-- SEX (R489). -/
def execSex (s : State) : Result := s.privileged <| .next { s with sexi := s.sexi || s.cfg.hasMms }.advance
/-- REX (R490). -/
def execRex (s : State) : Result := s.privileged <| .next { s with sexi := false }.advance
/-- OPCOM (R491). -/
def execOpcom (s : State) : Result := s.privileged <| .next s.enterOpcom.advance

/-- IDENT on a level (R492), a bus cycle before which other agents may get theirs (`spec/61_io_devices.md` R766). -/
def ident (level : Nat) (s : State) : Result :=
  s.privileged <|
    let s := s.yieldBus
    match s.identSearch level with
    | some (code, s) => .next (s.setA (code.zeroExtend 16)).advance
    | none => .next (s.raise .iox).advance

/-- IDENT PL10 (R492). -/
def execIdentPl10 (s : State) : Result := ident 10 s
/-- IDENT PL11 (R492). -/
def execIdentPl11 (s : State) : Result := ident 11 s
/-- IDENT PL12 (R492). -/
def execIdentPl12 (s : State) : Result := ident 12 s
/-- IDENT PL13 (R492). -/
def execIdentPl13 (s : State) : Result := ident 13 s

/-- IOX (R493). -/
def execIox (address : BitVec 11) (s : State) : Result :=
  s.privileged <| .next (s.ioTransfer (address.zeroExtend 16)).advance
/-- IOXT (R494). -/
def execIoxt (s : State) : Result := s.privileged <| .next (s.ioTransfer s.t).advance

/-- Read `n` words of physical memory from an address on, by `PhysRead`, past the cache (R520; log 48). -/
def State.readBlock (s : State) (src : MemSource) : Nat → PhysAddr → List Word × State
  | 0, _ => ([], s)
  | n + 1, pa =>
    let (w, s) := s.yieldBus.physRead src pa
    let (ws, s) := s.readBlock src n (pa + 1)
    (w :: ws, s)

/-- LWCS (R520): 1024 words from `0o36000` on. -/
def execLwcs (s : State) : Result :=
  s.privileged <|
    if s.cfg.hasWcs then
      let (ws, s) := s.readBlock .data 1024 0o36000
      .next { s with wcs := ws, wcsLoaded := true }.advance
    else .next s.advance

/-- A customer code (R522): II without a loaded control store; what a loaded microprogram does is in no source. -/
def customer (entry : Word) (s : State) : Result :=
  if s.cfg.hasWcs && s.wcsLoaded then .refused (.customerMicroprogram entry) else s.illegal

/-- CUST 1 (R521, R522). -/
def execCust1 (_low : BitVec 6) (s : State) : Result := customer 0o4001 s
/-- CUST 2 (R521, R522). -/
def execCust2 (_low : BitVec 6) (s : State) : Result := customer 0o4002 s
/-- CUST 3 (R521, R522). -/
def execCust3 (_low : BitVec 6) (s : State) : Result := customer 0o4003 s
/-- CUST 4 (R521, R522). -/
def execCust4 (_low : BitVec 6) (s : State) : Result := customer 0o4004 s
/-- CUST 5 (R521, R522). -/
def execCust5 (_low : BitVec 6) (s : State) : Result := customer 0o4005 s
/-- CUST 6 (R521, R522). -/
def execCust6 (_low : BitVec 6) (s : State) : Result := customer 0o4006 s
/-- CUST 7 (R521, R522). -/
def execCust7 (_low : BitVec 6) (s : State) : Result := customer 0o4007 s
/-- CUST 10 (R521, R522). -/
def execCust10 (_low : BitVec 6) (s : State) : Result := customer 0o4010 s
/-- CUST 11 (R521, R522). -/
def execCust11 (_low : BitVec 6) (s : State) : Result := customer 0o4011 s
/-- CUST 12 (R521, R522). -/
def execCust12 (_low : BitVec 6) (s : State) : Result := customer 0o4012 s
/-- CUST 13 (R521, R522). -/
def execCust13 (_low : BitVec 6) (s : State) : Result := customer 0o4013 s

end Sys2Proof.Machine
end

