-- ==== Sys2Proof/Machine/Inner.lean ====
section
/-! DEFINITION. EXR, execute register (`spec/45_register_ops.md` R413, R414), and with it the meaning of an instruction that
EXR executes: every instruction but another EXR. -/

namespace Sys2Proof.Machine

/-- EXR of an EXR: Z, and the inner one is skipped over (R413). -/
def exrOfExr (s : State) : Result := .next (s.setFlag .z true).advance

/-- The effect of an instruction executed by EXR (R413). -/
def execInner (i : Instr) (s : State) : Result :=
  match i with
  | .stz m => execStz m s
  | .sta m => execSta m s
  | .stt m => execStt m s
  | .stx m => execStx m s
  | .std m => execStd m s
  | .ldd m => execLdd m s
  | .stf m => execStf m s
  | .ldf m => execLdf m s
  | .min m => execMin m s
  | .lda m => execLda m s
  | .ldt m => execLdt m s
  | .ldx m => execLdx m s
  | .add m => execAdd m s
  | .sub m => execSub m s
  | .and m => execAnd m s
  | .ora m => execOra m s
  | .fad m => execFad m s
  | .fsb m => execFsb m s
  | .fmu m => execFmu m s
  | .fdv m => execFdv m s
  | .mpy m => execMpy m s
  | .jmp m => execJmp m s
  | .jpl m => execJpl m s
  | .jap disp => execJap disp s
  | .jan disp => execJan disp s
  | .jaz disp => execJaz disp s
  | .jaf disp => execJaf disp s
  | .jpc disp => execJpc disp s
  | .jnc disp => execJnc disp s
  | .jxz disp => execJxz disp s
  | .jxn disp => execJxn disp s
  | .skpEql sr dr => execSkpEql sr dr s
  | .skpGeq sr dr => execSkpGeq sr dr s
  | .skpGre sr dr => execSkpGre sr dr s
  | .skpMgre sr dr => execSkpMgre sr dr s
  | .skpUeq sr dr => execSkpUeq sr dr s
  | .skpLss sr dr => execSkpLss sr dr s
  | .skpLst sr dr => execSkpLst sr dr s
  | .skpMlst sr dr => execSkpMlst sr dr s
  | .addd => execAddd s
  | .subd => execSubd s
  | .comd => execComd s
  | .tset => execTset s
  | .pack => execPack s
  | .upack => execUpack s
  | .shde => execShde s
  | .rdus => execRdus s
  | .bfill => execBfill s
  | .movb => execMovb s
  | .movbf => execMovbf s
  | .init => execInit s
  | .entr => execEntr s
  | .leave => execLeave s
  | .eleav => execEleav s
  | .setpt => execSetpt s
  | .clept => execClept s
  | .clnreent => execClnreent s
  | .chreentpages => execChreentpages s
  | .clepu => execClepu s
  | .lbyt => execLbyt s
  | .sbyt => execSbyt s
  | .mix3 => execMix3 s
  | .lwcs => execLwcs s
  | .identPl10 => execIdentPl10 s
  | .identPl11 => execIdentPl11 s
  | .identPl12 => execIdentPl12 s
  | .identPl13 => execIdentPl13 s
  | .cust1 low => execCust1 low s
  | .cust2 low => execCust2 low s
  | .cust3 low => execCust3 low s
  | .cust4 low => execCust4 low s
  | .cust5 low => execCust5 low s
  | .cust6 low => execCust6 low s
  | .cust7 low => execCust7 low s
  | .cust10 low => execCust10 low s
  | .cust11 low => execCust11 low s
  | .cust12 low => execCust12 low s
  | .cust13 low => execCust13 low s
  | .exr _ => exrOfExr s
  | .rmpy sr dr => execRmpy sr dr s
  | .rdiv sr ignored => execRdiv sr ignored s
  | .movew low => execMovew low s
  | .ldatx delta => execLdatx delta s
  | .ldxtx delta => execLdxtx delta s
  | .lddtx delta => execLddtx delta s
  | .ldbtx delta => execLdbtx delta s
  | .statx delta => execStatx delta s
  | .stztx delta => execStztx delta s
  | .stdtx delta => execStdtx delta s
  | .swap cm1 cld sr dr => execSwap cm1 cld sr dr s
  | .rand cm1 cld sr dr => execRand cm1 cld sr dr s
  | .rexo cm1 cld sr dr => execRexo cm1 cld sr dr s
  | .rora cm1 cld sr dr => execRora cm1 cld sr dr s
  | .radd adc ad1 cm1 cld sr dr => execRadd adc ad1 cm1 cld sr dr s
  | .rsub sr dr => execRsub sr dr s
  | .copy sr dr => execCopy sr dr s
  | .copyCm2 sr dr => execCopyCm2 sr dr s
  | .exit => execExit s
  | .rclr dr => execRclr dr s
  | .rinc dr => execRinc dr s
  | .rdcr dr => execRdcr dr s
  | .tra n => execTra n s
  | .trr n => execTrr n s
  | .mcl n => execMcl n s
  | .mst n => execMst n s
  | .opcom => execOpcom s
  | .iof => execIof s
  | .ion => execIon s
  | .pof => execPof s
  | .piof => execPiof s
  | .sex => execSex s
  | .rex => execRex s
  | .pon => execPon s
  | .pion => execPion s
  | .ioxt => execIoxt s
  | .exam => execExam s
  | .depo => execDepo s
  | .wait number => execWait number s
  | .nlz sc => execNlz sc s
  | .dnz sc => execDnz sc s
  | .srb level => execSrb level s
  | .lrb level => execLrb level s
  | .mon number => execMon number s
  | .irw level dr => execIrw level dr s
  | .irr level dr => execIrr level dr s
  | .sht type ignored count => execSht type ignored count s
  | .shd type ignored count => execShd type ignored count s
  | .sha type ignored count => execSha type ignored count s
  | .sad type ignored count => execSad type ignored count s
  | .iox address => execIox address s
  | .sab arg => execSab arg s
  | .saa arg => execSaa arg s
  | .sat arg => execSat arg s
  | .sax arg => execSax arg s
  | .aab arg => execAab arg s
  | .aaa arg => execAaa arg s
  | .aat arg => execAat arg s
  | .aax arg => execAax arg s
  | .bsetZro bn dr => execBsetZro bn dr s
  | .bsetOne bn dr => execBsetOne bn dr s
  | .bsetBcm bn dr => execBsetBcm bn dr s
  | .bsetBac bn dr => execBsetBac bn dr s
  | .bskpZro bn dr => execBskpZro bn dr s
  | .bskpOne bn dr => execBskpOne bn dr s
  | .bskpBcm bn dr => execBskpBcm bn dr s
  | .bskpBac bn dr => execBskpBac bn dr s
  | .bstc bn dr => execBstc bn dr s
  | .bsta bn dr => execBsta bn dr s
  | .bldc bn dr => execBldc bn dr s
  | .blda bn dr => execBlda bn dr s
  | .banc bn dr => execBanc bn dr s
  | .band bn dr => execBand bn dr s
  | .borc bn dr => execBorc bn dr s
  | .bora bn dr => execBora bn dr s

/-- Execute a word as if it had been fetched from P: II for one that is no instruction (R413, R414;
`spec/30_encoding.md` R225, R226). -/
def executeWord (w : Word) (s : State) : Result :=
  match decodeWord s.cfg.hasCx w with
  | .ok i => execInner i s
  | .error _ => s.illegal

/-- EXR (R413): the register's contents are the instruction. -/
def execExr (sr : RField) (s : State) : Result := executeWord (s.regValue sr) s

end Sys2Proof.Machine
end

