-- ==== Sys2Proof/Machine/Dispatch.lean ====
section
/-! DEFINITION. The meaning of every instruction: one arm per constructor, each one call. -/

namespace Sys2Proof.Machine

def exec (i : Instr) (s : State) : Host.Outcome State Fault Refusal :=
  match i with
  | .stz m => Sys2Proof.Machine.execStz m s
  | .sta m => Sys2Proof.Machine.execSta m s
  | .stt m => Sys2Proof.Machine.execStt m s
  | .stx m => Sys2Proof.Machine.execStx m s
  | .std m => Sys2Proof.Machine.execStd m s
  | .ldd m => Sys2Proof.Machine.execLdd m s
  | .stf m => Sys2Proof.Machine.execStf m s
  | .ldf m => Sys2Proof.Machine.execLdf m s
  | .min m => Sys2Proof.Machine.execMin m s
  | .lda m => Sys2Proof.Machine.execLda m s
  | .ldt m => Sys2Proof.Machine.execLdt m s
  | .ldx m => Sys2Proof.Machine.execLdx m s
  | .add m => Sys2Proof.Machine.execAdd m s
  | .sub m => Sys2Proof.Machine.execSub m s
  | .and m => Sys2Proof.Machine.execAnd m s
  | .ora m => Sys2Proof.Machine.execOra m s
  | .fad m => Sys2Proof.Machine.execFad m s
  | .fsb m => Sys2Proof.Machine.execFsb m s
  | .fmu m => Sys2Proof.Machine.execFmu m s
  | .fdv m => Sys2Proof.Machine.execFdv m s
  | .mpy m => Sys2Proof.Machine.execMpy m s
  | .jmp m => Sys2Proof.Machine.execJmp m s
  | .jpl m => Sys2Proof.Machine.execJpl m s
  | .jap disp => Sys2Proof.Machine.execJap disp s
  | .jan disp => Sys2Proof.Machine.execJan disp s
  | .jaz disp => Sys2Proof.Machine.execJaz disp s
  | .jaf disp => Sys2Proof.Machine.execJaf disp s
  | .jpc disp => Sys2Proof.Machine.execJpc disp s
  | .jnc disp => Sys2Proof.Machine.execJnc disp s
  | .jxz disp => Sys2Proof.Machine.execJxz disp s
  | .jxn disp => Sys2Proof.Machine.execJxn disp s
  | .skpEql sr dr => Sys2Proof.Machine.execSkpEql sr dr s
  | .skpGeq sr dr => Sys2Proof.Machine.execSkpGeq sr dr s
  | .skpGre sr dr => Sys2Proof.Machine.execSkpGre sr dr s
  | .skpMgre sr dr => Sys2Proof.Machine.execSkpMgre sr dr s
  | .skpUeq sr dr => Sys2Proof.Machine.execSkpUeq sr dr s
  | .skpLss sr dr => Sys2Proof.Machine.execSkpLss sr dr s
  | .skpLst sr dr => Sys2Proof.Machine.execSkpLst sr dr s
  | .skpMlst sr dr => Sys2Proof.Machine.execSkpMlst sr dr s
  | .addd => Sys2Proof.Machine.execAddd s
  | .subd => Sys2Proof.Machine.execSubd s
  | .comd => Sys2Proof.Machine.execComd s
  | .tset => Sys2Proof.Machine.execTset s
  | .pack => Sys2Proof.Machine.execPack s
  | .upack => Sys2Proof.Machine.execUpack s
  | .shde => Sys2Proof.Machine.execShde s
  | .rdus => Sys2Proof.Machine.execRdus s
  | .bfill => Sys2Proof.Machine.execBfill s
  | .movb => Sys2Proof.Machine.execMovb s
  | .movbf => Sys2Proof.Machine.execMovbf s
  | .init => Sys2Proof.Machine.execInit s
  | .entr => Sys2Proof.Machine.execEntr s
  | .leave => Sys2Proof.Machine.execLeave s
  | .eleav => Sys2Proof.Machine.execEleav s
  | .setpt => Sys2Proof.Machine.execSetpt s
  | .clept => Sys2Proof.Machine.execClept s
  | .clnreent => Sys2Proof.Machine.execClnreent s
  | .chreentpages => Sys2Proof.Machine.execChreentpages s
  | .clepu => Sys2Proof.Machine.execClepu s
  | .lbyt => Sys2Proof.Machine.execLbyt s
  | .sbyt => Sys2Proof.Machine.execSbyt s
  | .mix3 => Sys2Proof.Machine.execMix3 s
  | .lwcs => Sys2Proof.Machine.execLwcs s
  | .identPl10 => Sys2Proof.Machine.execIdentPl10 s
  | .identPl11 => Sys2Proof.Machine.execIdentPl11 s
  | .identPl12 => Sys2Proof.Machine.execIdentPl12 s
  | .identPl13 => Sys2Proof.Machine.execIdentPl13 s
  | .cust1 low => Sys2Proof.Machine.execCust1 low s
  | .cust2 low => Sys2Proof.Machine.execCust2 low s
  | .cust3 low => Sys2Proof.Machine.execCust3 low s
  | .cust4 low => Sys2Proof.Machine.execCust4 low s
  | .cust5 low => Sys2Proof.Machine.execCust5 low s
  | .cust6 low => Sys2Proof.Machine.execCust6 low s
  | .cust7 low => Sys2Proof.Machine.execCust7 low s
  | .cust10 low => Sys2Proof.Machine.execCust10 low s
  | .cust11 low => Sys2Proof.Machine.execCust11 low s
  | .cust12 low => Sys2Proof.Machine.execCust12 low s
  | .cust13 low => Sys2Proof.Machine.execCust13 low s
  | .exr sr => Sys2Proof.Machine.execExr sr s
  | .rmpy sr dr => Sys2Proof.Machine.execRmpy sr dr s
  | .rdiv sr ignored => Sys2Proof.Machine.execRdiv sr ignored s
  | .movew low => Sys2Proof.Machine.execMovew low s
  | .ldatx delta => Sys2Proof.Machine.execLdatx delta s
  | .ldxtx delta => Sys2Proof.Machine.execLdxtx delta s
  | .lddtx delta => Sys2Proof.Machine.execLddtx delta s
  | .ldbtx delta => Sys2Proof.Machine.execLdbtx delta s
  | .statx delta => Sys2Proof.Machine.execStatx delta s
  | .stztx delta => Sys2Proof.Machine.execStztx delta s
  | .stdtx delta => Sys2Proof.Machine.execStdtx delta s
  | .swap cm1 cld sr dr => Sys2Proof.Machine.execSwap cm1 cld sr dr s
  | .rand cm1 cld sr dr => Sys2Proof.Machine.execRand cm1 cld sr dr s
  | .rexo cm1 cld sr dr => Sys2Proof.Machine.execRexo cm1 cld sr dr s
  | .rora cm1 cld sr dr => Sys2Proof.Machine.execRora cm1 cld sr dr s
  | .radd adc ad1 cm1 cld sr dr => Sys2Proof.Machine.execRadd adc ad1 cm1 cld sr dr s
  | .rsub sr dr => Sys2Proof.Machine.execRsub sr dr s
  | .copy sr dr => Sys2Proof.Machine.execCopy sr dr s
  | .copyCm2 sr dr => Sys2Proof.Machine.execCopyCm2 sr dr s
  | .exit => Sys2Proof.Machine.execExit s
  | .rclr dr => Sys2Proof.Machine.execRclr dr s
  | .rinc dr => Sys2Proof.Machine.execRinc dr s
  | .rdcr dr => Sys2Proof.Machine.execRdcr dr s
  | .tra n => Sys2Proof.Machine.execTra n s
  | .trr n => Sys2Proof.Machine.execTrr n s
  | .mcl n => Sys2Proof.Machine.execMcl n s
  | .mst n => Sys2Proof.Machine.execMst n s
  | .opcom => Sys2Proof.Machine.execOpcom s
  | .iof => Sys2Proof.Machine.execIof s
  | .ion => Sys2Proof.Machine.execIon s
  | .pof => Sys2Proof.Machine.execPof s
  | .piof => Sys2Proof.Machine.execPiof s
  | .sex => Sys2Proof.Machine.execSex s
  | .rex => Sys2Proof.Machine.execRex s
  | .pon => Sys2Proof.Machine.execPon s
  | .pion => Sys2Proof.Machine.execPion s
  | .ioxt => Sys2Proof.Machine.execIoxt s
  | .exam => Sys2Proof.Machine.execExam s
  | .depo => Sys2Proof.Machine.execDepo s
  | .wait number => Sys2Proof.Machine.execWait number s
  | .nlz sc => Sys2Proof.Machine.execNlz sc s
  | .dnz sc => Sys2Proof.Machine.execDnz sc s
  | .srb level => Sys2Proof.Machine.execSrb level s
  | .lrb level => Sys2Proof.Machine.execLrb level s
  | .mon number => Sys2Proof.Machine.execMon number s
  | .irw level dr => Sys2Proof.Machine.execIrw level dr s
  | .irr level dr => Sys2Proof.Machine.execIrr level dr s
  | .sht type ignored count => Sys2Proof.Machine.execSht type ignored count s
  | .shd type ignored count => Sys2Proof.Machine.execShd type ignored count s
  | .sha type ignored count => Sys2Proof.Machine.execSha type ignored count s
  | .sad type ignored count => Sys2Proof.Machine.execSad type ignored count s
  | .iox address => Sys2Proof.Machine.execIox address s
  | .sab arg => Sys2Proof.Machine.execSab arg s
  | .saa arg => Sys2Proof.Machine.execSaa arg s
  | .sat arg => Sys2Proof.Machine.execSat arg s
  | .sax arg => Sys2Proof.Machine.execSax arg s
  | .aab arg => Sys2Proof.Machine.execAab arg s
  | .aaa arg => Sys2Proof.Machine.execAaa arg s
  | .aat arg => Sys2Proof.Machine.execAat arg s
  | .aax arg => Sys2Proof.Machine.execAax arg s
  | .bsetZro bn dr => Sys2Proof.Machine.execBsetZro bn dr s
  | .bsetOne bn dr => Sys2Proof.Machine.execBsetOne bn dr s
  | .bsetBcm bn dr => Sys2Proof.Machine.execBsetBcm bn dr s
  | .bsetBac bn dr => Sys2Proof.Machine.execBsetBac bn dr s
  | .bskpZro bn dr => Sys2Proof.Machine.execBskpZro bn dr s
  | .bskpOne bn dr => Sys2Proof.Machine.execBskpOne bn dr s
  | .bskpBcm bn dr => Sys2Proof.Machine.execBskpBcm bn dr s
  | .bskpBac bn dr => Sys2Proof.Machine.execBskpBac bn dr s
  | .bstc bn dr => Sys2Proof.Machine.execBstc bn dr s
  | .bsta bn dr => Sys2Proof.Machine.execBsta bn dr s
  | .bldc bn dr => Sys2Proof.Machine.execBldc bn dr s
  | .blda bn dr => Sys2Proof.Machine.execBlda bn dr s
  | .banc bn dr => Sys2Proof.Machine.execBanc bn dr s
  | .band bn dr => Sys2Proof.Machine.execBand bn dr s
  | .borc bn dr => Sys2Proof.Machine.execBorc bn dr s
  | .bora bn dr => Sys2Proof.Machine.execBora bn dr s

end Sys2Proof.Machine
end

