-- ==== Sys2Proof/Machine/CutOff.lean ====
section
/-! DEFINITION. What an instruction leaves behind that a master clear cuts off: any value in each place that it may write, and
nothing else changed (`spec/70_reset_and_hazards.md` R860; `spec/93_implementation_defined.md`; log 10). The places are read
from the instructions' rules, for the operands that the instruction has. -/

namespace Sys2Proof.Machine

/-- A place that an instruction may write: a register of a level (number 0 is its STS), a flag of the current level, a paging
control register, a word of memory, a word in the page tables, the registers of an interface that a transfer of `v` to an
address, or one from it, may write, the request that an IDENT may drop, on the CPU board or of a plugged-in interface with its
number, and registers of their own. -/
inductive Place where
  | reg (level : BitVec 4) (r : RField)
  | flag (f : Flag)
  | pcr (level : BitVec 4)
  | word (pa : PhysAddr)
  | shadow (va : Word)
  | transfer (addr v : Word)
  | request (level : Nat) (n : Option Nat)
  | panelStatus | panelCommand | busMonitor
  | lmp | eccr | iic | psrLock | pesLock | controlStore
deriving DecidableEq, Repr

/-! ### The registers of the interfaces: any value, from the draws behind number `n`, in those that an access may write -/

/-- Any character, or none. -/
def anyCharacter (n : Nat) : Option Byte :=
  if Config.freeBit n then some ((Config.freeWord n).setWidth 8) else none

/-- The clock after a part of an access to one of its registers (`spec/61_io_devices.md` R752 to R755). -/
def Clock.cut (c : Clock) (reg : BitVec 2) (n : Nat) : Clock :=
  if reg = 1 then { c with cleared := Config.freeBit n }
  else if reg = 3 then { c with ie := Config.freeBit n, ready := Config.freeBit (n + 1), ff := Config.freeBit (n + 2) }
  else c

/-- The console after a part of an access to one of its registers (`spec/61_io_devices.md` R757 to R759). -/
def Console.cut (c : Console) (opcom : Bool) (reg : BitVec 3) (n : Nat) : Console :=
  if reg = 0 then
    { c with
      avail := if opcom then c.avail else Config.freeBit n
      fe := Config.freeBit (n + 1), pe := Config.freeBit (n + 2), ovr := Config.freeBit (n + 3) }
  else if reg = 3 then
    { c with
      inIe := Config.freeBit n, inFf := Config.freeBit (n + 1), len := (Config.freeWord n).setWidth 2
      oneStop := Config.freeBit (n + 2), par := Config.freeBit (n + 3) }
  else if reg = 5 then { c with sending := anyCharacter n, outReady := Config.freeBit (n + 1) }
  else if reg = 7 then { c with outIe := Config.freeBit n, outFf := Config.freeBit (n + 1) }
  else c

/-- A terminal after a part of an access to one of its registers; a device clear writes all control and status bits
(`spec/61_io_devices.md` R742, R761, R762). -/
def Terminal.cut (t : Terminal) (reg : BitVec 3) (v : Word) (n : Nat) : Terminal :=
  if reg = 0 then
    { t with
      inp := { t.inp with
        ready := Config.freeBit n, framing := Config.freeBit (n + 1), parity := Config.freeBit (n + 2)
        overrun := Config.freeBit (n + 3) } }
  else if reg = 1 then { t with rate := (Config.freeWord n).setWidth 8 }
  else if reg = 3 then
    let t :=
      { t with
        inp := { t.inp with
          ie := Config.freeBit n, errIe := Config.freeBit (n + 1), active := Config.freeBit (n + 2)
          ff := Config.freeBit (n + 3) }
        test := Config.freeBit (n + 4), len := (Config.freeWord n).setWidth 2, oneStop := Config.freeBit (n + 5)
        par := Config.freeBit (n + 6), autostop := Config.freeBit (n + 7) }
    if v.getLsbD 4 then
      { t with
        inp := { t.inp with
          ready := Config.freeBit (n + 8), framing := Config.freeBit (n + 9), parity := Config.freeBit (n + 10)
          overrun := Config.freeBit (n + 11) }
        out :=
          { ie := Config.freeBit (n + 12), errIe := Config.freeBit (n + 13), broken := Config.freeBit (n + 14)
            ff := Config.freeBit (n + 15), sending := anyCharacter (n + 16), holding := anyCharacter (n + 17) }
        motorStopped := Config.freeBit (n + 18), motorCalled := Config.freeBit (n + 19) }
    else t
  else if reg = 5 then
    { t with out := { t.out with holding := anyCharacter n }, motorCalled := Config.freeBit (n + 1) }
  else if reg = 7 then
    { t with
      out := { t.out with
        ie := Config.freeBit n, errIe := Config.freeBit (n + 1), ff := Config.freeBit (n + 2) } }
  else t

/-- A reader after a part of a control write, `r` being what the whole write leaves; its data register only where it counts
(`spec/61_io_devices.md` R763). -/
def TapeReader.cut (r : TapeReader) (v : Word) (n : Nat) : TapeReader :=
  { r with
    ie := Config.freeBit n, active := Config.freeBit (n + 1), test := Config.freeBit (n + 2)
    ready := Config.freeBit (n + 3), ff := Config.freeBit (n + 4)
    data := if v.getLsbD 3 && !v.getLsbD 4 && r.ready then (Config.freeWord n).setWidth 8 else r.data }

/-- A punch after a part of a write to its buffer or its control register (`spec/61_io_devices.md` R764). -/
def TapePunch.cut (p : TapePunch) (reg : BitVec 2) (n : Nat) : TapePunch :=
  if reg = 1 then { p with buffer := (Config.freeWord n).setWidth 8 }
  else
    { p with
      ie := Config.freeBit n, active := Config.freeBit (n + 1), test := Config.freeBit (n + 2)
      ready := Config.freeBit (n + 3), ff := Config.freeBit (n + 4) }

/-- A DMA controller after a part of an access to one of its registers, `d` being what the whole access leaves: `marHigh` then
says that a write to the memory address was its high part (`spec/61_io_devices.md` R765). -/
def DmaController.cut (d : DmaController) (reg : BitVec 3) (v : Word) (n : Nat) : DmaController :=
  let w := Config.freeWord n
  if reg = 0 then { d with marRead := Config.freeBit n }
  else if reg = 1 then
    { d with
      mar := if d.marHigh then w.extractLsb' 0 8 ++ d.mar.extractLsb' 0 16 else d.mar.extractLsb' 16 8 ++ w
      marHigh := Config.freeBit n }
  else if reg = 3 then { d with bar := w }
  else if reg = 5 then
    let d :=
      { d with
        control := w, ready := Config.freeBit n, error := Config.freeBit (n + 1), ff := Config.freeBit (n + 2) }
    if v.getLsbD 4 then { d with marHigh := Config.freeBit (n + 3), marRead := Config.freeBit (n + 4) } else d
  else if reg = 7 then { d with wc := w }
  else d

/-- An external interface after a part of an access, `e` being what the whole access leaves: the access has happened, with any
word, or not (log 17). -/
def External.cut (e : External) (addr : Word) (n : Nat) : External :=
  if addr.getLsbD 0 then
    { e with writes := if Config.freeBit n then (addr, Config.freeWord n) :: e.writes.tail else e.writes.tail }
  else { e with reads := if Config.freeBit n then e.reads else e.reads.tail }

/-- An interface after a part of a transfer of `v` to an address, or of one from it; reading a reader or a punch writes nothing
(`spec/61_io_devices.md` R740). -/
def Device.cut (d : Device) (addr v : Word) (n : Nat) : Device :=
  match d with
  | .external e => .external (e.cut addr n)
  | .terminal e => .terminal (e.cut ((addr - e.base).setWidth 3) v n)
  | .reader e => if (addr - e.base).setWidth 2 = (3 : BitVec 2) then .reader (e.cut v n) else d
  | .punch e => if addr.getLsbD 0 then .punch (e.cut ((addr - e.base).setWidth 2) n) else d
  | .dma e => .dma (e.cut ((addr - e.base).setWidth 3) v n)

/-- The interfaces after a part of a transfer: of the first one that decodes the address. -/
def cutDevices (addr v : Word) (n : Nat) : List Device → List Device
  | [] => []
  | d :: r => if d.decodes addr then d.cut addr v n :: r else d :: cutDevices addr v n r

/-- The registers of the addressed interface after a part of a transfer; a data rate is that of its whole module
(`spec/61_io_devices.md` R762). -/
def State.cutTransfer (s : State) (addr v : Word) : State :=
  let n := s.freeCount
  { (if isClock addr then { s with clock := s.clock.cut (addr.setWidth 2) n }
    else if isConsole addr then { s with console := s.console.cut s.opcomActive (addr.setWidth 3) n }
    else { s with devices := spreadRate addr (cutDevices addr v n s.devices) }) with freeCount := n + 32 }

/-- The flip-flop of one level set or cleared. -/
def Lines.put (l : Lines) (level : Nat) (b : Bool) : Lines :=
  match level with
  | 10 => { l with l10 := b }
  | 11 => { l with l11 := b }
  | 12 => { l with l12 := b }
  | 13 => { l with l13 := b }
  | _ => l

/-- The flip-flop by which an interface requests a level set or cleared (`spec/61_io_devices.md` R745). -/
def Device.putRequest (d : Device) (level : Nat) (b : Bool) : Device :=
  match d with
  | .external e => .external { e with ff := e.ff.put level b }
  | .terminal e =>
    if level = 10 then .terminal { e with out := { e.out with ff := b } }
    else .terminal { e with inp := { e.inp with ff := b } }
  | .reader e => .reader { e with ff := b }
  | .punch e => .punch { e with ff := b }
  | .dma e => .dma { e with ff := b }

/-- The request of the clock or the console, or of a plugged-in interface, set or cleared (`spec/61_io_devices.md` R746). -/
def State.putRequest (s : State) (level : Nat) (n : Option Nat) (b : Bool) : State :=
  match n with
  | some k =>
    match s.devices[k]? with
    | some d => { s with devices := setDevice k (d.putRequest level b) s.devices }
    | none => s
  | none =>
    if level = 13 then { s with clock := { s.clock with ff := b } }
    else if level = 10 then { s with console := { s.console with outFf := b } }
    else { s with console := { s.console with inFf := b } }

/-- The request that an IDENT on a level answers (`spec/61_io_devices.md` R746, R750, R756). -/
def State.requestPlace (s : State) (level : Nat) : List Place :=
  if (level == 13 && s.clock.ff) || (level == 10 && s.console.outFf) || (level == 12 && s.console.inFf) then
    [.request level none]
  else
    match s.devices.findIdx? fun d => d.drives level with
    | some k => [.request level (some k)]
    | none => []

/-! ### Any value into a place -/

/-- Draw any value into a place; into a word of memory with any check bits, as the cycle that stores it may have been made or
not. -/
def State.scramble (s : State) (place : Place) : State :=
  let (w, s) := s.drawWord
  match place with
  | .reg l r => s.setReg l ((s.reg l).put r w)
  | .flag f => s.setFlag f (w.getLsbD 0)
  | .pcr l => s.setPcr l { pt := w.extractLsb' 9 2, apt := w.extractLsb' 7 2, ring := w.extractLsb' 0 2 }
  | .word pa =>
    if s.memPresent pa then
      let (check, s) := s.drawWord
      { s with mem := s.mem.writeWord pa w, ecc := s.ecc.write pa.toNat ((check.extractLsb' 0 6).zeroExtend 8) }
    else s
  | .shadow va => s.shadowWrite va w
  | .transfer addr v => s.cutTransfer addr v
  | .request level n => s.putRequest level n (w.getLsbD 0)
  | .panelStatus => { s with panel := { s.panel with comRdy := w.getLsbD 0 } }
  | .panelCommand =>
    let (entered, s) := s.drawBit
    { s with panel := { s.panel with fifo := s.panel.fifo.dropLast ++ if entered then [w] else [] } }
  | .busMonitor =>
    let (hi, s) := s.drawWord
    { s with busMonitor := hi.extractLsb' 0 8 ++ w }
  | .lmp => { s with lmp := w }
  | .eccr => { s with eccr := w.extractLsb' 0 5 }
  | .iic => { s with iic := w.extractLsb' 0 4, iicLock := w.getLsbD 4 }
  | .psrLock => { s with psrLock := w.getLsbD 0 }
  | .pesLock => { s with pesLock := w.getLsbD 0 }
  | .controlStore =>
    { s with wcs := (List.range 1024).map fun i => Config.freeWord (s.freeCount + i), freeCount := s.freeCount + 1024 }

/-- Draw any value into each place of a list. -/
def State.scrambleAll (s : State) (places : List Place) : State := places.foldl State.scramble s

/-! ### The registers that an instruction may write -/

/-- The destination of a register operation; number 0 takes none (`spec/45_register_ops.md` R392). -/
def destinations (dr : RField) : List RField := if dr = .zero then [] else [dr]

/-- The flag in a bit of the status word. -/
def flagsAt (bn : Nat) : List Flag := [Flag.ptm, .tg, .k, .z, .q, .o, .c, .m].filter fun f => f.bit == bn

/-- The flags C, O and Q of an addition. -/
def additionFlags : List Flag := [.c, .o, .q]

/-- The floating accumulator (`spec/43_floating.md` R342). -/
def State.accumulator (s : State) : List RField := if s.cfg.fp32 then [.a, .d] else [.t, .a, .d]

/-- Whether PACK or UPACK has found an illegal code, `t` being the state after it and `raised` the interrupts that it raises: none
where an access was refused (`spec/52_ce_decimal.md` R588). -/
def State.illegalReported (s t : State) (raised : Word) : Bool :=
  raised &&& 0o14 == 0 && t.p == s.p + 1 && t.d.extractLsb' 0 5 == 2

/-- The registers and flags of the current level that an instruction may write beside P; `t` is the state after it, `raised`
the interrupts that it raises. -/
def State.registersWritten (s t : State) (raised : Word) (i : Instr) : List RField × List Flag :=
  match i with
  | .stz _ | .sta _ | .stt _ | .stx _ | .std _ | .stf _ | .min _ | .sbyt | .srb _ => ([], [])
  | .lda _ | .and _ | .ora _ | .lbyt | .comd | .ldatx _ | .tra _ | .irr _ _ => ([.a], [])
  | .ldt _ | .exam => ([.t], [])
  | .ldx _ | .ldxtx _ | .mix3 | .jpc _ | .jnc _ => ([.x], [])
  | .ldd _ | .lddtx _ => ([.a, .d], [])
  | .ldf _ => ([.t, .a, .d], [])
  | .add _ | .sub _ => ([.a], additionFlags)
  | .mpy _ => ([.a], [.o, .q])
  | .fad _ | .fsb _ | .fmu _ => (s.accumulator, [.tg, .c])
  | .fdv _ => (s.accumulator, [.tg, .c, .z])
  | .nlz _ => (s.accumulator, [])
  | .dnz _ => (s.accumulator, [.z])
  | .jmp _ | .jap _ | .jan _ | .jaz _ | .jaf _ | .jxz _ | .jxn _ => ([], [])
  | .jpl _ => ([.l], [])
  | .skpEql _ _ | .skpGeq _ _ | .skpGre _ _ | .skpMgre _ _ | .skpUeq _ _ | .skpLss _ _ | .skpLst _ _ | .skpMlst _ _ =>
    ([], [])
  | .addd | .subd | .shde => ([], [])
  | .pack | .upack => (if s.illegalReported t raised then [.a, .d] else if t.p = s.p + 1 then [.d] else [], [])
  | .bfill => (if descLength s.t = 0 then [] else [.x, .t], [])
  | .movb => ([.a, .d, .x, .t], [])
  | .movbf =>
    (if forbiddenOverlap (descAddr s.a s.d) (descAddr s.x s.t) s.moveLength.toNat then [] else [.a, .d, .x, .t], [])
  | .init => (if t.p = s.p + 7 then [.b] else [], [])
  | .entr => (if t.p = s.p + 3 then [.b] else [], [])
  | .leave | .eleav | .ldbtx _ => ([.b], [])
  | .setpt | .clept | .clnreent | .chreentpages | .clepu | .movew _ | .tset | .rdus => ([], [])
  | .lwcs | .cust1 _ | .cust2 _ | .cust3 _ | .cust4 _ | .cust5 _ | .cust6 _ | .cust7 _ | .cust10 _ | .cust11 _
  | .cust12 _ | .cust13 _ => ([], [])
  | .identPl10 | .identPl11 | .identPl12 | .identPl13 => (if raised.getLsbD 7 then [] else [.a], [])
  | .exr _ => ([], [])
  | .rmpy _ _ => ([.a, .d], additionFlags)
  | .rdiv _ _ => ([.a, .d], .z :: additionFlags)
  | .statx _ | .stztx _ | .stdtx _ | .depo => ([], [])
  | .swap _ _ sr dr => (if dr = .zero then [] else dr :: destinations sr, [])
  | .rand _ _ _ dr | .rexo _ _ _ dr | .rora _ _ _ dr => (destinations dr, [])
  | .radd _ _ _ _ _ dr | .rsub _ dr | .copy _ dr | .copyCm2 _ dr | .rclr dr | .rinc dr | .rdcr dr =>
    (destinations dr, if dr = .zero then [.c] else additionFlags)
  | .exit => ([], additionFlags)
  | .trr n => (if n = 1 then [.zero] else [], [])
  | .mcl n | .mst n =>
    ([], if n = 1 then [Flag.ptm, .tg, .k, .z, .q, .o, .c, .m].filter fun f => s.a.getLsbD f.bit else [])
  | .opcom | .iof | .ion | .pof | .piof | .sex | .rex | .pon | .pion | .wait _ | .mon _ | .lrb _ | .irw _ _ => ([], [])
  | .ioxt => (if s.t.getLsbD 0 then [] else [.a], [])
  | .iox address => (if address.getLsbD 0 then [] else [.a], [])
  | .sht _ _ n => if n = 0 then ([], []) else ([.t], [.m])
  | .shd _ _ n => if n = 0 then ([], []) else ([.d], [.m])
  | .sha _ _ n => if n = 0 then ([], []) else ([.a], [.m])
  | .sad _ _ n => if n = 0 then ([], []) else ([.a, .d], [.m])
  | .sab _ => ([.b], [])
  | .saa _ => ([.a], [])
  | .sat _ => ([.t], [])
  | .sax _ => ([.x], [])
  | .aab _ => ([.b], additionFlags)
  | .aaa _ => ([.a], additionFlags)
  | .aat _ => ([.t], additionFlags)
  | .aax _ => ([.x], additionFlags)
  | .bsetZro bn dr | .bsetOne bn dr | .bsetBcm bn dr | .bsetBac bn dr =>
    (destinations dr, if dr = .zero then flagsAt bn.toNat else [])
  | .bskpZro _ _ | .bskpOne _ _ | .bskpBcm _ _ | .bskpBac _ _ => ([], [])
  | .bstc bn dr | .bsta bn dr => (destinations dr, .k :: if dr = .zero then flagsAt bn.toNat else [])
  | .bldc _ _ | .blda _ _ | .banc _ _ | .band _ _ | .borc _ _ | .bora _ _ => ([], [.k])

/-- The other registers that an instruction may write: those of other levels, internal ones, and those of interfaces. -/
def State.othersWritten (s : State) (i : Instr) : List Place :=
  match i with
  | .mon _ => [.reg 14 .t]
  | .irw level dr => if dr = .p ∧ level = s.pil then [] else [.reg level dr]
  | .lrb level => (blockOrder.filter fun r => !(r == .p && level == s.pil)).map (.reg level)
  | .tra n =>
    if n = 0 ∧ s.panelPresent then [.panelStatus] else if n = 3 ∧ s.cfg.hasMms then [.psrLock]
    else if n = 5 then [.iic] else if n = 13 then [.pesLock] else []
  | .trr n =>
    if n = 0 ∧ s.panelPresent then [.panelCommand]
    else if n = 2 then [.lmp]
    else if n = 3 ∧ s.cfg.hasMms then [.pcr (levelField s.a)]
    else if n = 13 then [.eccr]
    else []
  | .lwcs => if s.cfg.hasWcs then [.controlStore] else []
  | .iox address => [.transfer (address.zeroExtend 16) s.a]
  | .ioxt => if s.t = eccrAddress then [.eccr] else [.transfer s.t s.a]
  | .identPl10 => s.yieldBus.requestPlace 10
  | .identPl11 => s.yieldBus.requestPlace 11
  | .identPl12 => s.yieldBus.requestPlace 12
  | .identPl13 => s.yieldBus.requestPlace 13
  | _ => []

/-! ### The words that an instruction may store -/

/-- The `n` words from an address on. -/
def wordsFrom (va : Word) (n : Nat) : List Word := (List.range n).map fun k => va + Word.ofNat k

/-- Whether the page tables let a word be stored, and be read before it where the store is part of a word. -/
def State.storeTarget (s : State) (readFirst : Bool) (rel : Rel) (va : Word) : Option PhysAddr :=
  match (if readFirst then s.translate .rop rel va else .done 0 s), s.translate .sto rel va with
  | .done _ _, .done pa _ => some pa
  | _, _ => none

/-- The places of stores one after another; a refused one is the last. A store into the page tables, from `t` the state after
the instruction, is in force for those behind it. -/
def State.storePlaces (s t : State) (readFirst : Bool) (rel : Rel) : List Word → List Place
  | [] => []
  | va :: r =>
    if s.shadowReached va then .shadow va :: (s.shadowWrite va (t.shadowRead va)).storePlaces t readFirst rel r
    else
      match s.storeTarget readFirst rel va with
      | some pa => .word pa :: s.storePlaces t readFirst rel r
      | none => []

/-- The places of a memory reference instruction that stores `n` words; `t` is the state after it. -/
def State.operandPlaces (s t : State) (m : MemRef) (readFirst : Bool) (n : Nat) : List Place :=
  match s.effLoc m with
  | .done (el, rel) s => s.storePlaces t readFirst rel (wordsFrom el n)
  | .aborted _ => []

/-- The places of the words that `n` bytes lie in; `t` is the state after the instruction. -/
def State.fieldPlaces (s t : State) (rel : Rel) (a : ByteAddr) (n : Nat) : List Place :=
  if n = 0 then [] else s.storePlaces t true rel (wordsFrom a.word ((a.right.toNat + n + 1) / 2))

/-- The place of an instruction of the xxxTX group (`spec/51_physical_memory.md` R566). -/
def State.physicalPlace (s : State) (pa : PhysAddr) : Place :=
  if s.txShadow pa then .shadow (pa.extractLsb' 0 16) else .word pa

/-- The words of memory and of the page tables that an instruction may store; `t` is the state after it, `raised` the interrupts
that it raises. -/
def State.wordsWritten (s t : State) (raised : Word) (i : Instr) : List Place :=
  match i with
  | .stz m | .sta m | .stt m | .stx m => s.operandPlaces t m false 1
  | .std m => s.operandPlaces t m false 2
  | .stf m => s.operandPlaces t m false 3
  | .min m => s.operandPlaces t m true 1
  | .sbyt => s.storePlaces t true .nonprel [s.stringByte.word]
  | .srb _ => s.storePlaces t false .nonprel (wordsFrom s.x 8)
  | .bfill => s.fieldPlaces t (descRel s.t) (descAddr s.x s.t) (descLength s.t).toNat
  | .movb => s.fieldPlaces t (descRel s.t) (descAddr s.x s.t) s.moveLength.toNat
  | .movbf =>
    if forbiddenOverlap (descAddr s.a s.d) (descAddr s.x s.t) s.moveLength.toNat then []
    else s.fieldPlaces t (descRel s.t) (descAddr s.x s.t) s.moveLength.toNat
  | .addd | .subd => s.fieldPlaces t .nonprel (descAddr s.a s.d) (packedBytes s.d)
  | .shde => s.fieldPlaces t .nonprel (descAddr s.x s.t) (packedBytes s.t)
  | .pack => if s.illegalReported t raised then [] else s.fieldPlaces t .nonprel (descAddr s.x s.t) (packedBytes s.t)
  | .upack => if s.illegalReported t raised then [] else s.fieldPlaces t .nonprel (descAddr s.x s.t) (decLength s.t)
  | .init =>
    match s.initParameters with
    | .done (_, start, _, _) _ => if t.p = s.p + 6 then [] else s.storePlaces t false .nonprel (wordsFrom start 4)
    | .aborted _ => []
  | .entr =>
    match s.entrParameters with
    | .done (_, start, _) _ => if t.p = s.p + 2 then [] else s.storePlaces t false .nonprel (wordsFrom start 4)
    | .aborted _ => []
  | .eleav => s.storePlaces t false .nonprel [s.b - 0o200, s.b - 0o173]
  | .depo => [.word s.adAddress]
  | .statx delta | .stztx delta => [s.physicalPlace (s.txAddress delta 0)]
  | .stdtx delta => [s.physicalPlace (s.txAddress delta 0), s.physicalPlace (s.txAddress delta 1)]
  | _ => []

/-! ### The cut -/

/-- The places that an instruction begun in `s` may write, where `t` is the state after it and `raised` are the interrupts that
it raises: P alone where it is not executed (II, PI); where an access is refused (PF, MPV), P, the stores before it and the
progress of BFILL, MOVB and MOVBF (`spec/60_exceptions.md` R674, R675). -/
def State.placesOf (s t : State) (raised : Word) (i : Instr) : List Place :=
  let (rs, fs) := s.registersWritten t raised i
  let registers := rs.map (Place.reg s.pil)
  .reg s.pil .p ::
    (if raised &&& 0o120 ≠ 0 then []
    else if raised &&& 0o14 ≠ 0 then
      s.wordsWritten t raised i ++ if i ∈ [Instr.bfill, .movb, .movbf] then registers else []
    else s.wordsWritten t raised i ++ registers ++ fs.map Place.flag ++ s.othersWritten i)

/-- The places that an instruction may write, as its run with no interrupt recorded before it shows them. -/
def State.instructionPlaces (s : State) (i : Instr) : List Place :=
  match exec i { s with iid := 0 } with
  | .next t => s.placesOf t t.iid i
  | _ => []

/-- The places that the execution of a word may write; EXR those of the instruction that it executes, and Z where that is an
EXR (`spec/45_register_ops.md` R413). -/
def State.wordPlaces (s : State) (w : Word) : List Place :=
  match decodeWord s.cfg.hasCx w with
  | .ok (.exr sr) =>
    match decodeWord s.cfg.hasCx (s.regValue sr) with
    | .ok (.exr _) => [.reg s.pil .p, .flag .z]
    | .ok i => s.instructionPlaces i
    | .error _ => [.reg s.pil .p]
  | .ok i => s.instructionPlaces i
  | .error _ => [.reg s.pil .p]

/-- The places that the instruction may write which a unit begun in `s` executes: none where its fetch is refused or a
breakpoint stops before it. -/
def State.unitPlaces (s : State) : List Place :=
  let fetched :=
    match s.memRead .fetch .prel s.p with
    | .done w s => s.prefetch.wordPlaces w
    | .aborted _ => []
  match s.mopc.semi with
  | .manual w => s.wordPlaces w
  | .brk a => if s.p = a then [] else fetched
  | _ => fetched

/-- `s` with the entries of its accesses to be noted, and with another word in the Bus Monitor Register, neither of which an
instruction sees: the one run from it does what it does from `s`, and shows which pages it marks and whether a cycle of it is
sampled. -/
def State.watched (s : State) : State := { s with watch := some [], busMonitor := ~~~ s.busMonitor }

/-- The marks that the noted accesses set in entry `i`: PGU, and WIP where one of them writes (`spec/20_memory.md` R136). -/
def State.marksNoted (u : State) (i : Nat) : Word :=
  (u.watch.getD []).foldl (fun w a => if a.1.toNat = i then w ||| (if a.2 then 0o014000 else 0o004000) else w) 0

/-- A protect half when the instruction is cut off: any value in the bits that it changes, and in PGU and WIP where it sets
them, also where they were set before (`spec/20_memory.md` R136). -/
def cutProtect (n : Nat) (old new marks : Word) : Word :=
  let open_ := (old ^^^ new) ||| marks
  (new &&& ~~~ open_) ||| (Config.freeWord n &&& open_)

/-- The state that an instruction leaves which a master clear cuts off: `s` is the state in which its unit begins, `t` the one
that it would have reached, and `u` the one that it would have reached from `s.watched`. -/
def State.cutOff (t s u : State) : State :=
  let n := t.freeCount
  let refused := t.psrLock && !s.psrLock
  let latched := t.pes != s.pes || t.pea != s.pea || t.pesLock && !s.pesLock
  let r :=
    { t with
      prot := Vector.ofFn fun i => cutProtect (n + i.val) s.prot[i] t.prot[i] (u.marksNoted i.val)
      pcr := if t.ring = s.ring then t.pcr
        else (t.setPcr t.pil { t.curPcr with ring := (Config.freeWord (n + 256)).extractLsb' 0 2 }).pcr
      psr := if refused then Config.freeWord (n + 257) &&& 0o140377 else t.psr
      psrLock := if refused then Config.freeBit n else t.psrLock
      pes := if latched then Config.freeWord (n + 258) else t.pes
      pea := if latched then Config.freeWord (n + 259) else t.pea
      pesLock := if latched then Config.freeBit (n + 1) else t.pesLock
      freeCount := n + 260 }
  let sampled := u.busMonitor = t.busMonitor ∧ !s.mopc.bus.getLsbD 3
  r.scrambleAll (s.unitPlaces ++ if sampled then [.busMonitor] else [])

end Sys2Proof.Machine
end

