-- ==== Sys2Proof/Machine/Control.lean ====
section
/-! DEFINITION. Master clear, stop, start and the entry into the bootstrap loaders (`spec/62_operator.md` R800, R810 to R817,
R840; `spec/70_reset_and_hazards.md` R861). -/

namespace Sys2Proof.Machine

/-- The line typed so far is forgotten (R806). -/
def Mopc.clearLine (m : Mopc) : Mopc :=
  { m with
    num := 0, haveNum := false, low := 0, haveLow := false, letters := [], arg := 0, haveArg := false }

/-- What master clear does to MOPC (R805, R810); the prompt of its first line is due (R804). -/
def Mopc.masterClear (m : Mopc) : Mopc :=
  { m.clearLine with
    xmode := .phys, semi := .none, last := .none, outq := [], lineStart := true, due := false, dump := none }

/-- The master clear routine (R810); PVL becomes the old PIL (R861; log 50). -/
def State.masterClear (s : State) : State :=
  { s with
    pie := 0, ioni := false, poni := false, sexi := false
    console := s.console.clear, clock := s.clock.clear, devices := s.devices.map Device.clear
    pvl := s.pil, pil := 0, iie := 0, pid := 0, iid := 0
    cache := [], cacheClearing := true, lcil := 0, ucil := 0o37777
    wcsLoaded := false
    mopc := s.mopc.masterClear
    loader := Loader.idle
    runState := .stop, opcomActive := true, boundaryDone := false }

/-- Stop the program: the STOP button and the command STOP; in STOP it has no effect (R812). A loader that is at work ends in STOP
(log 29). -/
def State.stopRun (s : State) : State := if s.runState = .stop then s else s.enterStop

/-- Start the program at P of the current level, with the test between instructions first (R816, R817). -/
def State.continueRun (s : State) : State :=
  { s with
    runState := .run, opcomActive := false, mopc := { s.mopc with semi := .none, lineStart := false }
    boundaryDone := false }

/-- Start a semi-RUN; OPCOM_ACTIVE stays (R820 to R822). -/
def State.startSemi (s : State) (m : SemiRun) : State :=
  { s with runState := .run, mopc := { s.mopc with semi := m, due := false }, boundaryDone := false }

/-- Enter the loader that a load word selects: bit 13 for mass storage (R840). The LOAD button does so in RUN too (R855), and
while a loader is at work it starts anew; OPCOM_ACTIVE is 1 from then on (log 29). -/
def State.startLoader (s : State) (v : Word) : State :=
  { s with
    runState := .loading, opcomActive := true, mopc := { s.mopc with semi := .none }
    loader := { Loader.idle with mass := v.getLsbD 13, device := v.extractLsb' 0 11 } }

/-- The LOAD button and a bare `&` or `$`: the thumbwheel decides; a device address 0 means nothing (R840;
`spec/70_reset_and_hazards.md` R866). -/
def State.loadFromAld (s : State) : State :=
  let v := aldValue s.cfg.ald
  if v.extractLsb' 0 11 = 0 then s else s.startLoader v

/-- Append to the output that MOPC has still to print (R802). -/
def State.print (s : State) (cs : List Byte) : State :=
  { s with mopc := { s.mopc with outq := s.mopc.outq ++ cs } }

end Sys2Proof.Machine
end

