-- ==== Sys2Proof/Machine/Mopc.lean ====
section
/-! DEFINITION. The microprogrammed operator's communication MOPC (`spec/62_operator.md` R802 to R839): characters, commands,
examine and deposit, dumps. Output is the sequence of items the spec names (R804; log 19). -/

namespace Sys2Proof.Machine

/-- The low `n` octal digits of a number as characters (R804). -/
def octalDigits : Nat → Nat → List Byte
  | 0, _ => []
  | n + 1, v => octalDigits n (v / 8) ++ [BitVec.ofNat 8 (48 + v % 8)]

/-- A word as six octal digits (R804). -/
def octalWord (w : Word) : List Byte := octalDigits 6 w.toNat

/-- The letter strings of MOPC (R806). -/
inductive Command where
  | macl | stop | examineMode | dep | register | reg (n : RField) | rd | user | opr | internal | ird | rde | format
  | bus | act | io
deriving DecidableEq, Repr

/-- The listed letter strings, by their ASCII codes (R806, R807, R830). -/
def commandTable : List (List Nat × Command) :=
  [([77, 65, 67, 76], .macl), ([83, 84, 79, 80], .stop), ([69], .examineMode), ([68, 69, 80], .dep),
   ([82], .register), ([83], .reg .zero), ([68], .reg .d), ([80], .reg .p), ([66], .reg .b), ([76], .reg .l),
   ([65], .reg .a), ([84], .reg .t), ([88], .reg .x), ([82, 68], .rd), ([85], .user), ([79, 80, 82], .opr),
   ([73], .internal), ([73, 82, 68], .ird), ([82, 68, 69], .rde), ([70], .format), ([66, 85, 83], .bus),
   ([65, 67, 84], .act), ([73, 79], .io)]

/-- The command that the typed letters, the latest first, stand for. -/
def commandOf (letters : List Byte) : Option Command :=
  (commandTable.find? (fun e => e.1 == letters.reverse.map BitVec.toNat)).map (·.2)

/-- The prompt `#` at the beginning of a line (R804), also the mark of a finished memory test (R824). -/
def charSharp : Byte := 0o43
/-- The answer `?` (R806). -/
def charQuestion : Byte := 0o77
/-- The mark `.` of a reached breakpoint (R821). -/
def charDot : Byte := 0o56

/-- Forget the line. -/
def State.clearLine (s : State) : State := { s with mopc := s.mopc.clearLine }

/-- The number typed before the letters, as a word (R806). -/
def State.numWord (s : State) : Word := s.mopc.num.extractLsb' 0 16

/-- End a line: forget it; the prompt of the next is due (R804, R806). -/
def State.endLine (s : State) : State := { s with mopc := { s.mopc.clearLine with lineStart := true } }

/-- Answer `?` and forget the line; a new one begins (R806; log 19). -/
def State.answerQuestion (s : State) : State := (s.print [charQuestion]).endLine

/-! ### The display (`spec/61_io_devices.md` R775; log 47) -/

/-- The bytes of a word in a packet, bits 7-0 first (R775). -/
def packetBytes (w : Word) : List Byte := [w.extractLsb' 0 8, w.extractLsb' 8 8]

/-- A packet for the display that waits to be sent, where there is a panel (R775). -/
def State.announce (s : State) (packet : List Byte) : State :=
  if s.panelPresent then { s with mopc := { s.mopc with packets := s.mopc.packets ++ [packet] } } else s

/-- The display shows another source (R805). -/
def State.select (s : State) (source : DisplaySource) : State := { s with mopc := { s.mopc with source := source } }

/-- The packet REGISTER LABEL with the four characters of the function field, from left to right (R775). -/
def labelPacket (f3 f2 f1 f0 : Byte) : List Byte := [0o16, f2, f3, f0, f1]

/-- The digits of a number below 32 as two characters. -/
def twoDigits (n : Nat) : Byte × Byte := (BitVec.ofNat 8 (48 + n / 8), BitVec.ofNat 8 (48 + n % 8))

/-- Select a register of a level for the display, with its label (R775, R830). -/
def State.selectRegister (s : State) (level : BitVec 4) (r : RField) : State :=
  let (hi, lo) := twoDigits level.toNat
  let name : Byte :=
    match r with
    | .zero => 0o123 | .d => 0o104 | .p => 0o120 | .b => 0o102 | .l => 0o114 | .a => 0o101 | .t => 0o124 | .x => 0o130
  (s.select (.register level (BitVec.ofNat 3 r.toNat))).announce (labelPacket 0o40 hi lo name)

/-- Select an internal register for the display, with its label (R775, R835). -/
def State.selectInternal (s : State) (code : BitVec 4) : State :=
  let (hi, lo) := twoDigits code.toNat
  (s.select (.internal code)).announce (labelPacket 0o40 0o111 hi lo)

/-! ### Memory (R826 to R829) -/

/-- The physical address of a MOPC access; a page fault or a missing permit leads to page 0 (R826). -/
def State.mopcAddress (s : State) (addr : PhysAddr) (write : Bool) : PhysAddr :=
  if !s.cfg.hasMms then (addr.extractLsb' 0 16).zeroExtend 24
  else
    match s.mopc.xmode with
    | .phys => addr
    | .virt table =>
      let e : BitVec 8 := table ++ addr.extractLsb' 10 6
      let p := s.protAt e
      let refused := (!wpm p && !rpm p && !fpm p) || !(if write then wpm p else rpm p)
      (if refused then 0 else s.pageNumber e) ++ addr.extractLsb' 0 10

/-- `MOPCread` printed (R826, R827). -/
def State.mopcExamine (s : State) (addr : PhysAddr) : State :=
  let (w, s) := s.busRead .examDepo (s.mopcAddress addr false)
  s.print (octalWord w)

/-- `MOPCwrite` (R826). -/
def State.mopcDeposit (s : State) (addr : PhysAddr) (w : Word) : State :=
  s.busWrite .examDepo (s.mopcAddress addr true) w

/-- The next location in the same 64K area (R828). -/
def nextLocation (a : PhysAddr) : PhysAddr := a.extractLsb' 16 8 ++ (a.extractLsb' 0 16 + 1)

/-- Bits 2-0 of internal register 21: the examine mode (R850). -/
def ExamineMode.bits : ExamineMode → BitVec 3
  | .phys => 0
  | .virt table => (1 : BitVec 1) ++ table

/-- Select memory for the display, with the examine type (R775, R827). -/
def State.selectMemory (s : State) : State := (s.select .memory).announce [0o15, s.mopc.xmode.bits.zeroExtend 8]

/-- Examine a memory location: it becomes the current one, and a physical one chooses the segment (R826, R827). -/
def State.examineMemory (s : State) (addr : PhysAddr) : State :=
  let pseg := if s.mopc.xmode = .phys then addr.extractLsb' 16 8 else s.mopc.pseg
  ({ s with mopc := { s.mopc with clc := addr, last := .mem, pseg := pseg } }.selectMemory).mopcExamine addr

/-- Go on to the next location and print it on a line of its own (R804, R828); PSEG stays that of the last `/` (R826; log 20). -/
def State.examineNext (s : State) : State :=
  let a := nextLocation s.mopc.clc
  ({ s with mopc := { s.mopc with clc := a } }.print [charSharp]).mopcExamine a

/-- One word of a dump: the last one ends it with the prompt (R829). DESIGN CHOICE: each word is read in an entry of MOPC of its
own, though R802 has a command take effect in one, so that a key can stop the dump (log 55). -/
def State.dumpOne (s : State) (d : Dump) : State :=
  let s := s.mopcExamine (s.mopc.pseg ++ d.next)
  if d.next = d.last then { s with mopc := { s.mopc with dump := none } }.endLine
  else { s with mopc := { s.mopc with dump := some { d with next := d.next + 1 } } }

/-! ### Registers (R830 to R838) -/

/-- Print the eight registers of a level (R832). -/
def State.dumpLevel (s : State) (level : BitVec 4) : State :=
  s.print (([.zero, .d, .p, .b, .l, .a, .t, .x] : List RField).flatMap fun r => octalWord ((s.reg level).get r))

/-- Print the register sets of `n` levels from one on (R832). -/
def State.dumpLevels (s : State) : Nat → BitVec 4 → State
  | 0, _ => s
  | n + 1, level => (s.dumpLevel level).dumpLevels n (level + 1)

/-- Print `n` arbitrary words, the scratch registers (R838). -/
def State.dumpScratch (s : State) : Nat → State
  | 0 => s
  | n + 1 =>
    let (w, s) := s.drawWord
    (s.print (octalWord w)).dumpScratch n

/-- Examine an internal register as by TRA (R835). -/
def State.examineInternal (s : State) (code : BitVec 4) : State :=
  let (w, s) := ({ s with mopc := { s.mopc with last := .ireg code } }.selectInternal code).traRead code
  s.print (octalWord w)

/-- The examines of `n` internal registers from a code on (R837). -/
def State.dumpInternal (s : State) : Nat → BitVec 4 → State
  | 0, _ => s
  | n + 1, code => (s.examineInternal code).dumpInternal n (code + 1)

/-- How many levels a register dump covers, from level 0 without a lower bound; nothing for bounds in the wrong order (R829,
R832; log 20). -/
def State.dumpCount (s : State) : Option Nat :=
  let lo := (s.mopc.low.extractLsb' 0 4).toNat
  let hi := (s.mopc.num.extractLsb' 0 4).toNat
  if lo ≤ hi then some (hi - lo + 1) else none

/-- Deposit a word into what was examined last (R828, R831, R833, R834, R836). -/
def State.deposit (s : State) (w : Word) : Result :=
  match s.mopc.last with
  | .none => .next s.endLine
  | .mem => .next ((s.mopcDeposit s.mopc.clc w).examineNext).clearLine
  | .reg level n =>
    .next (s.setReg level ((s.reg level).put (RField.fromBits n.toNat) w)).endLine
  | .ireg code =>
    match s.trrWrite code w with
    | some s => .next s.endLine
    | none => .refused .panelFifoFull
  | .opr => .next { s with opr := w }.endLine
  | .user => .next { s with lmp := w }.endLine

/-- Examine a register of a level, level 0 if none is named (R830). -/
def State.examineRegister (s : State) (r : RField) : State :=
  let level := s.mopc.num.extractLsb' 0 4
  let s := { s with mopc := { s.mopc with last := .reg level (BitVec.ofNat 3 r.toNat) } }.selectRegister level r
  s.print (octalWord ((s.reg level).get r))

/-- A single I/O instruction with OPR in the place of A (R823). -/
def State.operatorIo (s : State) : State :=
  let addr : Word := (s.mopc.num.extractLsb' 0 11).zeroExtend 16
  let s := { s.yieldBus with mopc := { s.mopc with last := .none } }
  if addr.getLsbD 0 then s.ioWrite addr s.opr
  else
    let (w, s) := s.ioRead addr
    s.print (octalWord w)

/-! ### The memory test (R824) -/

/-- Test `n` words from an address on: the words get arbitrary values; an absent word ends the test (U6). -/
def State.testWords (s : State) : Nat → PhysAddr → Bool × State
  | 0, _ => (true, s)
  | n + 1, pa =>
    if s.memPresent pa then
      let (w, s) := s.drawWord
      (s.busWrite .examDepo pa w).testWords n (pa + 1)
    else (false, (s.physRead .examDepo pa).2)

/-- `xxx#`: the words from B to X of a segment, none with B above X; T, P, D and L are arbitrary afterwards (R824, U6; log
28). DESIGN CHOICE: its `#` or `?` begins no new line, so that no prompt follows either, though one follows the `?` that
answers a line; R804 leaves line ends open (log 19). -/
def State.memoryTest (s : State) : State :=
  let (ok, s) := s.testWords (s.x.toNat + 1 - s.b.toNat) (s.mopc.num.extractLsb' 0 8 ++ s.b)
  let (t, s) := s.drawWord
  let (p, s) := s.drawWord
  let (d, s) := s.drawWord
  let (l, s) := s.drawWord
  (s.setCur { s.cur with t := t, p := p, d := d, l := l }).print [if ok then charSharp else charQuestion]

/-! ### Commands -/

/-- CR with letters (R811, R812, R825, R828, R832, R837 to R839). Of F the packet goes to the panel processor, which then does what
its maintenance codes ask for (R839; log 53). Digits behind the letters do not count (log 20). -/
def State.lineCommand (s : State) (c : Command) : Result :=
  match c with
  | .macl => .next s.masterClear
  | .stop => .next s.stopRun.endLine
  | .examineMode =>
    let m := if s.mopc.haveNum then ExamineMode.virt (s.mopc.num.extractLsb' 0 2) else .phys
    .next { s with mopc := { s.mopc with xmode := m } }.endLine
  | .dep => if s.mopc.haveNum then s.deposit s.numWord else .next s.endLine
  | .rd =>
    match s.dumpCount with
    | some n => .next (s.dumpLevels n (s.mopc.low.extractLsb' 0 4)).endLine
    | none => .refused .dumpBounds
  | .rde =>
    match s.dumpCount with
    | some n => .next (s.dumpScratch (8 * n)).endLine
    | none => .refused .dumpBounds
  | .ird => .next (if s.runState = .stop then (s.dumpInternal 16 0).endLine else s.answerQuestion)
  | .format =>
    .next ({ s with mopc := { s.mopc with format := s.mopc.num } }.announce (0o17 :: packetBytes s.numWord)).endLine
  | .register | .reg _ | .user | .opr | .internal | .bus | .act | .io => .refused .unknownCommand

/-- CR (R828, R829). A number behind a `<` that follows none is a number alone, and none behind a `<` is 0 (log 20). -/
def State.carriageReturn (s : State) : Result :=
  match s.mopc.letters with
  | [] =>
    if s.mopc.haveLow then
      let lo := s.mopc.low.extractLsb' 0 16
      let hi := s.numWord
      if lo ≤ hi then .next { s with mopc := { s.mopc with dump := some { next := lo, last := hi } } }.clearLine
      else .refused .dumpBounds
    else if s.mopc.haveNum then
      if s.mopc.last = .none then .next s.endLine
      else if s.runState = .stop then s.deposit s.numWord
      else .next s.answerQuestion
    else if s.mopc.last = .mem then .next s.examineNext.clearLine
    else .next s.endLine
  | letters =>
    match commandOf letters with
    | some c => s.lineCommand c
    | none => .refused .unknownCommand

/-- Examine the register of `U/` or `OPR/` (R833, R834). -/
def State.examineWord (s : State) (last : Examined) (source : DisplaySource) (w : Word) (label : List Byte) : State :=
  (({ s with mopc := { s.mopc with last := last } }.select source).announce label).print (octalWord w)

/-- `/`: examine (R823, R827, R830, R833 to R835, R839). The model's choice (log 20), where the rules name no register: R and I
without a number behind the letter mean number 0, of a number above 7 behind R the low three bits count, of one above 17 octal
behind I the low four, and digits behind the letters of another command do not count. -/
def State.slash (s : State) : Result :=
  match s.mopc.letters with
  | [] => .next (s.examineMemory s.mopc.num).clearLine
  | letters =>
    match commandOf letters with
    | some .register => .next (s.examineRegister (RField.fromBits s.mopc.arg.toNat)).clearLine
    | some (.reg r) => .next (s.examineRegister r).clearLine
    | some .user => .next (s.examineWord .user .user s.lmp (labelPacket 0o40 0o40 0o40 0o125)).clearLine
    | some .opr => .next (s.examineWord .opr .opr s.opr (labelPacket 0o40 0o117 0o120 0o122)).clearLine
    | some .internal => .next (s.examineInternal (s.mopc.arg.extractLsb' 0 4)).clearLine
    | some .io => .next s.operatorIo.clearLine
    | some .bus =>
      let bus := s.mopc.num.extractLsb' 3 2 ++ (0 : BitVec 1) ++ s.mopc.num.extractLsb' 0 2
      .next (({ s with mopc := { s.mopc with bus := bus } }.select .bus).announce [0o14, bus.zeroExtend 8]).clearLine
    | some .act => .next (s.select .activity).clearLine
    | _ => .refused .unknownCommand

/-- The characters legal in STOP only (R806, R813, R816, R817, R820 to R822, R824). A count whose low 16 bits are 0 is 1, and
letters typed before are ignored and forgotten (log 20). -/
def State.stopCharacter (s : State) (c : Byte) : State :=
  let n := s.numWord
  let has := s.mopc.haveNum
  if c = 0o41 then (if has then s.setP n else s).continueRun.clearLine
  else if c = 0o132 then (s.startSemi (.count (if has ∧ n ≠ 0 then n.toNat else 1))).clearLine
  else if c = 0o56 then (s.startSemi (.brk n)).clearLine
  else if c = 0o42 then (s.startSemi (.manual n)).clearLine
  else if c = 0o43 then s.memoryTest.clearLine
  else (if has then s.startLoader n else s.loadFromAld).clearLine

/-- The characters `!`, `Z`, `.`, `"`, `#`, `&` and `$`. -/
def isStopCharacter (c : Byte) : Bool :=
  c == 0o41 || c == 0o132 || c == 0o56 || c == 0o42 || c == 0o43 || c == 0o46 || c == 0o44

/-- An octal digit: before the letters of a line it enters NUM, after them the register number (R806, R830). -/
def State.digit (s : State) (c : Byte) : State :=
  let v : BitVec 24 := (c.extractLsb' 0 3).zeroExtend 24
  if s.mopc.letters = [] then
    { s with mopc := { s.mopc with num := s.mopc.num * 8 + v, haveNum := true } }
  else { s with mopc := { s.mopc with arg := s.mopc.arg * 8 + v, haveArg := true } }

/-- Whether a character leaves a semi-RUN going: 0-7 and A-Y (R821). -/
def keepsSemiRun (c : Byte) : Bool := (0o60 ≤ c && c ≤ 0o67) || (0o101 ≤ c && c ≤ 0o131)

/-- Handle a character outside a semi-RUN (R806). -/
def State.command (s : State) (c : Byte) : Result :=
  if 0o60 ≤ c && c ≤ 0o67 then .next (s.digit c)
  else if 0o101 ≤ c && c ≤ 0o131 then .next { s with mopc := { s.mopc with letters := c :: s.mopc.letters } }
  else if c = 0o40 ∨ c = 0o100 then .next s.clearLine
  else if c = 0o74 then
    .next { s with
      mopc := { s.mopc with low := s.mopc.num, haveLow := s.mopc.haveNum, num := 0, haveNum := false } }
  else if c = 0o57 then s.slash
  else if c = 0o15 then s.carriageReturn
  else if c = 0o52 then .next (s.print (octalDigits 8 s.mopc.clc.toNat))
  else if c = 0o33 then
    .next
      (if s.runState = .run then { s with opcomActive := false, mopc := { s.mopc.clearLine with lineStart := false } } else s)
  else if isStopCharacter c ∧ s.runState = .stop then .next (s.stopCharacter c)
  else .next s.answerQuestion

/-- Handle a character: one other than 0-7 and A-Y ends a semi-RUN first (R820 to R822). -/
def State.handleCharacter (s : State) (c : Byte) : Result :=
  (if s.mopc.semi ≠ .none ∧ !keepsSemiRun c then s.stopRun else s).command c

/-- Take the character that has arrived from the console (R802, R803). -/
def State.takeCharacter (s : State) : Byte × State :=
  (s.console.data &&& 0o177, { s with console := { s.console with avail := false } })

/-- The packet of what the display shows (R775): REGISTER EXAMINE with the program counter, MEMORY EXAMINE, DISPLAY ACTIVITY, or
DISPLAY MEMORY BUS with the Bus Monitor Register (`spec/62_operator.md` R850). The values are looked at without any effect; the
activity is open (log 47). DESIGN CHOICE, as the rule does not say which copy it is: a MEMORY EXAMINE sample is the word that main
memory holds, uncorrected and past the cache (log 47). -/
def State.samplePacket (s : State) : List Byte × State :=
  match s.mopc.source with
  | .register level n =>
    (0o11 :: packetBytes ((s.reg level).get (RField.fromBits n.toNat)) ++ packetBytes s.p, s)
  | .internal code => (0o11 :: packetBytes (s.traRead code).1 ++ packetBytes s.p, s)
  | .opr => (0o11 :: packetBytes s.opr ++ packetBytes s.p, s)
  | .user => (0o11 :: packetBytes s.lmp ++ packetBytes s.p, s)
  | .memory =>
    let a := s.mopc.clc
    (0o10 :: a.extractLsb' 16 8 :: packetBytes (a.extractLsb' 0 16) ++
      packetBytes (s.mem.readWord (s.mopcAddress a false)), s)
  | .activity =>
    let (w, s) := s.drawWord
    (0o12 :: packetBytes w, s)
  | .bus => (0o13 :: s.busMonitor.extractLsb' 16 8 :: packetBytes (s.busMonitor.extractLsb' 0 16), s)

/-- Whether the FIFO of the panel processor takes the bytes of a packet (R770). -/
def State.fifoTakes (s : State) (packet : List Byte) : Bool :=
  decide (s.panel.fifo.length + packet.length ≤ s.cfg.panelFifoDepth)

/-- The bytes of a packet in the FIFO, a place for each; bit 12 marks them as the microprogram's (R770, R775; log 47). -/
def State.sendPacket (s : State) (packet : List Byte) : State :=
  { s with panel := { s.panel with fifo := s.panel.fifo ++ packet.map fun b => 0o10000 ||| b.zeroExtend 16 } }

/-- What MOPC does for the display (R802 (c), R775): it reads the panel status, then it sends a packet that waits, or answers the
request that was read with a sample, where it fits. -/
def State.displayStep (s : State) : State :=
  if !s.panelPresent then s
  else
    let s := s.readPanelStatus
    match s.mopc.packets with
    | packet :: r =>
      if s.fifoTakes packet then { s with mopc := { s.mopc with packets := r } }.sendPacket packet else s
    | [] =>
      if s.mopc.sampleDue then
        let (packet, s') := s.samplePacket
        if s.fifoTakes packet then { s' with mopc := { s.mopc with sampleDue := false } }.sendPacket packet else s
      else s

/-- One entry of MOPC (R802): print a character, begin a line, go on with a dump, handle a character, or serve the
display. -/
def State.mopcStep (s : State) : Result :=
  let arrived := s.opcomActive && s.console.avail
  match s.mopc.outq with
  | c :: r =>
    if s.console.outReady then
      .next { s with console := s.console.send (cutCharacter s.console.len c), mopc := { s.mopc with outq := r } }
    else .next s.displayStep
  | [] =>
    if s.mopc.lineStart then .next { s with mopc := { s.mopc with outq := [charSharp], lineStart := false } }
    else
      match s.mopc.dump with
      | some d =>
        if arrived then
          let s := s.takeCharacter.2
          .next { s with mopc := { s.mopc with dump := none } }.endLine
        else .next (s.dumpOne d)
      | none =>
        if arrived then
          let (c, s) := s.takeCharacter
          s.handleCharacter c
        else .next s.displayStep

/-- Whether the character that MOPC handles next ends the command STOP (R806, R812). -/
def State.stopTyped (s : State) : Bool :=
  s.mopc.outq.isEmpty && !s.mopc.lineStart && s.mopc.dump.isNone && s.opcomActive && s.console.avail &&
    s.takeCharacter.1 == 0o15 && commandOf s.mopc.letters == some .stop

/-- MOPC entered in RUN between two instructions: after the test and before the fetch (`spec/60_exceptions.md` R660 step 4); at
the command STOP the test is not made (R812). -/
def State.mopcBetween (s : State) : Result :=
  (if s.boundaryDone || s.stopTyped then s else s.test).mopcStep

end Sys2Proof.Machine
end

