-- ==== Sys2Proof/Machine/Loader.lean ====
section
/-! DEFINITION. The bootstrap loaders (`spec/62_operator.md` R842 to R845) and the actions of the automatic load descriptor
(`spec/70_reset_and_hazards.md` R865, R866). -/

namespace Sys2Proof.Machine

/-- A loader ends in STOP (R843). -/
def State.loaderStops (s : State) : State := { s.enterStop with loader := Loader.idle }

/-- The registers of level 0 but P after a binary load (U7). -/
def State.drawLevelZero (s : State) : State :=
  let (d, s) := s.drawWord
  let (b, s) := s.drawWord
  let (l, s) := s.drawWord
  let (a, s) := s.drawWord
  let (t, s) := s.drawWord
  let (x, s) := s.drawWord
  s.setReg 0 { s.reg 0 with d := d, b := b, l := l, a := a, t := t, x := x }

/-- Start on level 0 (R843): a level change first, where another level was current (log 29). -/
def State.startLevelZero (s : State) : State :=
  let s := if s.pil = 0 then s else { s with pvl := s.pil, pil := 0 }
  { s with loader := Loader.idle }.continueRun

/-- A character of the text part (R843, parts A to C and the exclamation mark). -/
def Loader.text (l : Loader) (c : Byte) : Loader :=
  if c = 0o41 then { l with part := .addressHi }
  else if 0o60 ≤ c && c ≤ 0o67 then { l with num := l.num * 8 + (c.extractLsb' 0 3).zeroExtend 16 }
  else if c = 0o15 then { l with bnum := l.num, num := 0 }
  else if c = 0o12 then l
  else { l with num := 0 }

/-- A byte of the binary part but the action code, where no word of data is complete (R843, parts E, F, H and first
halves). -/
def Loader.binary (l : Loader) (c : Byte) : Loader :=
  match l.part with
  | .addressHi => { l with hold := c, part := .addressLo }
  | .addressLo => { l with address := l.hold ++ c, part := .countHi }
  | .countHi => { l with hold := c, part := .countLo }
  | .countLo =>
    let count : Word := l.hold ++ c
    { l with remaining := count, sum := 0, part := if count = 0 then .sumHi else .dataHi }
  | .dataHi => { l with hold := c, part := .dataLo }
  | .sumHi => { l with hold := c, part := .sumLo }
  | _ => l

/-- After a word of data: the next address, the count, the sum (R843, part G). -/
def Loader.stored (l : Loader) (w : Word) : Loader :=
  { l with
    address := l.address + 1, remaining := l.remaining - 1, sum := l.sum + w
    part := if l.remaining = 1 then .sumHi else .dataHi }

/-- The binary loader takes a byte of its device (R843). Its words are stored as every word of the CPU, memory and cache at once
(`spec/20_memory.md` R162, R183; log 48). -/
def State.binaryLoad (s : State) (c : Byte) : State :=
  match s.loader.part with
  | .text => { s with loader := s.loader.text (c &&& 0o177) }
  | .dataLo =>
    let w := s.loader.hold ++ c
    { s.storeThrough .data (s.loader.address.zeroExtend 24) w with loader := s.loader.stored w }
  | .sumLo =>
    if (s.loader.hold ++ c : Word) = s.loader.sum then { s with loader := { s.loader with part := .action } }
    else (s.drawLevelZero.print [charQuestion]).loaderStops
  | .action =>
    let start := s.loader.bnum
    let s := s.drawLevelZero
    let s := s.setReg 0 { s.reg 0 with p := start }
    if c = 0 then s.startLevelZero else s.loaderStops
  | _ => { s with loader := s.loader.binary c }

/-- A byte from the loader's device, if a binary load is waiting for one (R842). -/
def State.loaderByte (s : State) (c : Byte) : State :=
  if s.runState = .loading ∧ !s.loader.mass then s.binaryLoad c else s

/-- Words into consecutive physical addresses by DMA (R845). -/
def State.storeBlock (s : State) : PhysAddr → List Word → State
  | _, [] => s
  | pa, w :: r => (s.physWrite .dma pa w).storeBlock (pa + 1) r

/-- The mass-storage load gets its 1024 words, or fails (R845; a failure is refused by the spec). The registers of the interface
that delivers them stay (log 29). -/
def State.massBlock (s : State) (block : Option (List Word)) : Result :=
  if s.runState = .loading ∧ s.loader.mass then
    match block with
    | some ws =>
      if ws.length = 1024 then .next ({ (s.storeBlock 0 ws).setP 0 with loader := Loader.idle }.continueRun)
      else .refused .massLoadFailure
    | none => .refused .massLoadFailure
  else .next s

/-- "Start in address 20" (`spec/70_reset_and_hazards.md` R865). -/
def State.startAt20 (s : State) : State := (s.setP 0o20).continueRun

/-- The action of the thumbwheel when power comes on with the key locked: bit 15 of its value says whether it loads even
where standby power held (`spec/70_reset_and_hazards.md` R862, R866). -/
def State.powerUpAction (s : State) (standbyOk : Bool) : State :=
  if standbyOk ∧ !(aldValue s.cfg.ald).getLsbD 15 then s.startAt20 else s.loadFromAld

end Sys2Proof.Machine
end

