-- ==== Sys2Proof/Machine/HostEvents.lean ====
section
/-! DEFINITION. What the outside world and the panel processor do between two steps (`spec/61_io_devices.md` R770 to R774;
`spec/62_operator.md` R801; `spec/70_reset_and_hazards.md` R860 to R868; log 5). -/

namespace Sys2Proof.Machine

/-! ### The panel processor -/

/-- Message control: bit 0 abort, bit 1 initialise, bit 2 rotate (R773). DESIGN CHOICE, as the rule does not say it: INIT alone
makes a message active, ROT after an ABORT does not; ABORT leaves the text buffer and wins over INIT in the same command; and
every command without ROT ends the rotation (log 54). -/
def Panel.messageControl (p : Panel) (v : Byte) : Panel :=
  { p with
    text := if v.getLsbD 1 then [] else p.text
    active := !v.getLsbD 0 && (p.active || v.getLsbD 1)
    rotating := v.getLsbD 2 }

/-- Message append: at most 40 characters (R773). DESIGN CHOICE: it makes no message active, also not after an ABORT (log 54). -/
def Panel.messageAppend (p : Panel) (v : Byte) : Panel :=
  if p.text.length < 40 then { p with text := p.text ++ [v] } else p

/-- Byte `k` of four (R774). -/
def calendarByte (v : BitVec 32) (k : Nat) : Byte := v.extractLsb' (8 * k) 8

/-- Byte `k` of four replaced (R774). -/
def setCalendarByte (v : BitVec 32) (k : Nat) (b : Byte) : BitVec 32 :=
  (v &&& ~~~ ((255 : BitVec 32) <<< (8 * k))) ||| (b.zeroExtend 32 <<< (8 * k))

/-- A write into a holding byte of the calendar: the counters are loaded with the high days byte (R774). -/
def Panel.calendarWrite (p : Panel) (k : Nat) (v : Byte) : Panel :=
  let bytes := setCalendarByte p.holding k v
  if k = 3 then
    { p with
      holding := bytes, calSec := bytes.extractLsb' 0 16, calDay := bytes.extractLsb' 16 16, calKnown := true }
  else { p with holding := bytes }

/-- The sampling of the calendar into the holding bytes: what was written, while no second has passed since, else arbitrary
bytes (R774, D48). -/
def State.sampleCalendar (s : State) : State :=
  if s.panel.calKnown then
    { s with panel := { s.panel with holding := s.panel.calDay ++ s.panel.calSec } }
  else
    let (lo, s) := s.drawWord
    let (hi, s) := s.drawWord
    { s with panel := { s.panel with holding := hi ++ lo } }

/-- The command code of a panel word (R770). -/
def panelCommand (w : Word) : BitVec 3 := w.extractLsb' 8 3

/-- A panel command performed, and the byte that PANS shows (R771 to R774). -/
def State.panelPerform (s : State) (w : Word) : Byte × State :=
  let v := w.extractLsb' 0 8
  let k := (panelCommand w).toNat
  if w.getLsbD 13 then
    if k < 4 then (v, s)
    else
      let s := if k = 4 then s.sampleCalendar else s
      (calendarByte s.panel.holding (k - 4), s)
  else
    match k with
    | 0 | 1 => (v, s)
    | 2 => (v, { s with panel := s.panel.messageAppend v })
    | 3 => (v, { s with panel := s.panel.messageControl v })
    | k => (v, { s with panel := s.panel.calendarWrite (k - 4) v })

/-- How many bytes a packet of the microprogram has, by its first byte (R775). -/
def packetLength (code : Byte) : Nat :=
  match code.toNat with
  | 0o10 => 6 | 0o11 => 5 | 0o12 => 3 | 0o13 => 4 | 0o14 => 2 | 0o15 => 2 | 0o16 => 5 | 0o17 => 3
  | _ => 1

/-- The maintenance codes in INFO 15-12 of a display format, the digits `uu` of the command F: 4 initialises the panel processor
and 10 octal aborts the message, by the message control command that does so (R772, R773; `spec/62_operator.md` R839; log 53). -/
def Panel.maintain (p : Panel) (info : Word) : Panel :=
  let starts := info.getLsbD 14
  let aborts := info.getLsbD 15
  if starts || aborts then p.messageControl ((wordOfBits [aborts, starts]).setWidth 8) else p

/-- A whole packet: DISPLAYED FORMAT may ask for a maintenance function; what the others show is the display's alone (R775). -/
def Panel.packetDone (p : Panel) (bytes : List Byte) : Panel :=
  match bytes with
  | [code, lo, hi] => if code = 0o17 then p.maintain (hi ++ lo) else p
  | _ => p

/-- The panel processor takes a byte of the microprogram's; the last one of a packet makes it whole (R775; log 47). -/
def Panel.packetByte (p : Panel) (b : Byte) : Panel :=
  let bytes := p.packet ++ [b]
  if bytes.length < packetLength (bytes.headD 0) then { p with packet := bytes }
  else { p with packet := [] }.packetDone bytes

/-- The panel processor takes the word at the head of its FIFO: a command, or a byte of a packet of the microprogram's, which
leaves PANS as it was (R771, R775; log 47). With the last one done it asks MOPC for the next sample. -/
def State.panelProcess (s : State) : State :=
  match s.panel.fifo with
  | [] => s
  | w :: r =>
    let s := { s with panel := { s.panel with fifo := r, request := s.panel.request || r.isEmpty } }
    if w.getLsbD 12 || w.getLsbD 11 then { s with panel := s.panel.packetByte (w.extractLsb' 0 8) }
    else
      let (rpan, s) := s.panelPerform w
      { s with
        panel := { s.panel with read := w.getLsbD 13, pcom := panelCommand w, rpan := rpan, comRdy := true } }

/-- A second passes: the counter of seconds carries every twelve hours; from above 43199 it counts on to 65535 and to 0 without
a carry (R774; log 26). -/
def Panel.second (p : Panel) : Panel :=
  if p.calSec = 43199 then { p with calSec := 0, calDay := p.calDay + 1, calKnown := false }
  else { p with calSec := p.calSec + 1, calKnown := false }

/-! ### Power (`spec/70_reset_and_hazards.md` R861 to R865) -/

/-- The state that power comes back to, before the master clear: what reset names, the installation, the interfaces, and
memory and the calendar where standby power held (R863; log 34). -/
def State.powerUp (s : State) (k : PanelKey) (standbyOk : Bool) : State :=
  { State.reset with
    cfg := s.cfg
    mem := if standbyOk then s.mem else State.reset.mem
    ecc := if standbyOk then s.ecc else State.reset.ecc
    devices := s.devices
    console := { Console.initial with output := s.console.output }
    panel :=
      if standbyOk then
        { Panel.initial with
          calSec := s.panel.calSec, calDay := s.panel.calDay, calKnown := s.panel.calKnown }
      else Panel.initial
    panelKey := k
    events := s.events, freeCount := s.freeCount }

/-- POWER_ON (R862). -/
def State.powerOn (s : State) (k : PanelKey) (standbyOk : Bool) : State :=
  match k with
  | .standBy => { s with panelKey := k }
  | .on => (s.powerUp k standbyOk).masterClear
  | .lock => ((s.powerUp k standbyOk).masterClear).powerUpAction standbyOk

/-- A bit pattern falls on a word and its check bits (`spec/20_memory.md` R170, R171). -/
def State.memoryUpset (s : State) (pa : PhysAddr) (data : Word) (check : BitVec 6) : State :=
  if s.memPresent pa then
    let old := s.mem.readWord pa
    let new := old ^^^ data
    let diff := checkBits old ^^^ s.syndrome pa ^^^ check ^^^ checkBits new
    { s with mem := s.mem.writeWord pa new, ecc := s.ecc.write pa.toNat (diff.zeroExtend 8) }
  else s

/-! ### The events -/

/-- A character from the console line: to a binary load from the console, else to the interface
(`spec/61_io_devices.md` R757; `spec/62_operator.md` R842). -/
def State.characterReceived (s : State) (c : Byte) (framing parity : Bool) : State :=
  if s.runState = .loading ∧ !s.loader.mass ∧ s.loader.device = 0o300 then s.loaderByte c
  else { s with console := s.console.receive s.opcomActive c framing parity }

/-- A clock pulse; at the clock interrupt the microprogram reads the panel status, to see whether there is a panel
(`spec/61_io_devices.md` R751, R775). -/
def State.clockInterrupt (s : State) : State :=
  let s := { s with clock := s.clock.pulse }
  if s.panelPresent then s.readPanelStatus else s

/-- An event while the power is on. -/
def State.onEvent (s : State) (e : HostEvent) : Result :=
  match e with
  | .run => .next s
  | .clockPulse => .next s.clockInterrupt
  | .charReceived c framing parity => .next (s.characterReceived c framing parity)
  | .transmitterReady => .next { s with console := s.console.transmitted }
  | .panelProcess => .next (if s.panelPresent then s.panelProcess else s)
  | .calendarSecond => .next { s with panel := s.panel.second }
  | .mopcEntry => if s.runState = .run ∧ s.mopc.semi = .none then s.mopcBetween else .next s
  | .buttonMcl => .next (if s.panelKey = .on then s.masterClear else s)
  | .buttonStop => .next (if s.panelKey = .on then s.stopRun else s)
  | .buttonLoad => .next (if s.panelKey = .on then s.loadFromAld else s)
  | .buttonOpcom => .next (if s.panelKey = .on then s.enterOpcom else s)
  | .turnKey k => .next (if k = .standBy then { s with panelKey := k, runState := .off } else { s with panelKey := k })
  | .powerFail => .next (s.raise .pow)
  | .powerOff => .next { s with runState := .off }
  | .powerOn _ _ => .next s
  | .remoteMcl => .next s.masterClear
  | .remoteLoad => .next s.loadFromAld
  | .clearWithin remote => .next (if remote ∨ s.panelKey = .on then s.masterClear else s)
  | .cacheReady => .next { s with cacheClearing := false }
  | .busCycle c => .next (s.busCycle c)
  | .steal plan => .next { s with steals := plan }
  | .memoryUpset pa data check => .next (s.memoryUpset pa data check)
  | .device n e => .next (s.deviceEvent n e)
  | .loaderByte c => .next (s.loaderByte c)
  | .massBlock b => s.massBlock b

/-- An event while the power is off: only the return of power, the key, and the calendar on standby power (R863,
R864). -/
def State.onEventOff (s : State) (e : HostEvent) : State :=
  match e with
  | .powerOn k standbyOk => s.powerOn k standbyOk
  | .turnKey k => { s with panelKey := k }
  | .calendarSecond => { s with panel := s.panel.second }
  | _ => s

/-- A host event (log 5). -/
def State.hostEvent (s : State) (e : HostEvent) : Result :=
  if s.runState = .off then .next (s.onEventOff e) else s.onEvent e

end Sys2Proof.Machine
end

