-- ==== Sys2Proof/Machine/Cycle.lean ====
section
/-! DEFINITION. The instruction cycle (`spec/00_scope.md` R16; `spec/60_exceptions.md` R660): the test between instructions,
the fetch, the semi-RUN modes (`spec/62_operator.md` R820 to R822), and what the machine does in each run state. -/

namespace Sys2Proof.Machine

/-- Go on with the next state, if there is one. -/
def andThen (r : Result) (f : State → Result) : Result :=
  match r with
  | .next s => f s
  | .fault e => .fault e
  | .refused e => .refused e

/-- The boundary after an instruction: its test has not been made yet (log 5). -/
def State.atBoundary (s : State) : State := { s with boundaryDone := false }

/-- Execute a word: II for one that is no instruction (`spec/30_encoding.md` R225, R226). -/
def State.executeFetched (s : State) (w : Word) : Result :=
  match decodeWord s.cfg.hasCx w with
  | .ok i => exec i s
  | .error _ => s.illegal

/-- Execute the word that was fetched, after the prefetch of the next one (`spec/70_reset_and_hazards.md` R880). -/
def State.runWord (s : State) (w : Word) : Result := s.prefetch.executeFetched w

/-- One instruction: fetch at P, execute. A refused fetch leaves P (R676). -/
def State.instruction (s : State) : Result :=
  match s.memRead .fetch .prel s.p with
  | .aborted s => .next s.atBoundary
  | .done w s => andThen (s.runWord w) fun s => .next s.atBoundary

/-- The manual instruction: not fetched; what P is afterwards is open (`spec/62_operator.md` R822, U5). -/
def State.manualInstruction (s : State) (w : Word) : Result :=
  andThen (s.executeFetched w) fun s =>
    let (p, s) := s.drawWord
    .next (s.setP p).atBoundary

/-- What follows the test between instructions: the breakpoint, the manual instruction, or the instruction at P (R660 step
5; `spec/62_operator.md` R821, R822). -/
def State.afterTest (s : State) : Result :=
  match s.mopc.semi with
  | .brk a => if s.p = a then .next (s.stopRun.print [charDot]).atBoundary else s.instruction
  | .manual w => s.manualInstruction w
  | _ => s.instruction

/-- A unit of R660: a level change alone, or an instruction. -/
def State.unit (s : State) : Result :=
  if s.boundaryDone then s.afterTest
  else
    let s := s.latchInternal
    if s.ioni ∧ s.pk ≠ s.pil then .next { s.changeLevel with boundaryDone := true } else s.afterTest

/-- The end of a unit in a semi-RUN: the count, and no semi-RUN in STOP (`spec/62_operator.md` R820, R800). -/
def State.countUnit (s : State) : State :=
  if s.runState ≠ .run then { s with mopc := { s.mopc with semi := .none } }
  else
    match s.mopc.semi with
    | .count k =>
      if k ≤ 1 then s.stopRun else { s with mopc := { s.mopc with semi := .count (k - 1) } }
    | _ => s

/-- What a step of a semi-RUN does: the command STOP, a level change, MOPC where an instruction has been executed since its last
entry, or an instruction (`spec/60_exceptions.md` R660; `spec/62_operator.md` R802, R812, R820 to R822; log 27). -/
def State.semiUnit (s : State) : Result :=
  let t := if s.boundaryDone then s else s.latchInternal
  if s.mopc.due ∧ s.stopTyped then { s with mopc := { s.mopc with due := false } }.mopcStep
  else if !s.boundaryDone ∧ t.ioni ∧ t.pk ≠ t.pil then .next { t.changeLevel with boundaryDone := true }.countUnit
  else if s.mopc.due then { s with mopc := { s.mopc with due := false } }.mopcBetween
  else andThen t.afterTest fun s => .next { s with mopc := { s.mopc with due := true } }.countUnit

/-- A unit in RUN (`spec/60_exceptions.md` R660), or what a semi-RUN does. -/
def State.runUnit (s : State) : Result := if s.mopc.semi = .none then s.unit else s.semiUnit

/-- The state that the instruction leaves which a unit begun in `s` executes and a master clear cuts off, `t` being the one that
it would have reached: the unit is run once more with its accesses noted (R860; log 10). -/
def State.cutUnit (s t : State) : Result :=
  andThen s.watched.afterTest fun u => .next (t.cutOff s u)

/-- A master clear from the button or the bus during a unit: in RUN the instruction that the unit would execute is cut off
(R860; log 10). -/
def State.masterClearWithin (s : State) (remote : Bool) : Result :=
  if s.runState = .run ∧ (remote ∨ s.panelKey = .on) then
    andThen s.unit fun t =>
      if t.boundaryDone then .next t.masterClear
      else andThen (State.cutUnit (if s.boundaryDone then s else s.latchInternal) t) fun t => .next t.masterClear
  else s.hostEvent (.clearWithin remote)

/-- What the machine does of itself (`spec/62_operator.md` R800, R842; `spec/70_reset_and_hazards.md` R869). A loader
waits for its device. -/
def State.machineStep (s : State) : Result :=
  match s.runState with
  | .run => s.runUnit
  | .stop => s.mopcStep
  | .loading => .next s
  | .off => .fault .powerOff

/-- A step: the next host event, or what the machine does of itself (log 5). -/
def State.advanceMachine (s : State) : Result :=
  match s.events with
  | [] => s.machineStep
  | .clearWithin remote :: r => { s with events := r }.masterClearWithin remote
  | .run :: r => if s.runState = .off then .next { s with events := r } else { s with events := r }.machineStep
  | e :: r => { s with events := r }.hostEvent e

/-- Whether the word at an address can be fetched with paging off: memory, and no page table (`spec/20_memory.md` R111,
R126). -/
def State.fetchable (s : State) (va : Word) : Bool :=
  s.memPresent (va.zeroExtend 24) && !(s.cfg.hasMms && s.inShadow va)

/-- A word placed where the next instruction is fetched, in RUN with paging off and the test between instructions made
(log 4). -/
def State.placeWord (s : State) (w : Word) : State :=
  let s := { s with
    events := [], steals := [], runState := .run, boundaryDone := true, poni := false
    mopc := { s.mopc with semi := .none } }
  let s := if s.fetchable s.p then s else s.setP 0
  let pa : PhysAddr := s.p.zeroExtend 24
  { s with mem := s.mem.writeWord pa w, ecc := s.ecc.write pa.toNat 0, cache := dropLine (cacheIndex pa) s.cache }

end Sys2Proof.Machine
end

