-- ==== Sys2Proof/Machine/Step.lean ====
section
/-! DEFINITION. The step of the machine. -/

namespace Sys2Proof.Machine

/-- One step of the machine (`Machine/Cycle.lean`). -/
def step (s : State) : Host.Outcome State Fault Refusal := s.advanceMachine

/-- The state with an instruction placed where the next step fetches it; the bits above `nbits` are zero (log 4). -/
def State.withFetchWord (s : State) (nbits w : Nat) : State := s.placeWord (Word.ofNat (w % 2 ^ nbits))

end Sys2Proof.Machine
end

