-- ==== Sys2Proof/Safety.lean ====
section
/-! DEFINITION. The terms in which the statements speak of the machine: the invariant of every step, frames, tables of what
an instruction may change, byte-wise views of memory, and states in which addresses are physical. -/

namespace Sys2Proof.Machine

/-! ### The invariant -/

/-- Cache entries in rising order of their index, one for each (`spec/20_memory.md` R155). -/
def cacheSorted : List CacheLine → Bool
  | [] => true
  | [_] => true
  | a :: b :: r => decide (a.index < b.index) && cacheSorted (b :: r)

/-- What every state keeps: memory and its check bits in canonical form, the cache sorted, only the assigned bits in IIE
and IID (`spec/10_state.md` R52, R53), zeros in the unassigned bits of PSR (R67), and no paging and no extended mode
without the memory management module (`spec/49_system_control.md` R485, R489, by the spec's own decision D35; log 16). -/
structure State.Inv (s : State) : Prop where
  mem : s.mem.wf = true
  ecc : s.ecc.wf = true
  cache : cacheSorted s.cache = true
  iie : s.iie &&& 0o174001 = 0
  iid : s.iid &&& 0o174001 = 0
  psr : s.psr &&& 0o037400 = 0
  poni : s.poni = true → s.cfg.hasMms = true
  sexi : s.sexi = true → s.cfg.hasMms = true

/-! ### Frames -/

/-- Nothing differs but registers and the count of draws. -/
def onlyRegisters (s t : State) : Prop := t = { s with regs := t.regs, freeCount := t.freeCount }

/-- The registers of the current level but `rs` and P, its flags but `fs`, and the register sets of the other levels are
as before. -/
def keepsRegisters (s t : State) (rs : List RField) (fs : List Flag) : Prop :=
  (∀ r : RField, r ≠ .zero → r ≠ .p → r ∉ rs → t.cur.get r = s.cur.get r) ∧
  (∀ f : Flag, f ∉ fs → t.flag f = s.flag f) ∧
  (∀ l : BitVec 4, l ≠ s.pil → t.reg l = s.reg l)

/-- The registers of the current level after an instruction: those listed hold the listed values, the flags listed the
listed values, P the given one, and everything else of the register file is as before. -/
structure RegistersBecome (s t : State) (rs : List (RField × Word)) (fs : List (Flag × Bool)) (p : Word) : Prop where
  level : t.pil = s.pil
  values : ∀ e ∈ rs, t.cur.get e.1 = e.2
  flags : ∀ e ∈ fs, t.flag e.1 = e.2
  next : t.p = p
  rest : keepsRegisters s t (rs.map (·.1)) (fs.map (·.1))

/-- A register written by way of a register field: number 0 discards the value, P is the next instruction's address
(`spec/45_register_ops.md` R392). -/
def written (dr : RField) (v : Word) : List (RField × Word) := if dr = .zero ∨ dr = .p then [] else [(dr, v)]

/-- P after a write by way of a register field (`spec/45_register_ops.md` R392). -/
def nextAfter (s : State) (dr : RField) (v : Word) : Word := if dr = .p then v else s.p + 1

/-- What no data access touches: the status word's common bits, the interrupt registers but IID, PCR, the map halves, the
panel registers, the options, devices, and the operator's side. -/
def keepsControl (s t : State) : Prop :=
  t.cfg = s.cfg ∧ t.pil = s.pil ∧ t.pvl = s.pvl ∧ t.ioni = s.ioni ∧ t.poni = s.poni ∧ t.sexi = s.sexi ∧
  t.pie = s.pie ∧ t.pid = s.pid ∧ t.iie = s.iie ∧ t.iic = s.iic ∧ t.iicLock = s.iicLock ∧
  t.opr = s.opr ∧ t.lmp = s.lmp ∧ t.pcr = s.pcr ∧ t.eccr = s.eccr ∧ t.map = s.map ∧
  t.lcil = s.lcil ∧ t.ucil = s.ucil ∧ t.cacheClearing = s.cacheClearing ∧ t.wcs = s.wcs ∧ t.wcsLoaded = s.wcsLoaded ∧
  t.runState = s.runState ∧ t.opcomActive = s.opcomActive ∧ t.clock = s.clock ∧ t.console = s.console ∧
  t.panel = s.panel ∧ t.devices = s.devices ∧ t.mopc = s.mopc ∧ t.loader = s.loader ∧ t.panelKey = s.panelKey ∧
  t.events = s.events ∧ t.steals = s.steals

/-- Main memory and its check bits are as before. -/
def keepsMemory (s t : State) : Prop := t.mem = s.mem ∧ t.ecc = s.ecc

/-- The registers and flags that a bit instruction writing bit `bn` of `dr` may change (`spec/48_bit.md` R460). -/
def bitFrame (bn : BitVec 4) (dr : RField) : List RField × List Flag :=
  match dr with
  | .zero => ([], flagsAt bn.toNat)
  | r => ([r], [])

/-- The registers and flags besides P that an instruction working on registers alone may change. -/
def registerFrame : Instr → Option (List RField × List Flag)
  | .jap _ | .jan _ | .jaz _ | .jaf _ | .jxz _ | .jxn _ => some ([], [])
  | .jpc _ | .jnc _ => some ([.x], [])
  | .skpEql _ _ | .skpGeq _ _ | .skpGre _ _ | .skpMgre _ _ => some ([], [])
  | .skpUeq _ _ | .skpLss _ _ | .skpLst _ _ | .skpMlst _ _ => some ([], [])
  | .mix3 => some ([.x], [])
  | .rmpy _ _ => some ([.a, .d], [.c, .o, .q])
  | .rdiv _ _ => some ([.a, .d], [.z, .c, .o, .q])
  | .swap _ _ sr dr => some (if dr = .zero then ([], []) else ([sr, dr], []))
  | .rand _ _ _ dr | .rexo _ _ _ dr | .rora _ _ _ dr => some ([dr], [])
  | .radd _ _ _ _ _ dr | .rsub _ dr | .copy _ dr | .copyCm2 _ dr => some ([dr], [.c, .o, .q])
  | .exit => some ([], [.c, .o, .q])
  | .rclr dr | .rinc dr | .rdcr dr => some ([dr], [.c, .o, .q])
  | .nlz _ => some ([.t, .a, .d], [])
  | .dnz _ => some ([.t, .a, .d], [.z])
  | .sht _ _ _ => some ([.t], [.m])
  | .shd _ _ _ => some ([.d], [.m])
  | .sha _ _ _ => some ([.a], [.m])
  | .sad _ _ _ => some ([.a, .d], [.m])
  | .sab _ => some ([.b], [])
  | .saa _ => some ([.a], [])
  | .sat _ => some ([.t], [])
  | .sax _ => some ([.x], [])
  | .aab _ => some ([.b], [.c, .o, .q])
  | .aaa _ => some ([.a], [.c, .o, .q])
  | .aat _ => some ([.t], [.c, .o, .q])
  | .aax _ => some ([.x], [.c, .o, .q])
  | .bsetZro bn dr | .bsetOne bn dr | .bsetBcm bn dr | .bsetBac bn dr => some (bitFrame bn dr)
  | .bskpZro _ _ | .bskpOne _ _ | .bskpBcm _ _ | .bskpBac _ _ => some ([], [])
  | .bstc bn dr | .bsta bn dr => some ((bitFrame bn dr).1, .k :: (bitFrame bn dr).2)
  | .bldc _ _ | .blda _ _ | .banc _ _ | .band _ _ | .borc _ _ | .bora _ _ => some ([], [.k])
  | _ => none

/-- The registers and flags besides P that an instruction reading memory and writing none may change. -/
def readFrame : Instr → Option (List RField × List Flag)
  | .lda _ => some ([.a], [])
  | .ldt _ => some ([.t], [])
  | .ldx _ => some ([.x], [])
  | .ldd _ => some ([.a, .d], [])
  | .ldf _ => some ([.t, .a, .d], [])
  | .add _ | .sub _ => some ([.a], [.c, .o, .q])
  | .and _ | .ora _ => some ([.a], [])
  | .mpy _ => some ([.a], [.o, .q])
  | .fad _ | .fsb _ | .fmu _ => some ([.t, .a, .d], [.tg, .c])
  | .fdv _ => some ([.t, .a, .d], [.tg, .c, .z])
  | .jmp _ => some ([], [])
  | .jpl _ => some ([.l], [])
  | .lbyt => some ([.a], [])
  | .comd => some ([.a], [])
  | .leave => some ([.b], [])
  | _ => none

/-- The words that an instruction stores one after another: how they are accessed, the first address, the values, and the
state in which the stores begin; computed as the instruction computes them. -/
def storesOf (i : Instr) (s : State) : Access (Rel × Word × List Word) :=
  match i with
  | .stz m => (s.effLoc m).bind fun (el, rel) s' => .done (rel, el, [0]) s'
  | .sta m => (s.effLoc m).bind fun (el, rel) s' => .done (rel, el, [s.a]) s'
  | .stt m => (s.effLoc m).bind fun (el, rel) s' => .done (rel, el, [s.t]) s'
  | .stx m => (s.effLoc m).bind fun (el, rel) s' => .done (rel, el, [s.x]) s'
  | .std m => (s.effLoc m).bind fun (el, rel) s' => .done (rel, el, [s.a, s.d]) s'
  | .stf m => (s.effLoc m).bind fun (el, rel) s' => .done (rel, el, [s.t, s.a, s.d]) s'
  | .min m =>
    (s.effLoc m).bind fun (el, rel) s' => (s'.memRead .rop rel el).bind fun v s' => .done (rel, el, [v + 1]) s'
  | .sbyt =>
    let a := s.stringByte
    (s.memRead .rop .nonprel a.word).bind fun w s' =>
      .done (.nonprel, a.word, [withHalf w a.right (s.a.setWidth 8)]) s'
  | .srb level => .done (.nonprel, s.x, blockOrder.map (s.levelRegister level)) s
  | _ => .aborted s

/-- The physical addresses that consecutive stores reach: none for a store into the page tables, and none after a
refusal. -/
def storeTargets (rel : Rel) : State → Word → List Word → List PhysAddr
  | _, _, [] => []
  | s, va, w :: r =>
    let here :=
      if s.shadowReached va then []
      else
        match s.translate .sto rel va with
        | .done pa _ => [pa]
        | .aborted _ => []
    match s.memWrite rel va w with
    | .done _ s' => here ++ storeTargets rel s' (va + 1) r
    | .aborted _ => []

/-- The listed words are stored one after another from an address on, which wraps, and leave the state `t`
(`spec/20_memory.md` R106, R130). -/
def storesInOrder (rel : Rel) : State → Word → List Word → State → Prop
  | s, _, [], t => t = s
  | s, va, w :: r, t => ∃ s', s.memWrite rel va w = .done () s' ∧ storesInOrder rel s' (va + 1) r t

/-- The listed words are read one after another from an address on, which wraps, and the reads leave the state `t`
(`spec/20_memory.md` R106, R130). -/
def readsInOrder (rel : Rel) : State → Word → List Word → State → Prop
  | s, _, [], t => t = s
  | s, va, w :: r, t => ∃ s', s.memRead .rop rel va = .done w s' ∧ readsInOrder rel s' (va + 1) r t

/-- The word `w'` is `w` with the right or the left half replaced by `b` (`spec/42_byte.md` R320). -/
def halfReplaced (w : Word) (right : Bool) (b : Byte) (w' : Word) : Prop :=
  w'.toNat = if right then w.toNat / 256 * 256 + b.toNat else b.toNat * 256 + w.toNat % 256

/-- The byte at a byte address is read as `b`, with the whole word that holds it (`spec/42_byte.md` R320). -/
def readsByte (rel : Rel) (s : State) (a : ByteAddr) (b : Byte) (t : State) : Prop :=
  ∃ w, s.memRead .rop rel a.word = .done w t ∧ b.toNat = if a.right then w.toNat % 256 else w.toNat / 256

/-- A byte is stored at a byte address: its word is read and written with this half replaced (`spec/42_byte.md` R320). -/
def storesByte (rel : Rel) (s : State) (a : ByteAddr) (b : Byte) (t : State) : Prop :=
  ∃ w w' s', s.memRead .rop rel a.word = .done w s' ∧ halfReplaced w a.right b w' ∧ s'.memWrite rel a.word w' = .done () t

/-- The listed bytes are read in ascending order (`spec/42_byte.md` R328). -/
def readsBytes (rel : Rel) : State → ByteAddr → List Byte → State → Prop
  | s, _, [], t => t = s
  | s, a, b :: r, t => ∃ s', readsByte rel s a b s' ∧ readsBytes rel s' a.next r t

/-- The listed bytes are stored in ascending order (`spec/42_byte.md` R327, R328). -/
def storesBytes (rel : Rel) : State → ByteAddr → List Byte → State → Prop
  | s, _, [], t => t = s
  | s, a, b :: r, t => ∃ s', storesByte rel s a b s' ∧ storesBytes rel s' a.next r t

/-- `n` bytes are moved in ascending order, each one stored before the next one is read (`spec/42_byte.md` R329). -/
def movesBytes (srel drel : Rel) : Nat → State → ByteAddr → ByteAddr → State → Prop
  | 0, s, _, _, t => t = s
  | n + 1, s, src, dst, t =>
    ∃ b s1 s2, readsByte srel s src b s1 ∧ storesByte drel s1 dst b s2 ∧ movesBytes srel drel n s2 src.next dst.next t

/-- How a byte instruction accesses the field of a descriptor: not P relative, so through the alternative page table where PTM
is 1, with bit 14 of the second word; P relative without it (`spec/42_byte.md` R325, the spec's own decision D23; log 16). -/
def fieldRel (d2 : Word) : Rel := if 16384 ≤ d2.toNat % 32768 then .nonprel else .prel

/-- The registers after BFILL: the destination descriptor behind its field, with length 0 (`spec/42_byte.md` R327). -/
def fillEnds (s t : State) : Prop :=
  descAddr t.x t.t = (descAddr s.x s.t).plus (descLength s.t).toNat ∧ descLength t.t = 0 ∧ descMid t.t = descMid s.t ∧
  t.p = s.p + 2 ∧ keepsRegisters s t [.x, .t] []

/-- The registers after a byte move: both descriptors behind the bytes moved, with the given lengths, and the working bits, 12 of D
and 13 and 12 of T, cleared (`spec/42_byte.md` R328, R329). -/
def moveEnds (s t : State) (sourceLength destLength : BitVec 12) : Prop :=
  descAddr t.a t.d = (descAddr s.a s.d).plus s.moveLength.toNat ∧ descLength t.d = sourceLength ∧
  descMid t.d = descMid s.d &&& 6 ∧
  descAddr t.x t.t = (descAddr s.x s.t).plus s.moveLength.toNat ∧ descLength t.t = destLength ∧
  descMid t.t = descMid s.t &&& 4 ∧
  t.p = s.p + 2 ∧ keepsRegisters s t [.a, .d, .x, .t] []

/-- What an instruction leaves that a refused data access ends: P at the next word, no other register changed, the access's
interrupt raised (`spec/60_exceptions.md` R672, R674, R676); `s1` is the state that the access left. -/
def abandoned (i : Instr) (s s1 : State) : Prop :=
  exec i s = .next s1.advance ∧ RegistersBecome s s1.advance [] [] (s.p + 1) ∧
  (s1.iid.getLsbD 2 = true ∨ s1.iid.getLsbD 3 = true)

/-- The cache after a read from memory or a write (`spec/20_memory.md` R156, R157, R161): as before where the page lies
between the inhibit limits; else with the word in the place of its address, and the other places as before. -/
def cachedAfter (s t : State) (pa : PhysAddr) (w : Word) : Prop :=
  if s.lcil.toNat ≤ pa.toNat / 1024 ∧ pa.toNat / 1024 ≤ s.ucil.toNat then t.cache = s.cache
  else
    ∀ e : CacheLine, e ∈ t.cache ↔
      (e.index.toNat = pa.toNat % 1024 ∧ e.cpn.toNat = pa.toNat / 1024 ∧ e.data = w) ∨
        (e ∈ s.cache ∧ e.index.toNat ≠ pa.toNat % 1024)

/-- A read through the cache that is in use: the word `v` that it delivers and the state `t` that it leaves. A word that the
cache holds comes from there, and nothing changes; any other from memory, and a copy is kept (`spec/20_memory.md` R156). -/
def readThroughCache (s : State) (src : MemSource) (pa : PhysAddr) (v : Word) (t : State) : Prop :=
  (t = s ∧ ∃ e ∈ s.cache, e.index.toNat = pa.toNat % 1024 ∧ e.cpn.toNat = pa.toNat / 1024 ∧ e.data = v) ∨
  ((∀ e ∈ s.cache, ¬ (e.index.toNat = pa.toNat % 1024 ∧ e.cpn.toNat = pa.toNat / 1024)) ∧
    s.physRead src pa = (v, { t with cache := s.cache }) ∧ cachedAfter s t pa v)

/-- What a memory error changes: its interrupt, and PES with the kind of reference and the address, and PEA, which are then
locked; what was locked stays (`spec/20_memory.md` R174). The error code of PES is left to the statement, and the bus monitor of
the display to no statement. -/
def errorLatched (s t : State) (src : MemSource) (pa : PhysAddr) (interrupt : Nat) : Prop :=
  t = { s with
    iid := t.iid, pes := t.pes, pea := t.pea, pesLock := true, freeCount := t.freeCount, busMonitor := t.busMonitor } ∧
  t.iid = setBit s.iid interrupt true ∧
  (s.pesLock = true → t.pes = s.pes ∧ t.pea = s.pea) ∧
  (s.pesLock = false →
    t.pes.getLsbD 15 = decide (src = .fetch ∨ src = .examDepo) ∧ t.pes.getLsbD 14 = decide (src = .dma) ∧
    t.pes.toNat % 256 = pa.toNat / 65536 ∧ t.pea.toNat = pa.toNat % 65536)

/-- The ident code of an interface on a level (`spec/61_io_devices.md` R746). -/
def identCodeOf (level : Nat) : Device → BitVec 9
  | .external e => if level = 10 then e.ident10 else if level = 11 then e.ident11 else if level = 12 then e.ident12
      else e.ident13
  | .terminal e => e.ident
  | .reader e => e.ident
  | .punch e => e.ident
  | .dma e => e.ident

/-- Byte `a` of memory belongs to a word of the list. -/
def inWords (pas : List PhysAddr) (a : Nat) : Prop := ∃ pa ∈ pas, a = 2 * pa.toNat ∨ a = 2 * pa.toNat + 1

/-! ### Instructions by class -/

/-- The privileged instructions (`spec/60_exceptions.md` R700; `spec/30_encoding.md` R227). -/
def isPrivileged : Instr → Bool
  | .tra _ | .trr _ | .mcl _ | .mst _ | .irr _ _ | .irw _ _ | .srb _ | .lrb _ => true
  | .opcom | .iof | .ion | .pof | .piof | .sex | .rex | .pon | .pion | .wait _ => true
  | .iox _ | .ioxt | .identPl10 | .identPl11 | .identPl12 | .identPl13 | .lwcs => true
  | .exam | .depo | .ldatx _ | .ldxtx _ | .lddtx _ | .ldbtx _ | .statx _ | .stztx _ | .stdtx _ => true
  | _ => false

/-- The instructions that reach register sets of other levels (`spec/10_state.md` R32), and EXR, which may execute one. -/
def reachesOtherLevels : Instr → Bool
  | .irw _ _ | .lrb _ | .mon _ | .exr _ => true
  | _ => false

/-- The instructions of the CX option known by name only, with their names (`spec/53_ce_stack_misc.md` R620). -/
def nameOnlyMnemonic : Instr → Option String
  | .setpt => some "SETPT"
  | .clept => some "CLEPT"
  | .clnreent => some "CLNREENT"
  | .chreentpages => some "CHREENTPAGES"
  | .clepu => some "CLEPU"
  | .movew _ => some "MOVEW"
  | .tset => some "TSET"
  | .rdus => some "RDUS"
  | _ => none

/-- The entry point of a customer instruction (`spec/49_system_control.md` R521). -/
def customerEntry : Instr → Option Word
  | .cust1 _ => some 0o4001
  | .cust2 _ => some 0o4002
  | .cust3 _ => some 0o4003
  | .cust4 _ => some 0o4004
  | .cust5 _ => some 0o4005
  | .cust6 _ => some 0o4006
  | .cust7 _ => some 0o4007
  | .cust10 _ => some 0o4010
  | .cust11 _ => some 0o4011
  | .cust12 _ => some 0o4012
  | .cust13 _ => some 0o4013
  | _ => none

/-! ### Physical addressing -/

/-- Paging and the cache are off, memory covers the 64K words that a program can address, no stored check bit is wrong, no other
agent gets a bus cycle between those of the CPU, and the display's bus monitor samples none: an address outside the page tables
is a word of memory. -/
structure State.Flat (s : State) : Prop where
  bus : s.steals = []
  paging : s.poni = false
  cache : s.cacheEnabled = false
  memory : 2 ≤ s.cfg.memModules
  checks : s.ecc.cells = []
  tests : s.eccr &&& 0o23 = 0
  monitor : s.mopc.bus &&& 3 = 0

/-- The `n` words from an address on, none of them in the page tables. -/
def State.ordinary (s : State) (va : Word) (n : Nat) : Prop := ∀ k, k < n → s.shadowReached (va + Word.ofNat k) = false

/-- The word at an address of a state with physical addressing. -/
def State.wordAt (s : State) (va : Word) : Word := s.mem.readWord (va.zeroExtend 24)

/-- The byte at a byte address of a state with physical addressing. -/
def State.byteAt (s : State) (a : ByteAddr) : Byte := s.mem.read (2 * a.word.toNat + a.right.toNat)

/-- The first `n` bytes from a byte address on, as memory holds them. -/
def State.bytesAt (s : State) (a : ByteAddr) (n : Nat) : List Byte := (List.range n).map fun k => s.byteAt (a.plus k)

/-- The packed operand that a descriptor names, as memory holds it (`spec/52_ce_decimal.md` R583). -/
def State.packedAt (s : State) (d1 d2 : Word) : DecimalValue :=
  packedValue (decLength d2) (s.bytesAt (descAddr d1 d2) (packedBytes d2))

/-- The codes with which a packed field that is not empty has been written: the sign code in the lower half of its last byte is
1111 where the descriptor asks for it, else 1101 for minus and 1100 for plus; and where its length is odd the upper half of its
first byte is as it was (`spec/52_ce_decimal.md` R583). -/
def packedCodes (s t : State) (d1 d2 : Word) : Prop :=
  decLength d2 ≠ 0 →
    (t.byteAt ((descAddr d1 d2).plus (packedBytes d2 - 1))).toNat % 16 =
      (if decUnsigned d2 then 15 else if (t.packedAt d1 d2).neg then 13 else 12) ∧
    (decLength d2 % 2 = 1 → (t.byteAt (descAddr d1 d2)).toNat / 16 = (s.byteAt (descAddr d1 d2)).toNat / 16)

/-- The words that the bytes of a decimal or byte field lie in are no page tables. -/
def State.ordinaryField (s : State) (d1 : Word) (bytes : Nat) : Prop := s.ordinary d1 (bytes / 2 + 1)

/-! ### Values -/

/-- The rational number that a standard floating word stands for (`spec/43_floating.md` R340, R341). -/
def FpNum.value (c : FpNum) : ℚ := (if c.neg then -1 else 1) * c.mant * 2 ^ c.exp

/-- The count of a shift by its six-bit counter (`spec/44_shift.md` R371). -/
def shiftCount (n : BitVec 6) : Nat := if n.toNat < 32 then n.toNat else 64 - n.toNat

/-- A shift at once, by the closed forms of `spec/44_shift.md` R374: the operand and M afterwards. -/
def shiftClosed {w : Nat} (type : ShiftType) (n : BitVec 6) (v : BitVec w) (m : Bool) : BitVec w × Bool :=
  let c := shiftCount n
  if n = 0 then (v, m)
  else if n.toNat < 32 then
    match type with
    | .arithmetic | .zeroEnd => (v <<< c, decide (c ≤ w) && v.getLsbD (w - c))
    | .rotational => (v.rotateLeft c, (v.rotateLeft c).getLsbD 0)
    | .linkEnd => (((BitVec.cons m v).rotateLeft c).setWidth w, ((BitVec.cons m v).rotateLeft c).msb)
  else
    match type with
    | .arithmetic => (v.sshiftRight c, if c ≤ w then v.getLsbD (c - 1) else v.msb)
    | .rotational => (v.rotateRight c, (v.rotateRight c).msb)
    | .zeroEnd => (v.ushiftRight c, decide (c ≤ w) && v.getLsbD (c - 1))
    | .linkEnd => (((v.concat m).rotateRight c).extractLsb' 1 w, ((v.concat m).rotateRight c).getLsbD 0)

/-- The additions between registers, by ADC, AD1, CM1, CLD, source and destination: RADD and its named forms
(`spec/45_register_ops.md` R400 to R408). -/
def additionOf : Instr → Option (Bool × Bool × Bool × Bool × RField × RField)
  | .radd adc ad1 cm1 cld sr dr => some (adc, ad1, cm1, cld, sr, dr)
  | .rsub sr dr => some (false, true, true, false, sr, dr)
  | .copy sr dr => some (false, false, false, true, sr, dr)
  | .copyCm2 sr dr => some (false, true, true, true, sr, dr)
  | .exit => some (false, false, false, true, .l, .p)
  | .rclr dr => some (false, false, false, true, .zero, dr)
  | .rinc dr => some (false, true, false, false, .zero, dr)
  | .rdcr dr => some (false, false, true, false, .zero, dr)
  | _ => none

/-- The source operand of a register operation, one's complement with CM1 (`spec/45_register_ops.md` R391). -/
def sourceOperand (s : State) (cm1 : Bool) (sr : RField) : Word := if cm1 then ~~~ s.regValue sr else s.regValue sr

/-- The destination operand of a register operation, zero with CLD (`spec/45_register_ops.md` R391). -/
def destOperand (s : State) (cld : Bool) (dr : RField) : Word := if cld then 0 else s.regValue dr

/-- The eight argument instructions: register, argument, and whether it is added (`spec/47_argument.md` R445). -/
def argumentOf : Instr → Option (RField × BitVec 8 × Bool)
  | .sab arg => some (.b, arg, false)
  | .saa arg => some (.a, arg, false)
  | .sat arg => some (.t, arg, false)
  | .sax arg => some (.x, arg, false)
  | .aab arg => some (.b, arg, true)
  | .aaa arg => some (.a, arg, true)
  | .aat arg => some (.t, arg, true)
  | .aax arg => some (.x, arg, true)
  | _ => none

/-- Bytes that are not among the first `n` from a byte address on are as before. -/
def sameBytesOutside (s t : State) (a : ByteAddr) (n : Nat) : Prop :=
  ∀ b : ByteAddr, (∀ k, k < n → b ≠ a.plus k) → t.byteAt b = s.byteAt b

/-- The address of the xxxTX instructions (`spec/51_physical_memory.md` R565). -/
def txAddressOf (s : State) (delta : BitVec 3) (k : Nat) : PhysAddr :=
  BitVec.ofNat 24 (s.t.toNat % 256 * 65536 + (s.x.toNat + delta.toNat + k) % 65536)

/-- A word of main memory that is there, is read past the cache, with no bus cycle of another agent before it and none sampled by
the bus monitor, and has the right check bits. -/
def State.goodWord (s : State) (pa : PhysAddr) : Prop :=
  s.steals = [] ∧ s.mopc.bus &&& 3 = 0 ∧ s.memPresent pa = true ∧ s.cacheEnabled = false ∧ s.syndrome pa = 0

/-- Where an instruction of the xxxTX group can read without an error and past the cache: a page table, or a good word
(`spec/51_physical_memory.md` R566). -/
def State.physicallyReadable (s : State) (pa : PhysAddr) : Prop := s.txShadow pa = true ∨ s.goodWord pa

/-- The word that an instruction of the xxxTX group then finds (`spec/51_physical_memory.md` R566). -/
def State.physicalWord (s : State) (pa : PhysAddr) : Word :=
  if s.txShadow pa then s.shadowRead (pa.setWidth 16) else s.mem.readWord pa

end Sys2Proof.Machine
end

