-- ==== Sys2Proof/Certificates/Slice0/Obligations.lean ====
section
/-! DEFINITION. The statements for the provers. Each cites the rules of `spec/` it formalises; `Sys2Proof/Safety.lean` holds
their vocabulary. A statement that rests on a choice of the model says so and names the log entry. -/

section

open Sys2Proof Sys2Proof.Machine

/-! ### Encoding -/

/-- Decoding the word of a well-formed instruction gives the instruction back, with every operand at every value
(`spec/30_encoding.md` R200 to R222). -/
def Obligations.DecodeOfEncode : Prop :=
  ∀ (hasCx : Bool) (i : Instr), i.wellFormed hasCx = true → decodeWord hasCx (encodeWord i) = .ok i

/-- A word that decodes is the word of the instruction it decodes to, and that instruction is well formed
(`spec/30_encoding.md` R200 to R226). -/
def Obligations.EncodeOfDecode : Prop :=
  ∀ (hasCx : Bool) (w : Word) (i : Instr),
    decodeWord hasCx w = .ok i → encodeWord i = w ∧ i.wellFormed hasCx = true

/-- Words decoded: some that the sources print (`spec/95_test_vectors.md` S2, S5, S19, S21, S24, S51, S58), some of vectors
that the spec works out from its rules (`spec/95_test_vectors.md` V41, V120, V154); 160000 octal is no instruction
(`spec/30_encoding.md` R225) by the spec's own decision D17 (log 16). -/
def Obligations.PrintedWordsDecode : Prop :=
  decodeWord true 0o124376 = .ok (.jmp { x := false, i := false, b := false, disp := 0o376 }) ∧
  decodeWord true 0o135403 = .ok (.jpl { x := false, i := true, b := true, disp := 3 }) ∧
  decodeWord true 0o156276 = .ok (.shd .zeroEnd false 0o76) ∧
  decodeWord true 0o144157 = .ok (.swap false true .a .x) ∧
  decodeWord true 0o146663 = .ok (.rsub .t .b) ∧
  decodeWord true 0o176765 = .ok (.blda 14 .a) ∧
  decodeWord true 0o153762 = .ok (.irr 14 .p) ∧
  decodeWord true 0o140130 = .ok .bfill ∧
  decodeWord true 0o153003 = .ok (.mon 3) ∧
  decodeWord true 0o143330 = .ok (.ldatx 3) ∧
  decodeWord true 0o160000 = .error .unassigned

/-! ### Reset, the step, interrupts -/

/-- What reset leaves of the values the spec gives (`spec/10_state.md` R90; `spec/70_reset_and_hazards.md` R861). PID and
IID are 0 by the spec's own decision D10. -/
def Obligations.ResetState : Prop :=
  State.reset.pie = 0 ∧ State.reset.ioni = false ∧ State.reset.poni = false ∧ State.reset.sexi = false ∧
  State.reset.pil = 0 ∧ State.reset.iie = 0 ∧ State.reset.pid = 0 ∧ State.reset.iid = 0 ∧
  State.reset.runState = .stop ∧ State.reset.opcomActive = true ∧ State.reset.mopc.xmode = .phys ∧
  State.reset.cache = [] ∧ State.reset.lcil = 0 ∧ State.reset.ucil = 0o37777 ∧ State.reset.wcsLoaded = false ∧
  State.reset.console.len = 1 ∧ State.reset.console.par = true ∧ State.reset.console.outReady = true ∧
  State.reset.clock.ready = false ∧ State.reset.clock.ie = false

/-- Master clear of any state: what it writes, and that the registers of all levels, the page tables, PCR, the locked
registers, OPR, LMP, ECCR and memory are untouched (`spec/62_operator.md` R810; `spec/70_reset_and_hazards.md` R861). That
IIE, PID and IID are 0 is the spec's own decision D10 (`spec/10_state.md` R90; log 16), and that OUTQ is emptied is a
setting of the spec, not of its sources (`spec/62_operator.md` R805). That PVL becomes the old PIL is what R810 infers from the
level change and R861 repeats, while R92 lists PVL among what stays (log 50). -/
def Obligations.MasterClearEffect : Prop :=
  ∀ s : State,
    (s.masterClear.pie = 0 ∧ s.masterClear.ioni = false ∧ s.masterClear.poni = false ∧ s.masterClear.sexi = false ∧
      s.masterClear.pil = 0 ∧ s.masterClear.pvl = s.pil ∧ s.masterClear.iie = 0 ∧ s.masterClear.pid = 0 ∧
      s.masterClear.iid = 0 ∧ s.masterClear.cache = [] ∧ s.masterClear.cacheEnabled = false ∧
      s.masterClear.lcil = 0 ∧ s.masterClear.ucil = 0o37777 ∧ s.masterClear.wcsLoaded = false ∧
      s.masterClear.runState = .stop ∧ s.masterClear.opcomActive = true ∧ s.masterClear.mopc.xmode = .phys ∧
      s.masterClear.mopc.semi = .none ∧ s.masterClear.mopc.outq = [] ∧ s.masterClear.console.len = 1 ∧
      s.masterClear.console.par = true ∧ s.masterClear.lines = 0) ∧
    (s.masterClear.regs = s.regs ∧ s.masterClear.pcr = s.pcr ∧ s.masterClear.prot = s.prot ∧
      s.masterClear.map = s.map ∧ s.masterClear.iic = s.iic ∧ s.masterClear.iicLock = s.iicLock ∧
      s.masterClear.psr = s.psr ∧ s.masterClear.psrLock = s.psrLock ∧ s.masterClear.pes = s.pes ∧
      s.masterClear.pea = s.pea ∧ s.masterClear.pesLock = s.pesLock ∧ s.masterClear.eccr = s.eccr ∧
      s.masterClear.opr = s.opr ∧ s.masterClear.lmp = s.lmp ∧ s.masterClear.mem = s.mem ∧
      s.masterClear.ecc = s.ecc)

/-- In RUN, with no host event due and no level change at this boundary, a step fetches the word at P, makes the prefetch of
the next word, and is the meaning of the instruction that the word decodes to; the next boundary's test is then still to
be made (`spec/00_scope.md` R16; `spec/60_exceptions.md` R660). The effect of the prefetch is read from
`spec/70_reset_and_hazards.md` R880 (log 9), and that the test and its level change are kept apart from the instruction by
`boundaryDone` is the model's choice (log 5). -/
def Obligations.StepRunsDecodedInstruction : Prop :=
  ∀ (s s1 s2 : State) (w : Word) (i : Instr),
    s.events = [] → s.runState = .run → s.mopc.semi = .none →
    ((s.boundaryDone = true ∧ s1 = s) ∨
      (s.boundaryDone = false ∧ s1 = s.latchInternal ∧ (s1.ioni = false ∨ s1.pk = s1.pil))) →
    s1.memRead .fetch .prel s1.p = .done w s2 → decodeWord s2.cfg.hasCx w = .ok i →
    (∀ t : State, exec i s2.prefetch = .next t → step s = .next t.atBoundary) ∧
    (∀ r : Refusal, exec i s2.prefetch = .refused r → step s = .refused r)

/-- Step 2 of the test between instructions: of the enabled pending sources, power fail before the others and else the
highest code, one is latched; IIC is locked, its detect bit drops and level 14 is requested. A locked IIC or no pending
source changes nothing (`spec/60_exceptions.md` R660, R673). The order of the codes, a source that waits behind a locked
IIC, and Z taken from the running level's flag are the spec's own decision D11 (R680; log 16). -/
def Obligations.InternalInterruptLatched : Prop :=
  ∀ s : State,
    (s.iicLock = true ∨ s.pendingInternal = 0 → s.latchInternal = s) ∧
    (s.iicLock = false → s.iie &&& 0o174001 = 0 → s.pendingInternal ≠ 0 →
      ∃ n : Nat, s.pendingInternal.getLsbD n = true ∧
        (s.pendingInternal.getLsbD 10 = true → n = 10) ∧
        (s.pendingInternal.getLsbD 10 = false → ∀ m, n < m → s.pendingInternal.getLsbD m = false) ∧
        s.latchInternal.iic.toNat = n ∧ s.latchInternal.iicLock = true ∧
        s.latchInternal.iid = setBit s.iid n false ∧ s.latchInternal.pid = setBit s.pid 14 true)

/-- PK is the highest level that is both enabled and requested, or 0; with the interrupt system on and PK different from PIL
after the internal interrupts are latched, the step at a boundary latches them, moves PIL to PVL and PK to PIL, and changes
nothing else (`spec/10_state.md` R47; `spec/60_exceptions.md` R660, R661). That any difference, up or down, changes the
level is the spec's own decision D2 of R660; the change as a step of its own, marked by `boundaryDone`, is the model's
choice (log 5). -/
def Obligations.LevelChange : Prop :=
  (∀ s : State,
     (∀ n, s.pk.toNat < n → n < 16 → (s.pie.getLsbD n && s.pidSeen.getLsbD n) = false) ∧
     (s.pie &&& s.pidSeen ≠ 0 → (s.pie.getLsbD s.pk.toNat && s.pidSeen.getLsbD s.pk.toNat) = true) ∧
     (s.pie &&& s.pidSeen = 0 → s.pk = 0)) ∧
  (∀ s : State,
     s.events = [] → s.runState = .run → s.mopc.semi = .none → s.boundaryDone = false →
     s.ioni = true → s.latchInternal.pk ≠ s.pil →
     step s = .next { s.latchInternal with pvl := s.pil, pil := s.latchInternal.pk, boundaryDone := true } ∧
       s.latchInternal =
         { s with
           iic := s.latchInternal.iic, iicLock := s.latchInternal.iicLock, iid := s.latchInternal.iid
           pid := s.latchInternal.pid })
/-- A fetched word that is no instruction raises II and is passed over; a fetch that the page tables refuse leaves P at the
instruction, marks PSR as a fetch fault unless it is locked, and raises PF or MPV (`spec/30_encoding.md` R225;
`spec/60_exceptions.md` R676, R684; `spec/20_memory.md` R137). -/
def Obligations.FetchFailures : Prop :=
  (∀ (s s2 : State) (w : Word),
     s.events = [] → s.runState = .run → s.mopc.semi = .none → s.boundaryDone = true →
     s.memRead .fetch .prel s.p = .done w s2 → decodeWord s2.cfg.hasCx w = .error .unassigned →
     ∃ t, step s = .next t ∧ t.p = s2.p + 1 ∧ t.iid.getLsbD 4 = true ∧ keepsRegisters s2 t [] [] ∧ keepsMemory s2 t) ∧
  (∀ (s s1 : State),
     s.events = [] → s.runState = .run → s.mopc.semi = .none → s.boundaryDone = true →
     s.memRead .fetch .prel s.p = .aborted s1 →
     ∃ t, step s = .next t ∧ t.p = s.p ∧ t.regs = s.regs ∧ t.mem = s.mem ∧
       (s.psrLock = false → t.psr.getLsbD 15 = true ∧ t.psrLock = true) ∧ (s.psrLock = true → t.psr = s.psr) ∧
       (t.iid = setBit s.iid 2 true ∨ t.iid = setBit s.iid 3 true))

/-- A data access that the page tables refuse ends the instruction there, whichever of its accesses it is: P is at the next
word, no other register has changed, the refused access itself touches no memory, and PF or MPV is raised; a word that the
instruction had stored before stays stored. For the memory reference and floating instructions, LBYT, SBYT, SRB and LRB
(`spec/60_exceptions.md` R672, R674, R676; `spec/40_memory_reference.md` R252). That no register changes before the last
read, and that stored words stay, is the spec's own decision D19 (log 16). -/
def Obligations.RefusedDataAccess : Prop :=
  (∀ (s s1 : State) (kind : Kind) (rel : Rel) (va : Word),
     (s.memRead kind rel va = .aborted s1 ∨ ∃ w, s.memWrite rel va w = .aborted s1) → keepsMemory s s1) ∧
  (∀ (s s1 : State) (m : MemRef),
     s.effLoc m = .aborted s1 →
     ∀ i ∈ [Instr.stz m, .sta m, .stt m, .stx m, .std m, .lda m, .ldt m, .ldx m, .ldd m, .stf m, .ldf m, .min m, .add m,
         .sub m, .and m, .ora m, .fad m, .fsb m, .fmu m, .fdv m, .mpy m, .jmp m, .jpl m],
       abandoned i s s1) ∧
  (∀ (s s1 sE : State) (m : MemRef) (el : Word) (rel : Rel),
     s.effLoc m = .done (el, rel) sE →
     (sE.memRead .rop rel el = .aborted s1 →
       ∀ i ∈ [Instr.lda m, .ldt m, .ldx m, .ldd m, .ldf m, .min m, .add m, .sub m, .and m, .ora m, .fad m, .fsb m,
           .fmu m, .fdv m, .mpy m],
         abandoned i s s1) ∧
     (∀ w s2, sE.memRead .rop rel el = .done w s2 →
       (s2.memRead .rop rel (el + 1) = .aborted s1 →
         ∀ i ∈ [Instr.ldd m, .ldf m, .fad m, .fsb m, .fmu m, .fdv m], abandoned i s s1) ∧
       (s2.memWrite rel el (w + 1) = .aborted s1 → abandoned (.min m) s s1) ∧
       (∀ w' s3, s2.memRead .rop rel (el + 1) = .done w' s3 → s3.memRead .rop rel (el + 2) = .aborted s1 →
         abandoned (.ldf m) s s1 ∧
         (s.cfg.fp32 = false → ∀ i ∈ [Instr.fad m, .fsb m, .fmu m, .fdv m], abandoned i s s1))) ∧
     (∀ w, sE.memWrite rel el w = .aborted s1 →
       ∀ i ∈ [Instr.stz m, .sta m, .stt m, .stx m, .std m, .stf m], abandoned i s s1) ∧
     (∀ s2 w, sE.memWrite rel el s.a = .done () s2 → s2.memWrite rel (el + 1) w = .aborted s1 →
       abandoned (.std m) s s1) ∧
     (∀ s2, sE.memWrite rel el s.t = .done () s2 →
       (∀ w, s2.memWrite rel (el + 1) w = .aborted s1 → abandoned (.stf m) s s1) ∧
       (∀ s3 w, s2.memWrite rel (el + 1) s.a = .done () s3 → s3.memWrite rel (el + 2) w = .aborted s1 →
         abandoned (.stf m) s s1))) ∧
  (∀ (s s1 : State) (va : Word),
     va = s.t + BitVec.ofNat 16 (s.x.toNat / 2) →
     (s.memRead .rop .nonprel va = .aborted s1 → abandoned .lbyt s s1 ∧ abandoned .sbyt s s1) ∧
     (∀ w s2 w', s.memRead .rop .nonprel va = .done w s2 → s2.memWrite .nonprel va w' = .aborted s1 →
       abandoned .sbyt s s1)) ∧
  (∀ (s s1 s2 : State) (level : BitVec 4) (k : Nat),
     s.mayRunPrivileged = true → k < 8 →
     (∀ ws, s.loadWords k s.x = .done ws s2 → s2.memRead .rop .nonprel (s.x + BitVec.ofNat 16 k) = .aborted s1 →
       abandoned (.lrb level) s s1) ∧
     (∀ w, s.storeWords s.x ((blockOrder.map (s.levelRegister level)).take k) = .done () s2 →
       s2.memWrite .nonprel (s.x + BitVec.ofNat 16 k) w = .aborted s1 → abandoned (.srb level) s s1))
/-! ### Memory management -/

/-- The checks of an access, in their order: page fault for an entry without any permit bit, then the permit bit of the
kind of access, then the ring (`spec/20_memory.md` R131 to R134). That the page fault comes first is the spec's own decision
D15, whose text prints ring before permit where R133 and R134 put permit first (log 51). -/
def Obligations.PageChecks : Prop :=
  ∀ (kind : Kind) (p : Word) (ring : BitVec 2),
    (pageCheck kind p ring = some .pageFault ↔ p &&& 0o160000 = 0) ∧
    (pageCheck kind p ring = some .permit ↔
      p &&& 0o160000 ≠ 0 ∧
        p &&& (match kind with | .fetch => 0o020000 | .rop => 0o040000 | .raddr => 0o060000 | .sto => 0o100000) = 0) ∧
    (pageCheck kind p ring = some .ring ↔
      p &&& (match kind with | .fetch => 0o020000 | .rop => 0o040000 | .raddr => 0o060000 | .sto => 0o100000) ≠ 0 ∧
        ring.toNat < (p >>> 9).toNat % 4)

/-- An access through the page tables that passes: the table is APT of the level's PCR when PTM is 1 and the access is not P
relative, else its PT, and the page number of the address the entry in it, of 64 to a table (`spec/20_memory.md` R120, R123);
the page number that the entry holds above the displacement in the page, PGU set, WIP set by a write, the other bits of the
entry as before, and a fetch from a lower ring lowers the ring of the level (`spec/20_memory.md` R135, R136, R138). Which
accesses of an instruction are P relative is said with the effective location, not here. That a fetch from any lower ring lowers
any higher one is the spec's own decision D4 of R135 (log 16). -/
def Obligations.TranslatedAccess : Prop :=
  ∀ (s : State) (kind : Kind) (rel : Rel) (va : Word) (e : BitVec 8),
    s.cfg.hasMms = true → s.poni = true →
    e.toNat = 64 * (if s.sts.getLsbD 0 = true ∧ rel = .nonprel then (s.pcrOf s.pil).apt else (s.pcrOf s.pil).pt).toNat +
      va.toNat / 1024 →
    pageCheck kind (s.protAt e) s.ring = none →
    ∃ pa t, s.translate kind rel va = .done pa t ∧
      pa.toNat = (s.mapAt e).toNat % (if s.sexi then 16384 else 512) * 1024 + va.toNat % 1024 ∧
      (t.protAt e).getLsbD 11 = true ∧
      (t.protAt e).getLsbD 12 = ((s.protAt e).getLsbD 12 || kind == .sto) ∧
      (∀ k, k < 16 → k ≠ 11 → k ≠ 12 → (t.protAt e).getLsbD k = (s.protAt e).getLsbD k) ∧
      (∀ e', e' ≠ e → t.protAt e' = s.protAt e') ∧
      t.ring = (if kind = .fetch ∧ ringOf (s.protAt e) < s.ring then ringOf (s.protAt e) else s.ring) ∧
      t.regs = s.regs ∧ t.map = s.map ∧ keepsMemory s t

/-- A refused access: the interrupt, and PSR with fetch flag, permit flag, table and page, unless PSR is locked
(`spec/20_memory.md` R130, R136, R137; `spec/10_state.md` R67). The table is APT of the level's PCR when PTM is 1 and the access
is not P relative, else its PT, and the page the page number of the address (`spec/20_memory.md` R120, R123). That a refused
access marks neither PGU nor WIP is the spec's own decision D16 of R136, the permit flag 0 for a page fault its derivation in R137
(log 16). -/
def Obligations.RefusedTranslation : Prop :=
  ∀ (s : State) (kind : Kind) (rel : Rel) (va : Word) (e : BitVec 8) (r : PageRefusal),
    s.cfg.hasMms = true → s.poni = true →
    e.toNat = 64 * (if s.sts.getLsbD 0 = true ∧ rel = .nonprel then (s.pcrOf s.pil).apt else (s.pcrOf s.pil).pt).toNat +
      va.toNat / 1024 →
    pageCheck kind (s.protAt e) s.ring = some r →
    ∃ t, s.translate kind rel va = .aborted t ∧
      t.iid = setBit s.iid (if r = .pageFault then 3 else 2) true ∧ t.psrLock = true ∧
      (s.psrLock = true → t.psr = s.psr) ∧
      (s.psrLock = false →
        t.psr.toNat = (if kind = .fetch then 32768 else 0) + (if r = .permit then 16384 else 0) + e.toNat) ∧
      t.regs = s.regs ∧ t.prot = s.prot ∧ keepsMemory s t

/-- Page tables written at their addresses read back: in both modes what is written to an address of the shadow range is
read from it, and main memory is not touched (`spec/20_memory.md` R126 to R128). -/
def Obligations.ShadowWriteThenRead : Prop :=
  ∀ (s : State) (va w : Word) (kind : Kind) (rel : Rel),
    s.shadowReached va = true →
    ∃ t, s.memWrite rel va w = .done () t ∧ t.memRead kind rel va = .done w t ∧ keepsMemory s t ∧ t.regs = s.regs

/-- With physical addressing and the display's bus monitor at rest an access outside the page tables is an access to the word
of memory with that address: a read changes nothing, a write changes that word alone and is read back. With the cache in use,
whatever the addressing: a word that it holds is read from it and memory is not looked at; any other is read from memory and a
copy kept, unless its page lies between LCIL and UCIL; a write goes to memory and leaves a copy, unless its page lies there or
no module answers, and then the cache is as it was; and a bus cycle of another agent leaves the cache as it is, so that a copy
may be old (`spec/20_memory.md` R101, R102, R140, R156, R157, R161, R162). That a write to an inhibited page leaves an old copy
is the spec's own decision D14 of R157 (log 16); that a write which no module answers leaves no copy is read from R140 and R157
(log 49). -/
def Obligations.PhysicalAccess : Prop :=
  (∀ (s : State) (kind : Kind) (rel : Rel) (va w : Word),
     s.Flat → s.shadowReached va = false →
     s.memRead kind rel va = .done (s.wordAt va) s ∧
     ∃ t, s.memWrite rel va w = .done () t ∧ t = { s with mem := t.mem } ∧ t.wordAt va = w ∧
       (∀ va', va' ≠ va → t.wordAt va' = s.wordAt va') ∧
       (∀ a, a / 2 ≠ va.toNat → t.mem.read a = s.mem.read a)) ∧
  (∀ (s s1 : State) (kind : Kind) (rel : Rel) (va : Word) (pa : PhysAddr),
     s.steals = [] → s.cacheEnabled = true → cacheSorted s.cache = true → s.shadowReached va = false →
     s.translate kind rel va = .done pa s1 →
     (∀ e ∈ s.cache, e.index.toNat = pa.toNat % 1024 → e.cpn.toNat = pa.toNat / 1024 →
       s.memRead kind rel va = .done e.data s1) ∧
     ((∀ e ∈ s.cache, ¬ (e.index.toNat = pa.toNat % 1024 ∧ e.cpn.toNat = pa.toNat / 1024)) →
       ∃ v t, s1.physRead kind.source pa = (v, { t with cache := s.cache }) ∧ s.memRead kind rel va = .done v t ∧
         cachedAfter s t pa v) ∧
     (∀ w, kind = .sto →
       ∃ t, s.memWrite rel va w = .done () t ∧ s1.physWrite .data pa w = { t with cache := s.cache } ∧
         (if s.memPresent pa then cachedAfter s t pa w else t.cache = s.cache))) ∧
  (∀ (s : State) (c : BusCycle), (s.busCycle c).cache = s.cache)
/-- Memory errors. One wrong data bit is corrected on reading, memory is not rewritten, and the error is reported when every
error is to be reported; two wrong data bits are delivered as they are and always reported; with correction disabled the
word is delivered as stored and nothing is reported. A reported error raises PTY and, unless they are locked, latches in
PES who read and the code of R172, and in PES and PEA the address, and locks them; what is locked stays. A reference that no
module answers raises MOR and latches the same, but for the code, which is open; such a write changes no memory, and EXAM
and DEPO, with which it can be made, complete (`spec/20_memory.md` R140, R170 to R174). How an upset reaches a word is the
model's choice (log 21), and so is that of several errors of one instruction the first is the one latched (log 38). What the bus
monitor of the display samples is left open here. -/
def Obligations.MemoryErrorsReported : Prop :=
  (∀ (s u : State) (src : MemSource) (pa : PhysAddr) (i code : Nat),
     [0o03, 0o05, 0o07, 0o11, 0o13, 0o14, 0o15, 0o16, 0o21, 0o22, 0o23, 0o24, 0o26, 0o30, 0o32, 0o34][i]? = some code →
     s.memPresent pa = true → s.syndrome pa = 0 → u = s.memoryUpset pa (BitVec.twoPow 16 i) 0 →
     (s.eccr.getLsbD 3 = true →
       ∃ m, u.physRead src pa = (s.mem.readWord pa ^^^ BitVec.twoPow 16 i, { u with busMonitor := m })) ∧
     (s.eccr.getLsbD 3 = false → s.eccr.getLsbD 2 = false →
       ∃ m, u.physRead src pa = (s.mem.readWord pa, { u with busMonitor := m })) ∧
     (s.eccr.getLsbD 3 = false → s.eccr.getLsbD 2 = true →
       ∃ t, u.physRead src pa = (s.mem.readWord pa, t) ∧ errorLatched u t src pa 8 ∧ t.freeCount = u.freeCount ∧
         (s.pesLock = false → t.pes.toNat / 256 % 64 = code))) ∧
  (∀ (s u : State) (src : MemSource) (pa : PhysAddr) (i j : Nat),
     i < 16 → j < 16 → i ≠ j → s.memPresent pa = true → s.syndrome pa = 0 → s.eccr.getLsbD 3 = false →
     u = s.memoryUpset pa (BitVec.twoPow 16 i ||| BitVec.twoPow 16 j) 0 →
     ∃ t, u.physRead src pa = (u.mem.readWord pa, t) ∧ errorLatched u t src pa 8 ∧ t.freeCount = u.freeCount ∧
       (s.pesLock = false → t.pes.getLsbD 13 = true)) ∧
  (∀ (s : State) (src : MemSource) (pa : PhysAddr) (w : Word),
     s.memPresent pa = false →
     errorLatched s (s.physRead src pa).2 src pa 9 ∧ errorLatched s (s.physWrite src pa w) src pa 9) ∧
  (∀ (s : State) (pa : PhysAddr),
     s.mayRunPrivileged = true → pa.toNat = s.a.toNat % 256 * 65536 + s.d.toNat → s.memPresent pa = false →
     s.steals = [] → s.cacheEnabled = false →
     (∃ t v, exec .exam s = .next t ∧ RegistersBecome s t [(.t, v)] [] (s.p + 1) ∧
       errorLatched s { t with regs := s.regs } .examDepo pa 9) ∧
     (∃ t, exec .depo s = .next t ∧ RegistersBecome s t [] [] (s.p + 1) ∧
       errorLatched s { t with regs := s.regs } .examDepo pa 9))
/-! ### Invariants -/

/-- The machine after reset has the invariant (`spec/10_state.md` R52, R53, R67, R90; the named values of reset
are the model's choice, log 2). -/
def Obligations.InvariantAtReset : Prop := State.reset.Inv

/-- Every step keeps the invariant, from every state that has it: memory and check bits in canonical form, the cache sorted,
only assigned bits in IIE and IID (`spec/10_state.md` R52, R53), zeros in the unassigned bits of PSR (R67), no paging and
no extended mode without the memory management module. That PON and SEX leave paging and mode alone without the module, on which
these last two rest, is the spec's own decision D35 of R485 and R489 (`spec/49_system_control.md`; log 16), as the sources state
nothing of it. -/
def Obligations.InvariantKeptByStep : Prop := ∀ s t : State, s.Inv → step s = .next t → t.Inv

/-- An instruction other than IRW, LRB, MON and EXR leaves the registers of every level but the current one as they are
(`spec/10_state.md` R32; `spec/49_system_control.md` R481). -/
def Obligations.OtherLevelsUntouched : Prop :=
  ∀ (i : Instr) (s t : State) (l : BitVec 4),
    reachesOtherLevels i = false → l ≠ s.pil → exec i s = .next t → t.reg l = s.reg l

/-- No instruction changes the level by itself, nor the installation; the interrupt system is switched only by ION, IOF,
PION and PIOF, paging only by PON, POF, PION and PIOF, the address mode only by SEX and REX, and EXR, which may execute
one of them (`spec/60_exceptions.md` R660; `spec/49_system_control.md` R483 to R490). -/
def Obligations.CommonStatusUntouched : Prop :=
  ∀ (i : Instr) (s t : State),
    exec i s = .next t →
    t.pil = s.pil ∧ t.pvl = s.pvl ∧ t.cfg = s.cfg ∧
    ((∀ r, i ≠ .exr r) →
      (i ∉ [Instr.ion, .iof, .pion, .piof] → t.ioni = s.ioni) ∧
      (i ∉ [Instr.pon, .pof, .pion, .piof] → t.poni = s.poni) ∧
      (i ∉ [Instr.sex, .rex] → t.sexi = s.sexi))

/-- A privileged instruction on ring 0 or 1 with paging on raises PI, is passed over and does nothing else
(`spec/60_exceptions.md` R700; `spec/49_system_control.md` R480). That it does nothing else is the spec's own decision D34 of
R700 (log 16); that the xxxTX group is privileged is a choice of 90_conflicts.md (`spec/51_physical_memory.md` R560). -/
def Obligations.PrivilegedInstructionTraps : Prop :=
  ∀ (i : Instr) (s : State),
    isPrivileged i = true → s.mayRunPrivileged = false →
    ∃ t, exec i s = .next t ∧ t.iid = setBit s.iid 6 true ∧ RegistersBecome s t [] [] (s.p + 1) ∧
      t = { s with regs := t.regs, iid := t.iid }

/-! ### Frames -/

/-- An instruction that works on registers alone always completes, changes nothing but registers of the current level, and of
those only its destinations, the flags its rule names, and P (`spec/41_sequencing.md` R302; `spec/43_floating.md` R349 to R353;
`spec/44_shift.md` R373; `spec/45_register_ops.md` R391 to R411, R415; `spec/46_skip.md` R430; `spec/47_argument.md` R446,
R447; `spec/48_bit.md` R460 to R477). The spec's own decisions are that SKP writes no flag and no register (D32 of R430), that
destination number 0 takes nothing (D29 of R393), and that status bits 15-8 take no write (D6 of R460; log 16). -/
def Obligations.RegisterInstructionFrame : Prop :=
  ∀ (i : Instr) (rs : List RField) (fs : List Flag) (s : State),
    registerFrame i = some (rs, fs) → ∃ t, exec i s = .next t ∧ onlyRegisters s t ∧ keepsRegisters s t rs fs

/-- An instruction that reads memory and stores nothing leaves all registers but its destinations and P as they are, and, when
no other agent gets a bus cycle between its accesses, every word of memory (`spec/40_memory_reference.md` R259 to R268;
`spec/41_sequencing.md` R300, R301; `spec/42_byte.md` R322; `spec/43_floating.md` R343, R345; `spec/52_ce_decimal.md` R587;
`spec/53_ce_stack_misc.md` R614). That COMD leaves the flags is the spec's own decision D39 of R584, and what LEAVE leaves its
decision D43 of R611 (log 16). -/
def Obligations.MemoryReadFrame : Prop :=
  ∀ (i : Instr) (rs : List RField) (fs : List Flag) (s t : State),
    readFrame i = some (rs, fs) → exec i s = .next t →
    keepsRegisters s t rs fs ∧ (s.steals = [] → keepsControl s t ∧ keepsMemory s t)
/-- A storing instruction changes no register but P and, when no other agent gets a bus cycle between its accesses, no byte of
memory outside the words it stores, whose addresses are computed as the instruction computes them; SRB where it may run
(`spec/40_memory_reference.md` R253 to R258; `spec/42_byte.md` R323; `spec/43_floating.md` R344;
`spec/50_internal_register_instr.md` R540). -/
def Obligations.StoreFrame : Prop :=
  ∀ (i : Instr) (s s1 t : State) (rel : Rel) (va : Word) (ws : List Word),
    (∀ level, i = .srb level → s.mayRunPrivileged = true) →
    storesOf i s = .done (rel, va, ws) s1 → exec i s = .next t →
    keepsRegisters s t [] [] ∧
    (s.steals = [] →
      keepsControl s { t with map := s.map } ∧
      ∀ a, ¬ inWords (storeTargets rel s1 va ws) a → t.mem.read a = s.mem.read a)
/-! ### Memory reference instructions -/

/-- The effective location in the eight address modes, in every state: base P, or B with `,B`; X added, or in the place of P,
and nothing is read; with `I` the word there is the address, X added behind it, read by an access that counts as indirect, P
relative for the base P and not for the base B; where this access is refused, so is the location. P plus displacement alone is P
relative, every other location is not. With physical addressing the indirect word is the word of memory there
(`spec/40_memory_reference.md` R250, R251; `spec/20_memory.md` R123, R132). -/
def Obligations.EffectiveLocation : Prop :=
  ∀ (s : State) (disp : BitVec 8) (p b : Word),
    p = s.p + BitVec.ofInt 16 disp.toInt → b = s.b + BitVec.ofInt 16 disp.toInt →
    (s.effLoc ⟨false, false, false, disp⟩ = .done (p, .prel) s ∧
      s.effLoc ⟨false, false, true, disp⟩ = .done (b, .nonprel) s ∧
      s.effLoc ⟨true, false, false, disp⟩ = .done (s.x + BitVec.ofInt 16 disp.toInt, .nonprel) s ∧
      s.effLoc ⟨true, false, true, disp⟩ = .done (b + s.x, .nonprel) s) ∧
    (∀ iw s1, s.memRead .raddr .prel p = .done iw s1 →
      s.effLoc ⟨false, true, false, disp⟩ = .done (iw, .nonprel) s1 ∧
      s.effLoc ⟨true, true, false, disp⟩ = .done (iw + s.x, .nonprel) s1) ∧
    (∀ iw s1, s.memRead .raddr .nonprel b = .done iw s1 →
      s.effLoc ⟨false, true, true, disp⟩ = .done (iw, .nonprel) s1 ∧
      s.effLoc ⟨true, true, true, disp⟩ = .done (iw + s.x, .nonprel) s1) ∧
    (∀ s1 x, s.memRead .raddr .prel p = .aborted s1 → s.effLoc ⟨x, true, false, disp⟩ = .aborted s1) ∧
    (∀ s1 x, s.memRead .raddr .nonprel b = .aborted s1 → s.effLoc ⟨x, true, true, disp⟩ = .aborted s1) ∧
    (s.Flat → s.shadowReached p = false → s.shadowReached b = false →
      s.effLoc ⟨false, true, false, disp⟩ = .done (s.wordAt p, .nonprel) s ∧
      s.effLoc ⟨false, true, true, disp⟩ = .done (s.wordAt b, .nonprel) s ∧
      s.effLoc ⟨true, true, false, disp⟩ = .done (s.wordAt p + s.x, .nonprel) s ∧
      s.effLoc ⟨true, true, true, disp⟩ = .done (s.wordAt b + s.x, .nonprel) s)

/-- LDA, LDT, LDX: the operand word becomes the register. LDD and LDF: A and D from two words, T, A and D from three, the
address wrapping. No flag changes (`spec/40_memory_reference.md` R259 to R262;
`spec/43_floating.md` R343). -/
def Obligations.LoadResult : Prop :=
  (∀ (s s1 : State) (m : MemRef) (w : Word),
     s.readOperand m = .done w s1 →
     (∃ t, exec (.lda m) s = .next t ∧ onlyRegisters s1 t ∧ RegistersBecome s t [(.a, w)] [] (s.p + 1)) ∧
     (∃ t, exec (.ldt m) s = .next t ∧ onlyRegisters s1 t ∧ RegistersBecome s t [(.t, w)] [] (s.p + 1)) ∧
     (∃ t, exec (.ldx m) s = .next t ∧ onlyRegisters s1 t ∧ RegistersBecome s t [(.x, w)] [] (s.p + 1))) ∧
  (∀ (s s1 s2 s3 : State) (m : MemRef) (el w0 w1 : Word) (rel : Rel),
     s.effLoc m = .done (el, rel) s1 → s1.memRead .rop rel el = .done w0 s2 →
     s2.memRead .rop rel (el + 1) = .done w1 s3 →
     (∃ t, exec (.ldd m) s = .next t ∧ onlyRegisters s3 t ∧
       RegistersBecome s t [(.a, w0), (.d, w1)] [] (s.p + 1)) ∧
     (∀ w2 s4, s3.memRead .rop rel (el + 2) = .done w2 s4 →
       ∃ t, exec (.ldf m) s = .next t ∧ onlyRegisters s4 t ∧
         RegistersBecome s t [(.t, w0), (.a, w1), (.d, w2)] [] (s.p + 1)))

/-- STZ, STA, STT, STX, STD and STF, in every state: zero, A, T, X, the words A and D, or T, A and D are stored at the effective
location in ascending order, and nothing else happens but that P goes on; MIN reads the word there, stores it plus one and skips
when that is zero. With physical addressing the words at the effective location hold the stored values then, and every other word
stays (`spec/40_memory_reference.md` R253 to R258; `spec/43_floating.md` R344). That the words of a multi-word store are stored in
ascending order is the spec's own decision D19 of R252 (log 16). -/
def Obligations.StoreResult : Prop :=
  (∀ (s s1 s2 : State) (m : MemRef) (el : Word) (rel : Rel) (i : Instr) (ws : List Word),
     s.effLoc m = .done (el, rel) s1 →
     (i, ws) ∈ [(Instr.stz m, [0]), (.sta m, [s.a]), (.stt m, [s.t]), (.stx m, [s.x]), (.std m, [s.a, s.d]),
       (.stf m, [s.t, s.a, s.d])] →
     storesInOrder rel s1 el ws s2 →
     ∃ t, exec i s = .next t ∧ onlyRegisters s2 t ∧ RegistersBecome s t [] [] (s.p + 1)) ∧
  (∀ (s s1 s2 s3 : State) (m : MemRef) (el w : Word) (rel : Rel),
     s.effLoc m = .done (el, rel) s1 → s1.memRead .rop rel el = .done w s2 →
     s2.memWrite rel el (w + 1) = .done () s3 →
     ∃ t, exec (.min m) s = .next t ∧ onlyRegisters s3 t ∧
       RegistersBecome s t [] [] (s.p + (if w = 0o177777 then 2 else 1))) ∧
  ∀ (s s1 : State) (m : MemRef) (el : Word) (rel : Rel),
    s.Flat → s.effLoc m = .done (el, rel) s1 →
    (∀ (i : Instr) (v : Word),
      (i, v) ∈ [(Instr.stz m, 0), (.sta m, s.a), (.stt m, s.t), (.stx m, s.x), (.min m, s.wordAt el + 1)] →
      s.ordinary el 1 →
      ∃ t, exec i s = .next t ∧ t = { s with regs := t.regs, mem := t.mem } ∧
        RegistersBecome s t [] [] (s.p + (if i = .min m ∧ v = 0 then 2 else 1)) ∧
        t.wordAt el = v ∧ ∀ va, va ≠ el → t.wordAt va = s.wordAt va) ∧
    (s.ordinary el 2 →
      ∃ t, exec (.std m) s = .next t ∧ t = { s with regs := t.regs, mem := t.mem } ∧
        RegistersBecome s t [] [] (s.p + 1) ∧ t.wordAt el = s.a ∧ t.wordAt (el + 1) = s.d ∧
        ∀ va, va ≠ el → va ≠ el + 1 → t.wordAt va = s.wordAt va) ∧
    (s.ordinary el 3 →
      ∃ t, exec (.stf m) s = .next t ∧ t = { s with regs := t.regs, mem := t.mem } ∧
        RegistersBecome s t [] [] (s.p + 1) ∧ t.wordAt el = s.t ∧ t.wordAt (el + 1) = s.a ∧
        t.wordAt (el + 2) = s.d ∧ ∀ va, va ≠ el → va ≠ el + 1 → va ≠ el + 2 → t.wordAt va = s.wordAt va)

/-- ADD, SUB, AND, ORA and MPY as operations on integers: the sum, difference or product modulo 2^16; C the carry out, or for
SUB no borrow; Q when the exact result is no signed word (for MPY: when it exceeds 32767 in absolute value), O only ever
set; AND and ORA leave the flags (`spec/40_memory_reference.md` R263 to R268). MPY's A after an overflow and its Q cleared
without one are the spec's own decision D21 of R268, carry and overflow of SUB by the complement its decision D18 of R263
(log 16). -/
def Obligations.ArithmeticResult : Prop :=
  ∀ (s s1 : State) (m : MemRef) (w : Word),
    s.readOperand m = .done w s1 →
    (∃ t ovf, exec (.add m) s = .next t ∧ onlyRegisters s1 t ∧
      ovf = decide (s.a.toInt + w.toInt < -32768 ∨ 32767 < s.a.toInt + w.toInt) ∧
      RegistersBecome s t [(.a, BitVec.ofInt 16 (s.a.toInt + w.toInt))]
        [(.c, decide (65536 ≤ s.a.toNat + w.toNat)), (.q, ovf), (.o, s.flag .o || ovf)] (s.p + 1)) ∧
    (∃ t ovf, exec (.sub m) s = .next t ∧ onlyRegisters s1 t ∧
      ovf = decide (s.a.toInt - w.toInt < -32768 ∨ 32767 < s.a.toInt - w.toInt) ∧
      RegistersBecome s t [(.a, BitVec.ofInt 16 (s.a.toInt - w.toInt))]
        [(.c, decide (w.toNat ≤ s.a.toNat)), (.q, ovf), (.o, s.flag .o || ovf)] (s.p + 1)) ∧
    (∃ t ovf, exec (.mpy m) s = .next t ∧ onlyRegisters s1 t ∧
      ovf = decide (s.a.toInt * w.toInt < -32767 ∨ 32767 < s.a.toInt * w.toInt) ∧
      RegistersBecome s t [(.a, BitVec.ofInt 16 (s.a.toInt * w.toInt))] [(.q, ovf), (.o, s.flag .o || ovf)]
        (s.p + 1)) ∧
    (∃ t v, exec (.and m) s = .next t ∧ onlyRegisters s1 t ∧ RegistersBecome s t [(.a, v)] [] (s.p + 1) ∧
      ∀ k, v.getLsbD k = (s.a.getLsbD k && w.getLsbD k)) ∧
    (∃ t v, exec (.ora m) s = .next t ∧ onlyRegisters s1 t ∧ RegistersBecome s t [(.a, v)] [] (s.p + 1) ∧
      ∀ k, v.getLsbD k = (s.a.getLsbD k || w.getLsbD k))

/-! ### Jumps and skips -/

/-- JMP and JPL: P becomes the effective location, and JPL leaves the address behind itself in L. The conditional jumps:
relative to their own address when the condition on A or X holds as a signed number, else to the next word; JPC and JNC test X
after counting it up, whether or not they jump (`spec/41_sequencing.md` R300 to R310). -/
def Obligations.Jumps : Prop :=
  (∀ (s s1 : State) (m : MemRef) (el : Word) (rel : Rel),
     s.effLoc m = .done (el, rel) s1 →
     (∃ t, exec (.jmp m) s = .next t ∧ onlyRegisters s1 t ∧ RegistersBecome s t [] [] el) ∧
     (∃ t, exec (.jpl m) s = .next t ∧ onlyRegisters s1 t ∧ RegistersBecome s t [(.l, s.p + 1)] [] el)) ∧
  (∀ (s : State) (disp : BitVec 8),
     (∀ (i : Instr) (c : Prop) [Decidable c],
       (i = .jap disp ∧ (c ↔ 0 ≤ s.a.toInt)) ∨ (i = .jan disp ∧ (c ↔ s.a.toInt < 0)) ∨
       (i = .jaz disp ∧ (c ↔ s.a.toInt = 0)) ∨ (i = .jaf disp ∧ (c ↔ s.a.toInt ≠ 0)) ∨
       (i = .jxz disp ∧ (c ↔ s.x.toInt = 0)) ∨ (i = .jxn disp ∧ (c ↔ s.x.toInt < 0)) →
       ∃ t, exec i s = .next t ∧ onlyRegisters s t ∧
         RegistersBecome s t [] [] (if c then s.p + BitVec.ofInt 16 disp.toInt else s.p + 1)) ∧
     (∃ t, exec (.jpc disp) s = .next t ∧ onlyRegisters s t ∧
       RegistersBecome s t [(.x, s.x + 1)] []
         (if 0 ≤ (s.x + 1).toInt then s.p + BitVec.ofInt 16 disp.toInt else s.p + 1)) ∧
     (∃ t, exec (.jnc disp) s = .next t ∧ onlyRegisters s t ∧
       RegistersBecome s t [(.x, s.x + 1)] []
         (if (s.x + 1).toInt < 0 then s.p + BitVec.ofInt 16 disp.toInt else s.p + 1)))

/-- The eight conditions of SKP as comparisons: EQL and UEQ of equality, GRE and LST of signed numbers, MGRE and MLST of
unsigned magnitudes, GEQ and LSS of the difference modulo 2^16, overflow not taken care of; nothing but P changes
(`spec/46_skip.md` R430 to R438). That P alone changes is the spec's own decision D32 of R430 (log 16). -/
def Obligations.SkipConditions : Prop :=
  ∀ (s : State) (sr dr : RField) (i : Instr) (c : Prop) [Decidable c],
    (i = .skpEql sr dr ∧ (c ↔ s.regValue dr = s.regValue sr)) ∨
    (i = .skpUeq sr dr ∧ (c ↔ s.regValue dr ≠ s.regValue sr)) ∨
    (i = .skpGre sr dr ∧ (c ↔ (s.regValue sr).toInt ≤ (s.regValue dr).toInt)) ∨
    (i = .skpLst sr dr ∧ (c ↔ (s.regValue dr).toInt < (s.regValue sr).toInt)) ∨
    (i = .skpMgre sr dr ∧ (c ↔ (s.regValue sr).toNat ≤ (s.regValue dr).toNat)) ∨
    (i = .skpMlst sr dr ∧ (c ↔ (s.regValue dr).toNat < (s.regValue sr).toNat)) ∨
    (i = .skpGeq sr dr ∧ (c ↔ 0 ≤ (s.regValue dr - s.regValue sr).toInt)) ∨
    (i = .skpLss sr dr ∧ (c ↔ (s.regValue dr - s.regValue sr).toInt < 0)) →
    ∃ t, exec i s = .next t ∧ onlyRegisters s t ∧ RegistersBecome s t [] [] (if c then s.p + 2 else s.p + 1)

/-! ### Bytes -/

/-- LBYT and SBYT, in every state: byte X of the string at T, the left byte of a word first; LBYT clears the upper half of A,
SBYT reads the word and stores it with this byte replaced by the low byte of A. With physical addressing the word in memory is
that one then, and every other byte of memory stays (`spec/42_byte.md` R320 to R323). X as a number without sign, also above 77777
octal, is the spec's own decision D22 of R321 (log 16). -/
def Obligations.ByteLoadStore : Prop :=
  ∀ (s s1 : State) (va w : Word),
    va = s.t + BitVec.ofNat 16 (s.x.toNat / 2) → s.memRead .rop .nonprel va = .done w s1 →
    (∃ t, exec .lbyt s = .next t ∧ onlyRegisters s1 t ∧
      RegistersBecome s t
        [(.a, BitVec.ofNat 16 (if s.x.toNat % 2 = 0 then w.toNat / 256 else w.toNat % 256))] [] (s.p + 1)) ∧
    (∀ w' s2, halfReplaced w (decide (s.x.toNat % 2 = 1)) (BitVec.ofNat 8 s.a.toNat) w' →
      s1.memWrite .nonprel va w' = .done () s2 →
      ∃ t, exec .sbyt s = .next t ∧ onlyRegisters s2 t ∧ RegistersBecome s t [] [] (s.p + 1)) ∧
    (s.Flat → s.shadowReached va = false →
      ∃ t, exec .sbyt s = .next t ∧ t = { s with regs := t.regs, mem := t.mem } ∧
        RegistersBecome s t [] [] (s.p + 1) ∧
        (t.wordAt va).toNat =
          (if s.x.toNat % 2 = 0 then s.a.toNat % 256 * 256 + w.toNat % 256
            else w.toNat / 256 * 256 + s.a.toNat % 256) ∧
        ∀ a, a / 2 ≠ va.toNat → t.mem.read a = s.mem.read a)

/-- BFILL, in every state: the low byte of A is stored into each byte of the field in ascending order, by accesses that are not P
relative with bit 14 of T and P relative without it; X and T bit 15 then point behind the field, the length is 0, and the return
is the skip return. A refused first access ends it with its registers as they are. With physical addressing the bytes of the
field hold that byte then, and every other byte of memory stays (`spec/42_byte.md` R325 to R327). That bit 14 selects the page
table as PTM does for any other access is the spec's own decision D23 of R325, that the whole fill, which the sources call
interruptible, is one execution its decision D24 of R326 (log 16). -/
def Obligations.ByteFill : Prop :=
  (∀ s s1 : State,
     storesBytes (fieldRel s.t) s (descAddr s.x s.t)
       (List.replicate (descLength s.t).toNat (BitVec.ofNat 8 s.a.toNat)) s1 →
     ∃ t, exec .bfill s = .next t ∧ onlyRegisters s1 t ∧ fillEnds s t) ∧
  (∀ s s1 : State,
     descLength s.t ≠ 0 → s.memRead .rop (fieldRel s.t) s.x = .aborted s1 → abandoned .bfill s s1) ∧
  ∀ s : State,
    s.Flat → s.ordinary s.x ((descLength s.t).toNat / 2 + 1) →
    ∃ t, exec .bfill s = .next t ∧ t = { s with regs := t.regs, mem := t.mem } ∧
      (∀ k, k < (descLength s.t).toNat → t.byteAt ((descAddr s.x s.t).plus k) = s.a.setWidth 8) ∧
      sameBytesOutside s t (descAddr s.x s.t) (descLength s.t).toNat ∧ fillEnds s t

/-- MOVB, in every state: as many bytes as the shorter field has are read from the source, then stored into the destination, each
field by accesses that are not P relative with bit 14 of its descriptor and P relative without it; the descriptors then point
behind the fields, the source length is 0 and the destination length the number moved. With physical addressing the
destination then holds the bytes that the source held before, also where the fields overlap (`spec/42_byte.md` R325, R328). That
bit 14 selects the page table as PTM does for any other access is the spec's own decision D23 of R325, that the whole move is one
execution its decision D24 of R326 (log 16). -/
def Obligations.ByteMove : Prop :=
  (∀ (s s1 s2 : State) (bytes : List Byte),
     bytes.length = min (s.d.toNat % 4096) (s.t.toNat % 4096) →
     readsBytes (fieldRel s.d) s (descAddr s.a s.d) bytes s1 →
     storesBytes (fieldRel s.t) s1 (descAddr s.x s.t) bytes s2 →
     ∃ t, exec .movb s = .next t ∧ onlyRegisters s2 t ∧ moveEnds s t 0 s.moveLength) ∧
  ∀ s : State,
    s.Flat → s.ordinary s.a (s.moveLength.toNat / 2 + 1) → s.ordinary s.x (s.moveLength.toNat / 2 + 1) →
    ∃ t, exec .movb s = .next t ∧ t = { s with regs := t.regs, mem := t.mem } ∧
      (∀ k, k < s.moveLength.toNat →
        t.byteAt ((descAddr s.x s.t).plus k) = s.byteAt ((descAddr s.a s.d).plus k)) ∧
      sameBytesOutside s t (descAddr s.x s.t) s.moveLength.toNat ∧ moveEnds s t 0 s.moveLength

/-- MOVBF: with a destination that begins inside the source behind its first byte (n > 0, Sb < Db and Db < Sb + n) nothing is
moved and the return is the error return; else, in every state, byte after byte is read and stored, each field by accesses that
are not P relative with bit 14 of its descriptor and P relative without it, both lengths drop by the number moved, and the return
skips. With physical addressing and fields that do not wrap, or that do with no byte of the source stored to before it is read,
the destination then holds the bytes that the source held before (`spec/42_byte.md` R325, R329). This test, made before
anything is moved, and the registers left alone by the error return are the spec's own decision D25 of R329, that bit 14 selects
the page table as PTM does for any other access its decision D23 of R325, the whole move in one execution its decision D24 of
R326 (log 16). -/
def Obligations.ByteMoveForward : Prop :=
  ∀ (s : State) (n sb db : Nat),
    n = s.moveLength.toNat → sb = 2 * s.a.toNat + s.d.toNat / 32768 → db = 2 * s.x.toNat + s.t.toNat / 32768 →
    n = min (s.d.toNat % 4096) (s.t.toNat % 4096) ∧
    (0 < n ∧ sb < db ∧ db < sb + n →
      ∃ t, exec .movbf s = .next t ∧ onlyRegisters s t ∧ RegistersBecome s t [] [] (s.p + 1)) ∧
    (∀ s1, ¬ (0 < n ∧ sb < db ∧ db < sb + n) →
      movesBytes (fieldRel s.d) (fieldRel s.t) n s (descAddr s.a s.d) (descAddr s.x s.t) s1 →
      ∃ t, exec .movbf s = .next t ∧ onlyRegisters s1 t ∧
        moveEnds s t (descLength s.d - s.moveLength) (descLength s.t - s.moveLength)) ∧
    (¬ (0 < n ∧ sb < db ∧ db < sb + n) →
      s.Flat → s.ordinary s.a (n / 2 + 1) → s.ordinary s.x (n / 2 + 1) →
      (sb + n ≤ 131072 ∧ db + n ≤ 131072 ∨
        ∀ j k, k < j → j < n → (descAddr s.x s.t).plus k ≠ (descAddr s.a s.d).plus j) →
      ∃ t, exec .movbf s = .next t ∧ t = { s with regs := t.regs, mem := t.mem } ∧
        (∀ k, k < n → t.byteAt ((descAddr s.x s.t).plus k) = s.byteAt ((descAddr s.a s.d).plus k)) ∧
        sameBytesOutside s t (descAddr s.x s.t) n ∧
        moveEnds s t (descLength s.d - s.moveLength) (descLength s.t - s.moveLength))
/-! ### Floating point -/

/-- FAD, FSB, FMU and FDV: where both operands are standard and the exact result is that of a standard word, the accumulator
becomes this word; first in the 48-bit format with T, A and D, then in the 32-bit format with A and D, T untouched; of the
flags only TG and C may change (`spec/43_floating.md` R340 to R347, P1 of R346). That in the 32-bit format a result with the
biased exponent 0 counts as such a word, as an operand it does not, is the model's reading of R341 and R350 (log 12). -/
def Obligations.FloatingExactResult : Prop :=
  (∀ (s s1 s2 s3 s4 : State) (m : MemRef) (el w0 w1 w2 : Word) (rel : Rel) (a b c : FpNum) (v : BitVec 48) (i : Instr),
     s.cfg.fp32 = false → s.effLoc m = .done (el, rel) s1 → s1.memRead .rop rel el = .done w0 s2 →
     s2.memRead .rop rel (el + 1) = .done w1 s3 → s3.memRead .rop rel (el + 2) = .done w2 s4 →
     decode48 (s.t ++ s.a ++ s.d) = some a → decode48 (w0 ++ w1 ++ w2) = some b → decode48 v = some c →
     ((i = .fad m ∧ c.value = a.value + b.value) ∨ (i = .fsb m ∧ c.value = a.value - b.value) ∨
       (i = .fmu m ∧ c.value = a.value * b.value) ∨
       (i = .fdv m ∧ b.value ≠ 0 ∧ c.value = a.value / b.value)) →
     ∃ t, exec i s = .next t ∧ onlyRegisters s4 t ∧ t.t ++ t.a ++ t.d = v ∧ t.p = s.p + 1 ∧
       keepsRegisters s t [.t, .a, .d] [.tg, .c]) ∧
  (∀ (s s1 s2 s3 : State) (m : MemRef) (el w0 w1 : Word) (rel : Rel) (a b : FpNum) (v : BitVec 32) (i : Instr),
     s.cfg.fp32 = true → s.effLoc m = .done (el, rel) s1 → s1.memRead .rop rel el = .done w0 s2 →
     s2.memRead .rop rel (el + 1) = .done w1 s3 →
     decode32 (s.a ++ s.d) = some a → decode32 (w0 ++ w1) = some b →
     ((i = .fad m ∧ (value32 v).value = a.value + b.value) ∨ (i = .fsb m ∧ (value32 v).value = a.value - b.value) ∨
       (i = .fmu m ∧ (value32 v).value = a.value * b.value) ∨
       (i = .fdv m ∧ b.value ≠ 0 ∧ (value32 v).value = a.value / b.value)) →
     ∃ t, exec i s = .next t ∧ onlyRegisters s3 t ∧ t.a ++ t.d = v ∧ t.p = s.p + 1 ∧
       keepsRegisters s t [.a, .d] [.tg, .c])

/-- FDV by the zero word in either format sets Z, whatever the accumulator then holds; T stays in the 32-bit format
(`spec/43_floating.md` R345, R347). -/
def Obligations.FloatingDivisionByZero : Prop :=
  ∀ (s s1 s2 s3 : State) (m : MemRef) (el : Word) (rel : Rel),
    s.effLoc m = .done (el, rel) s1 → s1.memRead .rop rel el = .done 0 s2 →
    s2.memRead .rop rel (el + 1) = .done 0 s3 →
    (s.cfg.fp32 = true →
      ∃ t, exec (.fdv m) s = .next t ∧ onlyRegisters s3 t ∧ t.flag .z = true ∧ t.p = s.p + 1 ∧
        keepsRegisters s t [.a, .d] [.tg, .c, .z]) ∧
    (∀ s4, s.cfg.fp32 = false → s3.memRead .rop rel (el + 2) = .done 0 s4 →
      ∃ t, exec (.fdv m) s = .next t ∧ onlyRegisters s4 t ∧ t.flag .z = true ∧ t.p = s.p + 1 ∧
        keepsRegisters s t [.t, .a, .d] [.tg, .c, .z])

/-- NLZ: the accumulator becomes the standard word of A times 2 to the scaling factor minus 16, exactly; in the 48-bit
format it always exists. DNZ of a standard word: the integer part of its absolute value times 2 to the scaling factor
plus 16, with its sign, goes into A where it does not exceed 32767; else Z is set; T and D are cleared. The 32-bit format
leaves T and its DNZ ignores the scaling (`spec/43_floating.md` R349 to R353). DNZ's result and Z for scalings other than
-16, and Z in the 32-bit format without regard to the scaling, are the spec's own decision D27 as log 33 reads it. -/
def Obligations.NormalizeDenormalize : Prop :=
  (∀ (s : State) (sc : BitVec 8),
     (s.cfg.fp32 = false →
       ∃ t c, exec (.nlz sc) s = .next t ∧ onlyRegisters s t ∧ t.p = s.p + 1 ∧ keepsRegisters s t [.t, .a, .d] [] ∧
         decode48 (t.t ++ t.a ++ t.d) = some c ∧ c.value = s.a.toInt * 2 ^ (sc.toInt - 16)) ∧
     (s.cfg.fp32 = true →
       ∃ t, exec (.nlz sc) s = .next t ∧ onlyRegisters s t ∧ t.p = s.p + 1 ∧ keepsRegisters s t [.a, .d] [] ∧
         ∀ v c, decode32 v = some c → c.value = s.a.toInt * 2 ^ (sc.toInt - 16) → t.a ++ t.d = v)) ∧
  (∀ (s : State) (sc : BitVec 8) (c : FpNum) (q : Nat),
     (s.cfg.fp32 = false → decode48 (s.t ++ s.a ++ s.d) = some c → q = ⌊|c.value| * 2 ^ (sc.toInt + 16)⌋₊ →
       ∃ t, exec (.dnz sc) s = .next t ∧ onlyRegisters s t ∧ t.p = s.p + 1 ∧ t.t = 0 ∧ t.d = 0 ∧
         keepsRegisters s t [.t, .a, .d] [.z] ∧ t.flag .z = (s.flag .z || decide (32767 < q)) ∧
         (q ≤ 32767 → t.a.toInt = if c.value < 0 then -(q : Int) else q)) ∧
     (s.cfg.fp32 = true → decode32 (s.a ++ s.d) = some c → q = ⌊|c.value|⌋₊ →
       ∃ t, exec (.dnz sc) s = .next t ∧ onlyRegisters s t ∧ t.p = s.p + 1 ∧ t.d = 0 ∧
         keepsRegisters s t [.a, .d] [.z] ∧ t.flag .z = (s.flag .z || decide (32767 < q)) ∧
         (q ≤ 32767 → t.a.toInt = if c.value < 0 then -(q : Int) else q)))

/-! ### Shifts -/

/-- The shifts in closed form: T, D, A, or A and D connected, shifted at once by up to 31 places to the left or 32 to the
right; M holds the last bit that left, `linkEnd` rotates through M, count 0 changes nothing, bit 6 is ignored
(`spec/44_shift.md` R370 to R374). That `linkEnd` with a count above 1 rotates the ring of M and the operand is the spec's own
decision D28 of R373 (log 16). -/
def Obligations.ShiftResult : Prop :=
  ∀ (s : State) (type : ShiftType) (ig : Bool) (n : BitVec 6),
    (∃ t, exec (.sht type ig n) s = .next t ∧ onlyRegisters s t ∧
      RegistersBecome s t [(.t, (shiftClosed type n s.t (s.flag .m)).1)]
        [(.m, (shiftClosed type n s.t (s.flag .m)).2)] (s.p + 1)) ∧
    (∃ t, exec (.shd type ig n) s = .next t ∧ onlyRegisters s t ∧
      RegistersBecome s t [(.d, (shiftClosed type n s.d (s.flag .m)).1)]
        [(.m, (shiftClosed type n s.d (s.flag .m)).2)] (s.p + 1)) ∧
    (∃ t, exec (.sha type ig n) s = .next t ∧ onlyRegisters s t ∧
      RegistersBecome s t [(.a, (shiftClosed type n s.a (s.flag .m)).1)]
        [(.m, (shiftClosed type n s.a (s.flag .m)).2)] (s.p + 1)) ∧
    (∃ t, exec (.sad type ig n) s = .next t ∧ onlyRegisters s t ∧
      RegistersBecome s t
        [(.a, ((shiftClosed type n (s.a ++ s.d) (s.flag .m)).1).extractLsb' 16 16),
          (.d, ((shiftClosed type n (s.a ++ s.d) (s.flag .m)).1).extractLsb' 0 16)]
        [(.m, (shiftClosed type n (s.a ++ s.d) (s.flag .m)).2)] (s.p + 1))

/-! ### Register operations -/

/-- RAND, REXO and RORA between any registers, with complemented source and cleared destination; number 0 is the constant
zero and takes no result, P reads as the next address and a write to it is a jump. SWAP: both registers receive the value
that the other had (complemented with CM1, zero with CLD); without a destination nothing happens; of a register swapped
with itself one of the two values results, it is open which (log 41). No flag changes (`spec/45_register_ops.md` R390 to
R399). That destination number 0 makes a no-operation in every case, and that P as destination operand is the next address,
is the spec's own decision D29 of R391 and R393 (log 16). -/
def Obligations.RegisterLogicAndSwap : Prop :=
  (∀ (s : State) (cm1 cld : Bool) (sr dr : RField) (i : Instr) (w : Word),
     ((i = .rand cm1 cld sr dr ∧ w = destOperand s cld dr &&& sourceOperand s cm1 sr) ∨
       (i = .rexo cm1 cld sr dr ∧ w = destOperand s cld dr ^^^ sourceOperand s cm1 sr) ∨
       (i = .rora cm1 cld sr dr ∧ w = destOperand s cld dr ||| sourceOperand s cm1 sr)) →
     ∃ t, exec i s = .next t ∧ onlyRegisters s t ∧ RegistersBecome s t (written dr w) [] (nextAfter s dr w)) ∧
  (∀ (s : State) (cm1 cld : Bool) (sr dr : RField) (v d : Word),
     v = sourceOperand s cm1 sr → d = destOperand s cld dr →
     ∃ t, exec (.swap cm1 cld sr dr) s = .next t ∧ onlyRegisters s t ∧
       (dr = .zero → RegistersBecome s t [] [] (s.p + 1)) ∧
       (dr ≠ .zero → sr ≠ dr →
         RegistersBecome s t (written dr v ++ written sr d) []
           (if dr = .p then v else if sr = .p then d else s.p + 1)) ∧
       (dr ≠ .zero → sr = dr →
         RegistersBecome s t (written dr v) [] (nextAfter s dr v) ∨
           RegistersBecome s t (written dr d) [] (nextAfter s dr d)))

/-- RADD and its named forms on integers: the sum of the operands and the carry in, modulo 2^16; C the carry out, Q the
overflow of the exact sum, O only ever set; without a destination only C is cleared (`spec/45_register_ops.md` R391 to
R394, R400 to R408). The form without a destination and P as destination operand are the spec's own decision D29 of R391 and
R393, carry and overflow of RSUB and CM2 by the complement its decision D18 of R263 (log 16). -/
def Obligations.RegisterAddition : Prop :=
  ∀ (s : State) (i : Instr) (adc ad1 cm1 cld : Bool) (sr dr : RField) (x y : Word) (cin : Nat) (sum : Int)
    (ovf : Bool),
    additionOf i = some (adc, ad1, cm1, cld, sr, dr) →
    x = destOperand s cld dr → y = sourceOperand s cm1 sr →
    cin = (if ad1 ∨ (adc ∧ s.flag .c) then 1 else 0) → sum = x.toInt + y.toInt + cin →
    ovf = decide (sum < -32768 ∨ 32767 < sum) →
    ∃ t, exec i s = .next t ∧ onlyRegisters s t ∧
      (dr = .zero → RegistersBecome s t [] [(.c, false)] (s.p + 1)) ∧
      (dr ≠ .zero →
        RegistersBecome s t (written dr (BitVec.ofInt 16 sum))
          [(.c, decide (65536 ≤ x.toNat + y.toNat + cin)), (.q, ovf), (.o, s.flag .o || ovf)]
          (nextAfter s dr (BitVec.ofInt 16 sum)))

/-- EXR: the register's contents are executed as if fetched from the place of the EXR; an EXR there only sets Z; a word that
is no instruction raises II (`spec/45_register_ops.md` R413, R414). That an inner EXR is passed over is the spec's own
decision D31 of R413 (log 16). -/
def Obligations.ExecuteRegister : Prop :=
  ∀ (s : State) (sr : RField) (i : Instr),
    (decodeWord s.cfg.hasCx (s.regValue sr) = .ok i → (∀ r, i ≠ .exr r) → exec (.exr sr) s = exec i s) ∧
    (∀ rs fs, decodeWord s.cfg.hasCx (s.regValue sr) = .ok i → registerFrame i = some (rs, fs) →
      ∃ t, exec (.exr sr) s = .next t ∧ exec i s = .next t ∧ onlyRegisters s t ∧ keepsRegisters s t rs fs) ∧
    (∀ r, decodeWord s.cfg.hasCx (s.regValue sr) = .ok (.exr r) →
      ∃ t, exec (.exr sr) s = .next t ∧ onlyRegisters s t ∧ RegistersBecome s t [] [(.z, true)] (s.p + 1)) ∧
    (∀ e, decodeWord s.cfg.hasCx (s.regValue sr) = .error e →
      ∃ t, exec (.exr sr) s = .next t ∧ t.iid = setBit s.iid 4 true ∧ RegistersBecome s t [] [] (s.p + 1))

/-- RMPY leaves the signed product in A and D; RDIV the quotient in A and the remainder in D, smaller than the divisor and with
the sign of the dividend, and sets Z when the divisor is zero or the quotient no signed word. C, O and Q are open (log 36).
MIX3 leaves three times A minus one in X (`spec/45_register_ops.md` R410, R411, R415). A zero divisor as an overflow, and
-32768 as a quotient like any other, are the spec's own decision D30 of R411 (log 16). -/
def Obligations.MultiplyDivideResult : Prop :=
  (∀ (s : State) (sr dr : RField) (ig : BitVec 3) (n v : Int),
     (∃ t, exec (.rmpy sr dr) s = .next t ∧ onlyRegisters s t ∧ t.p = s.p + 1 ∧
       keepsRegisters s t [.a, .d] [.c, .o, .q] ∧
       (t.a ++ t.d).toInt = (s.regValue sr).toInt * (s.regValue dr).toInt) ∧
     (n = (s.a ++ s.d).toInt → v = (s.regValue sr).toInt →
       ∃ t, exec (.rdiv sr ig) s = .next t ∧ onlyRegisters s t ∧ t.p = s.p + 1 ∧
         keepsRegisters s t [.a, .d] [.z, .c, .o, .q] ∧
         (v ≠ 0 → -32768 ≤ n.tdiv v → n.tdiv v ≤ 32767 →
           n = t.a.toInt * v + t.d.toInt ∧ t.d.toInt.natAbs < v.natAbs ∧
             (t.d.toInt ≠ 0 → (t.d.toInt < 0 ↔ n < 0)) ∧ t.flag .z = s.flag .z) ∧
         (v = 0 ∨ n.tdiv v < -32768 ∨ 32767 < n.tdiv v → t.flag .z = true))) ∧
  (∀ s : State, ∃ t, exec .mix3 s = .next t ∧ onlyRegisters s t ∧
     RegistersBecome s t [(.x, BitVec.ofInt 16 ((s.a.toInt - 1) * 3))] [] (s.p + 1))

/-- SAB, SAA, SAT, SAX set a register to the signed argument, AAB, AAA, AAT, AAX add it with the flags as for ADD
(`spec/47_argument.md` R445 to R455). -/
def Obligations.ArgumentResult : Prop :=
  ∀ (s : State) (i : Instr) (r : RField) (arg : BitVec 8) (adds : Bool) (sum : Int) (ovf : Bool),
    argumentOf i = some (r, arg, adds) → sum = (s.cur.get r).toInt + arg.toInt →
    ovf = decide (sum < -32768 ∨ 32767 < sum) →
    ∃ t, exec i s = .next t ∧ onlyRegisters s t ∧
      (adds = false → RegistersBecome s t [(r, BitVec.ofInt 16 arg.toInt)] [] (s.p + 1)) ∧
      (adds = true →
        RegistersBecome s t [(r, BitVec.ofInt 16 sum)]
          [(.c, decide (65536 ≤ (s.cur.get r).toNat + (BitVec.ofInt 16 arg.toInt).toNat)), (.q, ovf),
            (.o, s.flag .o || ovf)] (s.p + 1))

/-- The bit operand is a flag, a bit of the next address, or of a register. BSKP, BLDA, BLDC, BAND, BANC, BORA and BORC read it
into the skip condition or into K. BSET, BSTA and BSTC write it: a write to P is a jump, bits 15-8 of the status word take
none; BSTA and BSTC then write K, also where the bit is K itself (`spec/48_bit.md` R460 to R477). That bits 15-8 of number 0
read as 0 and take no write is the spec's own decision D6 of R460 (`spec/10_state.md` R37; log 16). -/
def Obligations.BitInstructions : Prop :=
  (∀ (s : State) (bn : BitVec 4) (dr : RField) (bit k : Bool),
     bit = (if dr = .zero then decide (bn.toNat < 8) && s.sts.getLsbD bn.toNat
       else (s.regValue dr).getLsbD bn.toNat) →
     k = s.flag .k →
     (∀ (i : Instr) (c : Bool),
       (i, c) ∈ [(Instr.bskpZro bn dr, !bit), (.bskpOne bn dr, bit), (.bskpBcm bn dr, bit != k),
         (.bskpBac bn dr, bit == k)] →
       ∃ t, exec i s = .next t ∧ onlyRegisters s t ∧ RegistersBecome s t [] [] (if c then s.p + 2 else s.p + 1)) ∧
     (∀ (i : Instr) (c : Bool),
       (i, c) ∈ [(Instr.blda bn dr, bit), (.bldc bn dr, !bit), (.band bn dr, bit && k), (.banc bn dr, !bit && k),
         (.bora bn dr, bit || k), (.borc bn dr, !bit || k)] →
       ∃ t, exec i s = .next t ∧ onlyRegisters s t ∧ RegistersBecome s t [] [(.k, c)] (s.p + 1))) ∧
  (∀ (s : State) (bn : BitVec 4) (dr : RField) (bit k : Bool) (i : Instr) (v : Bool) (kAfter : List (Flag × Bool)),
     bit = (if dr = .zero then decide (bn.toNat < 8) && s.sts.getLsbD bn.toNat
       else (s.regValue dr).getLsbD bn.toNat) →
     k = s.flag .k →
     (i, v, kAfter) ∈ [(Instr.bsetZro bn dr, false, []), (.bsetOne bn dr, true, []), (.bsetBcm bn dr, !bit, []),
       (.bsetBac bn dr, k, []), (.bstc bn dr, !k, [(.k, true)]), (.bsta bn dr, k, [(.k, false)])] →
     ∃ t w, exec i s = .next t ∧ onlyRegisters s t ∧
       (∀ n, n < 16 → w.getLsbD n = if n = bn.toNat then v else (s.regValue dr).getLsbD n) ∧
       (dr ≠ .zero → RegistersBecome s t (written dr w) kAfter (nextAfter s dr w)) ∧
       (dr = .zero → RegistersBecome s t []
         (kAfter ++ ((flagsAt bn.toNat).filter fun f => !(kAfter.any fun e => e.1 == f)).map fun f => (f, v))
         (s.p + 1)))

/-! ### Decimal instructions -/

/-- ADDD and SUBD with physical addressing, on operands of legal digits: the first field receives the low-order digits and the
sign of the sum or difference, by the code 1111 where the descriptor asks for it, else 1101 or 1100, the upper half of the first
byte stays where the length is odd, and other bytes; no register but P changes, and the return is the skip return unless a
significant digit is lost; a zero sum of operands of one sign is plus, the sign of a zero difference and of a zero sum of
opposite signs is open (log 39), and a field of length 0 holds no sign. COMD leaves 0, 1 or -1 in A for equal, greater,
less, and always skips (`spec/52_ce_decimal.md` R582 to R587). The low-order digits and the sign after an overflow are the
spec's own decision D40 of R585, the layout of the fields, the returns and the flags left alone its decision D39 of R583 and
R584 (log 16). -/
def Obligations.DecimalArithmetic : Prop :=
  (∀ (s : State) (v1 v2 : DecimalValue) (i : Instr) (r : Int),
     s.Flat → s.cfg.hasCx = true → s.ordinaryField s.a (packedBytes s.d) → s.ordinaryField s.x (packedBytes s.t) →
     v1 = s.packedAt s.a s.d → v2 = s.packedAt s.x s.t → v1.illegal = false → v2.illegal = false →
     (i = .addd ∧ r = v1.toInt + v2.toInt) ∨ (i = .subd ∧ r = v1.toInt - v2.toInt) →
     ∃ t, exec i s = .next t ∧ t = { s with regs := t.regs, mem := t.mem, freeCount := t.freeCount } ∧
       RegistersBecome s t [] [] (s.p + (if r.natAbs < 10 ^ packedDigits s.d then 2 else 1)) ∧
       magnitude (t.packedAt s.a s.d).digits = r.natAbs % 10 ^ packedDigits s.d ∧
       (t.packedAt s.a s.d).illegal = false ∧
       (decLength s.d ≠ 0 → decUnsigned s.d = false → r ≠ 0 ∨ (i = .addd ∧ v1.neg = v2.neg) →
         (t.packedAt s.a s.d).neg = decide (r < 0)) ∧
       (decUnsigned s.d = true → decLength s.d ≠ 0 → (t.packedAt s.a s.d).neg = false) ∧
       packedCodes s t s.a s.d ∧ sameBytesOutside s t (descAddr s.a s.d) (packedBytes s.d)) ∧
  (∀ (s : State) (v1 v2 : DecimalValue),
     s.Flat → s.cfg.hasCx = true → s.ordinaryField s.a (packedBytes s.d) → s.ordinaryField s.x (packedBytes s.t) →
     v1 = s.packedAt s.a s.d → v2 = s.packedAt s.x s.t → v1.illegal = false → v2.illegal = false →
     ∃ t, exec .comd s = .next t ∧ onlyRegisters s t ∧
       RegistersBecome s t
         [(.a, if v1.toInt = v2.toInt then 0 else if v2.toInt < v1.toInt then 1 else 0o177777)] [] (s.p + 2))

/-- PACK and UPACK with physical addressing: the destination holds the sign and the low-order digits, packed with the sign
code 1111 where the descriptor asks for it, else 1101 or 1100, and with the upper half of the first byte kept where the length
is odd, in ASCII with bit 7 of each byte 0; the return skips unless a significant digit is lost, and then D holds error code
3; an empty destination takes nothing. On an illegal code the byte nearest to the end of the source is reported in A and D bit
15 with error code 2 and nothing is stored (`spec/52_ce_decimal.md` R583, R588 to R590). That nothing is stored on an illegal
code and the low-order digits on an overflow, and which codes are digits, is the spec's own decision D41 of R588 and R589, the
layout of the fields its decision D39 of R583 (log 16). A value in ASCII is what `scanAscii` reads. -/
def Obligations.DecimalConversion : Prop :=
  (∀ (s : State) (v : DecimalValue),
     s.Flat → s.cfg.hasCx = true →
     (s.ordinaryField s.a (decLength s.d) → s.ordinaryField s.x (packedBytes s.t) →
       scanAscii (signForm s.d) (decLength s.d) 0 (s.bytesAt (descAddr s.a s.d) (decLength s.d)) = .ok v →
       ∃ t, exec .pack s = .next t ∧ t = { s with regs := t.regs, mem := t.mem } ∧
         (magnitude v.digits < 10 ^ packedDigits s.t → RegistersBecome s t [] [] (s.p + 2)) ∧
         (10 ^ packedDigits s.t ≤ magnitude v.digits →
           RegistersBecome s t [(.d, s.d &&& 0o177740 ||| 3)] [] (s.p + 1)) ∧
         magnitude (t.packedAt s.x s.t).digits = magnitude v.digits % 10 ^ packedDigits s.t ∧
         (t.packedAt s.x s.t).neg = (v.neg && !decUnsigned s.t && decide (decLength s.t ≠ 0)) ∧
         packedCodes s t s.x s.t ∧ sameBytesOutside s t (descAddr s.x s.t) (packedBytes s.t)) ∧
     (s.ordinaryField s.a (packedBytes s.d) → s.ordinaryField s.x (decLength s.t) →
       v = s.packedAt s.a s.d → v.illegal = false →
       ∃ t v', exec .upack s = .next t ∧ t = { s with regs := t.regs, mem := t.mem } ∧
         (magnitude v.digits < 10 ^ asciiDigits s.t → RegistersBecome s t [] [] (s.p + 2)) ∧
         (10 ^ asciiDigits s.t ≤ magnitude v.digits →
           RegistersBecome s t [(.d, s.d &&& 0o177740 ||| 3)] [] (s.p + 1)) ∧
         scanAscii (signForm s.t) (decLength s.t) 0 (t.bytesAt (descAddr s.x s.t) (decLength s.t)) = .ok v' ∧
         magnitude v'.digits = magnitude v.digits % 10 ^ asciiDigits s.t ∧
         v'.neg = (v.neg && !decUnsigned s.t && decide (decLength s.t ≠ 0)) ∧
         (∀ k, k < decLength s.t → (t.byteAt ((descAddr s.x s.t).plus k)).toNat < 128) ∧
         sameBytesOutside s t (descAddr s.x s.t) (decLength s.t))) ∧
  (∀ (s : State) (j : Nat),
     s.Flat → s.cfg.hasCx = true →
     (s.ordinaryField s.a (decLength s.d) →
       scanAscii (signForm s.d) (decLength s.d) 0 (s.bytesAt (descAddr s.a s.d) (decLength s.d)) = .error j →
       ∃ t, exec .pack s = .next t ∧ onlyRegisters s t ∧
         RegistersBecome s t
           [(.a, ((descAddr s.a s.d).plus j).word),
             (.d, (if ((descAddr s.a s.d).plus j).right then 0o100000 else 0) ||| s.d &&& 0o077740 ||| 2)] []
           (s.p + 1)) ∧
     (s.ordinaryField s.a (packedBytes s.d) → lastIllegal 0 (s.packedAt s.a s.d).digits = some j →
       ∃ t, exec .upack s = .next t ∧ onlyRegisters s t ∧
         RegistersBecome s t
           [(.a, ((descAddr s.a s.d).plus (packedByteOf s.d j)).word),
             (.d, (if ((descAddr s.a s.d).plus (packedByteOf s.d j)).right then 0o100000 else 0) |||
               s.d &&& 0o077740 ||| 2)] [] (s.p + 1)))

/-- SHDE with physical addressing, on an operand of legal digits: the magnitude times 10 to the difference of the decimal
positions, rounded when digits leave on the right, bit 10 of T is 0 and the last of them is 5 or more; the destination
holds its low-order digits and the sign, by the code 1111 where its descriptor asks for it, else 1101 or 1100, with the upper
half of the first byte kept where the length is odd, and an empty one nothing; the return skips unless a significant digit is lost
(`spec/52_ce_decimal.md` R583, R584, R591, R594). That bit 10 = 0 asks for rounding, and the error return after right shifts
and rounding carries too, is the spec's own decision D42 of R591 and R594, the layout of the fields, the returns and the flags
left alone its decision D39 of R583 and R584 (log 16). That the old content of the destination field has no part in the result,
also where it holds a digit above 9, is read from R591 (log 39). -/
def Obligations.DecimalShift : Prop :=
  ∀ (s : State) (v : DecimalValue) (p1 p2 m : Nat),
    s.Flat → s.cfg.hasCx = true → s.ordinaryField s.a (packedBytes s.d) → s.ordinaryField s.x (packedBytes s.t) →
    v = s.packedAt s.a s.d → v.illegal = false →
    p1 = s.d.toNat / 32 % 32 → p2 = s.t.toNat / 32 % 32 →
    (p1 ≤ p2 → m = magnitude v.digits * 10 ^ (p2 - p1)) →
    (p2 < p1 → s.t.getLsbD 10 = true → m = magnitude v.digits / 10 ^ (p1 - p2)) →
    (p2 < p1 → s.t.getLsbD 10 = false →
      m = (magnitude v.digits + 5 * 10 ^ (p1 - p2 - 1)) / 10 ^ (p1 - p2)) →
    ∃ t, exec .shde s = .next t ∧ t = { s with regs := t.regs, mem := t.mem } ∧
      RegistersBecome s t [] [] (s.p + (if m < 10 ^ packedDigits s.t then 2 else 1)) ∧
      magnitude (t.packedAt s.x s.t).digits = m % 10 ^ packedDigits s.t ∧
      (t.packedAt s.x s.t).neg = (v.neg && !decUnsigned s.t && decide (decLength s.t ≠ 0)) ∧
      packedCodes s t s.x s.t ∧ sameBytesOutside s t (descAddr s.x s.t) (packedBytes s.t)

/-! ### Stack instructions -/

/-- INIT and ENTR with physical addressing, for every overflow condition of the installation (log 37): the error return changes
nothing but P; else LINK, PREVB, STP and SMAX of the new frame are written, B points behind its header, and the return is
the normal one. LEAVE and ELEAV take B and P from the frame; ELEAV returns one word before LINK, writes that back and
stores A as the error code (`spec/53_ce_stack_misc.md` R610 to R615). The return locations behind the parameters, and that
the error return changes nothing but P, are the spec's own decision D43 of R611 (log 16). -/
def Obligations.StackFrames : Prop :=
  (∀ (s : State) (demand start smax stp : Word),
     s.Flat → s.ordinary start 4 →
     (s.ordinary (s.p + 1) 4 → demand = s.wordAt (s.p + 1) → start = s.wordAt (s.p + 2) →
       smax = start + s.wordAt (s.p + 3) → stp = start + 6 + demand →
       ∃ t, exec .init s = .next t ∧
         (if (s.wordAt (s.p + 4)).getLsbD 0 ≠ s.flag .ptm ∨ Config.stackOverflow stp smax = true then
           onlyRegisters s t ∧ RegistersBecome s t [] [] (s.p + 6)
         else
           t = { s with regs := t.regs, mem := t.mem } ∧ RegistersBecome s t [(.b, start + 128)] [] (s.p + 7) ∧
           t.wordAt start = s.l + 1 ∧ t.wordAt (start + 1) = s.b ∧ t.wordAt (start + 2) = stp ∧
           t.wordAt (start + 3) = smax ∧
           ∀ va, va ≠ start → va ≠ start + 1 → va ≠ start + 2 → va ≠ start + 3 → t.wordAt va = s.wordAt va)) ∧
     (s.ordinary (s.p + 1) 1 → s.ordinary (s.b - 126) 2 → demand = s.wordAt (s.p + 1) →
       start = s.wordAt (s.b - 126) → smax = s.wordAt (s.b - 125) → stp = start + 6 + demand →
       ∃ t, exec .entr s = .next t ∧
         (if Config.stackOverflow stp smax = true then
           onlyRegisters s t ∧ RegistersBecome s t [] [] (s.p + 2)
         else
           t = { s with regs := t.regs, mem := t.mem } ∧ RegistersBecome s t [(.b, start + 128)] [] (s.p + 3) ∧
           t.wordAt start = s.l + 1 ∧ t.wordAt (start + 1) = s.b ∧ t.wordAt (start + 2) = stp ∧
           t.wordAt (start + 3) = smax ∧
           ∀ va, va ≠ start → va ≠ start + 1 → va ≠ start + 2 → va ≠ start + 3 → t.wordAt va = s.wordAt va))) ∧
  (∀ s : State,
     s.Flat → s.ordinary (s.b - 128) 2 →
     (∃ t, exec .leave s = .next t ∧ onlyRegisters s t ∧
       RegistersBecome s t [(.b, s.wordAt (s.b - 127))] [] (s.wordAt (s.b - 128))) ∧
     (s.ordinary (s.b - 123) 1 →
       ∃ t, exec .eleav s = .next t ∧ t = { s with regs := t.regs, mem := t.mem } ∧
         RegistersBecome s t [(.b, s.wordAt (s.b - 127))] [] (s.wordAt (s.b - 128) - 1) ∧
         t.wordAt (s.b - 128) = s.wordAt (s.b - 128) - 1 ∧ t.wordAt (s.b - 123) = s.a ∧
         ∀ va, va ≠ s.b - 128 → va ≠ s.b - 123 → t.wordAt va = s.wordAt va))

/-! ### System control, input and output -/

/-- MON: the number, sign extended, into T of level 14 whatever the level, and the source MC (`spec/49_system_control.md`
R481). -/
def Obligations.MonitorCall : Prop :=
  ∀ (s : State) (n : BitVec 8),
    ∃ t, exec (.mon n) s = .next t ∧ t = { s with regs := t.regs, iid := t.iid } ∧
      (t.reg 14).t = BitVec.ofInt 16 n.toInt ∧ t.iid = setBit s.iid 1 true ∧ t.p = s.p + 1 ∧
      ∀ (l : BitVec 4) (r : RField), (l, r) ≠ (14, .t) → (l, r) ≠ (s.pil, .p) → (t.reg l).get r = (s.reg l).get r

/-- WAIT where it may run: with the interrupt system off the machine stops and MOPC begins a line, on level 0 nothing happens,
else the level's own request is dropped. ION, IOF, PON, POF, PION, PIOF, SEX and REX: each sets its bits of the status word
and nothing else, paging and the extended mode only with the memory management module. OPCOM: MOPC is active, and begins a
line where it was not (`spec/49_system_control.md` R482 to R491; `spec/62_operator.md` R804). That PON, PION and SEX without
the module leave paging and mode alone is the spec's own decision D35 of R485 and R489 (log 16); that the prompt is due at
these entries is log 19. -/
def Obligations.StatusControl : Prop :=
  (∀ (s : State) (n : BitVec 8),
     s.mayRunPrivileged = true →
     ∃ t, exec (.wait n) s = .next t ∧ RegistersBecome s t [] [] (s.p + 1) ∧
       (s.ioni = false →
         t = { s with
           regs := t.regs, runState := .stop, opcomActive := true
           mopc := { s.mopc with semi := .none, lineStart := true } }) ∧
       (s.ioni = true →
         t = { s with regs := t.regs, pid := t.pid } ∧
         ∀ k, k < 16 → t.pid.getLsbD k = (s.pid.getLsbD k && !(decide (k = s.pil.toNat) && decide (s.pil ≠ 0))))) ∧
  (∀ (s : State) (i : Instr) (t : State),
     s.mayRunPrivileged = true →
     (i, t) ∈ [(Instr.ion, { s with ioni := true }), (.iof, { s with ioni := false }),
       (.pon, if s.cfg.hasMms then { s with poni := true } else s), (.pof, { s with poni := false }),
       (.pion, if s.cfg.hasMms then { s with poni := true, ioni := true } else { s with ioni := true }),
       (.piof, { s with poni := false, ioni := false }), (.sex, if s.cfg.hasMms then { s with sexi := true } else s),
       (.rex, { s with sexi := false }),
       (.opcom, { s with
         opcomActive := true
         mopc := { s.mopc with lineStart := if s.opcomActive then s.mopc.lineStart else true } })] →
     exec i s = .next (t.setP (s.p + 1)))
/-- IDENT: with no interrupting interface on the level IOX is raised and A stays. Else the nearest interrupting interface
answers, the clock before the others on level 13 and the console on levels 10 and 12, both with code 1: A receives its code,
its request on this level drops, and memory, the other registers and the other interfaces stay
(`spec/49_system_control.md` R492; `spec/61_io_devices.md` R740, R746, R750, R756). All this from the state `u` that the bus
cycles of other agents before the search leave; with none of them it is `s` (`spec/61_io_devices.md` R766; log 18). -/
def Obligations.IdentResult : Prop :=
  ∀ (s u : State) (i : Instr) (n : Nat),
    s.mayRunPrivileged = true → u = s.yieldBus →
    (i, n) ∈ [(Instr.identPl10, 10), (.identPl11, 11), (.identPl12, 12), (.identPl13, 13)] →
    (s.steals = [] → u = s) ∧
    (u.line n = false →
      ∃ t, exec i s = .next t ∧ t = { u with regs := t.regs, iid := t.iid } ∧ t.iid = setBit u.iid 7 true ∧
        RegistersBecome s t [] [] (s.p + 1)) ∧
    (∀ v, (n = 13 ∧ u.clock.ff = true ∧ v = { u with clock := { u.clock with ff := false } }) ∨
        (n = 10 ∧ u.console.outFf = true ∧ v = { u with console := { u.console with outFf := false } }) ∨
        (n = 12 ∧ u.console.inFf = true ∧ v = { u with console := { u.console with inFf := false } }) →
      ∃ t, exec i s = .next t ∧ t = { v with regs := t.regs } ∧ RegistersBecome s t [(.a, 1)] [] (s.p + 1)) ∧
    (∀ (before behind : List Device) (d : Device),
      ¬ (n = 13 ∧ u.clock.ff = true) → ¬ (n = 10 ∧ u.console.outFf = true) → ¬ (n = 12 ∧ u.console.inFf = true) →
      u.devices = before ++ d :: behind → (∀ e ∈ before, e.drives n = false) → d.drives n = true →
      ∃ t d', exec i s = .next t ∧ RegistersBecome s t [(.a, (identCodeOf n d).zeroExtend 16)] [] (s.p + 1) ∧
        t = { u with regs := t.regs, devices := before ++ d' :: behind } ∧ d'.drives n = false ∧
        ∀ k, k ≠ n → d'.drives k = d.drives k)
/-- IOX and IOXT: an even address reads into A, an odd one writes A, once, and memory is not touched; an address that no device
decodes raises IOX (`spec/49_system_control.md` R493 to R495). IOXT with T = 100115 octal writes bits 4-0 of A to ECCR and nothing
else, as TRR ECCR does (R494). What the clock and the console deliver and how a write changes
them, for each of their addresses (`spec/61_io_devices.md` R752 to R755, R757 to R759). That a clock or console whose enable is
set while it is ready interrupts is the spec's own decision D45, that reading a character clears the error bits its D46 (log
16); of a character written before the transmitter is ready it is open whether it replaces the old one (log 43). The transfer
is made in the state `u` that the bus cycles of other agents before it leave; with none of them it is `s`
(`spec/61_io_devices.md` R766; log 18). -/
def Obligations.InputOutputResult : Prop :=
  (∀ (s u : State) (i : Instr) (addr : Word),
     s.mayRunPrivileged = true → u = s.yieldBus →
     ((∃ a : BitVec 11, i = .iox a ∧ addr.toNat = a.toNat) ∨ (i = .ioxt ∧ addr = s.t)) →
     (s.steals = [] → u = s) ∧
     (addr.getLsbD 0 = false →
       ∃ t, exec i s = .next t ∧ RegistersBecome s t [(.a, (u.ioRead addr).1)] [] (s.p + 1) ∧ keepsMemory u t ∧
         t = { (u.ioRead addr).2 with regs := t.regs }) ∧
     (addr.getLsbD 0 = true →
       ∃ t, exec i s = .next t ∧ RegistersBecome s t [] [] (s.p + 1) ∧ keepsMemory u t ∧
         t = { u.ioWrite addr s.a with regs := t.regs }) ∧
     (isClock addr = false → isConsole addr = false → addr ≠ 0o100115 → (∀ d ∈ u.devices, d.decodes addr = false) →
       ∃ t, exec i s = .next t ∧ t.iid = setBit u.iid 7 true ∧ t.devices = u.devices ∧
         keepsRegisters s t (if addr.getLsbD 0 then [] else [.a]) [])) ∧
  (∀ s u : State,
     s.mayRunPrivileged = true → u = s.yieldBus → s.t = 0o100115 →
     exec .ioxt s = .next ({ u with eccr := BitVec.ofNat 5 s.a.toNat }.setP (s.p + 1))) ∧
  (∀ (s : State) (v : Word) (c : Clock) (ready : Bool),
     c = s.clock → ready = (c.ready && !v.getLsbD 13) →
     s.ioRead 0o10 = (0, s) ∧ s.ioWrite 0o11 v = { s with clock := { c with cleared := true } } ∧
     s.ioRead 0o12 = (BitVec.ofNat 16 (c.ie.toNat + 8 * c.ready.toNat), s) ∧
     s.ioWrite 0o13 v =
       { s with
         clock := { c with ie := v.getLsbD 0, ready := ready, ff := c.ff || !c.ie && v.getLsbD 0 && ready } }) ∧
  (∀ (s : State) (v : Word) (c : Console) (avail : Bool) (ch : Byte),
     c = s.console → avail = (c.avail && !s.opcomActive) → ch.toNat = v.toNat % 2 ^ (8 - c.len.toNat) →
     s.ioRead 0o300 =
       (BitVec.ofNat 16 c.data.toNat,
         { s with console := { c with avail := c.avail && s.opcomActive, fe := false, pe := false, ovr := false } }) ∧
     s.ioWrite 0o301 v = s ∧
     s.ioRead 0o302 =
       (BitVec.ofNat 16 (c.inIe.toNat + 8 * avail.toNat + 16 * (c.fe || c.pe || c.ovr).toNat + 32 * c.fe.toNat +
         64 * c.pe.toNat + 128 * c.ovr.toNat), s) ∧
     s.ioWrite 0o303 v =
       { s with
         console := { c with
           inIe := v.getLsbD 0, len := BitVec.ofNat 2 (v.toNat / 2048), oneStop := v.getLsbD 13, par := v.getLsbD 14
           inFf := c.inFf || !c.inIe && v.getLsbD 0 && avail } } ∧
     s.ioRead 0o304 = (0, s) ∧
     (c.outReady = true → s.ioWrite 0o305 v = { s with console := { c with sending := some ch, outReady := false } }) ∧
     (c.outReady = false →
       ∃ t, s.ioWrite 0o305 v = t ∧ t = { s with console := t.console, freeCount := t.freeCount } ∧
         (t.console = c ∨ t.console = { c with sending := some ch })) ∧
     s.ioRead 0o306 = (BitVec.ofNat 16 (c.outIe.toNat + 8 * c.outReady.toNat), s) ∧
     s.ioWrite 0o307 v =
       { s with
         console := { c with outIe := v.getLsbD 0, outFf := c.outFf || !c.outIe && v.getLsbD 0 && c.outReady } })

/-- LWCS where it may run: the control store takes the 1024 words from 36000 octal on, with the option; without it only P
changes. A customer code raises II without a loaded control store and is refused with one, and a CX instruction known by name
only is refused with the option and raises II without it (`spec/49_system_control.md` R520 to R522; `spec/53_ce_stack_misc.md`
R620). LWCS without the option is the spec's own decision D36 of R520 (log 16); that a loaded customer code is refused is the
model's choice (log 22). -/
def Obligations.ControlStoreAndStops : Prop :=
  (∀ s : State,
     s.mayRunPrivileged = true →
     (s.cfg.hasWcs = false → ∃ t, exec .lwcs s = .next t ∧ onlyRegisters s t ∧ RegistersBecome s t [] [] (s.p + 1)) ∧
     (s.cfg.hasWcs = true → s.Flat →
       ∃ t, exec .lwcs s = .next t ∧ t = { s with regs := t.regs, wcs := t.wcs, wcsLoaded := true } ∧
         RegistersBecome s t [] [] (s.p + 1) ∧ t.wcs.length = 1024 ∧
         ∀ k, k < 1024 → t.wcs[k]? = some (s.wordAt (BitVec.ofNat 16 (0o36000 + k))))) ∧
  (∀ (s : State) (i : Instr),
     (∀ name, nameOnlyMnemonic i = some name → s.cfg.hasCx = true → exec i s = .refused (.nameOnly name)) ∧
     ((∃ name, nameOnlyMnemonic i = some name) → s.cfg.hasCx = false →
       ∃ t, exec i s = .next t ∧ t.iid = setBit s.iid 4 true ∧ RegistersBecome s t [] [] (s.p + 1) ∧
         t = { s with regs := t.regs, iid := t.iid }) ∧
     (∀ entry, customerEntry i = some entry → s.cfg.hasWcs = true → s.wcsLoaded = true →
       exec i s = .refused (.customerMicroprogram entry)) ∧
     (∀ entry, customerEntry i = some entry → s.cfg.hasWcs = false ∨ s.wcsLoaded = false →
       ∃ t, exec i s = .next t ∧ t.iid = setBit s.iid 4 true ∧ RegistersBecome s t [] [] (s.p + 1) ∧
         t = { s with regs := t.regs, iid := t.iid }))

/-! ### Internal registers -/

/-- TRA where it may run: the word that each internal register delivers, and the locks that reading IIC, PSR and PEA opens
(`spec/50_internal_register_instr.md` R532). ALD: the word of each position of the thumbwheel (`spec/70_reset_and_hazards.md`
R866), but for the positions 9, 8, 1 and 0, of which the model has none (log 35). PANS: bit 15, room in the FIFO, read, command
ready, the command code and the byte (`spec/10_state.md` R58), the value of bit 11 open (log 25). CSR: with a cache, whether it
is enabled and whether the fetch behind TRA would write into it (`spec/10_state.md` R60; `spec/70_reset_and_hazards.md` R881).
The spec's own decisions are the decoded level of ACTL (D8), the layout of PGC (D5), spare codes that read 0 (D9), CSR without a
cache (D20) and PID with the device lines (D7) (`spec/10_state.md` R46, R62, R66, R71; log 16); CSR without the module of the
cache is log 45. -/
def Obligations.InternalRegisterRead : Prop :=
  (∀ (s t : State) (n : BitVec 4) (v : Word),
     s.mayRunPrivileged = true →
     (n, v, t) ∈ [((1 : BitVec 4), s.statusWord, s), (2, s.opr, s),
       (3, if s.cfg.hasMms then s.psr else 0, if s.cfg.hasMms then { s with psrLock := false } else s),
       (4, BitVec.ofNat 16 (0o153602 + 8 * s.pvl.toNat), s),
       (5, BitVec.ofNat 16 s.iic.toNat, { s with iic := 0, iicLock := false }), (6, s.pid ||| s.lines, s),
       (7, s.pie, s), (9, BitVec.ofNat 16 (2 ^ s.pil.toNat), s), (11, s.pes, s),
       (12, if s.cfg.hasMms then
           BitVec.ofNat 16 ((s.pcrOf (s.a.extractLsb' 3 4)).pt.toNat * 512 +
             (s.pcrOf (s.a.extractLsb' 3 4)).apt.toNat * 128 + (s.pcrOf (s.a.extractLsb' 3 4)).ring.toNat)
         else 0, s),
       (13, s.pea, { s with pesLock := false }), (14, 0, s), (15, 0, s)] →
     exec (.tra n) s = .next ((t.setA v).setP (s.p + 1)) ∧
     s.statusWord.toNat =
       s.ioni.toNat * 32768 + s.poni.toNat * 16384 + s.sexi.toNat * 8192 + 4096 + s.pil.toNat * 256 + s.sts.toNat) ∧
  (∀ (s : State) (w : Word),
     s.mayRunPrivileged = true →
     (s.cfg.ald, w) ∈ [(AldSwitch.p15, (0o000000 : Word)), (.p14, 0o001560), (.p13, 0o020500), (.p12, 0o021540),
       (.p11, 0o000400), (.p10, 0o001600), (.p7, 0o100000), (.p6, 0o101560), (.p5, 0o120500), (.p4, 0o121540),
       (.p3, 0o100400), (.p2, 0o101600)] →
     exec (.tra 10) s = .next ((s.setA w).setP (s.p + 1))) ∧
  (∀ s : State,
     s.mayRunPrivileged = true →
     (s.panelPresent = false → exec (.tra 0) s = .next ((s.setA 0).setP (s.p + 1))) ∧
     (s.panelPresent = true →
       ∃ (u : State) (v : Word) (b : Bool), exec (.tra 0) s = .next u ∧ RegistersBecome s u [(.a, v)] [] (s.p + 1) ∧
         u = { s with regs := u.regs, freeCount := u.freeCount, panel := { s.panel with comRdy := false } } ∧
         v.toNat =
           32768 + (if s.panel.fifo.length < s.cfg.panelFifoDepth then 16384 else 0) + s.panel.read.toNat * 8192 +
             s.panel.comRdy.toNat * 4096 + b.toNat * 2048 + s.panel.pcom.toNat * 256 + s.panel.rpan.toNat)) ∧
  (∀ (s : State) (update : Bool),
     s.mayRunPrivileged = true →
     ((s.cfg.hasMms && s.cfg.hasCache) = false → exec (.tra 8) s = .next ((s.setA 4).setP (s.p + 1))) ∧
     ((s.cfg.hasMms && s.cfg.hasCache) = true → cacheSorted s.cache = true →
       (update = true ↔
         s.cacheClearing = false ∧ s.shadowReached (s.p + 1) = false ∧
           ∃ pa u, s.translate .fetch .prel (s.p + 1) = .done pa u ∧
             ¬ (s.lcil.toNat ≤ pa.toNat / 1024 ∧ pa.toNat / 1024 ≤ s.ucil.toNat) ∧
             ∀ e ∈ s.cache, e.index.toNat = pa.toNat % 1024 → e.cpn.toNat ≠ pa.toNat / 1024) →
       exec (.tra 8) s =
         .next ((s.setA (BitVec.ofNat 16 (update.toNat + 2 * (!s.cacheClearing).toNat))).setP (s.p + 1))))

/-- TRR, MCL and MST where they may run: what each writes, and that the codes without a register write nothing; TRR PCR writes
the paging control register of the level that A names, in the layout that TRA PGC shows it in, and no other; TRR PANC into the
full FIFO is refused (`spec/50_internal_register_instr.md` R533 to R535; `spec/10_state.md` R66; `spec/61_io_devices.md` R770).
ECCR is written by a bus cycle, before which other agents may get theirs (`spec/10_state.md` R70; log 18). That spare codes,
and MCL and MST of other registers, write nothing is the spec's own decision D9 of R71, the layout of PGC its D5 of R66 (log
16); the depth of the FIFO is a parameter, and its refusal the model's (log 24). -/
def Obligations.InternalRegisterWrite : Prop :=
  (∀ (s t : State) (i : Instr),
     s.mayRunPrivileged = true →
     ((i, t) ∈ [(Instr.trr 1, s.setSts (BitVec.ofNat 8 s.a.toNat)), (.trr 2, { s with lmp := s.a }), (.trr 4, s),
         (.trr 5, { s with iie := s.a &&& 0o3776 }), (.trr 6, { s with pid := s.a }), (.trr 7, { s with pie := s.a }),
         (.trr 8, { s with cache := [], cacheClearing := true }),
         (.trr 9, { s with lcil := BitVec.ofNat 14 s.a.toNat }), (.trr 10, { s with ucil := BitVec.ofNat 14 s.a.toNat }),
         (.trr 11, s), (.trr 12, s), (.trr 13, { s.yieldBus with eccr := BitVec.ofNat 5 s.a.toNat }), (.trr 14, s), (.trr 15, s),
         (.mcl 6, { s with pid := s.pid &&& ~~~ s.a }), (.mcl 7, { s with pie := s.pie &&& ~~~ s.a }),
         (.mst 6, { s with pid := s.pid ||| s.a }), (.mst 7, { s with pie := s.pie ||| s.a }),
         (.mcl 1, s.setSts (s.sts &&& ~~~ BitVec.ofNat 8 s.a.toNat)),
         (.mst 1, s.setSts (s.sts ||| BitVec.ofNat 8 s.a.toNat))] ∨
       (i = .trr 0 ∧ s.panelPresent = false ∧ t = s) ∨
       (i = .trr 0 ∧ s.panelPresent = true ∧ s.panel.fifo.length < s.cfg.panelFifoDepth ∧
         t = { s with panel := { s.panel with fifo := s.panel.fifo ++ [s.a] } }) ∨
       (∃ n : BitVec 4, n ∉ [(1 : BitVec 4), 6, 7] ∧ (i = .mcl n ∨ i = .mst n) ∧ t = s)) →
     exec i s = .next (t.setP (s.p + 1))) ∧
  (∀ s : State,
     s.mayRunPrivileged = true → s.panelPresent = true → s.cfg.panelFifoDepth ≤ s.panel.fifo.length →
     exec (.trr 0) s = .refused .panelFifoFull) ∧
  (∀ s : State,
     s.mayRunPrivileged = true →
     ∃ t, exec (.trr 3) s = .next t ∧ RegistersBecome s t [] [] (s.p + 1) ∧ t = { s with regs := t.regs, pcr := t.pcr } ∧
       (s.cfg.hasMms = false → t.pcr = s.pcr) ∧
       (s.cfg.hasMms = true →
         (t.pcrOf (s.a.extractLsb' 3 4)).word = s.a &&& 0o003603 ∧
         ∀ l, l ≠ s.a.extractLsb' 3 4 → t.pcrOf l = s.pcrOf l))

/-- IRR and IRW where they may run: one register of any level to and from A, the status register by its low byte; P of the
current level reads as the next address and takes no write (`spec/50_internal_register_instr.md` R536 to R538). -/
def Obligations.InterLevelRegisters : Prop :=
  ∀ (s : State) (level : BitVec 4) (r : RField),
    s.mayRunPrivileged = true →
    (∃ t, exec (.irr level r) s = .next t ∧ onlyRegisters s t ∧
      RegistersBecome s t [(.a, if r = .p ∧ level = s.pil then s.p + 1 else (s.reg level).get r)] [] (s.p + 1)) ∧
    (∃ t, exec (.irw level r) s = .next t ∧ onlyRegisters s t ∧ t.p = s.p + 1 ∧
      (¬ (r = .p ∧ level = s.pil) →
        (t.reg level).get r = if r = .zero then s.a &&& 0o377 else s.a) ∧
      ∀ (l : BitVec 4) (q : RField), (l, q) ≠ (level, r) → (l, q) ≠ (s.pil, .p) →
        (t.reg l).get q = (s.reg l).get q)

/-- SRB and LRB where they may run, in every state: the eight words from X on, in the order P, X, T, A, D, L, STS, B, are stored
or read in ascending order by accesses that are not P relative; the stored P of the current level is the next address, and its
P is not loaded. With physical addressing memory holds the words stored then, and every other word stays
(`spec/50_internal_register_instr.md` R539 to R541). That they are stored and read in ascending order is the spec's own decision
D19, in R540 and R541 (log 16). -/
def Obligations.RegisterBlocks : Prop :=
  (∀ (s s1 : State) (level : BitVec 4) (r : RegSet),
     s.mayRunPrivileged = true → r = s.reg level →
     storesInOrder .nonprel s s.x
       [if level = s.pil then s.p + 1 else r.p, r.x, r.t, r.a, r.d, r.l, BitVec.ofNat 16 r.sts.toNat, r.b] s1 →
     ∃ t, exec (.srb level) s = .next t ∧ onlyRegisters s1 t ∧ RegistersBecome s t [] [] (s.p + 1)) ∧
  (∀ (s s1 : State) (level : BitVec 4) (p x tt a d l sts b : Word),
     s.mayRunPrivileged = true → readsInOrder .nonprel s s.x [p, x, tt, a, d, l, sts, b] s1 →
     ∃ t, exec (.lrb level) s = .next t ∧ onlyRegisters s1 t ∧ (∀ k, k ≠ level → k ≠ s.pil → t.reg k = s.reg k) ∧
       (level ≠ s.pil → t.cur = { s.cur with p := s.p + 1 }) ∧
       t.reg level =
         { p := if level = s.pil then s.p + 1 else p, x := x, t := tt, a := a, d := d, l := l
           sts := BitVec.ofNat 8 sts.toNat, b := b }) ∧
  ∀ (s : State) (level : BitVec 4),
    s.mayRunPrivileged = true → s.Flat → s.ordinary s.x 8 →
    (∃ t, exec (.srb level) s = .next t ∧ t = { s with regs := t.regs, mem := t.mem } ∧
      RegistersBecome s t [] [] (s.p + 1) ∧
      t.wordAt s.x = (if level = s.pil then s.p + 1 else (s.reg level).p) ∧
      (∀ k r, (k, r) ∈ [(1, RField.x), (2, .t), (3, .a), (4, .d), (5, .l), (6, .zero), (7, .b)] →
        t.wordAt (s.x + BitVec.ofNat 16 k) = (s.reg level).get r) ∧
      ∀ va, (∀ k, k < 8 → va ≠ s.x + BitVec.ofNat 16 k) → t.wordAt va = s.wordAt va) ∧
    (∃ t, exec (.lrb level) s = .next t ∧ onlyRegisters s t ∧
      (∀ l, l ≠ level → l ≠ s.pil → t.reg l = s.reg l) ∧
      (level ≠ s.pil → RegistersBecome s { t with regs := t.regs.set level.toNat (s.reg level) level.isLt } [] []
        (s.p + 1)) ∧
      (t.reg level).p = (if level = s.pil then s.p + 1 else s.wordAt s.x) ∧
      (t.reg level).sts = BitVec.ofNat 8 (s.wordAt (s.x + 6)).toNat ∧
      ∀ k r, (k, r) ∈ [(1, RField.x), (2, .t), (3, .a), (4, .d), (5, .l), (7, .b)] →
        (t.reg level).get r = s.wordAt (s.x + BitVec.ofNat 16 k))

/-! ### Physical memory instructions -/

/-- EXAM, LDATX, LDXTX, LDDTX and LDBTX where they may run: EXAM reads the word at the 24 bits
of A and D into T, the others the word at the low byte of T above X plus the displacement, a carry out of X dropped; LDBTX
doubles it into an address of the extended shadow range; where the address lies in the range of the page tables the xxxTX
instructions read these. With the cache in use main memory is read through it as by any other access
(`spec/51_physical_memory.md` R561 to R563, R565 to R570; `spec/20_memory.md` R156, R161). This is the spec's own decision D37
of R561. That the range of the page tables lies in the lowest 64K only, and that EXAM always reads main memory, is its decision
D38 of R562 and R566 (log 16); how the word behind LDBTX is looked at is the model's choice (log 23). -/
def Obligations.PhysicalLoads : Prop :=
  (∀ (s : State) (pa : PhysAddr),
     s.mayRunPrivileged = true → pa.toNat = s.a.toNat % 256 * 65536 + s.d.toNat → s.goodWord pa →
     ∃ t, exec .exam s = .next t ∧ onlyRegisters s t ∧ RegistersBecome s t [(.t, s.mem.readWord pa)] [] (s.p + 1)) ∧
  (∀ (s : State) (delta : BitVec 3),
     s.mayRunPrivileged = true → s.physicallyReadable (txAddressOf s delta 0) →
     (∃ t, exec (.ldatx delta) s = .next t ∧ onlyRegisters s t ∧
       RegistersBecome s t [(.a, s.physicalWord (txAddressOf s delta 0))] [] (s.p + 1)) ∧
     (∃ t, exec (.ldxtx delta) s = .next t ∧ onlyRegisters s t ∧
       RegistersBecome s t [(.x, s.physicalWord (txAddressOf s delta 0))] [] (s.p + 1)) ∧
     (s.physicallyReadable (txAddressOf s delta 1) →
       ∃ t, exec (.lddtx delta) s = .next t ∧ onlyRegisters s t ∧
         RegistersBecome s t
           [(.a, s.physicalWord (txAddressOf s delta 0)), (.d, s.physicalWord (txAddressOf s delta 1))] []
           (s.p + 1)) ∧
     (s.cfg.earlyMicroprogram = false ∨ s.peek (s.p + 1) = 0o177777 →
       ∃ t, exec (.ldbtx delta) s = .next t ∧ onlyRegisters s t ∧
         RegistersBecome s t
           [(.b, BitVec.ofNat 16 (0o177000 ||| (s.physicalWord (txAddressOf s delta 0)).toNat * 2 % 65536))] []
           (s.p + 1))) ∧
  (∀ (s : State) (pa : PhysAddr) (delta : BitVec 3),
     s.mayRunPrivileged = true → s.steals = [] → s.cacheEnabled = true → cacheSorted s.cache = true →
     (pa.toNat = s.a.toNat % 256 * 65536 + s.d.toNat →
       ∃ v u t, readThroughCache s .examDepo pa v u ∧ exec .exam s = .next t ∧ onlyRegisters u t ∧
         RegistersBecome s t [(.t, v)] [] (s.p + 1)) ∧
     (pa = txAddressOf s delta 0 → s.txShadow pa = false →
       ∃ v u, readThroughCache s .data pa v u ∧
         (∃ t, exec (.ldatx delta) s = .next t ∧ onlyRegisters u t ∧ RegistersBecome s t [(.a, v)] [] (s.p + 1)) ∧
         (∃ t, exec (.ldxtx delta) s = .next t ∧ onlyRegisters u t ∧ RegistersBecome s t [(.x, v)] [] (s.p + 1)) ∧
         (s.cfg.earlyMicroprogram = false ∨ s.peek (s.p + 1) = 0o177777 →
           ∃ t, exec (.ldbtx delta) s = .next t ∧ onlyRegisters u t ∧
             RegistersBecome s t [(.b, BitVec.ofNat 16 (0o177000 ||| v.toNat * 2 % 65536))] [] (s.p + 1)) ∧
         (s.txShadow (txAddressOf s delta 1) = false →
           ∃ v' u' t, readThroughCache u .data (txAddressOf s delta 1) v' u' ∧ exec (.lddtx delta) s = .next t ∧
             onlyRegisters u' t ∧ RegistersBecome s t [(.a, v), (.d, v')] [] (s.p + 1))))

/-- DEPO, STATX, STZTX and STDTX where they may run and no other agent gets a bus cycle between their accesses: into main
memory at the address of EXAM and of the loads, or, but for DEPO, into the page tables where the address lies in their range,
whatever the mode of paging; STDTX each of its two words where its address lies; a single word written with the cache in use
leaves a copy there (D37 of R561; `spec/20_memory.md` R157; `spec/51_physical_memory.md` R562, R564 to R566, R571 to R573).
That the range of the page tables lies in the lowest 64K only, and that DEPO never reaches them, is the spec's own decision D38
of R562 and R566 (log 16). -/
def Obligations.PhysicalStores : Prop :=
  (∀ (s : State) (pa : PhysAddr),
     s.mayRunPrivileged = true → s.steals = [] → pa.toNat = s.a.toNat % 256 * 65536 + s.d.toNat →
     s.memPresent pa = true →
     ∃ t, exec .depo s = .next t ∧ RegistersBecome s t [] [] (s.p + 1) ∧
       t = { s with regs := t.regs, mem := t.mem, ecc := t.ecc, cache := t.cache, busMonitor := t.busMonitor } ∧
       t.mem.readWord pa = s.t ∧ (∀ a, a / 2 ≠ pa.toNat → t.mem.read a = s.mem.read a) ∧
       (s.cacheEnabled = true → cacheSorted s.cache = true → cachedAfter s t pa s.t) ∧
       (s.cacheEnabled = false → t.cache = s.cache)) ∧
  (∀ (s : State) (delta : BitVec 3),
     s.mayRunPrivileged = true → s.steals = [] →
     (∀ i v, (i, v) ∈ [(Instr.statx delta, s.a), (.stztx delta, 0)] →
       (s.txShadow (txAddressOf s delta 0) = false → s.memPresent (txAddressOf s delta 0) = true →
         ∃ t, exec i s = .next t ∧ RegistersBecome s t [] [] (s.p + 1) ∧
           t = { s with regs := t.regs, mem := t.mem, ecc := t.ecc, cache := t.cache, busMonitor := t.busMonitor } ∧
           t.mem.readWord (txAddressOf s delta 0) = v ∧
           (∀ a, a / 2 ≠ (txAddressOf s delta 0).toNat → t.mem.read a = s.mem.read a) ∧
           (s.cacheEnabled = true → cacheSorted s.cache = true → cachedAfter s t (txAddressOf s delta 0) v) ∧
           (s.cacheEnabled = false → t.cache = s.cache)) ∧
       (s.txShadow (txAddressOf s delta 0) = true →
         ∃ t, exec i s = .next t ∧ RegistersBecome s t [] [] (s.p + 1) ∧ keepsMemory s t ∧
           t = { s with regs := t.regs, prot := t.prot, map := t.map } ∧
           t.shadowRead ((txAddressOf s delta 0).setWidth 16) = v)) ∧
     ((∀ k, k < 2 → s.txShadow (txAddressOf s delta k) = true ∨ s.memPresent (txAddressOf s delta k) = true) →
       ∃ t, exec (.stdtx delta) s = .next t ∧ RegistersBecome s t [] [] (s.p + 1) ∧
         t = { s with
           regs := t.regs, mem := t.mem, ecc := t.ecc, cache := t.cache, prot := t.prot, map := t.map
           busMonitor := t.busMonitor } ∧
         (∀ k v, (k, v) ∈ [(0, s.a), (1, s.d)] →
           if s.txShadow (txAddressOf s delta k) then t.shadowRead ((txAddressOf s delta k).setWidth 16) = v
           else t.mem.readWord (txAddressOf s delta k) = v) ∧
         (∀ a, (∀ k, k < 2 → s.txShadow (txAddressOf s delta k) = false → a / 2 ≠ (txAddressOf s delta k).toNat) →
           t.mem.read a = s.mem.read a) ∧
         ((∀ k, k < 2 → s.txShadow (txAddressOf s delta k) = false) → t.prot = s.prot ∧ t.map = s.map)))

/-! ### The clock and the operator -/

/-- The exclamation mark typed to the stopped machine starts it with the test between instructions: at the typed number, or
where it stopped; level, status and memory stay (`spec/62_operator.md` R816, R817). That the start begins with the test between
instructions, `boundaryDone` being the model's, is log 5; that letters typed before it are ignored and forgotten, with the
digits behind them, which are no start address, is the model's choice (logs 19, 20). -/
def Obligations.OperatorStart : Prop :=
  ∀ s : State,
    s.events = [] → s.runState = .stop → s.opcomActive = true → s.console.avail = true →
    s.console.data &&& 0o177 = 0o41 → s.mopc.outq = [] → s.mopc.dump = none → s.mopc.lineStart = false →
    ∃ t, step s = .next t ∧ t.runState = .run ∧ t.opcomActive = false ∧ t.mopc.semi = .none ∧ t.boundaryDone = false ∧
      RegistersBecome s t [] [] (if s.mopc.haveNum then BitVec.ofNat 16 s.mopc.num.toNat else s.p) ∧
      t.ioni = s.ioni ∧ t.poni = s.poni ∧ t.sexi = s.sexi ∧ keepsMemory s t

end
end

