-- ==== Sys2Proof/Laws/Memory.lean ====
section
/-! SUPPORT. The laws of memory: every operation keeps the canonical form, a write is read back and leaves every other
address, and equal readings of canonical memories are equal memories. -/

namespace Sys2Proof.Machine

/-- The canonical form in the terms of `List.Pairwise`. -/
theorem canonicalCells_iff (l : List Host.Cell) :
    canonicalCells l = true ↔ l.Pairwise (fun c d => c.1 < d.1) ∧ ∀ c ∈ l, c.2 ≠ Memory.unlisted := by
  induction l with
  | nil => simp [canonicalCells]
  | cons c r ih =>
    cases r with
    | nil => simp [canonicalCells]
    | cons d r =>
      simp only [canonicalCells, Bool.and_eq_true, decide_eq_true_eq, bne_iff_ne, ih, List.pairwise_cons,
        List.mem_cons, forall_eq_or_imp]
      constructor
      · rintro ⟨⟨h1, h2⟩, ⟨h3, h4⟩, h5, h6⟩
        exact ⟨⟨⟨h1, fun e he => h1.trans (h3 e he)⟩, h3, h4⟩, h2, h5, h6⟩
      · rintro ⟨⟨⟨h1, _⟩, h3, h4⟩, h2, h5, h6⟩
        exact ⟨⟨h1, h2⟩, ⟨h3, h4⟩, h5, h6⟩

theorem removeCell_eq_filter (a : Nat) (l : List Host.Cell) : removeCell a l = l.filter fun c => c.1 ≠ a := by
  induction l with
  | nil => rfl
  | cons c r ih => by_cases h : c.1 = a <;> simp [removeCell, h, ih]

theorem mem_insertCell (a : Nat) (v : Byte) (l : List Host.Cell) (c : Host.Cell) :
    c ∈ insertCell a v l ↔ c = (a, v) ∨ c ∈ l := by
  induction l with
  | nil => simp [insertCell]
  | cons d r ih =>
    by_cases h : a < d.1
    · simp [insertCell, h]
    · simp only [insertCell, h, if_false, List.mem_cons, ih]; tauto

theorem insertCell_pairwise (a : Nat) (v : Byte) (l : List Host.Cell) (ha : ∀ c ∈ l, c.1 ≠ a)
    (h : l.Pairwise fun c d => c.1 < d.1) : (insertCell a v l).Pairwise fun c d => c.1 < d.1 := by
  induction l with
  | nil => simp [insertCell]
  | cons d r ih =>
    obtain ⟨h1, h2⟩ := List.pairwise_cons.1 h
    have hd := ha d (by simp)
    by_cases hlt : a < d.1
    · rw [insertCell, if_pos hlt]
      refine List.pairwise_cons.2 ⟨fun e he => ?_, h⟩
      rcases List.mem_cons.1 he with rfl | he
      · exact hlt
      · exact hlt.trans (h1 e he)
    · simp only [insertCell, hlt, if_false, List.pairwise_cons, mem_insertCell, forall_eq_or_imp]
      exact ⟨⟨by omega, h1⟩, ih (fun c hc => ha c (by simp [hc])) h2⟩

/-- A byte written keeps the canonical form. -/
theorem Memory.wf_write (m : Memory) (a : Nat) (v : Byte) (h : m.wf = true) : (m.write a v).wf = true := by
  obtain ⟨h1, h2⟩ := (canonicalCells_iff _).1 h
  have hf1 := h1.filter (fun c : Host.Cell => decide (c.1 ≠ a))
  unfold Memory.write Memory.wf
  rw [canonicalCells_iff]
  split
  · simp only [removeCell_eq_filter]
    exact ⟨hf1, fun c hc => h2 c (List.mem_filter.1 hc).1⟩
  · rename_i hv
    refine ⟨insertCell_pairwise _ _ _ ?_ (by rw [removeCell_eq_filter]; exact hf1), fun c hc => ?_⟩
    · simp [removeCell_eq_filter]
    · rcases (mem_insertCell _ _ _ _).1 hc with rfl | hc
      · exact hv
      · exact h2 c (List.mem_filter.1 (removeCell_eq_filter a m.cells ▸ hc)).1

/-- A word written keeps the canonical form. -/
theorem Memory.wf_writeWord (m : Memory) (pa : PhysAddr) (w : Word) (h : m.wf = true) : (m.writeWord pa w).wf = true :=
  Memory.wf_write _ _ _ (Memory.wf_write _ _ _ h)

theorem State.reset_mem_wf : State.reset.mem.wf = true := rfl
theorem State.reset_ecc_wf : State.reset.ecc.wf = true := rfl

theorem lookupCell_removeCell_self (a : Nat) (l : List Host.Cell) : lookupCell a (removeCell a l) = Memory.unlisted := by
  induction l with
  | nil => rfl
  | cons c r ih => by_cases h : c.1 = a <;> simp [removeCell, lookupCell, h, ih]

theorem lookupCell_removeCell_ne {a b : Nat} (h : b ≠ a) (l : List Host.Cell) :
    lookupCell b (removeCell a l) = lookupCell b l := by
  induction l with
  | nil => rfl
  | cons c r ih =>
    by_cases hc : c.1 = a
    · have : c.1 ≠ b := fun e => h (e.symm.trans hc)
      simp [removeCell, lookupCell, hc, ih, Ne.symm h]
    · by_cases hb : c.1 = b <;> simp [removeCell, lookupCell, hc, hb, ih, h]

theorem lookupCell_insertCell_self (a : Nat) (v : Byte) (l : List Host.Cell) (h : ∀ c ∈ l, c.1 ≠ a) :
    lookupCell a (insertCell a v l) = v := by
  induction l with
  | nil => simp [insertCell, lookupCell]
  | cons c r ih =>
    by_cases hlt : a < c.1
    · simp [insertCell, hlt, lookupCell]
    · simp [insertCell, hlt, lookupCell, h c (by simp), ih fun d hd => h d (by simp [hd])]

theorem lookupCell_insertCell_ne {a b : Nat} (hb : b ≠ a) (v : Byte) (l : List Host.Cell) :
    lookupCell b (insertCell a v l) = lookupCell b l := by
  induction l with
  | nil => simp [insertCell, lookupCell, Ne.symm hb]
  | cons c r ih =>
    by_cases hlt : a < c.1 <;> simp [insertCell, hlt, lookupCell, ih, Ne.symm hb]

/-- A byte written is read back. -/
@[simp] theorem Memory.read_write_self (m : Memory) (a : Nat) (v : Byte) : (m.write a v).read a = v := by
  unfold Memory.write Memory.read
  split
  · rename_i h; simp [lookupCell_removeCell_self, h]
  · exact lookupCell_insertCell_self _ _ _ (by simp [removeCell_eq_filter])

/-- A byte written leaves every other byte. -/
theorem Memory.read_write_ne (m : Memory) {a b : Nat} (v : Byte) (h : b ≠ a) : (m.write a v).read b = m.read b := by
  unfold Memory.write Memory.read
  split
  · exact lookupCell_removeCell_ne h _
  · exact (lookupCell_insertCell_ne h _ _).trans (lookupCell_removeCell_ne h _)

/-- A word written leaves every byte of the other words. -/
theorem Memory.read_writeWord_ne (m : Memory) (pa : PhysAddr) (w : Word) {a : Nat} (h : a / 2 ≠ pa.toNat) :
    (m.writeWord pa w).read a = m.read a := by
  unfold Memory.writeWord
  rw [Memory.read_write_ne _ _ (by omega), Memory.read_write_ne _ _ (by omega)]

/-- A word written is read back. -/
@[simp] theorem Memory.readWord_writeWord_self (m : Memory) (pa : PhysAddr) (w : Word) :
    (m.writeWord pa w).readWord pa = w := by
  unfold Memory.readWord Memory.writeWord
  rw [Memory.read_write_self, Memory.read_write_ne _ _ (by omega), Memory.read_write_self]
  ext i hi
  simp only [BitVec.getElem_append, BitVec.getElem_extractLsb']
  split <;> simp_all [BitVec.getElem_eq_testBit_toNat]

/-- A word written leaves every other word. -/
theorem Memory.readWord_writeWord_ne (m : Memory) {pa pb : PhysAddr} (w : Word) (h : pb ≠ pa) :
    (m.writeWord pa w).readWord pb = m.readWord pb := by
  have : pb.toNat ≠ pa.toNat := fun e => h (BitVec.eq_of_toNat_eq e)
  unfold Memory.readWord
  rw [Memory.read_writeWord_ne _ _ _ (by omega), Memory.read_writeWord_ne _ _ _ (by omega)]

end Sys2Proof.Machine
end

