-- ==== Sys2Proof/Laws/State.lean ====
section
/-! SUPPORT. What each named update of the state leaves as it was, one lemma a field. -/

namespace Sys2Proof.Machine

@[simp] theorem State.setReg_cfg (s : State) (l : BitVec 4) (r : RegSet) : (s.setReg l r).cfg = s.cfg := rfl
@[simp] theorem State.setReg_pil (s : State) (l : BitVec 4) (r : RegSet) : (s.setReg l r).pil = s.pil := rfl
@[simp] theorem State.setReg_pvl (s : State) (l : BitVec 4) (r : RegSet) : (s.setReg l r).pvl = s.pvl := rfl
@[simp] theorem State.setReg_ioni (s : State) (l : BitVec 4) (r : RegSet) : (s.setReg l r).ioni = s.ioni := rfl
@[simp] theorem State.setReg_poni (s : State) (l : BitVec 4) (r : RegSet) : (s.setReg l r).poni = s.poni := rfl
@[simp] theorem State.setReg_sexi (s : State) (l : BitVec 4) (r : RegSet) : (s.setReg l r).sexi = s.sexi := rfl
@[simp] theorem State.setReg_pie (s : State) (l : BitVec 4) (r : RegSet) : (s.setReg l r).pie = s.pie := rfl
@[simp] theorem State.setReg_pid (s : State) (l : BitVec 4) (r : RegSet) : (s.setReg l r).pid = s.pid := rfl
@[simp] theorem State.setReg_iie (s : State) (l : BitVec 4) (r : RegSet) : (s.setReg l r).iie = s.iie := rfl
@[simp] theorem State.setReg_iid (s : State) (l : BitVec 4) (r : RegSet) : (s.setReg l r).iid = s.iid := rfl
@[simp] theorem State.setReg_iic (s : State) (l : BitVec 4) (r : RegSet) : (s.setReg l r).iic = s.iic := rfl
@[simp] theorem State.setReg_iicLock (s : State) (l : BitVec 4) (r : RegSet) : (s.setReg l r).iicLock = s.iicLock := rfl
@[simp] theorem State.setReg_opr (s : State) (l : BitVec 4) (r : RegSet) : (s.setReg l r).opr = s.opr := rfl
@[simp] theorem State.setReg_lmp (s : State) (l : BitVec 4) (r : RegSet) : (s.setReg l r).lmp = s.lmp := rfl
@[simp] theorem State.setReg_pcr (s : State) (l : BitVec 4) (r : RegSet) : (s.setReg l r).pcr = s.pcr := rfl
@[simp] theorem State.setReg_psr (s : State) (l : BitVec 4) (r : RegSet) : (s.setReg l r).psr = s.psr := rfl
@[simp] theorem State.setReg_psrLock (s : State) (l : BitVec 4) (r : RegSet) : (s.setReg l r).psrLock = s.psrLock := rfl
@[simp] theorem State.setReg_pes (s : State) (l : BitVec 4) (r : RegSet) : (s.setReg l r).pes = s.pes := rfl
@[simp] theorem State.setReg_pea (s : State) (l : BitVec 4) (r : RegSet) : (s.setReg l r).pea = s.pea := rfl
@[simp] theorem State.setReg_pesLock (s : State) (l : BitVec 4) (r : RegSet) : (s.setReg l r).pesLock = s.pesLock := rfl
@[simp] theorem State.setReg_eccr (s : State) (l : BitVec 4) (r : RegSet) : (s.setReg l r).eccr = s.eccr := rfl
@[simp] theorem State.setReg_prot (s : State) (l : BitVec 4) (r : RegSet) : (s.setReg l r).prot = s.prot := rfl
@[simp] theorem State.setReg_map (s : State) (l : BitVec 4) (r : RegSet) : (s.setReg l r).map = s.map := rfl
@[simp] theorem State.setReg_lcil (s : State) (l : BitVec 4) (r : RegSet) : (s.setReg l r).lcil = s.lcil := rfl
@[simp] theorem State.setReg_ucil (s : State) (l : BitVec 4) (r : RegSet) : (s.setReg l r).ucil = s.ucil := rfl
@[simp] theorem State.setReg_cache (s : State) (l : BitVec 4) (r : RegSet) : (s.setReg l r).cache = s.cache := rfl
@[simp] theorem State.setReg_cacheClearing (s : State) (l : BitVec 4) (r : RegSet) :
    (s.setReg l r).cacheClearing = s.cacheClearing := rfl
@[simp] theorem State.setReg_mem (s : State) (l : BitVec 4) (r : RegSet) : (s.setReg l r).mem = s.mem := rfl
@[simp] theorem State.setReg_ecc (s : State) (l : BitVec 4) (r : RegSet) : (s.setReg l r).ecc = s.ecc := rfl
@[simp] theorem State.setReg_wcs (s : State) (l : BitVec 4) (r : RegSet) : (s.setReg l r).wcs = s.wcs := rfl
@[simp] theorem State.setReg_wcsLoaded (s : State) (l : BitVec 4) (r : RegSet) :
    (s.setReg l r).wcsLoaded = s.wcsLoaded := rfl
@[simp] theorem State.setReg_runState (s : State) (l : BitVec 4) (r : RegSet) : (s.setReg l r).runState = s.runState := rfl
@[simp] theorem State.setReg_opcomActive (s : State) (l : BitVec 4) (r : RegSet) :
    (s.setReg l r).opcomActive = s.opcomActive := rfl
@[simp] theorem State.setReg_boundaryDone (s : State) (l : BitVec 4) (r : RegSet) :
    (s.setReg l r).boundaryDone = s.boundaryDone := rfl
@[simp] theorem State.setReg_clock (s : State) (l : BitVec 4) (r : RegSet) : (s.setReg l r).clock = s.clock := rfl
@[simp] theorem State.setReg_console (s : State) (l : BitVec 4) (r : RegSet) : (s.setReg l r).console = s.console := rfl
@[simp] theorem State.setReg_panel (s : State) (l : BitVec 4) (r : RegSet) : (s.setReg l r).panel = s.panel := rfl
@[simp] theorem State.setReg_devices (s : State) (l : BitVec 4) (r : RegSet) : (s.setReg l r).devices = s.devices := rfl
@[simp] theorem State.setReg_mopc (s : State) (l : BitVec 4) (r : RegSet) : (s.setReg l r).mopc = s.mopc := rfl
@[simp] theorem State.setReg_busMonitor (s : State) (l : BitVec 4) (r : RegSet) :
    (s.setReg l r).busMonitor = s.busMonitor := rfl
@[simp] theorem State.setReg_loader (s : State) (l : BitVec 4) (r : RegSet) : (s.setReg l r).loader = s.loader := rfl
@[simp] theorem State.setReg_panelKey (s : State) (l : BitVec 4) (r : RegSet) : (s.setReg l r).panelKey = s.panelKey := rfl
@[simp] theorem State.setReg_events (s : State) (l : BitVec 4) (r : RegSet) : (s.setReg l r).events = s.events := rfl
@[simp] theorem State.setReg_steals (s : State) (l : BitVec 4) (r : RegSet) : (s.setReg l r).steals = s.steals := rfl
@[simp] theorem State.setReg_watch (s : State) (l : BitVec 4) (r : RegSet) : (s.setReg l r).watch = s.watch := rfl
@[simp] theorem State.setReg_freeCount (s : State) (l : BitVec 4) (r : RegSet) :
    (s.setReg l r).freeCount = s.freeCount := rfl

@[simp] theorem State.setCur_cfg (s : State) (r : RegSet) : (s.setCur r).cfg = s.cfg := rfl
@[simp] theorem State.setCur_pil (s : State) (r : RegSet) : (s.setCur r).pil = s.pil := rfl
@[simp] theorem State.setCur_pvl (s : State) (r : RegSet) : (s.setCur r).pvl = s.pvl := rfl
@[simp] theorem State.setCur_ioni (s : State) (r : RegSet) : (s.setCur r).ioni = s.ioni := rfl
@[simp] theorem State.setCur_poni (s : State) (r : RegSet) : (s.setCur r).poni = s.poni := rfl
@[simp] theorem State.setCur_sexi (s : State) (r : RegSet) : (s.setCur r).sexi = s.sexi := rfl
@[simp] theorem State.setCur_pie (s : State) (r : RegSet) : (s.setCur r).pie = s.pie := rfl
@[simp] theorem State.setCur_pid (s : State) (r : RegSet) : (s.setCur r).pid = s.pid := rfl
@[simp] theorem State.setCur_iie (s : State) (r : RegSet) : (s.setCur r).iie = s.iie := rfl
@[simp] theorem State.setCur_iid (s : State) (r : RegSet) : (s.setCur r).iid = s.iid := rfl
@[simp] theorem State.setCur_iic (s : State) (r : RegSet) : (s.setCur r).iic = s.iic := rfl
@[simp] theorem State.setCur_iicLock (s : State) (r : RegSet) : (s.setCur r).iicLock = s.iicLock := rfl
@[simp] theorem State.setCur_opr (s : State) (r : RegSet) : (s.setCur r).opr = s.opr := rfl
@[simp] theorem State.setCur_lmp (s : State) (r : RegSet) : (s.setCur r).lmp = s.lmp := rfl
@[simp] theorem State.setCur_pcr (s : State) (r : RegSet) : (s.setCur r).pcr = s.pcr := rfl
@[simp] theorem State.setCur_psr (s : State) (r : RegSet) : (s.setCur r).psr = s.psr := rfl
@[simp] theorem State.setCur_psrLock (s : State) (r : RegSet) : (s.setCur r).psrLock = s.psrLock := rfl
@[simp] theorem State.setCur_pes (s : State) (r : RegSet) : (s.setCur r).pes = s.pes := rfl
@[simp] theorem State.setCur_pea (s : State) (r : RegSet) : (s.setCur r).pea = s.pea := rfl
@[simp] theorem State.setCur_pesLock (s : State) (r : RegSet) : (s.setCur r).pesLock = s.pesLock := rfl
@[simp] theorem State.setCur_eccr (s : State) (r : RegSet) : (s.setCur r).eccr = s.eccr := rfl
@[simp] theorem State.setCur_prot (s : State) (r : RegSet) : (s.setCur r).prot = s.prot := rfl
@[simp] theorem State.setCur_map (s : State) (r : RegSet) : (s.setCur r).map = s.map := rfl
@[simp] theorem State.setCur_lcil (s : State) (r : RegSet) : (s.setCur r).lcil = s.lcil := rfl
@[simp] theorem State.setCur_ucil (s : State) (r : RegSet) : (s.setCur r).ucil = s.ucil := rfl
@[simp] theorem State.setCur_cache (s : State) (r : RegSet) : (s.setCur r).cache = s.cache := rfl
@[simp] theorem State.setCur_cacheClearing (s : State) (r : RegSet) : (s.setCur r).cacheClearing = s.cacheClearing := rfl
@[simp] theorem State.setCur_mem (s : State) (r : RegSet) : (s.setCur r).mem = s.mem := rfl
@[simp] theorem State.setCur_ecc (s : State) (r : RegSet) : (s.setCur r).ecc = s.ecc := rfl
@[simp] theorem State.setCur_wcs (s : State) (r : RegSet) : (s.setCur r).wcs = s.wcs := rfl
@[simp] theorem State.setCur_wcsLoaded (s : State) (r : RegSet) : (s.setCur r).wcsLoaded = s.wcsLoaded := rfl
@[simp] theorem State.setCur_runState (s : State) (r : RegSet) : (s.setCur r).runState = s.runState := rfl
@[simp] theorem State.setCur_opcomActive (s : State) (r : RegSet) : (s.setCur r).opcomActive = s.opcomActive := rfl
@[simp] theorem State.setCur_boundaryDone (s : State) (r : RegSet) : (s.setCur r).boundaryDone = s.boundaryDone := rfl
@[simp] theorem State.setCur_clock (s : State) (r : RegSet) : (s.setCur r).clock = s.clock := rfl
@[simp] theorem State.setCur_console (s : State) (r : RegSet) : (s.setCur r).console = s.console := rfl
@[simp] theorem State.setCur_panel (s : State) (r : RegSet) : (s.setCur r).panel = s.panel := rfl
@[simp] theorem State.setCur_devices (s : State) (r : RegSet) : (s.setCur r).devices = s.devices := rfl
@[simp] theorem State.setCur_mopc (s : State) (r : RegSet) : (s.setCur r).mopc = s.mopc := rfl
@[simp] theorem State.setCur_busMonitor (s : State) (r : RegSet) : (s.setCur r).busMonitor = s.busMonitor := rfl
@[simp] theorem State.setCur_loader (s : State) (r : RegSet) : (s.setCur r).loader = s.loader := rfl
@[simp] theorem State.setCur_panelKey (s : State) (r : RegSet) : (s.setCur r).panelKey = s.panelKey := rfl
@[simp] theorem State.setCur_events (s : State) (r : RegSet) : (s.setCur r).events = s.events := rfl
@[simp] theorem State.setCur_steals (s : State) (r : RegSet) : (s.setCur r).steals = s.steals := rfl
@[simp] theorem State.setCur_watch (s : State) (r : RegSet) : (s.setCur r).watch = s.watch := rfl
@[simp] theorem State.setCur_freeCount (s : State) (r : RegSet) : (s.setCur r).freeCount = s.freeCount := rfl

@[simp] theorem State.setSts_cfg (s : State) (v : BitVec 8) : (s.setSts v).cfg = s.cfg := rfl
@[simp] theorem State.setSts_pil (s : State) (v : BitVec 8) : (s.setSts v).pil = s.pil := rfl
@[simp] theorem State.setSts_pvl (s : State) (v : BitVec 8) : (s.setSts v).pvl = s.pvl := rfl
@[simp] theorem State.setSts_ioni (s : State) (v : BitVec 8) : (s.setSts v).ioni = s.ioni := rfl
@[simp] theorem State.setSts_poni (s : State) (v : BitVec 8) : (s.setSts v).poni = s.poni := rfl
@[simp] theorem State.setSts_sexi (s : State) (v : BitVec 8) : (s.setSts v).sexi = s.sexi := rfl
@[simp] theorem State.setSts_pie (s : State) (v : BitVec 8) : (s.setSts v).pie = s.pie := rfl
@[simp] theorem State.setSts_pid (s : State) (v : BitVec 8) : (s.setSts v).pid = s.pid := rfl
@[simp] theorem State.setSts_iie (s : State) (v : BitVec 8) : (s.setSts v).iie = s.iie := rfl
@[simp] theorem State.setSts_iid (s : State) (v : BitVec 8) : (s.setSts v).iid = s.iid := rfl
@[simp] theorem State.setSts_iic (s : State) (v : BitVec 8) : (s.setSts v).iic = s.iic := rfl
@[simp] theorem State.setSts_iicLock (s : State) (v : BitVec 8) : (s.setSts v).iicLock = s.iicLock := rfl
@[simp] theorem State.setSts_opr (s : State) (v : BitVec 8) : (s.setSts v).opr = s.opr := rfl
@[simp] theorem State.setSts_lmp (s : State) (v : BitVec 8) : (s.setSts v).lmp = s.lmp := rfl
@[simp] theorem State.setSts_pcr (s : State) (v : BitVec 8) : (s.setSts v).pcr = s.pcr := rfl
@[simp] theorem State.setSts_psr (s : State) (v : BitVec 8) : (s.setSts v).psr = s.psr := rfl
@[simp] theorem State.setSts_psrLock (s : State) (v : BitVec 8) : (s.setSts v).psrLock = s.psrLock := rfl
@[simp] theorem State.setSts_pes (s : State) (v : BitVec 8) : (s.setSts v).pes = s.pes := rfl
@[simp] theorem State.setSts_pea (s : State) (v : BitVec 8) : (s.setSts v).pea = s.pea := rfl
@[simp] theorem State.setSts_pesLock (s : State) (v : BitVec 8) : (s.setSts v).pesLock = s.pesLock := rfl
@[simp] theorem State.setSts_eccr (s : State) (v : BitVec 8) : (s.setSts v).eccr = s.eccr := rfl
@[simp] theorem State.setSts_prot (s : State) (v : BitVec 8) : (s.setSts v).prot = s.prot := rfl
@[simp] theorem State.setSts_map (s : State) (v : BitVec 8) : (s.setSts v).map = s.map := rfl
@[simp] theorem State.setSts_lcil (s : State) (v : BitVec 8) : (s.setSts v).lcil = s.lcil := rfl
@[simp] theorem State.setSts_ucil (s : State) (v : BitVec 8) : (s.setSts v).ucil = s.ucil := rfl
@[simp] theorem State.setSts_cache (s : State) (v : BitVec 8) : (s.setSts v).cache = s.cache := rfl
@[simp] theorem State.setSts_cacheClearing (s : State) (v : BitVec 8) : (s.setSts v).cacheClearing = s.cacheClearing := rfl
@[simp] theorem State.setSts_mem (s : State) (v : BitVec 8) : (s.setSts v).mem = s.mem := rfl
@[simp] theorem State.setSts_ecc (s : State) (v : BitVec 8) : (s.setSts v).ecc = s.ecc := rfl
@[simp] theorem State.setSts_wcs (s : State) (v : BitVec 8) : (s.setSts v).wcs = s.wcs := rfl
@[simp] theorem State.setSts_wcsLoaded (s : State) (v : BitVec 8) : (s.setSts v).wcsLoaded = s.wcsLoaded := rfl
@[simp] theorem State.setSts_runState (s : State) (v : BitVec 8) : (s.setSts v).runState = s.runState := rfl
@[simp] theorem State.setSts_opcomActive (s : State) (v : BitVec 8) : (s.setSts v).opcomActive = s.opcomActive := rfl
@[simp] theorem State.setSts_boundaryDone (s : State) (v : BitVec 8) : (s.setSts v).boundaryDone = s.boundaryDone := rfl
@[simp] theorem State.setSts_clock (s : State) (v : BitVec 8) : (s.setSts v).clock = s.clock := rfl
@[simp] theorem State.setSts_console (s : State) (v : BitVec 8) : (s.setSts v).console = s.console := rfl
@[simp] theorem State.setSts_panel (s : State) (v : BitVec 8) : (s.setSts v).panel = s.panel := rfl
@[simp] theorem State.setSts_devices (s : State) (v : BitVec 8) : (s.setSts v).devices = s.devices := rfl
@[simp] theorem State.setSts_mopc (s : State) (v : BitVec 8) : (s.setSts v).mopc = s.mopc := rfl
@[simp] theorem State.setSts_busMonitor (s : State) (v : BitVec 8) : (s.setSts v).busMonitor = s.busMonitor := rfl
@[simp] theorem State.setSts_loader (s : State) (v : BitVec 8) : (s.setSts v).loader = s.loader := rfl
@[simp] theorem State.setSts_panelKey (s : State) (v : BitVec 8) : (s.setSts v).panelKey = s.panelKey := rfl
@[simp] theorem State.setSts_events (s : State) (v : BitVec 8) : (s.setSts v).events = s.events := rfl
@[simp] theorem State.setSts_steals (s : State) (v : BitVec 8) : (s.setSts v).steals = s.steals := rfl
@[simp] theorem State.setSts_watch (s : State) (v : BitVec 8) : (s.setSts v).watch = s.watch := rfl
@[simp] theorem State.setSts_freeCount (s : State) (v : BitVec 8) : (s.setSts v).freeCount = s.freeCount := rfl

@[simp] theorem State.setD_cfg (s : State) (v : Word) : (s.setD v).cfg = s.cfg := rfl
@[simp] theorem State.setD_pil (s : State) (v : Word) : (s.setD v).pil = s.pil := rfl
@[simp] theorem State.setD_pvl (s : State) (v : Word) : (s.setD v).pvl = s.pvl := rfl
@[simp] theorem State.setD_ioni (s : State) (v : Word) : (s.setD v).ioni = s.ioni := rfl
@[simp] theorem State.setD_poni (s : State) (v : Word) : (s.setD v).poni = s.poni := rfl
@[simp] theorem State.setD_sexi (s : State) (v : Word) : (s.setD v).sexi = s.sexi := rfl
@[simp] theorem State.setD_pie (s : State) (v : Word) : (s.setD v).pie = s.pie := rfl
@[simp] theorem State.setD_pid (s : State) (v : Word) : (s.setD v).pid = s.pid := rfl
@[simp] theorem State.setD_iie (s : State) (v : Word) : (s.setD v).iie = s.iie := rfl
@[simp] theorem State.setD_iid (s : State) (v : Word) : (s.setD v).iid = s.iid := rfl
@[simp] theorem State.setD_iic (s : State) (v : Word) : (s.setD v).iic = s.iic := rfl
@[simp] theorem State.setD_iicLock (s : State) (v : Word) : (s.setD v).iicLock = s.iicLock := rfl
@[simp] theorem State.setD_opr (s : State) (v : Word) : (s.setD v).opr = s.opr := rfl
@[simp] theorem State.setD_lmp (s : State) (v : Word) : (s.setD v).lmp = s.lmp := rfl
@[simp] theorem State.setD_pcr (s : State) (v : Word) : (s.setD v).pcr = s.pcr := rfl
@[simp] theorem State.setD_psr (s : State) (v : Word) : (s.setD v).psr = s.psr := rfl
@[simp] theorem State.setD_psrLock (s : State) (v : Word) : (s.setD v).psrLock = s.psrLock := rfl
@[simp] theorem State.setD_pes (s : State) (v : Word) : (s.setD v).pes = s.pes := rfl
@[simp] theorem State.setD_pea (s : State) (v : Word) : (s.setD v).pea = s.pea := rfl
@[simp] theorem State.setD_pesLock (s : State) (v : Word) : (s.setD v).pesLock = s.pesLock := rfl
@[simp] theorem State.setD_eccr (s : State) (v : Word) : (s.setD v).eccr = s.eccr := rfl
@[simp] theorem State.setD_prot (s : State) (v : Word) : (s.setD v).prot = s.prot := rfl
@[simp] theorem State.setD_map (s : State) (v : Word) : (s.setD v).map = s.map := rfl
@[simp] theorem State.setD_lcil (s : State) (v : Word) : (s.setD v).lcil = s.lcil := rfl
@[simp] theorem State.setD_ucil (s : State) (v : Word) : (s.setD v).ucil = s.ucil := rfl
@[simp] theorem State.setD_cache (s : State) (v : Word) : (s.setD v).cache = s.cache := rfl
@[simp] theorem State.setD_cacheClearing (s : State) (v : Word) : (s.setD v).cacheClearing = s.cacheClearing := rfl
@[simp] theorem State.setD_mem (s : State) (v : Word) : (s.setD v).mem = s.mem := rfl
@[simp] theorem State.setD_ecc (s : State) (v : Word) : (s.setD v).ecc = s.ecc := rfl
@[simp] theorem State.setD_wcs (s : State) (v : Word) : (s.setD v).wcs = s.wcs := rfl
@[simp] theorem State.setD_wcsLoaded (s : State) (v : Word) : (s.setD v).wcsLoaded = s.wcsLoaded := rfl
@[simp] theorem State.setD_runState (s : State) (v : Word) : (s.setD v).runState = s.runState := rfl
@[simp] theorem State.setD_opcomActive (s : State) (v : Word) : (s.setD v).opcomActive = s.opcomActive := rfl
@[simp] theorem State.setD_boundaryDone (s : State) (v : Word) : (s.setD v).boundaryDone = s.boundaryDone := rfl
@[simp] theorem State.setD_clock (s : State) (v : Word) : (s.setD v).clock = s.clock := rfl
@[simp] theorem State.setD_console (s : State) (v : Word) : (s.setD v).console = s.console := rfl
@[simp] theorem State.setD_panel (s : State) (v : Word) : (s.setD v).panel = s.panel := rfl
@[simp] theorem State.setD_devices (s : State) (v : Word) : (s.setD v).devices = s.devices := rfl
@[simp] theorem State.setD_mopc (s : State) (v : Word) : (s.setD v).mopc = s.mopc := rfl
@[simp] theorem State.setD_busMonitor (s : State) (v : Word) : (s.setD v).busMonitor = s.busMonitor := rfl
@[simp] theorem State.setD_loader (s : State) (v : Word) : (s.setD v).loader = s.loader := rfl
@[simp] theorem State.setD_panelKey (s : State) (v : Word) : (s.setD v).panelKey = s.panelKey := rfl
@[simp] theorem State.setD_events (s : State) (v : Word) : (s.setD v).events = s.events := rfl
@[simp] theorem State.setD_steals (s : State) (v : Word) : (s.setD v).steals = s.steals := rfl
@[simp] theorem State.setD_watch (s : State) (v : Word) : (s.setD v).watch = s.watch := rfl
@[simp] theorem State.setD_freeCount (s : State) (v : Word) : (s.setD v).freeCount = s.freeCount := rfl

@[simp] theorem State.setP_cfg (s : State) (v : Word) : (s.setP v).cfg = s.cfg := rfl
@[simp] theorem State.setP_pil (s : State) (v : Word) : (s.setP v).pil = s.pil := rfl
@[simp] theorem State.setP_pvl (s : State) (v : Word) : (s.setP v).pvl = s.pvl := rfl
@[simp] theorem State.setP_ioni (s : State) (v : Word) : (s.setP v).ioni = s.ioni := rfl
@[simp] theorem State.setP_poni (s : State) (v : Word) : (s.setP v).poni = s.poni := rfl
@[simp] theorem State.setP_sexi (s : State) (v : Word) : (s.setP v).sexi = s.sexi := rfl
@[simp] theorem State.setP_pie (s : State) (v : Word) : (s.setP v).pie = s.pie := rfl
@[simp] theorem State.setP_pid (s : State) (v : Word) : (s.setP v).pid = s.pid := rfl
@[simp] theorem State.setP_iie (s : State) (v : Word) : (s.setP v).iie = s.iie := rfl
@[simp] theorem State.setP_iid (s : State) (v : Word) : (s.setP v).iid = s.iid := rfl
@[simp] theorem State.setP_iic (s : State) (v : Word) : (s.setP v).iic = s.iic := rfl
@[simp] theorem State.setP_iicLock (s : State) (v : Word) : (s.setP v).iicLock = s.iicLock := rfl
@[simp] theorem State.setP_opr (s : State) (v : Word) : (s.setP v).opr = s.opr := rfl
@[simp] theorem State.setP_lmp (s : State) (v : Word) : (s.setP v).lmp = s.lmp := rfl
@[simp] theorem State.setP_pcr (s : State) (v : Word) : (s.setP v).pcr = s.pcr := rfl
@[simp] theorem State.setP_psr (s : State) (v : Word) : (s.setP v).psr = s.psr := rfl
@[simp] theorem State.setP_psrLock (s : State) (v : Word) : (s.setP v).psrLock = s.psrLock := rfl
@[simp] theorem State.setP_pes (s : State) (v : Word) : (s.setP v).pes = s.pes := rfl
@[simp] theorem State.setP_pea (s : State) (v : Word) : (s.setP v).pea = s.pea := rfl
@[simp] theorem State.setP_pesLock (s : State) (v : Word) : (s.setP v).pesLock = s.pesLock := rfl
@[simp] theorem State.setP_eccr (s : State) (v : Word) : (s.setP v).eccr = s.eccr := rfl
@[simp] theorem State.setP_prot (s : State) (v : Word) : (s.setP v).prot = s.prot := rfl
@[simp] theorem State.setP_map (s : State) (v : Word) : (s.setP v).map = s.map := rfl
@[simp] theorem State.setP_lcil (s : State) (v : Word) : (s.setP v).lcil = s.lcil := rfl
@[simp] theorem State.setP_ucil (s : State) (v : Word) : (s.setP v).ucil = s.ucil := rfl
@[simp] theorem State.setP_cache (s : State) (v : Word) : (s.setP v).cache = s.cache := rfl
@[simp] theorem State.setP_cacheClearing (s : State) (v : Word) : (s.setP v).cacheClearing = s.cacheClearing := rfl
@[simp] theorem State.setP_mem (s : State) (v : Word) : (s.setP v).mem = s.mem := rfl
@[simp] theorem State.setP_ecc (s : State) (v : Word) : (s.setP v).ecc = s.ecc := rfl
@[simp] theorem State.setP_wcs (s : State) (v : Word) : (s.setP v).wcs = s.wcs := rfl
@[simp] theorem State.setP_wcsLoaded (s : State) (v : Word) : (s.setP v).wcsLoaded = s.wcsLoaded := rfl
@[simp] theorem State.setP_runState (s : State) (v : Word) : (s.setP v).runState = s.runState := rfl
@[simp] theorem State.setP_opcomActive (s : State) (v : Word) : (s.setP v).opcomActive = s.opcomActive := rfl
@[simp] theorem State.setP_boundaryDone (s : State) (v : Word) : (s.setP v).boundaryDone = s.boundaryDone := rfl
@[simp] theorem State.setP_clock (s : State) (v : Word) : (s.setP v).clock = s.clock := rfl
@[simp] theorem State.setP_console (s : State) (v : Word) : (s.setP v).console = s.console := rfl
@[simp] theorem State.setP_panel (s : State) (v : Word) : (s.setP v).panel = s.panel := rfl
@[simp] theorem State.setP_devices (s : State) (v : Word) : (s.setP v).devices = s.devices := rfl
@[simp] theorem State.setP_mopc (s : State) (v : Word) : (s.setP v).mopc = s.mopc := rfl
@[simp] theorem State.setP_busMonitor (s : State) (v : Word) : (s.setP v).busMonitor = s.busMonitor := rfl
@[simp] theorem State.setP_loader (s : State) (v : Word) : (s.setP v).loader = s.loader := rfl
@[simp] theorem State.setP_panelKey (s : State) (v : Word) : (s.setP v).panelKey = s.panelKey := rfl
@[simp] theorem State.setP_events (s : State) (v : Word) : (s.setP v).events = s.events := rfl
@[simp] theorem State.setP_steals (s : State) (v : Word) : (s.setP v).steals = s.steals := rfl
@[simp] theorem State.setP_watch (s : State) (v : Word) : (s.setP v).watch = s.watch := rfl
@[simp] theorem State.setP_freeCount (s : State) (v : Word) : (s.setP v).freeCount = s.freeCount := rfl

@[simp] theorem State.setB_cfg (s : State) (v : Word) : (s.setB v).cfg = s.cfg := rfl
@[simp] theorem State.setB_pil (s : State) (v : Word) : (s.setB v).pil = s.pil := rfl
@[simp] theorem State.setB_pvl (s : State) (v : Word) : (s.setB v).pvl = s.pvl := rfl
@[simp] theorem State.setB_ioni (s : State) (v : Word) : (s.setB v).ioni = s.ioni := rfl
@[simp] theorem State.setB_poni (s : State) (v : Word) : (s.setB v).poni = s.poni := rfl
@[simp] theorem State.setB_sexi (s : State) (v : Word) : (s.setB v).sexi = s.sexi := rfl
@[simp] theorem State.setB_pie (s : State) (v : Word) : (s.setB v).pie = s.pie := rfl
@[simp] theorem State.setB_pid (s : State) (v : Word) : (s.setB v).pid = s.pid := rfl
@[simp] theorem State.setB_iie (s : State) (v : Word) : (s.setB v).iie = s.iie := rfl
@[simp] theorem State.setB_iid (s : State) (v : Word) : (s.setB v).iid = s.iid := rfl
@[simp] theorem State.setB_iic (s : State) (v : Word) : (s.setB v).iic = s.iic := rfl
@[simp] theorem State.setB_iicLock (s : State) (v : Word) : (s.setB v).iicLock = s.iicLock := rfl
@[simp] theorem State.setB_opr (s : State) (v : Word) : (s.setB v).opr = s.opr := rfl
@[simp] theorem State.setB_lmp (s : State) (v : Word) : (s.setB v).lmp = s.lmp := rfl
@[simp] theorem State.setB_pcr (s : State) (v : Word) : (s.setB v).pcr = s.pcr := rfl
@[simp] theorem State.setB_psr (s : State) (v : Word) : (s.setB v).psr = s.psr := rfl
@[simp] theorem State.setB_psrLock (s : State) (v : Word) : (s.setB v).psrLock = s.psrLock := rfl
@[simp] theorem State.setB_pes (s : State) (v : Word) : (s.setB v).pes = s.pes := rfl
@[simp] theorem State.setB_pea (s : State) (v : Word) : (s.setB v).pea = s.pea := rfl
@[simp] theorem State.setB_pesLock (s : State) (v : Word) : (s.setB v).pesLock = s.pesLock := rfl
@[simp] theorem State.setB_eccr (s : State) (v : Word) : (s.setB v).eccr = s.eccr := rfl
@[simp] theorem State.setB_prot (s : State) (v : Word) : (s.setB v).prot = s.prot := rfl
@[simp] theorem State.setB_map (s : State) (v : Word) : (s.setB v).map = s.map := rfl
@[simp] theorem State.setB_lcil (s : State) (v : Word) : (s.setB v).lcil = s.lcil := rfl
@[simp] theorem State.setB_ucil (s : State) (v : Word) : (s.setB v).ucil = s.ucil := rfl
@[simp] theorem State.setB_cache (s : State) (v : Word) : (s.setB v).cache = s.cache := rfl
@[simp] theorem State.setB_cacheClearing (s : State) (v : Word) : (s.setB v).cacheClearing = s.cacheClearing := rfl
@[simp] theorem State.setB_mem (s : State) (v : Word) : (s.setB v).mem = s.mem := rfl
@[simp] theorem State.setB_ecc (s : State) (v : Word) : (s.setB v).ecc = s.ecc := rfl
@[simp] theorem State.setB_wcs (s : State) (v : Word) : (s.setB v).wcs = s.wcs := rfl
@[simp] theorem State.setB_wcsLoaded (s : State) (v : Word) : (s.setB v).wcsLoaded = s.wcsLoaded := rfl
@[simp] theorem State.setB_runState (s : State) (v : Word) : (s.setB v).runState = s.runState := rfl
@[simp] theorem State.setB_opcomActive (s : State) (v : Word) : (s.setB v).opcomActive = s.opcomActive := rfl
@[simp] theorem State.setB_boundaryDone (s : State) (v : Word) : (s.setB v).boundaryDone = s.boundaryDone := rfl
@[simp] theorem State.setB_clock (s : State) (v : Word) : (s.setB v).clock = s.clock := rfl
@[simp] theorem State.setB_console (s : State) (v : Word) : (s.setB v).console = s.console := rfl
@[simp] theorem State.setB_panel (s : State) (v : Word) : (s.setB v).panel = s.panel := rfl
@[simp] theorem State.setB_devices (s : State) (v : Word) : (s.setB v).devices = s.devices := rfl
@[simp] theorem State.setB_mopc (s : State) (v : Word) : (s.setB v).mopc = s.mopc := rfl
@[simp] theorem State.setB_busMonitor (s : State) (v : Word) : (s.setB v).busMonitor = s.busMonitor := rfl
@[simp] theorem State.setB_loader (s : State) (v : Word) : (s.setB v).loader = s.loader := rfl
@[simp] theorem State.setB_panelKey (s : State) (v : Word) : (s.setB v).panelKey = s.panelKey := rfl
@[simp] theorem State.setB_events (s : State) (v : Word) : (s.setB v).events = s.events := rfl
@[simp] theorem State.setB_steals (s : State) (v : Word) : (s.setB v).steals = s.steals := rfl
@[simp] theorem State.setB_watch (s : State) (v : Word) : (s.setB v).watch = s.watch := rfl
@[simp] theorem State.setB_freeCount (s : State) (v : Word) : (s.setB v).freeCount = s.freeCount := rfl

@[simp] theorem State.setL_cfg (s : State) (v : Word) : (s.setL v).cfg = s.cfg := rfl
@[simp] theorem State.setL_pil (s : State) (v : Word) : (s.setL v).pil = s.pil := rfl
@[simp] theorem State.setL_pvl (s : State) (v : Word) : (s.setL v).pvl = s.pvl := rfl
@[simp] theorem State.setL_ioni (s : State) (v : Word) : (s.setL v).ioni = s.ioni := rfl
@[simp] theorem State.setL_poni (s : State) (v : Word) : (s.setL v).poni = s.poni := rfl
@[simp] theorem State.setL_sexi (s : State) (v : Word) : (s.setL v).sexi = s.sexi := rfl
@[simp] theorem State.setL_pie (s : State) (v : Word) : (s.setL v).pie = s.pie := rfl
@[simp] theorem State.setL_pid (s : State) (v : Word) : (s.setL v).pid = s.pid := rfl
@[simp] theorem State.setL_iie (s : State) (v : Word) : (s.setL v).iie = s.iie := rfl
@[simp] theorem State.setL_iid (s : State) (v : Word) : (s.setL v).iid = s.iid := rfl
@[simp] theorem State.setL_iic (s : State) (v : Word) : (s.setL v).iic = s.iic := rfl
@[simp] theorem State.setL_iicLock (s : State) (v : Word) : (s.setL v).iicLock = s.iicLock := rfl
@[simp] theorem State.setL_opr (s : State) (v : Word) : (s.setL v).opr = s.opr := rfl
@[simp] theorem State.setL_lmp (s : State) (v : Word) : (s.setL v).lmp = s.lmp := rfl
@[simp] theorem State.setL_pcr (s : State) (v : Word) : (s.setL v).pcr = s.pcr := rfl
@[simp] theorem State.setL_psr (s : State) (v : Word) : (s.setL v).psr = s.psr := rfl
@[simp] theorem State.setL_psrLock (s : State) (v : Word) : (s.setL v).psrLock = s.psrLock := rfl
@[simp] theorem State.setL_pes (s : State) (v : Word) : (s.setL v).pes = s.pes := rfl
@[simp] theorem State.setL_pea (s : State) (v : Word) : (s.setL v).pea = s.pea := rfl
@[simp] theorem State.setL_pesLock (s : State) (v : Word) : (s.setL v).pesLock = s.pesLock := rfl
@[simp] theorem State.setL_eccr (s : State) (v : Word) : (s.setL v).eccr = s.eccr := rfl
@[simp] theorem State.setL_prot (s : State) (v : Word) : (s.setL v).prot = s.prot := rfl
@[simp] theorem State.setL_map (s : State) (v : Word) : (s.setL v).map = s.map := rfl
@[simp] theorem State.setL_lcil (s : State) (v : Word) : (s.setL v).lcil = s.lcil := rfl
@[simp] theorem State.setL_ucil (s : State) (v : Word) : (s.setL v).ucil = s.ucil := rfl
@[simp] theorem State.setL_cache (s : State) (v : Word) : (s.setL v).cache = s.cache := rfl
@[simp] theorem State.setL_cacheClearing (s : State) (v : Word) : (s.setL v).cacheClearing = s.cacheClearing := rfl
@[simp] theorem State.setL_mem (s : State) (v : Word) : (s.setL v).mem = s.mem := rfl
@[simp] theorem State.setL_ecc (s : State) (v : Word) : (s.setL v).ecc = s.ecc := rfl
@[simp] theorem State.setL_wcs (s : State) (v : Word) : (s.setL v).wcs = s.wcs := rfl
@[simp] theorem State.setL_wcsLoaded (s : State) (v : Word) : (s.setL v).wcsLoaded = s.wcsLoaded := rfl
@[simp] theorem State.setL_runState (s : State) (v : Word) : (s.setL v).runState = s.runState := rfl
@[simp] theorem State.setL_opcomActive (s : State) (v : Word) : (s.setL v).opcomActive = s.opcomActive := rfl
@[simp] theorem State.setL_boundaryDone (s : State) (v : Word) : (s.setL v).boundaryDone = s.boundaryDone := rfl
@[simp] theorem State.setL_clock (s : State) (v : Word) : (s.setL v).clock = s.clock := rfl
@[simp] theorem State.setL_console (s : State) (v : Word) : (s.setL v).console = s.console := rfl
@[simp] theorem State.setL_panel (s : State) (v : Word) : (s.setL v).panel = s.panel := rfl
@[simp] theorem State.setL_devices (s : State) (v : Word) : (s.setL v).devices = s.devices := rfl
@[simp] theorem State.setL_mopc (s : State) (v : Word) : (s.setL v).mopc = s.mopc := rfl
@[simp] theorem State.setL_busMonitor (s : State) (v : Word) : (s.setL v).busMonitor = s.busMonitor := rfl
@[simp] theorem State.setL_loader (s : State) (v : Word) : (s.setL v).loader = s.loader := rfl
@[simp] theorem State.setL_panelKey (s : State) (v : Word) : (s.setL v).panelKey = s.panelKey := rfl
@[simp] theorem State.setL_events (s : State) (v : Word) : (s.setL v).events = s.events := rfl
@[simp] theorem State.setL_steals (s : State) (v : Word) : (s.setL v).steals = s.steals := rfl
@[simp] theorem State.setL_watch (s : State) (v : Word) : (s.setL v).watch = s.watch := rfl
@[simp] theorem State.setL_freeCount (s : State) (v : Word) : (s.setL v).freeCount = s.freeCount := rfl

@[simp] theorem State.setA_cfg (s : State) (v : Word) : (s.setA v).cfg = s.cfg := rfl
@[simp] theorem State.setA_pil (s : State) (v : Word) : (s.setA v).pil = s.pil := rfl
@[simp] theorem State.setA_pvl (s : State) (v : Word) : (s.setA v).pvl = s.pvl := rfl
@[simp] theorem State.setA_ioni (s : State) (v : Word) : (s.setA v).ioni = s.ioni := rfl
@[simp] theorem State.setA_poni (s : State) (v : Word) : (s.setA v).poni = s.poni := rfl
@[simp] theorem State.setA_sexi (s : State) (v : Word) : (s.setA v).sexi = s.sexi := rfl
@[simp] theorem State.setA_pie (s : State) (v : Word) : (s.setA v).pie = s.pie := rfl
@[simp] theorem State.setA_pid (s : State) (v : Word) : (s.setA v).pid = s.pid := rfl
@[simp] theorem State.setA_iie (s : State) (v : Word) : (s.setA v).iie = s.iie := rfl
@[simp] theorem State.setA_iid (s : State) (v : Word) : (s.setA v).iid = s.iid := rfl
@[simp] theorem State.setA_iic (s : State) (v : Word) : (s.setA v).iic = s.iic := rfl
@[simp] theorem State.setA_iicLock (s : State) (v : Word) : (s.setA v).iicLock = s.iicLock := rfl
@[simp] theorem State.setA_opr (s : State) (v : Word) : (s.setA v).opr = s.opr := rfl
@[simp] theorem State.setA_lmp (s : State) (v : Word) : (s.setA v).lmp = s.lmp := rfl
@[simp] theorem State.setA_pcr (s : State) (v : Word) : (s.setA v).pcr = s.pcr := rfl
@[simp] theorem State.setA_psr (s : State) (v : Word) : (s.setA v).psr = s.psr := rfl
@[simp] theorem State.setA_psrLock (s : State) (v : Word) : (s.setA v).psrLock = s.psrLock := rfl
@[simp] theorem State.setA_pes (s : State) (v : Word) : (s.setA v).pes = s.pes := rfl
@[simp] theorem State.setA_pea (s : State) (v : Word) : (s.setA v).pea = s.pea := rfl
@[simp] theorem State.setA_pesLock (s : State) (v : Word) : (s.setA v).pesLock = s.pesLock := rfl
@[simp] theorem State.setA_eccr (s : State) (v : Word) : (s.setA v).eccr = s.eccr := rfl
@[simp] theorem State.setA_prot (s : State) (v : Word) : (s.setA v).prot = s.prot := rfl
@[simp] theorem State.setA_map (s : State) (v : Word) : (s.setA v).map = s.map := rfl
@[simp] theorem State.setA_lcil (s : State) (v : Word) : (s.setA v).lcil = s.lcil := rfl
@[simp] theorem State.setA_ucil (s : State) (v : Word) : (s.setA v).ucil = s.ucil := rfl
@[simp] theorem State.setA_cache (s : State) (v : Word) : (s.setA v).cache = s.cache := rfl
@[simp] theorem State.setA_cacheClearing (s : State) (v : Word) : (s.setA v).cacheClearing = s.cacheClearing := rfl
@[simp] theorem State.setA_mem (s : State) (v : Word) : (s.setA v).mem = s.mem := rfl
@[simp] theorem State.setA_ecc (s : State) (v : Word) : (s.setA v).ecc = s.ecc := rfl
@[simp] theorem State.setA_wcs (s : State) (v : Word) : (s.setA v).wcs = s.wcs := rfl
@[simp] theorem State.setA_wcsLoaded (s : State) (v : Word) : (s.setA v).wcsLoaded = s.wcsLoaded := rfl
@[simp] theorem State.setA_runState (s : State) (v : Word) : (s.setA v).runState = s.runState := rfl
@[simp] theorem State.setA_opcomActive (s : State) (v : Word) : (s.setA v).opcomActive = s.opcomActive := rfl
@[simp] theorem State.setA_boundaryDone (s : State) (v : Word) : (s.setA v).boundaryDone = s.boundaryDone := rfl
@[simp] theorem State.setA_clock (s : State) (v : Word) : (s.setA v).clock = s.clock := rfl
@[simp] theorem State.setA_console (s : State) (v : Word) : (s.setA v).console = s.console := rfl
@[simp] theorem State.setA_panel (s : State) (v : Word) : (s.setA v).panel = s.panel := rfl
@[simp] theorem State.setA_devices (s : State) (v : Word) : (s.setA v).devices = s.devices := rfl
@[simp] theorem State.setA_mopc (s : State) (v : Word) : (s.setA v).mopc = s.mopc := rfl
@[simp] theorem State.setA_busMonitor (s : State) (v : Word) : (s.setA v).busMonitor = s.busMonitor := rfl
@[simp] theorem State.setA_loader (s : State) (v : Word) : (s.setA v).loader = s.loader := rfl
@[simp] theorem State.setA_panelKey (s : State) (v : Word) : (s.setA v).panelKey = s.panelKey := rfl
@[simp] theorem State.setA_events (s : State) (v : Word) : (s.setA v).events = s.events := rfl
@[simp] theorem State.setA_steals (s : State) (v : Word) : (s.setA v).steals = s.steals := rfl
@[simp] theorem State.setA_watch (s : State) (v : Word) : (s.setA v).watch = s.watch := rfl
@[simp] theorem State.setA_freeCount (s : State) (v : Word) : (s.setA v).freeCount = s.freeCount := rfl

@[simp] theorem State.setT_cfg (s : State) (v : Word) : (s.setT v).cfg = s.cfg := rfl
@[simp] theorem State.setT_pil (s : State) (v : Word) : (s.setT v).pil = s.pil := rfl
@[simp] theorem State.setT_pvl (s : State) (v : Word) : (s.setT v).pvl = s.pvl := rfl
@[simp] theorem State.setT_ioni (s : State) (v : Word) : (s.setT v).ioni = s.ioni := rfl
@[simp] theorem State.setT_poni (s : State) (v : Word) : (s.setT v).poni = s.poni := rfl
@[simp] theorem State.setT_sexi (s : State) (v : Word) : (s.setT v).sexi = s.sexi := rfl
@[simp] theorem State.setT_pie (s : State) (v : Word) : (s.setT v).pie = s.pie := rfl
@[simp] theorem State.setT_pid (s : State) (v : Word) : (s.setT v).pid = s.pid := rfl
@[simp] theorem State.setT_iie (s : State) (v : Word) : (s.setT v).iie = s.iie := rfl
@[simp] theorem State.setT_iid (s : State) (v : Word) : (s.setT v).iid = s.iid := rfl
@[simp] theorem State.setT_iic (s : State) (v : Word) : (s.setT v).iic = s.iic := rfl
@[simp] theorem State.setT_iicLock (s : State) (v : Word) : (s.setT v).iicLock = s.iicLock := rfl
@[simp] theorem State.setT_opr (s : State) (v : Word) : (s.setT v).opr = s.opr := rfl
@[simp] theorem State.setT_lmp (s : State) (v : Word) : (s.setT v).lmp = s.lmp := rfl
@[simp] theorem State.setT_pcr (s : State) (v : Word) : (s.setT v).pcr = s.pcr := rfl
@[simp] theorem State.setT_psr (s : State) (v : Word) : (s.setT v).psr = s.psr := rfl
@[simp] theorem State.setT_psrLock (s : State) (v : Word) : (s.setT v).psrLock = s.psrLock := rfl
@[simp] theorem State.setT_pes (s : State) (v : Word) : (s.setT v).pes = s.pes := rfl
@[simp] theorem State.setT_pea (s : State) (v : Word) : (s.setT v).pea = s.pea := rfl
@[simp] theorem State.setT_pesLock (s : State) (v : Word) : (s.setT v).pesLock = s.pesLock := rfl
@[simp] theorem State.setT_eccr (s : State) (v : Word) : (s.setT v).eccr = s.eccr := rfl
@[simp] theorem State.setT_prot (s : State) (v : Word) : (s.setT v).prot = s.prot := rfl
@[simp] theorem State.setT_map (s : State) (v : Word) : (s.setT v).map = s.map := rfl
@[simp] theorem State.setT_lcil (s : State) (v : Word) : (s.setT v).lcil = s.lcil := rfl
@[simp] theorem State.setT_ucil (s : State) (v : Word) : (s.setT v).ucil = s.ucil := rfl
@[simp] theorem State.setT_cache (s : State) (v : Word) : (s.setT v).cache = s.cache := rfl
@[simp] theorem State.setT_cacheClearing (s : State) (v : Word) : (s.setT v).cacheClearing = s.cacheClearing := rfl
@[simp] theorem State.setT_mem (s : State) (v : Word) : (s.setT v).mem = s.mem := rfl
@[simp] theorem State.setT_ecc (s : State) (v : Word) : (s.setT v).ecc = s.ecc := rfl
@[simp] theorem State.setT_wcs (s : State) (v : Word) : (s.setT v).wcs = s.wcs := rfl
@[simp] theorem State.setT_wcsLoaded (s : State) (v : Word) : (s.setT v).wcsLoaded = s.wcsLoaded := rfl
@[simp] theorem State.setT_runState (s : State) (v : Word) : (s.setT v).runState = s.runState := rfl
@[simp] theorem State.setT_opcomActive (s : State) (v : Word) : (s.setT v).opcomActive = s.opcomActive := rfl
@[simp] theorem State.setT_boundaryDone (s : State) (v : Word) : (s.setT v).boundaryDone = s.boundaryDone := rfl
@[simp] theorem State.setT_clock (s : State) (v : Word) : (s.setT v).clock = s.clock := rfl
@[simp] theorem State.setT_console (s : State) (v : Word) : (s.setT v).console = s.console := rfl
@[simp] theorem State.setT_panel (s : State) (v : Word) : (s.setT v).panel = s.panel := rfl
@[simp] theorem State.setT_devices (s : State) (v : Word) : (s.setT v).devices = s.devices := rfl
@[simp] theorem State.setT_mopc (s : State) (v : Word) : (s.setT v).mopc = s.mopc := rfl
@[simp] theorem State.setT_busMonitor (s : State) (v : Word) : (s.setT v).busMonitor = s.busMonitor := rfl
@[simp] theorem State.setT_loader (s : State) (v : Word) : (s.setT v).loader = s.loader := rfl
@[simp] theorem State.setT_panelKey (s : State) (v : Word) : (s.setT v).panelKey = s.panelKey := rfl
@[simp] theorem State.setT_events (s : State) (v : Word) : (s.setT v).events = s.events := rfl
@[simp] theorem State.setT_steals (s : State) (v : Word) : (s.setT v).steals = s.steals := rfl
@[simp] theorem State.setT_watch (s : State) (v : Word) : (s.setT v).watch = s.watch := rfl
@[simp] theorem State.setT_freeCount (s : State) (v : Word) : (s.setT v).freeCount = s.freeCount := rfl

@[simp] theorem State.setX_cfg (s : State) (v : Word) : (s.setX v).cfg = s.cfg := rfl
@[simp] theorem State.setX_pil (s : State) (v : Word) : (s.setX v).pil = s.pil := rfl
@[simp] theorem State.setX_pvl (s : State) (v : Word) : (s.setX v).pvl = s.pvl := rfl
@[simp] theorem State.setX_ioni (s : State) (v : Word) : (s.setX v).ioni = s.ioni := rfl
@[simp] theorem State.setX_poni (s : State) (v : Word) : (s.setX v).poni = s.poni := rfl
@[simp] theorem State.setX_sexi (s : State) (v : Word) : (s.setX v).sexi = s.sexi := rfl
@[simp] theorem State.setX_pie (s : State) (v : Word) : (s.setX v).pie = s.pie := rfl
@[simp] theorem State.setX_pid (s : State) (v : Word) : (s.setX v).pid = s.pid := rfl
@[simp] theorem State.setX_iie (s : State) (v : Word) : (s.setX v).iie = s.iie := rfl
@[simp] theorem State.setX_iid (s : State) (v : Word) : (s.setX v).iid = s.iid := rfl
@[simp] theorem State.setX_iic (s : State) (v : Word) : (s.setX v).iic = s.iic := rfl
@[simp] theorem State.setX_iicLock (s : State) (v : Word) : (s.setX v).iicLock = s.iicLock := rfl
@[simp] theorem State.setX_opr (s : State) (v : Word) : (s.setX v).opr = s.opr := rfl
@[simp] theorem State.setX_lmp (s : State) (v : Word) : (s.setX v).lmp = s.lmp := rfl
@[simp] theorem State.setX_pcr (s : State) (v : Word) : (s.setX v).pcr = s.pcr := rfl
@[simp] theorem State.setX_psr (s : State) (v : Word) : (s.setX v).psr = s.psr := rfl
@[simp] theorem State.setX_psrLock (s : State) (v : Word) : (s.setX v).psrLock = s.psrLock := rfl
@[simp] theorem State.setX_pes (s : State) (v : Word) : (s.setX v).pes = s.pes := rfl
@[simp] theorem State.setX_pea (s : State) (v : Word) : (s.setX v).pea = s.pea := rfl
@[simp] theorem State.setX_pesLock (s : State) (v : Word) : (s.setX v).pesLock = s.pesLock := rfl
@[simp] theorem State.setX_eccr (s : State) (v : Word) : (s.setX v).eccr = s.eccr := rfl
@[simp] theorem State.setX_prot (s : State) (v : Word) : (s.setX v).prot = s.prot := rfl
@[simp] theorem State.setX_map (s : State) (v : Word) : (s.setX v).map = s.map := rfl
@[simp] theorem State.setX_lcil (s : State) (v : Word) : (s.setX v).lcil = s.lcil := rfl
@[simp] theorem State.setX_ucil (s : State) (v : Word) : (s.setX v).ucil = s.ucil := rfl
@[simp] theorem State.setX_cache (s : State) (v : Word) : (s.setX v).cache = s.cache := rfl
@[simp] theorem State.setX_cacheClearing (s : State) (v : Word) : (s.setX v).cacheClearing = s.cacheClearing := rfl
@[simp] theorem State.setX_mem (s : State) (v : Word) : (s.setX v).mem = s.mem := rfl
@[simp] theorem State.setX_ecc (s : State) (v : Word) : (s.setX v).ecc = s.ecc := rfl
@[simp] theorem State.setX_wcs (s : State) (v : Word) : (s.setX v).wcs = s.wcs := rfl
@[simp] theorem State.setX_wcsLoaded (s : State) (v : Word) : (s.setX v).wcsLoaded = s.wcsLoaded := rfl
@[simp] theorem State.setX_runState (s : State) (v : Word) : (s.setX v).runState = s.runState := rfl
@[simp] theorem State.setX_opcomActive (s : State) (v : Word) : (s.setX v).opcomActive = s.opcomActive := rfl
@[simp] theorem State.setX_boundaryDone (s : State) (v : Word) : (s.setX v).boundaryDone = s.boundaryDone := rfl
@[simp] theorem State.setX_clock (s : State) (v : Word) : (s.setX v).clock = s.clock := rfl
@[simp] theorem State.setX_console (s : State) (v : Word) : (s.setX v).console = s.console := rfl
@[simp] theorem State.setX_panel (s : State) (v : Word) : (s.setX v).panel = s.panel := rfl
@[simp] theorem State.setX_devices (s : State) (v : Word) : (s.setX v).devices = s.devices := rfl
@[simp] theorem State.setX_mopc (s : State) (v : Word) : (s.setX v).mopc = s.mopc := rfl
@[simp] theorem State.setX_busMonitor (s : State) (v : Word) : (s.setX v).busMonitor = s.busMonitor := rfl
@[simp] theorem State.setX_loader (s : State) (v : Word) : (s.setX v).loader = s.loader := rfl
@[simp] theorem State.setX_panelKey (s : State) (v : Word) : (s.setX v).panelKey = s.panelKey := rfl
@[simp] theorem State.setX_events (s : State) (v : Word) : (s.setX v).events = s.events := rfl
@[simp] theorem State.setX_steals (s : State) (v : Word) : (s.setX v).steals = s.steals := rfl
@[simp] theorem State.setX_watch (s : State) (v : Word) : (s.setX v).watch = s.watch := rfl
@[simp] theorem State.setX_freeCount (s : State) (v : Word) : (s.setX v).freeCount = s.freeCount := rfl

@[simp] theorem State.advance_cfg (s : State) : (s.advance).cfg = s.cfg := rfl
@[simp] theorem State.advance_pil (s : State) : (s.advance).pil = s.pil := rfl
@[simp] theorem State.advance_pvl (s : State) : (s.advance).pvl = s.pvl := rfl
@[simp] theorem State.advance_ioni (s : State) : (s.advance).ioni = s.ioni := rfl
@[simp] theorem State.advance_poni (s : State) : (s.advance).poni = s.poni := rfl
@[simp] theorem State.advance_sexi (s : State) : (s.advance).sexi = s.sexi := rfl
@[simp] theorem State.advance_pie (s : State) : (s.advance).pie = s.pie := rfl
@[simp] theorem State.advance_pid (s : State) : (s.advance).pid = s.pid := rfl
@[simp] theorem State.advance_iie (s : State) : (s.advance).iie = s.iie := rfl
@[simp] theorem State.advance_iid (s : State) : (s.advance).iid = s.iid := rfl
@[simp] theorem State.advance_iic (s : State) : (s.advance).iic = s.iic := rfl
@[simp] theorem State.advance_iicLock (s : State) : (s.advance).iicLock = s.iicLock := rfl
@[simp] theorem State.advance_opr (s : State) : (s.advance).opr = s.opr := rfl
@[simp] theorem State.advance_lmp (s : State) : (s.advance).lmp = s.lmp := rfl
@[simp] theorem State.advance_pcr (s : State) : (s.advance).pcr = s.pcr := rfl
@[simp] theorem State.advance_psr (s : State) : (s.advance).psr = s.psr := rfl
@[simp] theorem State.advance_psrLock (s : State) : (s.advance).psrLock = s.psrLock := rfl
@[simp] theorem State.advance_pes (s : State) : (s.advance).pes = s.pes := rfl
@[simp] theorem State.advance_pea (s : State) : (s.advance).pea = s.pea := rfl
@[simp] theorem State.advance_pesLock (s : State) : (s.advance).pesLock = s.pesLock := rfl
@[simp] theorem State.advance_eccr (s : State) : (s.advance).eccr = s.eccr := rfl
@[simp] theorem State.advance_prot (s : State) : (s.advance).prot = s.prot := rfl
@[simp] theorem State.advance_map (s : State) : (s.advance).map = s.map := rfl
@[simp] theorem State.advance_lcil (s : State) : (s.advance).lcil = s.lcil := rfl
@[simp] theorem State.advance_ucil (s : State) : (s.advance).ucil = s.ucil := rfl
@[simp] theorem State.advance_cache (s : State) : (s.advance).cache = s.cache := rfl
@[simp] theorem State.advance_cacheClearing (s : State) : (s.advance).cacheClearing = s.cacheClearing := rfl
@[simp] theorem State.advance_mem (s : State) : (s.advance).mem = s.mem := rfl
@[simp] theorem State.advance_ecc (s : State) : (s.advance).ecc = s.ecc := rfl
@[simp] theorem State.advance_wcs (s : State) : (s.advance).wcs = s.wcs := rfl
@[simp] theorem State.advance_wcsLoaded (s : State) : (s.advance).wcsLoaded = s.wcsLoaded := rfl
@[simp] theorem State.advance_runState (s : State) : (s.advance).runState = s.runState := rfl
@[simp] theorem State.advance_opcomActive (s : State) : (s.advance).opcomActive = s.opcomActive := rfl
@[simp] theorem State.advance_boundaryDone (s : State) : (s.advance).boundaryDone = s.boundaryDone := rfl
@[simp] theorem State.advance_clock (s : State) : (s.advance).clock = s.clock := rfl
@[simp] theorem State.advance_console (s : State) : (s.advance).console = s.console := rfl
@[simp] theorem State.advance_panel (s : State) : (s.advance).panel = s.panel := rfl
@[simp] theorem State.advance_devices (s : State) : (s.advance).devices = s.devices := rfl
@[simp] theorem State.advance_mopc (s : State) : (s.advance).mopc = s.mopc := rfl
@[simp] theorem State.advance_busMonitor (s : State) : (s.advance).busMonitor = s.busMonitor := rfl
@[simp] theorem State.advance_loader (s : State) : (s.advance).loader = s.loader := rfl
@[simp] theorem State.advance_panelKey (s : State) : (s.advance).panelKey = s.panelKey := rfl
@[simp] theorem State.advance_events (s : State) : (s.advance).events = s.events := rfl
@[simp] theorem State.advance_steals (s : State) : (s.advance).steals = s.steals := rfl
@[simp] theorem State.advance_watch (s : State) : (s.advance).watch = s.watch := rfl
@[simp] theorem State.advance_freeCount (s : State) : (s.advance).freeCount = s.freeCount := rfl

@[simp] theorem State.skip_cfg (s : State) : (s.skip).cfg = s.cfg := rfl
@[simp] theorem State.skip_pil (s : State) : (s.skip).pil = s.pil := rfl
@[simp] theorem State.skip_pvl (s : State) : (s.skip).pvl = s.pvl := rfl
@[simp] theorem State.skip_ioni (s : State) : (s.skip).ioni = s.ioni := rfl
@[simp] theorem State.skip_poni (s : State) : (s.skip).poni = s.poni := rfl
@[simp] theorem State.skip_sexi (s : State) : (s.skip).sexi = s.sexi := rfl
@[simp] theorem State.skip_pie (s : State) : (s.skip).pie = s.pie := rfl
@[simp] theorem State.skip_pid (s : State) : (s.skip).pid = s.pid := rfl
@[simp] theorem State.skip_iie (s : State) : (s.skip).iie = s.iie := rfl
@[simp] theorem State.skip_iid (s : State) : (s.skip).iid = s.iid := rfl
@[simp] theorem State.skip_iic (s : State) : (s.skip).iic = s.iic := rfl
@[simp] theorem State.skip_iicLock (s : State) : (s.skip).iicLock = s.iicLock := rfl
@[simp] theorem State.skip_opr (s : State) : (s.skip).opr = s.opr := rfl
@[simp] theorem State.skip_lmp (s : State) : (s.skip).lmp = s.lmp := rfl
@[simp] theorem State.skip_pcr (s : State) : (s.skip).pcr = s.pcr := rfl
@[simp] theorem State.skip_psr (s : State) : (s.skip).psr = s.psr := rfl
@[simp] theorem State.skip_psrLock (s : State) : (s.skip).psrLock = s.psrLock := rfl
@[simp] theorem State.skip_pes (s : State) : (s.skip).pes = s.pes := rfl
@[simp] theorem State.skip_pea (s : State) : (s.skip).pea = s.pea := rfl
@[simp] theorem State.skip_pesLock (s : State) : (s.skip).pesLock = s.pesLock := rfl
@[simp] theorem State.skip_eccr (s : State) : (s.skip).eccr = s.eccr := rfl
@[simp] theorem State.skip_prot (s : State) : (s.skip).prot = s.prot := rfl
@[simp] theorem State.skip_map (s : State) : (s.skip).map = s.map := rfl
@[simp] theorem State.skip_lcil (s : State) : (s.skip).lcil = s.lcil := rfl
@[simp] theorem State.skip_ucil (s : State) : (s.skip).ucil = s.ucil := rfl
@[simp] theorem State.skip_cache (s : State) : (s.skip).cache = s.cache := rfl
@[simp] theorem State.skip_cacheClearing (s : State) : (s.skip).cacheClearing = s.cacheClearing := rfl
@[simp] theorem State.skip_mem (s : State) : (s.skip).mem = s.mem := rfl
@[simp] theorem State.skip_ecc (s : State) : (s.skip).ecc = s.ecc := rfl
@[simp] theorem State.skip_wcs (s : State) : (s.skip).wcs = s.wcs := rfl
@[simp] theorem State.skip_wcsLoaded (s : State) : (s.skip).wcsLoaded = s.wcsLoaded := rfl
@[simp] theorem State.skip_runState (s : State) : (s.skip).runState = s.runState := rfl
@[simp] theorem State.skip_opcomActive (s : State) : (s.skip).opcomActive = s.opcomActive := rfl
@[simp] theorem State.skip_boundaryDone (s : State) : (s.skip).boundaryDone = s.boundaryDone := rfl
@[simp] theorem State.skip_clock (s : State) : (s.skip).clock = s.clock := rfl
@[simp] theorem State.skip_console (s : State) : (s.skip).console = s.console := rfl
@[simp] theorem State.skip_panel (s : State) : (s.skip).panel = s.panel := rfl
@[simp] theorem State.skip_devices (s : State) : (s.skip).devices = s.devices := rfl
@[simp] theorem State.skip_mopc (s : State) : (s.skip).mopc = s.mopc := rfl
@[simp] theorem State.skip_busMonitor (s : State) : (s.skip).busMonitor = s.busMonitor := rfl
@[simp] theorem State.skip_loader (s : State) : (s.skip).loader = s.loader := rfl
@[simp] theorem State.skip_panelKey (s : State) : (s.skip).panelKey = s.panelKey := rfl
@[simp] theorem State.skip_events (s : State) : (s.skip).events = s.events := rfl
@[simp] theorem State.skip_steals (s : State) : (s.skip).steals = s.steals := rfl
@[simp] theorem State.skip_watch (s : State) : (s.skip).watch = s.watch := rfl
@[simp] theorem State.skip_freeCount (s : State) : (s.skip).freeCount = s.freeCount := rfl

@[simp] theorem State.setFlag_cfg (s : State) (f : Flag) (b : Bool) : (s.setFlag f b).cfg = s.cfg := rfl
@[simp] theorem State.setFlag_pil (s : State) (f : Flag) (b : Bool) : (s.setFlag f b).pil = s.pil := rfl
@[simp] theorem State.setFlag_pvl (s : State) (f : Flag) (b : Bool) : (s.setFlag f b).pvl = s.pvl := rfl
@[simp] theorem State.setFlag_ioni (s : State) (f : Flag) (b : Bool) : (s.setFlag f b).ioni = s.ioni := rfl
@[simp] theorem State.setFlag_poni (s : State) (f : Flag) (b : Bool) : (s.setFlag f b).poni = s.poni := rfl
@[simp] theorem State.setFlag_sexi (s : State) (f : Flag) (b : Bool) : (s.setFlag f b).sexi = s.sexi := rfl
@[simp] theorem State.setFlag_pie (s : State) (f : Flag) (b : Bool) : (s.setFlag f b).pie = s.pie := rfl
@[simp] theorem State.setFlag_pid (s : State) (f : Flag) (b : Bool) : (s.setFlag f b).pid = s.pid := rfl
@[simp] theorem State.setFlag_iie (s : State) (f : Flag) (b : Bool) : (s.setFlag f b).iie = s.iie := rfl
@[simp] theorem State.setFlag_iid (s : State) (f : Flag) (b : Bool) : (s.setFlag f b).iid = s.iid := rfl
@[simp] theorem State.setFlag_iic (s : State) (f : Flag) (b : Bool) : (s.setFlag f b).iic = s.iic := rfl
@[simp] theorem State.setFlag_iicLock (s : State) (f : Flag) (b : Bool) : (s.setFlag f b).iicLock = s.iicLock := rfl
@[simp] theorem State.setFlag_opr (s : State) (f : Flag) (b : Bool) : (s.setFlag f b).opr = s.opr := rfl
@[simp] theorem State.setFlag_lmp (s : State) (f : Flag) (b : Bool) : (s.setFlag f b).lmp = s.lmp := rfl
@[simp] theorem State.setFlag_pcr (s : State) (f : Flag) (b : Bool) : (s.setFlag f b).pcr = s.pcr := rfl
@[simp] theorem State.setFlag_psr (s : State) (f : Flag) (b : Bool) : (s.setFlag f b).psr = s.psr := rfl
@[simp] theorem State.setFlag_psrLock (s : State) (f : Flag) (b : Bool) : (s.setFlag f b).psrLock = s.psrLock := rfl
@[simp] theorem State.setFlag_pes (s : State) (f : Flag) (b : Bool) : (s.setFlag f b).pes = s.pes := rfl
@[simp] theorem State.setFlag_pea (s : State) (f : Flag) (b : Bool) : (s.setFlag f b).pea = s.pea := rfl
@[simp] theorem State.setFlag_pesLock (s : State) (f : Flag) (b : Bool) : (s.setFlag f b).pesLock = s.pesLock := rfl
@[simp] theorem State.setFlag_eccr (s : State) (f : Flag) (b : Bool) : (s.setFlag f b).eccr = s.eccr := rfl
@[simp] theorem State.setFlag_prot (s : State) (f : Flag) (b : Bool) : (s.setFlag f b).prot = s.prot := rfl
@[simp] theorem State.setFlag_map (s : State) (f : Flag) (b : Bool) : (s.setFlag f b).map = s.map := rfl
@[simp] theorem State.setFlag_lcil (s : State) (f : Flag) (b : Bool) : (s.setFlag f b).lcil = s.lcil := rfl
@[simp] theorem State.setFlag_ucil (s : State) (f : Flag) (b : Bool) : (s.setFlag f b).ucil = s.ucil := rfl
@[simp] theorem State.setFlag_cache (s : State) (f : Flag) (b : Bool) : (s.setFlag f b).cache = s.cache := rfl
@[simp] theorem State.setFlag_cacheClearing (s : State) (f : Flag) (b : Bool) :
    (s.setFlag f b).cacheClearing = s.cacheClearing := rfl
@[simp] theorem State.setFlag_mem (s : State) (f : Flag) (b : Bool) : (s.setFlag f b).mem = s.mem := rfl
@[simp] theorem State.setFlag_ecc (s : State) (f : Flag) (b : Bool) : (s.setFlag f b).ecc = s.ecc := rfl
@[simp] theorem State.setFlag_wcs (s : State) (f : Flag) (b : Bool) : (s.setFlag f b).wcs = s.wcs := rfl
@[simp] theorem State.setFlag_wcsLoaded (s : State) (f : Flag) (b : Bool) : (s.setFlag f b).wcsLoaded = s.wcsLoaded := rfl
@[simp] theorem State.setFlag_runState (s : State) (f : Flag) (b : Bool) : (s.setFlag f b).runState = s.runState := rfl
@[simp] theorem State.setFlag_opcomActive (s : State) (f : Flag) (b : Bool) :
    (s.setFlag f b).opcomActive = s.opcomActive := rfl
@[simp] theorem State.setFlag_boundaryDone (s : State) (f : Flag) (b : Bool) :
    (s.setFlag f b).boundaryDone = s.boundaryDone := rfl
@[simp] theorem State.setFlag_clock (s : State) (f : Flag) (b : Bool) : (s.setFlag f b).clock = s.clock := rfl
@[simp] theorem State.setFlag_console (s : State) (f : Flag) (b : Bool) : (s.setFlag f b).console = s.console := rfl
@[simp] theorem State.setFlag_panel (s : State) (f : Flag) (b : Bool) : (s.setFlag f b).panel = s.panel := rfl
@[simp] theorem State.setFlag_devices (s : State) (f : Flag) (b : Bool) : (s.setFlag f b).devices = s.devices := rfl
@[simp] theorem State.setFlag_mopc (s : State) (f : Flag) (b : Bool) : (s.setFlag f b).mopc = s.mopc := rfl
@[simp] theorem State.setFlag_busMonitor (s : State) (f : Flag) (b : Bool) : (s.setFlag f b).busMonitor = s.busMonitor := rfl
@[simp] theorem State.setFlag_loader (s : State) (f : Flag) (b : Bool) : (s.setFlag f b).loader = s.loader := rfl
@[simp] theorem State.setFlag_panelKey (s : State) (f : Flag) (b : Bool) : (s.setFlag f b).panelKey = s.panelKey := rfl
@[simp] theorem State.setFlag_events (s : State) (f : Flag) (b : Bool) : (s.setFlag f b).events = s.events := rfl
@[simp] theorem State.setFlag_steals (s : State) (f : Flag) (b : Bool) : (s.setFlag f b).steals = s.steals := rfl
@[simp] theorem State.setFlag_watch (s : State) (f : Flag) (b : Bool) : (s.setFlag f b).watch = s.watch := rfl
@[simp] theorem State.setFlag_freeCount (s : State) (f : Flag) (b : Bool) : (s.setFlag f b).freeCount = s.freeCount := rfl

@[simp] theorem State.setPcr_cfg (s : State) (l : BitVec 4) (r : Pcr) : (s.setPcr l r).cfg = s.cfg := rfl
@[simp] theorem State.setPcr_regs (s : State) (l : BitVec 4) (r : Pcr) : (s.setPcr l r).regs = s.regs := rfl
@[simp] theorem State.setPcr_pil (s : State) (l : BitVec 4) (r : Pcr) : (s.setPcr l r).pil = s.pil := rfl
@[simp] theorem State.setPcr_pvl (s : State) (l : BitVec 4) (r : Pcr) : (s.setPcr l r).pvl = s.pvl := rfl
@[simp] theorem State.setPcr_ioni (s : State) (l : BitVec 4) (r : Pcr) : (s.setPcr l r).ioni = s.ioni := rfl
@[simp] theorem State.setPcr_poni (s : State) (l : BitVec 4) (r : Pcr) : (s.setPcr l r).poni = s.poni := rfl
@[simp] theorem State.setPcr_sexi (s : State) (l : BitVec 4) (r : Pcr) : (s.setPcr l r).sexi = s.sexi := rfl
@[simp] theorem State.setPcr_pie (s : State) (l : BitVec 4) (r : Pcr) : (s.setPcr l r).pie = s.pie := rfl
@[simp] theorem State.setPcr_pid (s : State) (l : BitVec 4) (r : Pcr) : (s.setPcr l r).pid = s.pid := rfl
@[simp] theorem State.setPcr_iie (s : State) (l : BitVec 4) (r : Pcr) : (s.setPcr l r).iie = s.iie := rfl
@[simp] theorem State.setPcr_iid (s : State) (l : BitVec 4) (r : Pcr) : (s.setPcr l r).iid = s.iid := rfl
@[simp] theorem State.setPcr_iic (s : State) (l : BitVec 4) (r : Pcr) : (s.setPcr l r).iic = s.iic := rfl
@[simp] theorem State.setPcr_iicLock (s : State) (l : BitVec 4) (r : Pcr) : (s.setPcr l r).iicLock = s.iicLock := rfl
@[simp] theorem State.setPcr_opr (s : State) (l : BitVec 4) (r : Pcr) : (s.setPcr l r).opr = s.opr := rfl
@[simp] theorem State.setPcr_lmp (s : State) (l : BitVec 4) (r : Pcr) : (s.setPcr l r).lmp = s.lmp := rfl
@[simp] theorem State.setPcr_psr (s : State) (l : BitVec 4) (r : Pcr) : (s.setPcr l r).psr = s.psr := rfl
@[simp] theorem State.setPcr_psrLock (s : State) (l : BitVec 4) (r : Pcr) : (s.setPcr l r).psrLock = s.psrLock := rfl
@[simp] theorem State.setPcr_pes (s : State) (l : BitVec 4) (r : Pcr) : (s.setPcr l r).pes = s.pes := rfl
@[simp] theorem State.setPcr_pea (s : State) (l : BitVec 4) (r : Pcr) : (s.setPcr l r).pea = s.pea := rfl
@[simp] theorem State.setPcr_pesLock (s : State) (l : BitVec 4) (r : Pcr) : (s.setPcr l r).pesLock = s.pesLock := rfl
@[simp] theorem State.setPcr_eccr (s : State) (l : BitVec 4) (r : Pcr) : (s.setPcr l r).eccr = s.eccr := rfl
@[simp] theorem State.setPcr_prot (s : State) (l : BitVec 4) (r : Pcr) : (s.setPcr l r).prot = s.prot := rfl
@[simp] theorem State.setPcr_map (s : State) (l : BitVec 4) (r : Pcr) : (s.setPcr l r).map = s.map := rfl
@[simp] theorem State.setPcr_lcil (s : State) (l : BitVec 4) (r : Pcr) : (s.setPcr l r).lcil = s.lcil := rfl
@[simp] theorem State.setPcr_ucil (s : State) (l : BitVec 4) (r : Pcr) : (s.setPcr l r).ucil = s.ucil := rfl
@[simp] theorem State.setPcr_cache (s : State) (l : BitVec 4) (r : Pcr) : (s.setPcr l r).cache = s.cache := rfl
@[simp] theorem State.setPcr_cacheClearing (s : State) (l : BitVec 4) (r : Pcr) :
    (s.setPcr l r).cacheClearing = s.cacheClearing := rfl
@[simp] theorem State.setPcr_mem (s : State) (l : BitVec 4) (r : Pcr) : (s.setPcr l r).mem = s.mem := rfl
@[simp] theorem State.setPcr_ecc (s : State) (l : BitVec 4) (r : Pcr) : (s.setPcr l r).ecc = s.ecc := rfl
@[simp] theorem State.setPcr_wcs (s : State) (l : BitVec 4) (r : Pcr) : (s.setPcr l r).wcs = s.wcs := rfl
@[simp] theorem State.setPcr_wcsLoaded (s : State) (l : BitVec 4) (r : Pcr) : (s.setPcr l r).wcsLoaded = s.wcsLoaded := rfl
@[simp] theorem State.setPcr_runState (s : State) (l : BitVec 4) (r : Pcr) : (s.setPcr l r).runState = s.runState := rfl
@[simp] theorem State.setPcr_opcomActive (s : State) (l : BitVec 4) (r : Pcr) :
    (s.setPcr l r).opcomActive = s.opcomActive := rfl
@[simp] theorem State.setPcr_boundaryDone (s : State) (l : BitVec 4) (r : Pcr) :
    (s.setPcr l r).boundaryDone = s.boundaryDone := rfl
@[simp] theorem State.setPcr_clock (s : State) (l : BitVec 4) (r : Pcr) : (s.setPcr l r).clock = s.clock := rfl
@[simp] theorem State.setPcr_console (s : State) (l : BitVec 4) (r : Pcr) : (s.setPcr l r).console = s.console := rfl
@[simp] theorem State.setPcr_panel (s : State) (l : BitVec 4) (r : Pcr) : (s.setPcr l r).panel = s.panel := rfl
@[simp] theorem State.setPcr_devices (s : State) (l : BitVec 4) (r : Pcr) : (s.setPcr l r).devices = s.devices := rfl
@[simp] theorem State.setPcr_mopc (s : State) (l : BitVec 4) (r : Pcr) : (s.setPcr l r).mopc = s.mopc := rfl
@[simp] theorem State.setPcr_busMonitor (s : State) (l : BitVec 4) (r : Pcr) :
    (s.setPcr l r).busMonitor = s.busMonitor := rfl
@[simp] theorem State.setPcr_loader (s : State) (l : BitVec 4) (r : Pcr) : (s.setPcr l r).loader = s.loader := rfl
@[simp] theorem State.setPcr_panelKey (s : State) (l : BitVec 4) (r : Pcr) : (s.setPcr l r).panelKey = s.panelKey := rfl
@[simp] theorem State.setPcr_events (s : State) (l : BitVec 4) (r : Pcr) : (s.setPcr l r).events = s.events := rfl
@[simp] theorem State.setPcr_steals (s : State) (l : BitVec 4) (r : Pcr) : (s.setPcr l r).steals = s.steals := rfl
@[simp] theorem State.setPcr_watch (s : State) (l : BitVec 4) (r : Pcr) : (s.setPcr l r).watch = s.watch := rfl
@[simp] theorem State.setPcr_freeCount (s : State) (l : BitVec 4) (r : Pcr) : (s.setPcr l r).freeCount = s.freeCount := rfl

@[simp] theorem State.setProt_cfg (s : State) (e : BitVec 8) (w : Word) : (s.setProt e w).cfg = s.cfg := rfl
@[simp] theorem State.setProt_regs (s : State) (e : BitVec 8) (w : Word) : (s.setProt e w).regs = s.regs := rfl
@[simp] theorem State.setProt_pil (s : State) (e : BitVec 8) (w : Word) : (s.setProt e w).pil = s.pil := rfl
@[simp] theorem State.setProt_pvl (s : State) (e : BitVec 8) (w : Word) : (s.setProt e w).pvl = s.pvl := rfl
@[simp] theorem State.setProt_ioni (s : State) (e : BitVec 8) (w : Word) : (s.setProt e w).ioni = s.ioni := rfl
@[simp] theorem State.setProt_poni (s : State) (e : BitVec 8) (w : Word) : (s.setProt e w).poni = s.poni := rfl
@[simp] theorem State.setProt_sexi (s : State) (e : BitVec 8) (w : Word) : (s.setProt e w).sexi = s.sexi := rfl
@[simp] theorem State.setProt_pie (s : State) (e : BitVec 8) (w : Word) : (s.setProt e w).pie = s.pie := rfl
@[simp] theorem State.setProt_pid (s : State) (e : BitVec 8) (w : Word) : (s.setProt e w).pid = s.pid := rfl
@[simp] theorem State.setProt_iie (s : State) (e : BitVec 8) (w : Word) : (s.setProt e w).iie = s.iie := rfl
@[simp] theorem State.setProt_iid (s : State) (e : BitVec 8) (w : Word) : (s.setProt e w).iid = s.iid := rfl
@[simp] theorem State.setProt_iic (s : State) (e : BitVec 8) (w : Word) : (s.setProt e w).iic = s.iic := rfl
@[simp] theorem State.setProt_iicLock (s : State) (e : BitVec 8) (w : Word) : (s.setProt e w).iicLock = s.iicLock := rfl
@[simp] theorem State.setProt_opr (s : State) (e : BitVec 8) (w : Word) : (s.setProt e w).opr = s.opr := rfl
@[simp] theorem State.setProt_lmp (s : State) (e : BitVec 8) (w : Word) : (s.setProt e w).lmp = s.lmp := rfl
@[simp] theorem State.setProt_pcr (s : State) (e : BitVec 8) (w : Word) : (s.setProt e w).pcr = s.pcr := rfl
@[simp] theorem State.setProt_psr (s : State) (e : BitVec 8) (w : Word) : (s.setProt e w).psr = s.psr := rfl
@[simp] theorem State.setProt_psrLock (s : State) (e : BitVec 8) (w : Word) : (s.setProt e w).psrLock = s.psrLock := rfl
@[simp] theorem State.setProt_pes (s : State) (e : BitVec 8) (w : Word) : (s.setProt e w).pes = s.pes := rfl
@[simp] theorem State.setProt_pea (s : State) (e : BitVec 8) (w : Word) : (s.setProt e w).pea = s.pea := rfl
@[simp] theorem State.setProt_pesLock (s : State) (e : BitVec 8) (w : Word) : (s.setProt e w).pesLock = s.pesLock := rfl
@[simp] theorem State.setProt_eccr (s : State) (e : BitVec 8) (w : Word) : (s.setProt e w).eccr = s.eccr := rfl
@[simp] theorem State.setProt_map (s : State) (e : BitVec 8) (w : Word) : (s.setProt e w).map = s.map := rfl
@[simp] theorem State.setProt_lcil (s : State) (e : BitVec 8) (w : Word) : (s.setProt e w).lcil = s.lcil := rfl
@[simp] theorem State.setProt_ucil (s : State) (e : BitVec 8) (w : Word) : (s.setProt e w).ucil = s.ucil := rfl
@[simp] theorem State.setProt_cache (s : State) (e : BitVec 8) (w : Word) : (s.setProt e w).cache = s.cache := rfl
@[simp] theorem State.setProt_cacheClearing (s : State) (e : BitVec 8) (w : Word) :
    (s.setProt e w).cacheClearing = s.cacheClearing := rfl
@[simp] theorem State.setProt_mem (s : State) (e : BitVec 8) (w : Word) : (s.setProt e w).mem = s.mem := rfl
@[simp] theorem State.setProt_ecc (s : State) (e : BitVec 8) (w : Word) : (s.setProt e w).ecc = s.ecc := rfl
@[simp] theorem State.setProt_wcs (s : State) (e : BitVec 8) (w : Word) : (s.setProt e w).wcs = s.wcs := rfl
@[simp] theorem State.setProt_wcsLoaded (s : State) (e : BitVec 8) (w : Word) :
    (s.setProt e w).wcsLoaded = s.wcsLoaded := rfl
@[simp] theorem State.setProt_runState (s : State) (e : BitVec 8) (w : Word) : (s.setProt e w).runState = s.runState := rfl
@[simp] theorem State.setProt_opcomActive (s : State) (e : BitVec 8) (w : Word) :
    (s.setProt e w).opcomActive = s.opcomActive := rfl
@[simp] theorem State.setProt_boundaryDone (s : State) (e : BitVec 8) (w : Word) :
    (s.setProt e w).boundaryDone = s.boundaryDone := rfl
@[simp] theorem State.setProt_clock (s : State) (e : BitVec 8) (w : Word) : (s.setProt e w).clock = s.clock := rfl
@[simp] theorem State.setProt_console (s : State) (e : BitVec 8) (w : Word) : (s.setProt e w).console = s.console := rfl
@[simp] theorem State.setProt_panel (s : State) (e : BitVec 8) (w : Word) : (s.setProt e w).panel = s.panel := rfl
@[simp] theorem State.setProt_devices (s : State) (e : BitVec 8) (w : Word) : (s.setProt e w).devices = s.devices := rfl
@[simp] theorem State.setProt_mopc (s : State) (e : BitVec 8) (w : Word) : (s.setProt e w).mopc = s.mopc := rfl
@[simp] theorem State.setProt_busMonitor (s : State) (e : BitVec 8) (w : Word) :
    (s.setProt e w).busMonitor = s.busMonitor := rfl
@[simp] theorem State.setProt_loader (s : State) (e : BitVec 8) (w : Word) : (s.setProt e w).loader = s.loader := rfl
@[simp] theorem State.setProt_panelKey (s : State) (e : BitVec 8) (w : Word) : (s.setProt e w).panelKey = s.panelKey := rfl
@[simp] theorem State.setProt_events (s : State) (e : BitVec 8) (w : Word) : (s.setProt e w).events = s.events := rfl
@[simp] theorem State.setProt_steals (s : State) (e : BitVec 8) (w : Word) : (s.setProt e w).steals = s.steals := rfl
@[simp] theorem State.setProt_watch (s : State) (e : BitVec 8) (w : Word) : (s.setProt e w).watch = s.watch := rfl
@[simp] theorem State.setProt_freeCount (s : State) (e : BitVec 8) (w : Word) :
    (s.setProt e w).freeCount = s.freeCount := rfl

@[simp] theorem State.usePage_prot (s : State) (k : Kind) (e : BitVec 8) (p : Word) :
    (s.usePage k e p).prot = (s.setProt e (markUsed k p)).prot := rfl
@[simp] theorem State.usePage_watch (s : State) (k : Kind) (e : BitVec 8) (p : Word) :
    (s.usePage k e p).watch = s.watch.map ((e, k == .sto) :: ·) := rfl
@[simp] theorem State.usePage_cfg (s : State) (k : Kind) (e : BitVec 8) (p : Word) :
    (s.usePage k e p).cfg = s.cfg := rfl
@[simp] theorem State.usePage_regs (s : State) (k : Kind) (e : BitVec 8) (p : Word) :
    (s.usePage k e p).regs = s.regs := rfl
@[simp] theorem State.usePage_pil (s : State) (k : Kind) (e : BitVec 8) (p : Word) :
    (s.usePage k e p).pil = s.pil := rfl
@[simp] theorem State.usePage_pvl (s : State) (k : Kind) (e : BitVec 8) (p : Word) :
    (s.usePage k e p).pvl = s.pvl := rfl
@[simp] theorem State.usePage_ioni (s : State) (k : Kind) (e : BitVec 8) (p : Word) :
    (s.usePage k e p).ioni = s.ioni := rfl
@[simp] theorem State.usePage_poni (s : State) (k : Kind) (e : BitVec 8) (p : Word) :
    (s.usePage k e p).poni = s.poni := rfl
@[simp] theorem State.usePage_sexi (s : State) (k : Kind) (e : BitVec 8) (p : Word) :
    (s.usePage k e p).sexi = s.sexi := rfl
@[simp] theorem State.usePage_pie (s : State) (k : Kind) (e : BitVec 8) (p : Word) :
    (s.usePage k e p).pie = s.pie := rfl
@[simp] theorem State.usePage_pid (s : State) (k : Kind) (e : BitVec 8) (p : Word) :
    (s.usePage k e p).pid = s.pid := rfl
@[simp] theorem State.usePage_iie (s : State) (k : Kind) (e : BitVec 8) (p : Word) :
    (s.usePage k e p).iie = s.iie := rfl
@[simp] theorem State.usePage_iid (s : State) (k : Kind) (e : BitVec 8) (p : Word) :
    (s.usePage k e p).iid = s.iid := rfl
@[simp] theorem State.usePage_iic (s : State) (k : Kind) (e : BitVec 8) (p : Word) :
    (s.usePage k e p).iic = s.iic := rfl
@[simp] theorem State.usePage_iicLock (s : State) (k : Kind) (e : BitVec 8) (p : Word) :
    (s.usePage k e p).iicLock = s.iicLock := rfl
@[simp] theorem State.usePage_opr (s : State) (k : Kind) (e : BitVec 8) (p : Word) :
    (s.usePage k e p).opr = s.opr := rfl
@[simp] theorem State.usePage_lmp (s : State) (k : Kind) (e : BitVec 8) (p : Word) :
    (s.usePage k e p).lmp = s.lmp := rfl
@[simp] theorem State.usePage_pcr (s : State) (k : Kind) (e : BitVec 8) (p : Word) :
    (s.usePage k e p).pcr = s.pcr := rfl
@[simp] theorem State.usePage_psr (s : State) (k : Kind) (e : BitVec 8) (p : Word) :
    (s.usePage k e p).psr = s.psr := rfl
@[simp] theorem State.usePage_psrLock (s : State) (k : Kind) (e : BitVec 8) (p : Word) :
    (s.usePage k e p).psrLock = s.psrLock := rfl
@[simp] theorem State.usePage_pes (s : State) (k : Kind) (e : BitVec 8) (p : Word) :
    (s.usePage k e p).pes = s.pes := rfl
@[simp] theorem State.usePage_pea (s : State) (k : Kind) (e : BitVec 8) (p : Word) :
    (s.usePage k e p).pea = s.pea := rfl
@[simp] theorem State.usePage_pesLock (s : State) (k : Kind) (e : BitVec 8) (p : Word) :
    (s.usePage k e p).pesLock = s.pesLock := rfl
@[simp] theorem State.usePage_eccr (s : State) (k : Kind) (e : BitVec 8) (p : Word) :
    (s.usePage k e p).eccr = s.eccr := rfl
@[simp] theorem State.usePage_map (s : State) (k : Kind) (e : BitVec 8) (p : Word) :
    (s.usePage k e p).map = s.map := rfl
@[simp] theorem State.usePage_lcil (s : State) (k : Kind) (e : BitVec 8) (p : Word) :
    (s.usePage k e p).lcil = s.lcil := rfl
@[simp] theorem State.usePage_ucil (s : State) (k : Kind) (e : BitVec 8) (p : Word) :
    (s.usePage k e p).ucil = s.ucil := rfl
@[simp] theorem State.usePage_cache (s : State) (k : Kind) (e : BitVec 8) (p : Word) :
    (s.usePage k e p).cache = s.cache := rfl
@[simp] theorem State.usePage_cacheClearing (s : State) (k : Kind) (e : BitVec 8) (p : Word) :
    (s.usePage k e p).cacheClearing = s.cacheClearing := rfl
@[simp] theorem State.usePage_mem (s : State) (k : Kind) (e : BitVec 8) (p : Word) :
    (s.usePage k e p).mem = s.mem := rfl
@[simp] theorem State.usePage_ecc (s : State) (k : Kind) (e : BitVec 8) (p : Word) :
    (s.usePage k e p).ecc = s.ecc := rfl
@[simp] theorem State.usePage_wcs (s : State) (k : Kind) (e : BitVec 8) (p : Word) :
    (s.usePage k e p).wcs = s.wcs := rfl
@[simp] theorem State.usePage_wcsLoaded (s : State) (k : Kind) (e : BitVec 8) (p : Word) :
    (s.usePage k e p).wcsLoaded = s.wcsLoaded := rfl
@[simp] theorem State.usePage_runState (s : State) (k : Kind) (e : BitVec 8) (p : Word) :
    (s.usePage k e p).runState = s.runState := rfl
@[simp] theorem State.usePage_opcomActive (s : State) (k : Kind) (e : BitVec 8) (p : Word) :
    (s.usePage k e p).opcomActive = s.opcomActive := rfl
@[simp] theorem State.usePage_boundaryDone (s : State) (k : Kind) (e : BitVec 8) (p : Word) :
    (s.usePage k e p).boundaryDone = s.boundaryDone := rfl
@[simp] theorem State.usePage_clock (s : State) (k : Kind) (e : BitVec 8) (p : Word) :
    (s.usePage k e p).clock = s.clock := rfl
@[simp] theorem State.usePage_console (s : State) (k : Kind) (e : BitVec 8) (p : Word) :
    (s.usePage k e p).console = s.console := rfl
@[simp] theorem State.usePage_panel (s : State) (k : Kind) (e : BitVec 8) (p : Word) :
    (s.usePage k e p).panel = s.panel := rfl
@[simp] theorem State.usePage_devices (s : State) (k : Kind) (e : BitVec 8) (p : Word) :
    (s.usePage k e p).devices = s.devices := rfl
@[simp] theorem State.usePage_mopc (s : State) (k : Kind) (e : BitVec 8) (p : Word) :
    (s.usePage k e p).mopc = s.mopc := rfl
@[simp] theorem State.usePage_busMonitor (s : State) (k : Kind) (e : BitVec 8) (p : Word) :
    (s.usePage k e p).busMonitor = s.busMonitor := rfl
@[simp] theorem State.usePage_loader (s : State) (k : Kind) (e : BitVec 8) (p : Word) :
    (s.usePage k e p).loader = s.loader := rfl
@[simp] theorem State.usePage_panelKey (s : State) (k : Kind) (e : BitVec 8) (p : Word) :
    (s.usePage k e p).panelKey = s.panelKey := rfl
@[simp] theorem State.usePage_events (s : State) (k : Kind) (e : BitVec 8) (p : Word) :
    (s.usePage k e p).events = s.events := rfl
@[simp] theorem State.usePage_steals (s : State) (k : Kind) (e : BitVec 8) (p : Word) :
    (s.usePage k e p).steals = s.steals := rfl
@[simp] theorem State.usePage_freeCount (s : State) (k : Kind) (e : BitVec 8) (p : Word) :
    (s.usePage k e p).freeCount = s.freeCount := rfl

@[simp] theorem State.setMap_cfg (s : State) (e : BitVec 8) (w : Word) : (s.setMap e w).cfg = s.cfg := rfl
@[simp] theorem State.setMap_regs (s : State) (e : BitVec 8) (w : Word) : (s.setMap e w).regs = s.regs := rfl
@[simp] theorem State.setMap_pil (s : State) (e : BitVec 8) (w : Word) : (s.setMap e w).pil = s.pil := rfl
@[simp] theorem State.setMap_pvl (s : State) (e : BitVec 8) (w : Word) : (s.setMap e w).pvl = s.pvl := rfl
@[simp] theorem State.setMap_ioni (s : State) (e : BitVec 8) (w : Word) : (s.setMap e w).ioni = s.ioni := rfl
@[simp] theorem State.setMap_poni (s : State) (e : BitVec 8) (w : Word) : (s.setMap e w).poni = s.poni := rfl
@[simp] theorem State.setMap_sexi (s : State) (e : BitVec 8) (w : Word) : (s.setMap e w).sexi = s.sexi := rfl
@[simp] theorem State.setMap_pie (s : State) (e : BitVec 8) (w : Word) : (s.setMap e w).pie = s.pie := rfl
@[simp] theorem State.setMap_pid (s : State) (e : BitVec 8) (w : Word) : (s.setMap e w).pid = s.pid := rfl
@[simp] theorem State.setMap_iie (s : State) (e : BitVec 8) (w : Word) : (s.setMap e w).iie = s.iie := rfl
@[simp] theorem State.setMap_iid (s : State) (e : BitVec 8) (w : Word) : (s.setMap e w).iid = s.iid := rfl
@[simp] theorem State.setMap_iic (s : State) (e : BitVec 8) (w : Word) : (s.setMap e w).iic = s.iic := rfl
@[simp] theorem State.setMap_iicLock (s : State) (e : BitVec 8) (w : Word) : (s.setMap e w).iicLock = s.iicLock := rfl
@[simp] theorem State.setMap_opr (s : State) (e : BitVec 8) (w : Word) : (s.setMap e w).opr = s.opr := rfl
@[simp] theorem State.setMap_lmp (s : State) (e : BitVec 8) (w : Word) : (s.setMap e w).lmp = s.lmp := rfl
@[simp] theorem State.setMap_pcr (s : State) (e : BitVec 8) (w : Word) : (s.setMap e w).pcr = s.pcr := rfl
@[simp] theorem State.setMap_psr (s : State) (e : BitVec 8) (w : Word) : (s.setMap e w).psr = s.psr := rfl
@[simp] theorem State.setMap_psrLock (s : State) (e : BitVec 8) (w : Word) : (s.setMap e w).psrLock = s.psrLock := rfl
@[simp] theorem State.setMap_pes (s : State) (e : BitVec 8) (w : Word) : (s.setMap e w).pes = s.pes := rfl
@[simp] theorem State.setMap_pea (s : State) (e : BitVec 8) (w : Word) : (s.setMap e w).pea = s.pea := rfl
@[simp] theorem State.setMap_pesLock (s : State) (e : BitVec 8) (w : Word) : (s.setMap e w).pesLock = s.pesLock := rfl
@[simp] theorem State.setMap_eccr (s : State) (e : BitVec 8) (w : Word) : (s.setMap e w).eccr = s.eccr := rfl
@[simp] theorem State.setMap_prot (s : State) (e : BitVec 8) (w : Word) : (s.setMap e w).prot = s.prot := rfl
@[simp] theorem State.setMap_lcil (s : State) (e : BitVec 8) (w : Word) : (s.setMap e w).lcil = s.lcil := rfl
@[simp] theorem State.setMap_ucil (s : State) (e : BitVec 8) (w : Word) : (s.setMap e w).ucil = s.ucil := rfl
@[simp] theorem State.setMap_cache (s : State) (e : BitVec 8) (w : Word) : (s.setMap e w).cache = s.cache := rfl
@[simp] theorem State.setMap_cacheClearing (s : State) (e : BitVec 8) (w : Word) :
    (s.setMap e w).cacheClearing = s.cacheClearing := rfl
@[simp] theorem State.setMap_mem (s : State) (e : BitVec 8) (w : Word) : (s.setMap e w).mem = s.mem := rfl
@[simp] theorem State.setMap_ecc (s : State) (e : BitVec 8) (w : Word) : (s.setMap e w).ecc = s.ecc := rfl
@[simp] theorem State.setMap_wcs (s : State) (e : BitVec 8) (w : Word) : (s.setMap e w).wcs = s.wcs := rfl
@[simp] theorem State.setMap_wcsLoaded (s : State) (e : BitVec 8) (w : Word) : (s.setMap e w).wcsLoaded = s.wcsLoaded := rfl
@[simp] theorem State.setMap_runState (s : State) (e : BitVec 8) (w : Word) : (s.setMap e w).runState = s.runState := rfl
@[simp] theorem State.setMap_opcomActive (s : State) (e : BitVec 8) (w : Word) :
    (s.setMap e w).opcomActive = s.opcomActive := rfl
@[simp] theorem State.setMap_boundaryDone (s : State) (e : BitVec 8) (w : Word) :
    (s.setMap e w).boundaryDone = s.boundaryDone := rfl
@[simp] theorem State.setMap_clock (s : State) (e : BitVec 8) (w : Word) : (s.setMap e w).clock = s.clock := rfl
@[simp] theorem State.setMap_console (s : State) (e : BitVec 8) (w : Word) : (s.setMap e w).console = s.console := rfl
@[simp] theorem State.setMap_panel (s : State) (e : BitVec 8) (w : Word) : (s.setMap e w).panel = s.panel := rfl
@[simp] theorem State.setMap_devices (s : State) (e : BitVec 8) (w : Word) : (s.setMap e w).devices = s.devices := rfl
@[simp] theorem State.setMap_mopc (s : State) (e : BitVec 8) (w : Word) : (s.setMap e w).mopc = s.mopc := rfl
@[simp] theorem State.setMap_busMonitor (s : State) (e : BitVec 8) (w : Word) :
    (s.setMap e w).busMonitor = s.busMonitor := rfl
@[simp] theorem State.setMap_loader (s : State) (e : BitVec 8) (w : Word) : (s.setMap e w).loader = s.loader := rfl
@[simp] theorem State.setMap_panelKey (s : State) (e : BitVec 8) (w : Word) : (s.setMap e w).panelKey = s.panelKey := rfl
@[simp] theorem State.setMap_events (s : State) (e : BitVec 8) (w : Word) : (s.setMap e w).events = s.events := rfl
@[simp] theorem State.setMap_steals (s : State) (e : BitVec 8) (w : Word) : (s.setMap e w).steals = s.steals := rfl
@[simp] theorem State.setMap_watch (s : State) (e : BitVec 8) (w : Word) : (s.setMap e w).watch = s.watch := rfl
@[simp] theorem State.setMap_freeCount (s : State) (e : BitVec 8) (w : Word) : (s.setMap e w).freeCount = s.freeCount := rfl

@[simp] theorem State.raise_cfg (s : State) (x : Source) : (s.raise x).cfg = s.cfg := rfl
@[simp] theorem State.raise_regs (s : State) (x : Source) : (s.raise x).regs = s.regs := rfl
@[simp] theorem State.raise_pil (s : State) (x : Source) : (s.raise x).pil = s.pil := rfl
@[simp] theorem State.raise_pvl (s : State) (x : Source) : (s.raise x).pvl = s.pvl := rfl
@[simp] theorem State.raise_ioni (s : State) (x : Source) : (s.raise x).ioni = s.ioni := rfl
@[simp] theorem State.raise_poni (s : State) (x : Source) : (s.raise x).poni = s.poni := rfl
@[simp] theorem State.raise_sexi (s : State) (x : Source) : (s.raise x).sexi = s.sexi := rfl
@[simp] theorem State.raise_pie (s : State) (x : Source) : (s.raise x).pie = s.pie := rfl
@[simp] theorem State.raise_pid (s : State) (x : Source) : (s.raise x).pid = s.pid := rfl
@[simp] theorem State.raise_iie (s : State) (x : Source) : (s.raise x).iie = s.iie := rfl
@[simp] theorem State.raise_iic (s : State) (x : Source) : (s.raise x).iic = s.iic := rfl
@[simp] theorem State.raise_iicLock (s : State) (x : Source) : (s.raise x).iicLock = s.iicLock := rfl
@[simp] theorem State.raise_opr (s : State) (x : Source) : (s.raise x).opr = s.opr := rfl
@[simp] theorem State.raise_lmp (s : State) (x : Source) : (s.raise x).lmp = s.lmp := rfl
@[simp] theorem State.raise_pcr (s : State) (x : Source) : (s.raise x).pcr = s.pcr := rfl
@[simp] theorem State.raise_psr (s : State) (x : Source) : (s.raise x).psr = s.psr := rfl
@[simp] theorem State.raise_psrLock (s : State) (x : Source) : (s.raise x).psrLock = s.psrLock := rfl
@[simp] theorem State.raise_pes (s : State) (x : Source) : (s.raise x).pes = s.pes := rfl
@[simp] theorem State.raise_pea (s : State) (x : Source) : (s.raise x).pea = s.pea := rfl
@[simp] theorem State.raise_pesLock (s : State) (x : Source) : (s.raise x).pesLock = s.pesLock := rfl
@[simp] theorem State.raise_eccr (s : State) (x : Source) : (s.raise x).eccr = s.eccr := rfl
@[simp] theorem State.raise_prot (s : State) (x : Source) : (s.raise x).prot = s.prot := rfl
@[simp] theorem State.raise_map (s : State) (x : Source) : (s.raise x).map = s.map := rfl
@[simp] theorem State.raise_lcil (s : State) (x : Source) : (s.raise x).lcil = s.lcil := rfl
@[simp] theorem State.raise_ucil (s : State) (x : Source) : (s.raise x).ucil = s.ucil := rfl
@[simp] theorem State.raise_cache (s : State) (x : Source) : (s.raise x).cache = s.cache := rfl
@[simp] theorem State.raise_cacheClearing (s : State) (x : Source) : (s.raise x).cacheClearing = s.cacheClearing := rfl
@[simp] theorem State.raise_mem (s : State) (x : Source) : (s.raise x).mem = s.mem := rfl
@[simp] theorem State.raise_ecc (s : State) (x : Source) : (s.raise x).ecc = s.ecc := rfl
@[simp] theorem State.raise_wcs (s : State) (x : Source) : (s.raise x).wcs = s.wcs := rfl
@[simp] theorem State.raise_wcsLoaded (s : State) (x : Source) : (s.raise x).wcsLoaded = s.wcsLoaded := rfl
@[simp] theorem State.raise_runState (s : State) (x : Source) : (s.raise x).runState = s.runState := rfl
@[simp] theorem State.raise_opcomActive (s : State) (x : Source) : (s.raise x).opcomActive = s.opcomActive := rfl
@[simp] theorem State.raise_boundaryDone (s : State) (x : Source) : (s.raise x).boundaryDone = s.boundaryDone := rfl
@[simp] theorem State.raise_clock (s : State) (x : Source) : (s.raise x).clock = s.clock := rfl
@[simp] theorem State.raise_console (s : State) (x : Source) : (s.raise x).console = s.console := rfl
@[simp] theorem State.raise_panel (s : State) (x : Source) : (s.raise x).panel = s.panel := rfl
@[simp] theorem State.raise_devices (s : State) (x : Source) : (s.raise x).devices = s.devices := rfl
@[simp] theorem State.raise_mopc (s : State) (x : Source) : (s.raise x).mopc = s.mopc := rfl
@[simp] theorem State.raise_busMonitor (s : State) (x : Source) : (s.raise x).busMonitor = s.busMonitor := rfl
@[simp] theorem State.raise_loader (s : State) (x : Source) : (s.raise x).loader = s.loader := rfl
@[simp] theorem State.raise_panelKey (s : State) (x : Source) : (s.raise x).panelKey = s.panelKey := rfl
@[simp] theorem State.raise_events (s : State) (x : Source) : (s.raise x).events = s.events := rfl
@[simp] theorem State.raise_steals (s : State) (x : Source) : (s.raise x).steals = s.steals := rfl
@[simp] theorem State.raise_watch (s : State) (x : Source) : (s.raise x).watch = s.watch := rfl
@[simp] theorem State.raise_freeCount (s : State) (x : Source) : (s.raise x).freeCount = s.freeCount := rfl

@[simp] theorem State.changeLevel_cfg (s : State) : (s.changeLevel).cfg = s.cfg := rfl
@[simp] theorem State.changeLevel_regs (s : State) : (s.changeLevel).regs = s.regs := rfl
@[simp] theorem State.changeLevel_ioni (s : State) : (s.changeLevel).ioni = s.ioni := rfl
@[simp] theorem State.changeLevel_poni (s : State) : (s.changeLevel).poni = s.poni := rfl
@[simp] theorem State.changeLevel_sexi (s : State) : (s.changeLevel).sexi = s.sexi := rfl
@[simp] theorem State.changeLevel_pie (s : State) : (s.changeLevel).pie = s.pie := rfl
@[simp] theorem State.changeLevel_pid (s : State) : (s.changeLevel).pid = s.pid := rfl
@[simp] theorem State.changeLevel_iie (s : State) : (s.changeLevel).iie = s.iie := rfl
@[simp] theorem State.changeLevel_iid (s : State) : (s.changeLevel).iid = s.iid := rfl
@[simp] theorem State.changeLevel_iic (s : State) : (s.changeLevel).iic = s.iic := rfl
@[simp] theorem State.changeLevel_iicLock (s : State) : (s.changeLevel).iicLock = s.iicLock := rfl
@[simp] theorem State.changeLevel_opr (s : State) : (s.changeLevel).opr = s.opr := rfl
@[simp] theorem State.changeLevel_lmp (s : State) : (s.changeLevel).lmp = s.lmp := rfl
@[simp] theorem State.changeLevel_pcr (s : State) : (s.changeLevel).pcr = s.pcr := rfl
@[simp] theorem State.changeLevel_psr (s : State) : (s.changeLevel).psr = s.psr := rfl
@[simp] theorem State.changeLevel_psrLock (s : State) : (s.changeLevel).psrLock = s.psrLock := rfl
@[simp] theorem State.changeLevel_pes (s : State) : (s.changeLevel).pes = s.pes := rfl
@[simp] theorem State.changeLevel_pea (s : State) : (s.changeLevel).pea = s.pea := rfl
@[simp] theorem State.changeLevel_pesLock (s : State) : (s.changeLevel).pesLock = s.pesLock := rfl
@[simp] theorem State.changeLevel_eccr (s : State) : (s.changeLevel).eccr = s.eccr := rfl
@[simp] theorem State.changeLevel_prot (s : State) : (s.changeLevel).prot = s.prot := rfl
@[simp] theorem State.changeLevel_map (s : State) : (s.changeLevel).map = s.map := rfl
@[simp] theorem State.changeLevel_lcil (s : State) : (s.changeLevel).lcil = s.lcil := rfl
@[simp] theorem State.changeLevel_ucil (s : State) : (s.changeLevel).ucil = s.ucil := rfl
@[simp] theorem State.changeLevel_cache (s : State) : (s.changeLevel).cache = s.cache := rfl
@[simp] theorem State.changeLevel_cacheClearing (s : State) : (s.changeLevel).cacheClearing = s.cacheClearing := rfl
@[simp] theorem State.changeLevel_mem (s : State) : (s.changeLevel).mem = s.mem := rfl
@[simp] theorem State.changeLevel_ecc (s : State) : (s.changeLevel).ecc = s.ecc := rfl
@[simp] theorem State.changeLevel_wcs (s : State) : (s.changeLevel).wcs = s.wcs := rfl
@[simp] theorem State.changeLevel_wcsLoaded (s : State) : (s.changeLevel).wcsLoaded = s.wcsLoaded := rfl
@[simp] theorem State.changeLevel_runState (s : State) : (s.changeLevel).runState = s.runState := rfl
@[simp] theorem State.changeLevel_opcomActive (s : State) : (s.changeLevel).opcomActive = s.opcomActive := rfl
@[simp] theorem State.changeLevel_boundaryDone (s : State) : (s.changeLevel).boundaryDone = s.boundaryDone := rfl
@[simp] theorem State.changeLevel_clock (s : State) : (s.changeLevel).clock = s.clock := rfl
@[simp] theorem State.changeLevel_console (s : State) : (s.changeLevel).console = s.console := rfl
@[simp] theorem State.changeLevel_panel (s : State) : (s.changeLevel).panel = s.panel := rfl
@[simp] theorem State.changeLevel_devices (s : State) : (s.changeLevel).devices = s.devices := rfl
@[simp] theorem State.changeLevel_mopc (s : State) : (s.changeLevel).mopc = s.mopc := rfl
@[simp] theorem State.changeLevel_busMonitor (s : State) : (s.changeLevel).busMonitor = s.busMonitor := rfl
@[simp] theorem State.changeLevel_loader (s : State) : (s.changeLevel).loader = s.loader := rfl
@[simp] theorem State.changeLevel_panelKey (s : State) : (s.changeLevel).panelKey = s.panelKey := rfl
@[simp] theorem State.changeLevel_events (s : State) : (s.changeLevel).events = s.events := rfl
@[simp] theorem State.changeLevel_steals (s : State) : (s.changeLevel).steals = s.steals := rfl
@[simp] theorem State.changeLevel_watch (s : State) : (s.changeLevel).watch = s.watch := rfl
@[simp] theorem State.changeLevel_freeCount (s : State) : (s.changeLevel).freeCount = s.freeCount := rfl

@[simp] theorem State.giveUpLevel_cfg (s : State) : (s.giveUpLevel).cfg = s.cfg := rfl
@[simp] theorem State.giveUpLevel_regs (s : State) : (s.giveUpLevel).regs = s.regs := rfl
@[simp] theorem State.giveUpLevel_pil (s : State) : (s.giveUpLevel).pil = s.pil := rfl
@[simp] theorem State.giveUpLevel_pvl (s : State) : (s.giveUpLevel).pvl = s.pvl := rfl
@[simp] theorem State.giveUpLevel_ioni (s : State) : (s.giveUpLevel).ioni = s.ioni := rfl
@[simp] theorem State.giveUpLevel_poni (s : State) : (s.giveUpLevel).poni = s.poni := rfl
@[simp] theorem State.giveUpLevel_sexi (s : State) : (s.giveUpLevel).sexi = s.sexi := rfl
@[simp] theorem State.giveUpLevel_pie (s : State) : (s.giveUpLevel).pie = s.pie := rfl
@[simp] theorem State.giveUpLevel_iie (s : State) : (s.giveUpLevel).iie = s.iie := rfl
@[simp] theorem State.giveUpLevel_iid (s : State) : (s.giveUpLevel).iid = s.iid := rfl
@[simp] theorem State.giveUpLevel_iic (s : State) : (s.giveUpLevel).iic = s.iic := rfl
@[simp] theorem State.giveUpLevel_iicLock (s : State) : (s.giveUpLevel).iicLock = s.iicLock := rfl
@[simp] theorem State.giveUpLevel_opr (s : State) : (s.giveUpLevel).opr = s.opr := rfl
@[simp] theorem State.giveUpLevel_lmp (s : State) : (s.giveUpLevel).lmp = s.lmp := rfl
@[simp] theorem State.giveUpLevel_pcr (s : State) : (s.giveUpLevel).pcr = s.pcr := rfl
@[simp] theorem State.giveUpLevel_psr (s : State) : (s.giveUpLevel).psr = s.psr := rfl
@[simp] theorem State.giveUpLevel_psrLock (s : State) : (s.giveUpLevel).psrLock = s.psrLock := rfl
@[simp] theorem State.giveUpLevel_pes (s : State) : (s.giveUpLevel).pes = s.pes := rfl
@[simp] theorem State.giveUpLevel_pea (s : State) : (s.giveUpLevel).pea = s.pea := rfl
@[simp] theorem State.giveUpLevel_pesLock (s : State) : (s.giveUpLevel).pesLock = s.pesLock := rfl
@[simp] theorem State.giveUpLevel_eccr (s : State) : (s.giveUpLevel).eccr = s.eccr := rfl
@[simp] theorem State.giveUpLevel_prot (s : State) : (s.giveUpLevel).prot = s.prot := rfl
@[simp] theorem State.giveUpLevel_map (s : State) : (s.giveUpLevel).map = s.map := rfl
@[simp] theorem State.giveUpLevel_lcil (s : State) : (s.giveUpLevel).lcil = s.lcil := rfl
@[simp] theorem State.giveUpLevel_ucil (s : State) : (s.giveUpLevel).ucil = s.ucil := rfl
@[simp] theorem State.giveUpLevel_cache (s : State) : (s.giveUpLevel).cache = s.cache := rfl
@[simp] theorem State.giveUpLevel_cacheClearing (s : State) : (s.giveUpLevel).cacheClearing = s.cacheClearing := rfl
@[simp] theorem State.giveUpLevel_mem (s : State) : (s.giveUpLevel).mem = s.mem := rfl
@[simp] theorem State.giveUpLevel_ecc (s : State) : (s.giveUpLevel).ecc = s.ecc := rfl
@[simp] theorem State.giveUpLevel_wcs (s : State) : (s.giveUpLevel).wcs = s.wcs := rfl
@[simp] theorem State.giveUpLevel_wcsLoaded (s : State) : (s.giveUpLevel).wcsLoaded = s.wcsLoaded := rfl
@[simp] theorem State.giveUpLevel_runState (s : State) : (s.giveUpLevel).runState = s.runState := rfl
@[simp] theorem State.giveUpLevel_opcomActive (s : State) : (s.giveUpLevel).opcomActive = s.opcomActive := rfl
@[simp] theorem State.giveUpLevel_boundaryDone (s : State) : (s.giveUpLevel).boundaryDone = s.boundaryDone := rfl
@[simp] theorem State.giveUpLevel_clock (s : State) : (s.giveUpLevel).clock = s.clock := rfl
@[simp] theorem State.giveUpLevel_console (s : State) : (s.giveUpLevel).console = s.console := rfl
@[simp] theorem State.giveUpLevel_panel (s : State) : (s.giveUpLevel).panel = s.panel := rfl
@[simp] theorem State.giveUpLevel_devices (s : State) : (s.giveUpLevel).devices = s.devices := rfl
@[simp] theorem State.giveUpLevel_mopc (s : State) : (s.giveUpLevel).mopc = s.mopc := rfl
@[simp] theorem State.giveUpLevel_busMonitor (s : State) : (s.giveUpLevel).busMonitor = s.busMonitor := rfl
@[simp] theorem State.giveUpLevel_loader (s : State) : (s.giveUpLevel).loader = s.loader := rfl
@[simp] theorem State.giveUpLevel_panelKey (s : State) : (s.giveUpLevel).panelKey = s.panelKey := rfl
@[simp] theorem State.giveUpLevel_events (s : State) : (s.giveUpLevel).events = s.events := rfl
@[simp] theorem State.giveUpLevel_steals (s : State) : (s.giveUpLevel).steals = s.steals := rfl
@[simp] theorem State.giveUpLevel_watch (s : State) : (s.giveUpLevel).watch = s.watch := rfl
@[simp] theorem State.giveUpLevel_freeCount (s : State) : (s.giveUpLevel).freeCount = s.freeCount := rfl

@[simp] theorem State.enterOpcom_cfg (s : State) : (s.enterOpcom).cfg = s.cfg := rfl
@[simp] theorem State.enterOpcom_regs (s : State) : (s.enterOpcom).regs = s.regs := rfl
@[simp] theorem State.enterOpcom_pil (s : State) : (s.enterOpcom).pil = s.pil := rfl
@[simp] theorem State.enterOpcom_pvl (s : State) : (s.enterOpcom).pvl = s.pvl := rfl
@[simp] theorem State.enterOpcom_ioni (s : State) : (s.enterOpcom).ioni = s.ioni := rfl
@[simp] theorem State.enterOpcom_poni (s : State) : (s.enterOpcom).poni = s.poni := rfl
@[simp] theorem State.enterOpcom_sexi (s : State) : (s.enterOpcom).sexi = s.sexi := rfl
@[simp] theorem State.enterOpcom_pie (s : State) : (s.enterOpcom).pie = s.pie := rfl
@[simp] theorem State.enterOpcom_pid (s : State) : (s.enterOpcom).pid = s.pid := rfl
@[simp] theorem State.enterOpcom_iie (s : State) : (s.enterOpcom).iie = s.iie := rfl
@[simp] theorem State.enterOpcom_iid (s : State) : (s.enterOpcom).iid = s.iid := rfl
@[simp] theorem State.enterOpcom_iic (s : State) : (s.enterOpcom).iic = s.iic := rfl
@[simp] theorem State.enterOpcom_iicLock (s : State) : (s.enterOpcom).iicLock = s.iicLock := rfl
@[simp] theorem State.enterOpcom_opr (s : State) : (s.enterOpcom).opr = s.opr := rfl
@[simp] theorem State.enterOpcom_lmp (s : State) : (s.enterOpcom).lmp = s.lmp := rfl
@[simp] theorem State.enterOpcom_pcr (s : State) : (s.enterOpcom).pcr = s.pcr := rfl
@[simp] theorem State.enterOpcom_psr (s : State) : (s.enterOpcom).psr = s.psr := rfl
@[simp] theorem State.enterOpcom_psrLock (s : State) : (s.enterOpcom).psrLock = s.psrLock := rfl
@[simp] theorem State.enterOpcom_pes (s : State) : (s.enterOpcom).pes = s.pes := rfl
@[simp] theorem State.enterOpcom_pea (s : State) : (s.enterOpcom).pea = s.pea := rfl
@[simp] theorem State.enterOpcom_pesLock (s : State) : (s.enterOpcom).pesLock = s.pesLock := rfl
@[simp] theorem State.enterOpcom_eccr (s : State) : (s.enterOpcom).eccr = s.eccr := rfl
@[simp] theorem State.enterOpcom_prot (s : State) : (s.enterOpcom).prot = s.prot := rfl
@[simp] theorem State.enterOpcom_map (s : State) : (s.enterOpcom).map = s.map := rfl
@[simp] theorem State.enterOpcom_lcil (s : State) : (s.enterOpcom).lcil = s.lcil := rfl
@[simp] theorem State.enterOpcom_ucil (s : State) : (s.enterOpcom).ucil = s.ucil := rfl
@[simp] theorem State.enterOpcom_cache (s : State) : (s.enterOpcom).cache = s.cache := rfl
@[simp] theorem State.enterOpcom_cacheClearing (s : State) : (s.enterOpcom).cacheClearing = s.cacheClearing := rfl
@[simp] theorem State.enterOpcom_mem (s : State) : (s.enterOpcom).mem = s.mem := rfl
@[simp] theorem State.enterOpcom_ecc (s : State) : (s.enterOpcom).ecc = s.ecc := rfl
@[simp] theorem State.enterOpcom_wcs (s : State) : (s.enterOpcom).wcs = s.wcs := rfl
@[simp] theorem State.enterOpcom_wcsLoaded (s : State) : (s.enterOpcom).wcsLoaded = s.wcsLoaded := rfl
@[simp] theorem State.enterOpcom_runState (s : State) : (s.enterOpcom).runState = s.runState := rfl
@[simp] theorem State.enterOpcom_boundaryDone (s : State) : (s.enterOpcom).boundaryDone = s.boundaryDone := rfl
@[simp] theorem State.enterOpcom_clock (s : State) : (s.enterOpcom).clock = s.clock := rfl
@[simp] theorem State.enterOpcom_console (s : State) : (s.enterOpcom).console = s.console := rfl
@[simp] theorem State.enterOpcom_panel (s : State) : (s.enterOpcom).panel = s.panel := rfl
@[simp] theorem State.enterOpcom_devices (s : State) : (s.enterOpcom).devices = s.devices := rfl
@[simp] theorem State.enterOpcom_busMonitor (s : State) : (s.enterOpcom).busMonitor = s.busMonitor := rfl
@[simp] theorem State.enterOpcom_loader (s : State) : (s.enterOpcom).loader = s.loader := rfl
@[simp] theorem State.enterOpcom_panelKey (s : State) : (s.enterOpcom).panelKey = s.panelKey := rfl
@[simp] theorem State.enterOpcom_events (s : State) : (s.enterOpcom).events = s.events := rfl
@[simp] theorem State.enterOpcom_steals (s : State) : (s.enterOpcom).steals = s.steals := rfl
@[simp] theorem State.enterOpcom_watch (s : State) : (s.enterOpcom).watch = s.watch := rfl
@[simp] theorem State.enterOpcom_freeCount (s : State) : (s.enterOpcom).freeCount = s.freeCount := rfl

@[simp] theorem State.enterStop_cfg (s : State) : (s.enterStop).cfg = s.cfg := rfl
@[simp] theorem State.enterStop_regs (s : State) : (s.enterStop).regs = s.regs := rfl
@[simp] theorem State.enterStop_pil (s : State) : (s.enterStop).pil = s.pil := rfl
@[simp] theorem State.enterStop_pvl (s : State) : (s.enterStop).pvl = s.pvl := rfl
@[simp] theorem State.enterStop_ioni (s : State) : (s.enterStop).ioni = s.ioni := rfl
@[simp] theorem State.enterStop_poni (s : State) : (s.enterStop).poni = s.poni := rfl
@[simp] theorem State.enterStop_sexi (s : State) : (s.enterStop).sexi = s.sexi := rfl
@[simp] theorem State.enterStop_pie (s : State) : (s.enterStop).pie = s.pie := rfl
@[simp] theorem State.enterStop_pid (s : State) : (s.enterStop).pid = s.pid := rfl
@[simp] theorem State.enterStop_iie (s : State) : (s.enterStop).iie = s.iie := rfl
@[simp] theorem State.enterStop_iid (s : State) : (s.enterStop).iid = s.iid := rfl
@[simp] theorem State.enterStop_iic (s : State) : (s.enterStop).iic = s.iic := rfl
@[simp] theorem State.enterStop_iicLock (s : State) : (s.enterStop).iicLock = s.iicLock := rfl
@[simp] theorem State.enterStop_opr (s : State) : (s.enterStop).opr = s.opr := rfl
@[simp] theorem State.enterStop_lmp (s : State) : (s.enterStop).lmp = s.lmp := rfl
@[simp] theorem State.enterStop_pcr (s : State) : (s.enterStop).pcr = s.pcr := rfl
@[simp] theorem State.enterStop_psr (s : State) : (s.enterStop).psr = s.psr := rfl
@[simp] theorem State.enterStop_psrLock (s : State) : (s.enterStop).psrLock = s.psrLock := rfl
@[simp] theorem State.enterStop_pes (s : State) : (s.enterStop).pes = s.pes := rfl
@[simp] theorem State.enterStop_pea (s : State) : (s.enterStop).pea = s.pea := rfl
@[simp] theorem State.enterStop_pesLock (s : State) : (s.enterStop).pesLock = s.pesLock := rfl
@[simp] theorem State.enterStop_eccr (s : State) : (s.enterStop).eccr = s.eccr := rfl
@[simp] theorem State.enterStop_prot (s : State) : (s.enterStop).prot = s.prot := rfl
@[simp] theorem State.enterStop_map (s : State) : (s.enterStop).map = s.map := rfl
@[simp] theorem State.enterStop_lcil (s : State) : (s.enterStop).lcil = s.lcil := rfl
@[simp] theorem State.enterStop_ucil (s : State) : (s.enterStop).ucil = s.ucil := rfl
@[simp] theorem State.enterStop_cache (s : State) : (s.enterStop).cache = s.cache := rfl
@[simp] theorem State.enterStop_cacheClearing (s : State) : (s.enterStop).cacheClearing = s.cacheClearing := rfl
@[simp] theorem State.enterStop_mem (s : State) : (s.enterStop).mem = s.mem := rfl
@[simp] theorem State.enterStop_ecc (s : State) : (s.enterStop).ecc = s.ecc := rfl
@[simp] theorem State.enterStop_wcs (s : State) : (s.enterStop).wcs = s.wcs := rfl
@[simp] theorem State.enterStop_wcsLoaded (s : State) : (s.enterStop).wcsLoaded = s.wcsLoaded := rfl
@[simp] theorem State.enterStop_boundaryDone (s : State) : (s.enterStop).boundaryDone = s.boundaryDone := rfl
@[simp] theorem State.enterStop_clock (s : State) : (s.enterStop).clock = s.clock := rfl
@[simp] theorem State.enterStop_console (s : State) : (s.enterStop).console = s.console := rfl
@[simp] theorem State.enterStop_panel (s : State) : (s.enterStop).panel = s.panel := rfl
@[simp] theorem State.enterStop_devices (s : State) : (s.enterStop).devices = s.devices := rfl
@[simp] theorem State.enterStop_busMonitor (s : State) : (s.enterStop).busMonitor = s.busMonitor := rfl
@[simp] theorem State.enterStop_loader (s : State) : (s.enterStop).loader = s.loader := rfl
@[simp] theorem State.enterStop_panelKey (s : State) : (s.enterStop).panelKey = s.panelKey := rfl
@[simp] theorem State.enterStop_events (s : State) : (s.enterStop).events = s.events := rfl
@[simp] theorem State.enterStop_steals (s : State) : (s.enterStop).steals = s.steals := rfl
@[simp] theorem State.enterStop_watch (s : State) : (s.enterStop).watch = s.watch := rfl
@[simp] theorem State.enterStop_freeCount (s : State) : (s.enterStop).freeCount = s.freeCount := rfl

end Sys2Proof.Machine
end

