-- ==== Sys2Proof/Laws/Registers.lean ====
section
/-! SUPPORT. Reading back what was written: register sets, registers of the current level, flags, paging control registers,
page table entries. -/

namespace Sys2Proof.Machine

@[simp] theorem State.reg_setReg_self (s : State) (l : BitVec 4) (r : RegSet) : (s.setReg l r).reg l = r := by
  simp [State.reg, State.setReg]

theorem State.reg_setReg_ne (s : State) {l k : BitVec 4} (r : RegSet) (h : k ≠ l) :
    (s.setReg l r).reg k = s.reg k := by
  have : l.toNat ≠ k.toNat := fun e => h (BitVec.eq_of_toNat_eq e.symm)
  simp [State.reg, State.setReg, this]

@[simp] theorem State.setReg_setReg (s : State) (l : BitVec 4) (r q : RegSet) :
    (s.setReg l r).setReg l q = s.setReg l q := by
  simp [State.setReg]

@[simp] theorem State.cur_setCur (s : State) (r : RegSet) : (s.setCur r).cur = r := by
  simp [State.cur, State.setCur]

theorem State.reg_setCur_ne (s : State) {k : BitVec 4} (r : RegSet) (h : k ≠ s.pil) : (s.setCur r).reg k = s.reg k :=
  s.reg_setReg_ne r h

@[simp] theorem State.setCur_setCur (s : State) (r q : RegSet) : (s.setCur r).setCur q = s.setCur q := by
  simp [State.setCur]

@[simp] theorem State.cur_setSts (s : State) (v : BitVec 8) : (s.setSts v).cur = { s.cur with sts := v } :=
  s.cur_setCur _

theorem State.reg_setSts_ne (s : State) (v : BitVec 8) {k : BitVec 4} (h : k ≠ s.pil) : (s.setSts v).reg k = s.reg k :=
  s.reg_setCur_ne _ h

@[simp] theorem State.sts_setSts (s : State) (v : BitVec 8) : (s.setSts v).sts = v := by simp [State.sts]
@[simp] theorem State.d_setSts (s : State) (v : BitVec 8) : (s.setSts v).d = s.d := by simp [State.d]
@[simp] theorem State.p_setSts (s : State) (v : BitVec 8) : (s.setSts v).p = s.p := by simp [State.p]
@[simp] theorem State.b_setSts (s : State) (v : BitVec 8) : (s.setSts v).b = s.b := by simp [State.b]
@[simp] theorem State.l_setSts (s : State) (v : BitVec 8) : (s.setSts v).l = s.l := by simp [State.l]
@[simp] theorem State.a_setSts (s : State) (v : BitVec 8) : (s.setSts v).a = s.a := by simp [State.a]
@[simp] theorem State.t_setSts (s : State) (v : BitVec 8) : (s.setSts v).t = s.t := by simp [State.t]
@[simp] theorem State.x_setSts (s : State) (v : BitVec 8) : (s.setSts v).x = s.x := by simp [State.x]

@[simp] theorem State.cur_setD (s : State) (v : Word) : (s.setD v).cur = { s.cur with d := v } :=
  s.cur_setCur _

theorem State.reg_setD_ne (s : State) (v : Word) {k : BitVec 4} (h : k ≠ s.pil) : (s.setD v).reg k = s.reg k :=
  s.reg_setCur_ne _ h

@[simp] theorem State.sts_setD (s : State) (v : Word) : (s.setD v).sts = s.sts := by simp [State.sts]
@[simp] theorem State.d_setD (s : State) (v : Word) : (s.setD v).d = v := by simp [State.d]
@[simp] theorem State.p_setD (s : State) (v : Word) : (s.setD v).p = s.p := by simp [State.p]
@[simp] theorem State.b_setD (s : State) (v : Word) : (s.setD v).b = s.b := by simp [State.b]
@[simp] theorem State.l_setD (s : State) (v : Word) : (s.setD v).l = s.l := by simp [State.l]
@[simp] theorem State.a_setD (s : State) (v : Word) : (s.setD v).a = s.a := by simp [State.a]
@[simp] theorem State.t_setD (s : State) (v : Word) : (s.setD v).t = s.t := by simp [State.t]
@[simp] theorem State.x_setD (s : State) (v : Word) : (s.setD v).x = s.x := by simp [State.x]

@[simp] theorem State.cur_setP (s : State) (v : Word) : (s.setP v).cur = { s.cur with p := v } :=
  s.cur_setCur _

theorem State.reg_setP_ne (s : State) (v : Word) {k : BitVec 4} (h : k ≠ s.pil) : (s.setP v).reg k = s.reg k :=
  s.reg_setCur_ne _ h

@[simp] theorem State.sts_setP (s : State) (v : Word) : (s.setP v).sts = s.sts := by simp [State.sts]
@[simp] theorem State.d_setP (s : State) (v : Word) : (s.setP v).d = s.d := by simp [State.d]
@[simp] theorem State.p_setP (s : State) (v : Word) : (s.setP v).p = v := by simp [State.p]
@[simp] theorem State.b_setP (s : State) (v : Word) : (s.setP v).b = s.b := by simp [State.b]
@[simp] theorem State.l_setP (s : State) (v : Word) : (s.setP v).l = s.l := by simp [State.l]
@[simp] theorem State.a_setP (s : State) (v : Word) : (s.setP v).a = s.a := by simp [State.a]
@[simp] theorem State.t_setP (s : State) (v : Word) : (s.setP v).t = s.t := by simp [State.t]
@[simp] theorem State.x_setP (s : State) (v : Word) : (s.setP v).x = s.x := by simp [State.x]

@[simp] theorem State.cur_setB (s : State) (v : Word) : (s.setB v).cur = { s.cur with b := v } :=
  s.cur_setCur _

theorem State.reg_setB_ne (s : State) (v : Word) {k : BitVec 4} (h : k ≠ s.pil) : (s.setB v).reg k = s.reg k :=
  s.reg_setCur_ne _ h

@[simp] theorem State.sts_setB (s : State) (v : Word) : (s.setB v).sts = s.sts := by simp [State.sts]
@[simp] theorem State.d_setB (s : State) (v : Word) : (s.setB v).d = s.d := by simp [State.d]
@[simp] theorem State.p_setB (s : State) (v : Word) : (s.setB v).p = s.p := by simp [State.p]
@[simp] theorem State.b_setB (s : State) (v : Word) : (s.setB v).b = v := by simp [State.b]
@[simp] theorem State.l_setB (s : State) (v : Word) : (s.setB v).l = s.l := by simp [State.l]
@[simp] theorem State.a_setB (s : State) (v : Word) : (s.setB v).a = s.a := by simp [State.a]
@[simp] theorem State.t_setB (s : State) (v : Word) : (s.setB v).t = s.t := by simp [State.t]
@[simp] theorem State.x_setB (s : State) (v : Word) : (s.setB v).x = s.x := by simp [State.x]

@[simp] theorem State.cur_setL (s : State) (v : Word) : (s.setL v).cur = { s.cur with l := v } :=
  s.cur_setCur _

theorem State.reg_setL_ne (s : State) (v : Word) {k : BitVec 4} (h : k ≠ s.pil) : (s.setL v).reg k = s.reg k :=
  s.reg_setCur_ne _ h

@[simp] theorem State.sts_setL (s : State) (v : Word) : (s.setL v).sts = s.sts := by simp [State.sts]
@[simp] theorem State.d_setL (s : State) (v : Word) : (s.setL v).d = s.d := by simp [State.d]
@[simp] theorem State.p_setL (s : State) (v : Word) : (s.setL v).p = s.p := by simp [State.p]
@[simp] theorem State.b_setL (s : State) (v : Word) : (s.setL v).b = s.b := by simp [State.b]
@[simp] theorem State.l_setL (s : State) (v : Word) : (s.setL v).l = v := by simp [State.l]
@[simp] theorem State.a_setL (s : State) (v : Word) : (s.setL v).a = s.a := by simp [State.a]
@[simp] theorem State.t_setL (s : State) (v : Word) : (s.setL v).t = s.t := by simp [State.t]
@[simp] theorem State.x_setL (s : State) (v : Word) : (s.setL v).x = s.x := by simp [State.x]

@[simp] theorem State.cur_setA (s : State) (v : Word) : (s.setA v).cur = { s.cur with a := v } :=
  s.cur_setCur _

theorem State.reg_setA_ne (s : State) (v : Word) {k : BitVec 4} (h : k ≠ s.pil) : (s.setA v).reg k = s.reg k :=
  s.reg_setCur_ne _ h

@[simp] theorem State.sts_setA (s : State) (v : Word) : (s.setA v).sts = s.sts := by simp [State.sts]
@[simp] theorem State.d_setA (s : State) (v : Word) : (s.setA v).d = s.d := by simp [State.d]
@[simp] theorem State.p_setA (s : State) (v : Word) : (s.setA v).p = s.p := by simp [State.p]
@[simp] theorem State.b_setA (s : State) (v : Word) : (s.setA v).b = s.b := by simp [State.b]
@[simp] theorem State.l_setA (s : State) (v : Word) : (s.setA v).l = s.l := by simp [State.l]
@[simp] theorem State.a_setA (s : State) (v : Word) : (s.setA v).a = v := by simp [State.a]
@[simp] theorem State.t_setA (s : State) (v : Word) : (s.setA v).t = s.t := by simp [State.t]
@[simp] theorem State.x_setA (s : State) (v : Word) : (s.setA v).x = s.x := by simp [State.x]

@[simp] theorem State.cur_setT (s : State) (v : Word) : (s.setT v).cur = { s.cur with t := v } :=
  s.cur_setCur _

theorem State.reg_setT_ne (s : State) (v : Word) {k : BitVec 4} (h : k ≠ s.pil) : (s.setT v).reg k = s.reg k :=
  s.reg_setCur_ne _ h

@[simp] theorem State.sts_setT (s : State) (v : Word) : (s.setT v).sts = s.sts := by simp [State.sts]
@[simp] theorem State.d_setT (s : State) (v : Word) : (s.setT v).d = s.d := by simp [State.d]
@[simp] theorem State.p_setT (s : State) (v : Word) : (s.setT v).p = s.p := by simp [State.p]
@[simp] theorem State.b_setT (s : State) (v : Word) : (s.setT v).b = s.b := by simp [State.b]
@[simp] theorem State.l_setT (s : State) (v : Word) : (s.setT v).l = s.l := by simp [State.l]
@[simp] theorem State.a_setT (s : State) (v : Word) : (s.setT v).a = s.a := by simp [State.a]
@[simp] theorem State.t_setT (s : State) (v : Word) : (s.setT v).t = v := by simp [State.t]
@[simp] theorem State.x_setT (s : State) (v : Word) : (s.setT v).x = s.x := by simp [State.x]

@[simp] theorem State.cur_setX (s : State) (v : Word) : (s.setX v).cur = { s.cur with x := v } :=
  s.cur_setCur _

theorem State.reg_setX_ne (s : State) (v : Word) {k : BitVec 4} (h : k ≠ s.pil) : (s.setX v).reg k = s.reg k :=
  s.reg_setCur_ne _ h

@[simp] theorem State.sts_setX (s : State) (v : Word) : (s.setX v).sts = s.sts := by simp [State.sts]
@[simp] theorem State.d_setX (s : State) (v : Word) : (s.setX v).d = s.d := by simp [State.d]
@[simp] theorem State.p_setX (s : State) (v : Word) : (s.setX v).p = s.p := by simp [State.p]
@[simp] theorem State.b_setX (s : State) (v : Word) : (s.setX v).b = s.b := by simp [State.b]
@[simp] theorem State.l_setX (s : State) (v : Word) : (s.setX v).l = s.l := by simp [State.l]
@[simp] theorem State.a_setX (s : State) (v : Word) : (s.setX v).a = s.a := by simp [State.a]
@[simp] theorem State.t_setX (s : State) (v : Word) : (s.setX v).t = s.t := by simp [State.t]
@[simp] theorem State.x_setX (s : State) (v : Word) : (s.setX v).x = v := by simp [State.x]

@[simp] theorem State.p_advance (s : State) : s.advance.p = s.p + 1 := by simp [State.advance]
@[simp] theorem State.p_skip (s : State) : s.skip.p = s.p + 2 := by simp [State.skip]

@[simp] theorem State.sts_advance (s : State) : s.advance.sts = s.sts := by simp [State.advance]
@[simp] theorem State.d_advance (s : State) : s.advance.d = s.d := by simp [State.advance]
@[simp] theorem State.b_advance (s : State) : s.advance.b = s.b := by simp [State.advance]
@[simp] theorem State.l_advance (s : State) : s.advance.l = s.l := by simp [State.advance]
@[simp] theorem State.a_advance (s : State) : s.advance.a = s.a := by simp [State.advance]
@[simp] theorem State.t_advance (s : State) : s.advance.t = s.t := by simp [State.advance]
@[simp] theorem State.x_advance (s : State) : s.advance.x = s.x := by simp [State.advance]
@[simp] theorem State.sts_skip (s : State) : s.skip.sts = s.sts := by simp [State.skip]
@[simp] theorem State.d_skip (s : State) : s.skip.d = s.d := by simp [State.skip]
@[simp] theorem State.b_skip (s : State) : s.skip.b = s.b := by simp [State.skip]
@[simp] theorem State.l_skip (s : State) : s.skip.l = s.l := by simp [State.skip]
@[simp] theorem State.a_skip (s : State) : s.skip.a = s.a := by simp [State.skip]
@[simp] theorem State.t_skip (s : State) : s.skip.t = s.t := by simp [State.skip]
@[simp] theorem State.x_skip (s : State) : s.skip.x = s.x := by simp [State.skip]

@[simp] theorem State.flag_advance (s : State) (f : Flag) : s.advance.flag f = s.flag f := by simp [State.flag]
@[simp] theorem State.flag_skip (s : State) (f : Flag) : s.skip.flag f = s.flag f := by simp [State.flag]

/-- A written bit reads back, another bit stays. -/
theorem getLsbD_setBit {w : Nat} (v : BitVec w) (i j : Nat) (b : Bool) (hj : j < w) :
    (setBit v i b).getLsbD j = if j = i then b else v.getLsbD j := by
  unfold setBit
  by_cases h : j = i
  · subst h; cases b <;> simp [hj]
  · cases b <;> simp [hj, h]

theorem Flag.bit_lt (f : Flag) : f.bit < 8 := by cases f <;> decide

theorem Flag.bit_inj {f g : Flag} (h : f.bit = g.bit) : f = g := by cases f <;> cases g <;> first | rfl | cases h

@[simp] theorem State.flag_setFlag_self (s : State) (f : Flag) (b : Bool) : (s.setFlag f b).flag f = b := by
  simp [State.flag, State.setFlag, getLsbD_setBit _ _ _ _ f.bit_lt]

theorem State.flag_setFlag_ne (s : State) {f g : Flag} (b : Bool) (h : g ≠ f) :
    (s.setFlag f b).flag g = s.flag g := by
  have : g.bit ≠ f.bit := fun e => h (Flag.bit_inj e)
  simp [State.flag, State.setFlag, getLsbD_setBit _ _ _ _ g.bit_lt, this]

@[simp] theorem State.pcrOf_setPcr_self (s : State) (l : BitVec 4) (r : Pcr) : (s.setPcr l r).pcrOf l = r := by
  simp [State.pcrOf, State.setPcr]

theorem State.pcrOf_setPcr_ne (s : State) {l k : BitVec 4} (r : Pcr) (h : k ≠ l) :
    (s.setPcr l r).pcrOf k = s.pcrOf k := by
  have : l.toNat ≠ k.toNat := fun e => h (BitVec.eq_of_toNat_eq e.symm)
  simp [State.pcrOf, State.setPcr, this]

@[simp] theorem State.protAt_setProt_self (s : State) (e : BitVec 8) (w : Word) : (s.setProt e w).protAt e = w := by
  simp [State.protAt, State.setProt]

theorem State.protAt_setProt_ne (s : State) {e e' : BitVec 8} (w : Word) (h : e' ≠ e) :
    (s.setProt e w).protAt e' = s.protAt e' := by
  have : e.toNat ≠ e'.toNat := fun q => h (BitVec.eq_of_toNat_eq q.symm)
  simp [State.protAt, State.setProt, this]

@[simp] theorem State.mapAt_setMap_self (s : State) (e : BitVec 8) (w : Word) : (s.setMap e w).mapAt e = w := by
  simp [State.mapAt, State.setMap]

theorem State.mapAt_setMap_ne (s : State) {e e' : BitVec 8} (w : Word) (h : e' ≠ e) :
    (s.setMap e w).mapAt e' = s.mapAt e' := by
  have : e.toNat ≠ e'.toNat := fun q => h (BitVec.eq_of_toNat_eq q.symm)
  simp [State.mapAt, State.setMap, this]

@[simp] theorem State.protAt_setMap (s : State) (e e' : BitVec 8) (w : Word) : (s.setMap e w).protAt e' = s.protAt e' :=
  rfl

@[simp] theorem State.mapAt_setProt (s : State) (e e' : BitVec 8) (w : Word) : (s.setProt e w).mapAt e' = s.mapAt e' :=
  rfl

/-- A register of a set reads back; number 0 holds eight bits. -/
theorem RegSet.get_put_self (r : RegSet) (n : RField) (v : Word) :
    (r.put n v).get n = if n = .zero then v &&& 0o377 else v := by
  cases n <;> simp [RegSet.get, RegSet.put]
  have h : v.toNat % 256 % 65536 = v.toNat % 256 := Nat.mod_eq_of_lt (by omega)
  exact BitVec.eq_of_toNat_eq (by simpa [h] using (Nat.and_two_pow_sub_one_eq_mod v.toNat 8).symm)

theorem RegSet.get_put_ne (r : RegSet) {n m : RField} (v : Word) (h : m ≠ n) : (r.put n v).get m = r.get m := by
  cases n <;> cases m <;> first | rfl | exact absurd rfl h

end Sys2Proof.Machine
end

