-- ==== Sys2Proof/Laws/Ops.lean ====
section
/-! SUPPORT. What the shared operations can do, each said once: their answers by cases, and the fields of the state they can
change. A frame says that the new state is the old one but for the named fields. -/

namespace Sys2Proof.Machine

/-! ### Accesses in sequence -/

@[simp] theorem Access.bind_done {α β : Type} (v : α) (s : State) (f : α → State → Access β) :
    (Access.done v s).bind f = f v s := rfl

@[simp] theorem Access.bind_aborted {α β : Type} (s : State) (f : α → State → Access β) :
    (Access.aborted s : Access α).bind f = .aborted s := rfl

theorem Access.bind_eq_done {α β : Type} {x : Access α} {f : α → State → Access β} {v : β} {t : State} :
    x.bind f = .done v t ↔ ∃ u s, x = .done u s ∧ f u s = .done v t := by
  cases x <;> simp

theorem Access.bind_eq_aborted {α β : Type} {x : Access α} {f : α → State → Access β} {t : State} :
    x.bind f = .aborted t ↔ x = .aborted t ∨ ∃ u s, x = .done u s ∧ f u s = .aborted t := by
  cases x <;> simp

@[simp] theorem Access.complete_done {α : Type} (v : α) (s : State) (k : α → State → Result) :
    (Access.done v s).complete k = k v s := rfl

@[simp] theorem Access.complete_aborted {α : Type} (s : State) (k : α → State → Result) :
    (Access.aborted s : Access α).complete k = .next s.advance := rfl

/-- An instruction that ends with the value of its accesses, or aborts with P at the next word. -/
theorem Access.complete_eq_next {α : Type} {x : Access α} {k : α → State → Result} {t : State} :
    x.complete k = .next t ↔
      (∃ v s, x = .done v s ∧ k v s = .next t) ∨ ∃ s, x = .aborted s ∧ t = s.advance := by
  cases x <;> simp [eq_comm]

/-! ### Interrupts -/

/-- What latching an internal interrupt can change. -/
theorem State.latchInternal_frame (s : State) :
    s.latchInternal =
      { s with
        iic := s.latchInternal.iic, iicLock := s.latchInternal.iicLock, iid := s.latchInternal.iid
        pid := s.latchInternal.pid } := by
  unfold State.latchInternal; dsimp only; split <;> rfl

/-- What the test between instructions can change (`spec/60_exceptions.md` R660). -/
theorem State.test_frame (s : State) :
    s.test =
      { s with
        iic := s.test.iic, iicLock := s.test.iicLock, iid := s.test.iid, pid := s.test.pid, pil := s.test.pil
        pvl := s.test.pvl, boundaryDone := true } := by
  unfold State.test State.changeLevel
  dsimp only
  split <;> rw [State.latchInternal_frame]

/-- The highest 1 bit below `n`: the bits from it up to `n` are 0. -/
theorem highestBit_above (w : Word) (n m : Nat) (h : highestBit w n < m) (hm : m < n) : w.getLsbD m = false := by
  induction n with
  | zero => omega
  | succ n ih =>
    unfold highestBit at h
    split at h
    · omega
    · rename_i hn
      rcases Nat.lt_succ_iff_lt_or_eq.1 hm with hm | rfl
      · exact ih h hm
      · simpa using hn

/-- A 1 bit below `n` makes the highest 1 bit one. -/
theorem highestBit_set (w : Word) (n m : Nat) (hm : m < n) (h : w.getLsbD m = true) :
    w.getLsbD (highestBit w n) = true := by
  induction n with
  | zero => omega
  | succ n ih =>
    unfold highestBit
    split
    · assumption
    · rename_i hn
      rcases Nat.lt_succ_iff_lt_or_eq.1 hm with hm | rfl
      · exact ih hm
      · exact absurd h hn

theorem highestBit_lt (w : Word) (n : Nat) (hn : 0 < n) : highestBit w n < n := by
  induction n with
  | zero => omega
  | succ n ih =>
    unfold highestBit
    split
    · omega
    · rcases Nat.eq_zero_or_pos n with rfl | h
      · simp [highestBit]
      · exact (ih h).trans n.lt_succ_self

/-! ### Physical memory and the cache -/

theorem State.latchMemError_frame (s : State) (src : MemSource) (pa : PhysAddr) (code : BitVec 6) :
    s.latchMemError src pa code =
      { s with
        pes := (s.latchMemError src pa code).pes, pea := (s.latchMemError src pa code).pea
        pesLock := (s.latchMemError src pa code).pesLock } := by
  unfold State.latchMemError; split <;> rfl

/-- A memory cycle on the bus changes at most the Bus Monitor Register. -/
theorem State.strobe_frame (s : State) (src : MemSource) (write : Bool) (pa : PhysAddr) (w : Word) :
    s.strobe src write pa w = { s with busMonitor := (s.strobe src write pa w).busMonitor } := by
  unfold State.strobe; split <;> rfl

/-- Where internal register 23 selects neither reads nor writes, nothing is sampled (`spec/62_operator.md` R850). -/
theorem State.strobe_quiet {s : State} (h : s.mopc.bus &&& 3 = 0) (src : MemSource) (write : Bool) (pa : PhysAddr)
    (w : Word) : s.strobe src write pa w = s := by
  have hb : s.mopc.bus.getLsbD (if write then 1 else 0) = false := by
    revert h
    generalize s.mopc.bus = b
    cases write <;> revert b <;> decide
  simp [State.strobe, State.monitors, hb]

/-- A physical read changes at most the error registers, IID, the count of draws and the Bus Monitor Register. -/
theorem State.physRead_frame (s : State) (src : MemSource) (pa : PhysAddr) :
    (s.physRead src pa).2 =
      { s with
        iid := (s.physRead src pa).2.iid, pes := (s.physRead src pa).2.pes, pea := (s.physRead src pa).2.pea
        pesLock := (s.physRead src pa).2.pesLock, freeCount := (s.physRead src pa).2.freeCount
        busMonitor := (s.physRead src pa).2.busMonitor } := by
  unfold State.physRead State.outOfRange State.memoryError State.latchMemError State.raise State.drawWord
  dsimp only
  split
  · rw [State.strobe_frame]
    split
    · split <;> rfl
    · rfl
  · rw [State.strobe_frame]
    split <;> rfl

/-- A physical write changes at most memory with its check bits, the error registers, IID, the count of draws and the Bus
Monitor Register. -/
theorem State.physWrite_frame (s : State) (src : MemSource) (pa : PhysAddr) (w : Word) :
    s.physWrite src pa w =
      { s with
        mem := (s.physWrite src pa w).mem, ecc := (s.physWrite src pa w).ecc, iid := (s.physWrite src pa w).iid
        pes := (s.physWrite src pa w).pes, pea := (s.physWrite src pa w).pea
        pesLock := (s.physWrite src pa w).pesLock, freeCount := (s.physWrite src pa w).freeCount
        busMonitor := (s.physWrite src pa w).busMonitor } := by
  unfold State.physWrite State.outOfRange State.latchMemError State.raise State.drawWord
  dsimp only
  rw [State.strobe_frame]
  split
  · rfl
  · split <;> rfl

theorem State.cacheFill_frame (s : State) (pa : PhysAddr) (w : Word) :
    s.cacheFill pa w = { s with cache := (s.cacheFill pa w).cache } := by
  unfold State.cacheFill; split <;> rfl

/-! ### Other agents on the bus -/

/-- A DMA word changes at most memory with its check bits, the error registers, IID, the count of draws, the Bus Monitor Register
and the interfaces. -/
theorem State.dmaCycle_frame (s : State) (n : Nat) (word : Option Word) :
    s.dmaCycle n word =
      { s with
        mem := (s.dmaCycle n word).mem, ecc := (s.dmaCycle n word).ecc, iid := (s.dmaCycle n word).iid
        pes := (s.dmaCycle n word).pes, pea := (s.dmaCycle n word).pea, pesLock := (s.dmaCycle n word).pesLock
        freeCount := (s.dmaCycle n word).freeCount, busMonitor := (s.dmaCycle n word).busMonitor
        devices := (s.dmaCycle n word).devices } := by
  unfold State.dmaCycle
  split
  · dsimp only
    unfold State.dmaTransfer
    split
    · rfl
    · split
      · split
        · dsimp only; rw [State.physWrite_frame]
        · rfl
      · split
        · dsimp only; rw [State.physRead_frame]
        · rfl
  · rfl

/-- What a bus cycle of another agent can change: as a DMA word. -/
theorem State.busCycle_frame (s : State) (c : BusCycle) :
    s.busCycle c =
      { s with
        mem := (s.busCycle c).mem, ecc := (s.busCycle c).ecc, iid := (s.busCycle c).iid
        pes := (s.busCycle c).pes, pea := (s.busCycle c).pea, pesLock := (s.busCycle c).pesLock
        freeCount := (s.busCycle c).freeCount, busMonitor := (s.busCycle c).busMonitor, devices := (s.busCycle c).devices } := by
  cases c with
  | dmaIn n w => exact s.dmaCycle_frame n (some w)
  | dmaOut n => exact s.dmaCycle_frame n none
  | foreignWrite pa w => unfold State.busCycle; dsimp only; rw [State.physWrite_frame]
  | foreignRead pa => unfold State.busCycle; dsimp only; rw [State.physRead_frame]

theorem State.busCycles_frame (s : State) (cs : List BusCycle) :
    s.busCycles cs =
      { s with
        mem := (s.busCycles cs).mem, ecc := (s.busCycles cs).ecc, iid := (s.busCycles cs).iid
        pes := (s.busCycles cs).pes, pea := (s.busCycles cs).pea, pesLock := (s.busCycles cs).pesLock
        freeCount := (s.busCycles cs).freeCount, busMonitor := (s.busCycles cs).busMonitor, devices := (s.busCycles cs).devices } := by
  induction cs generalizing s with
  | nil => rfl
  | cons c r ih => unfold State.busCycles; rw [ih, State.busCycle_frame]

/-- With no cycle of another agent planned the bus is the CPU's. -/
theorem State.yieldBus_quiet {s : State} (h : s.steals = []) : s.yieldBus = s := by
  unfold State.yieldBus; rw [h]

/-- What the cycles of other agents before an access of the CPU can change. -/
theorem State.yieldBus_frame (s : State) :
    s.yieldBus =
      { s with
        mem := s.yieldBus.mem, ecc := s.yieldBus.ecc, iid := s.yieldBus.iid, pes := s.yieldBus.pes
        pea := s.yieldBus.pea, pesLock := s.yieldBus.pesLock, freeCount := s.yieldBus.freeCount
        busMonitor := s.yieldBus.busMonitor, devices := s.yieldBus.devices, steals := s.yieldBus.steals } := by
  unfold State.yieldBus
  split
  · rfl
  · rw [State.busCycles_frame]

/-! ### Accesses of the CPU to the bus -/

/-- A read through the cache: a hit, or a physical read that fills the cache, or the physical read alone. -/
theorem State.busRead_eq (s : State) (src : MemSource) (pa : PhysAddr) :
    (∃ w, s.yieldBus.cacheEnabled = true ∧ s.yieldBus.cacheHit pa = some w ∧ s.busRead src pa = (w, s.yieldBus)) ∨
    (s.yieldBus.cacheEnabled = true ∧ s.yieldBus.cacheHit pa = none ∧
      s.busRead src pa =
        ((s.yieldBus.physRead src pa).1,
          (s.yieldBus.physRead src pa).2.cacheFill pa (s.yieldBus.physRead src pa).1)) ∨
    (s.yieldBus.cacheEnabled = false ∧ s.busRead src pa = s.yieldBus.physRead src pa) := by
  unfold State.busRead
  dsimp only
  cases he : s.yieldBus.cacheEnabled
  · exact .inr (.inr ⟨rfl, by simp⟩)
  · cases hh : s.yieldBus.cacheHit pa with
    | some w => exact .inl ⟨w, rfl, rfl, by simp⟩
    | none => exact .inr (.inl ⟨rfl, rfl, by simp⟩)

/-- A read through the cache changes what a physical read changes, the cache, and what other agents change. -/
theorem State.busRead_frame (s : State) (src : MemSource) (pa : PhysAddr) :
    (s.busRead src pa).2 =
      { s with
        mem := s.yieldBus.mem, ecc := s.yieldBus.ecc, devices := s.yieldBus.devices, steals := s.yieldBus.steals
        iid := (s.busRead src pa).2.iid, pes := (s.busRead src pa).2.pes, pea := (s.busRead src pa).2.pea
        pesLock := (s.busRead src pa).2.pesLock, freeCount := (s.busRead src pa).2.freeCount
        busMonitor := (s.busRead src pa).2.busMonitor
        cache := (s.busRead src pa).2.cache } := by
  rcases s.busRead_eq src pa with ⟨w, _, _, e⟩ | ⟨_, _, e⟩ | ⟨_, e⟩ <;> rw [e]
  · dsimp only; rw [State.yieldBus_frame]
  · dsimp only; rw [State.cacheFill_frame, State.physRead_frame, State.yieldBus_frame]
  · rw [State.physRead_frame, State.yieldBus_frame]

/-- A write through the cache: a physical write, and the entry filled when the cache is enabled and a module answers. -/
theorem State.busWrite_eq (s : State) (src : MemSource) (pa : PhysAddr) (w : Word) :
    s.busWrite src pa w =
      if s.yieldBus.cacheEnabled && s.yieldBus.memPresent pa then (s.yieldBus.physWrite src pa w).cacheFill pa w
      else s.yieldBus.physWrite src pa w :=
  rfl

/-- A write through the cache changes what a physical write changes, the cache, and what other agents change. -/
theorem State.busWrite_frame (s : State) (src : MemSource) (pa : PhysAddr) (w : Word) :
    s.busWrite src pa w =
      { s with
        devices := s.yieldBus.devices, steals := s.yieldBus.steals
        mem := (s.busWrite src pa w).mem, ecc := (s.busWrite src pa w).ecc, iid := (s.busWrite src pa w).iid
        pes := (s.busWrite src pa w).pes, pea := (s.busWrite src pa w).pea
        pesLock := (s.busWrite src pa w).pesLock, freeCount := (s.busWrite src pa w).freeCount
        busMonitor := (s.busWrite src pa w).busMonitor
        cache := (s.busWrite src pa w).cache } := by
  rw [State.busWrite_eq]
  split
  · rw [State.cacheFill_frame, State.physWrite_frame, State.yieldBus_frame]
  · rw [State.physWrite_frame, State.yieldBus_frame]

/-! ### Translation -/

theorem State.degrade_frame (s : State) (kind : Kind) (p : Word) :
    s.degrade kind p = { s with pcr := (s.degrade kind p).pcr } := by
  unfold State.degrade; split <;> rfl

/-- The number of an access's entry: 64 to a table, and the page number in it. -/
theorem State.entryFor_toNat (s : State) (rel : Rel) (va : Word) :
    (s.entryFor rel va).toNat = 64 * (s.tableFor rel).toNat + va.toNat / 1024 := by
  unfold State.entryFor
  rw [BitVec.toNat_append, ← Nat.shiftLeft_add_eq_or_of_lt (BitVec.isLt _), BitVec.extractLsb'_toNat, Nat.shiftLeft_eq]
  have := va.isLt
  omega

/-- Where nothing is noted, the use of a page is a write of its marks. -/
theorem State.usePage_unwatched {s : State} (h : s.watch = none) (kind : Kind) (e : BitVec 8) (p : Word) :
    s.usePage kind e p = s.setProt e (markUsed kind p) := by
  unfold State.usePage State.setProt
  rw [h]
  cases s
  cases h
  rfl

/-- What a translation that passes can be. -/
theorem State.translate_done {s t : State} {kind : Kind} {rel : Rel} {va : Word} {pa : PhysAddr}
    (h : s.translate kind rel va = .done pa t) :
    ((s.cfg.hasMms && s.poni) = false ∧ pa = va.zeroExtend 24 ∧ t = s) ∨
    ((s.cfg.hasMms && s.poni) = true ∧ pageCheck kind (s.protAt (s.entryFor rel va)) s.ring = none ∧
      pa = s.pageNumber (s.entryFor rel va) ++ va.extractLsb' 0 10 ∧
      t = (s.degrade kind (s.protAt (s.entryFor rel va))).usePage kind (s.entryFor rel va)
        (s.protAt (s.entryFor rel va))) := by
  unfold State.translate at h
  split at h
  · rename_i hp
    dsimp only at h
    split at h
    · cases h
    · rename_i hc; cases h; exact .inr ⟨hp, hc, rfl, rfl⟩
  · rename_i hp; cases h; exact .inl ⟨by simpa using hp, rfl, rfl⟩

/-- What a translation that is refused can be. -/
theorem State.translate_aborted {s t : State} {kind : Kind} {rel : Rel} {va : Word}
    (h : s.translate kind rel va = .aborted t) :
    (s.cfg.hasMms && s.poni) = true ∧ ∃ r, pageCheck kind (s.protAt (s.entryFor rel va)) s.ring = some r ∧
      t = s.refuseAccess kind r (s.entryFor rel va) := by
  unfold State.translate at h
  split at h
  · rename_i hp
    dsimp only at h
    split at h
    · rename_i r hc; cases h; exact ⟨hp, r, hc, rfl⟩
    · cases h
  · cases h

theorem State.refuseAccess_frame (s : State) (kind : Kind) (r : PageRefusal) (e : BitVec 8) :
    s.refuseAccess kind r e =
      { s with
        psr := (s.refuseAccess kind r e).psr, psrLock := (s.refuseAccess kind r e).psrLock
        iid := (s.refuseAccess kind r e).iid } := by
  unfold State.refuseAccess State.raise; dsimp only; split <;> rfl

theorem State.translate_done_frame {s t : State} {kind : Kind} {rel : Rel} {va : Word} {pa : PhysAddr}
    (h : s.translate kind rel va = .done pa t) : t = { s with pcr := t.pcr, prot := t.prot, watch := t.watch } := by
  rcases State.translate_done h with ⟨_, _, rfl⟩ | ⟨_, _, _, rfl⟩
  · rfl
  · rw [State.degrade_frame]; rfl

theorem State.translate_aborted_frame {s t : State} {kind : Kind} {rel : Rel} {va : Word}
    (h : s.translate kind rel va = .aborted t) : t = { s with psr := t.psr, psrLock := t.psrLock, iid := t.iid } := by
  obtain ⟨_, r, _, rfl⟩ := State.translate_aborted h
  exact State.refuseAccess_frame ..

/-! ### Accesses by a program -/

/-- What a read that passes can be: of the page tables, or a translation and a read through the cache. -/
theorem State.memRead_done {s t : State} {kind : Kind} {rel : Rel} {va w : Word}
    (h : s.memRead kind rel va = .done w t) :
    (s.shadowReached va = true ∧ w = s.shadowRead va ∧ t = s) ∨
    (s.shadowReached va = false ∧ ∃ pa s', s.translate kind rel va = .done pa s' ∧
      (w, t) = s'.busRead kind.source pa) := by
  unfold State.memRead at h
  split at h
  · rename_i hs; cases h; exact .inl ⟨hs, rfl, rfl⟩
  · rename_i hs
    obtain ⟨pa, s', h1, h2⟩ := Access.bind_eq_done.1 h
    refine .inr ⟨by simpa using hs, pa, s', h1, ?_⟩
    cases h2; rfl

/-- A read is refused only by its translation. -/
theorem State.memRead_aborted {s t : State} {kind : Kind} {rel : Rel} {va : Word}
    (h : s.memRead kind rel va = .aborted t) :
    s.shadowReached va = false ∧ s.translate kind rel va = .aborted t := by
  unfold State.memRead at h
  split at h
  · cases h
  · rename_i hs
    rcases Access.bind_eq_aborted.1 h with h | ⟨_, _, _, h⟩
    · exact ⟨by simpa using hs, h⟩
    · cases h

/-- What a write that passes can be: into the page tables, or a translation and a write through the cache. -/
theorem State.memWrite_done {s t : State} {rel : Rel} {va w : Word} {u : Unit}
    (h : s.memWrite rel va w = .done u t) :
    (s.shadowReached va = true ∧ t = s.shadowWrite va w) ∨
    (s.shadowReached va = false ∧ ∃ pa s', s.translate .sto rel va = .done pa s' ∧ t = s'.busWrite .data pa w) := by
  unfold State.memWrite at h
  split at h
  · rename_i hs; cases h; exact .inl ⟨hs, rfl⟩
  · rename_i hs
    obtain ⟨pa, s', h1, h2⟩ := Access.bind_eq_done.1 h
    refine .inr ⟨by simpa using hs, pa, s', h1, ?_⟩
    cases h2; rfl

/-- A write is refused only by its translation. -/
theorem State.memWrite_aborted {s t : State} {rel : Rel} {va w : Word} (h : s.memWrite rel va w = .aborted t) :
    s.shadowReached va = false ∧ s.translate .sto rel va = .aborted t := by
  unfold State.memWrite at h
  split at h
  · cases h
  · rename_i hs
    rcases Access.bind_eq_aborted.1 h with h | ⟨_, _, _, h⟩
    · exact ⟨by simpa using hs, h⟩
    · cases h

theorem State.shadowWrite_frame (s : State) (va w : Word) :
    s.shadowWrite va w = { s with prot := (s.shadowWrite va w).prot, map := (s.shadowWrite va w).map } := by
  unfold State.shadowWrite
  split
  · dsimp only; split <;> rfl
  · rfl

/-- A read changes at most the protect halves and what is noted of them, PCR, the cache, the error registers, IID, the count of
draws and the Bus Monitor Register, and what other agents on the bus change. -/
theorem State.memRead_frame {s t : State} {kind : Kind} {rel : Rel} {va w : Word}
    (h : s.memRead kind rel va = .done w t) :
    t = { s with
      pcr := t.pcr, prot := t.prot, watch := t.watch, iid := t.iid, pes := t.pes, pea := t.pea, pesLock := t.pesLock
      freeCount := t.freeCount, busMonitor := t.busMonitor, cache := t.cache, mem := t.mem, ecc := t.ecc
      devices := t.devices, steals := t.steals } := by
  rcases State.memRead_done h with ⟨_, _, rfl⟩ | ⟨_, pa, s', h1, h2⟩
  · rfl
  · obtain rfl : t = (s'.busRead kind.source pa).2 := by rw [← h2]
    rw [State.busRead_frame, State.translate_done_frame h1]

/-- Without other agents on the bus a read leaves memory and the interfaces. -/
theorem State.memRead_quiet {s t : State} {kind : Kind} {rel : Rel} {va w : Word} (hq : s.steals = [])
    (h : s.memRead kind rel va = .done w t) :
    t = { s with
      pcr := t.pcr, prot := t.prot, watch := t.watch, iid := t.iid, pes := t.pes, pea := t.pea, pesLock := t.pesLock
      freeCount := t.freeCount, busMonitor := t.busMonitor, cache := t.cache } := by
  rcases State.memRead_done h with ⟨_, _, rfl⟩ | ⟨_, pa, s', h1, h2⟩
  · rfl
  · obtain rfl : t = (s'.busRead kind.source pa).2 := by rw [← h2]
    have hf := State.translate_done_frame h1
    have hy : s'.yieldBus = s' := State.yieldBus_quiet (by rw [hf]; exact hq)
    rw [State.busRead_frame, hy, hf]

/-- A write changes at most memory with its check bits, the page tables, PCR, the cache, the error registers, IID, the count of
draws and the Bus Monitor Register, and what other agents on the bus change. -/
theorem State.memWrite_frame {s t : State} {rel : Rel} {va w : Word} {u : Unit}
    (h : s.memWrite rel va w = .done u t) :
    t = { s with
      pcr := t.pcr, prot := t.prot, map := t.map, watch := t.watch, iid := t.iid, pes := t.pes, pea := t.pea, pesLock := t.pesLock
      freeCount := t.freeCount, busMonitor := t.busMonitor, cache := t.cache, mem := t.mem, ecc := t.ecc
      devices := t.devices, steals := t.steals } := by
  rcases State.memWrite_done h with ⟨_, rfl⟩ | ⟨_, pa, s', h1, rfl⟩
  · rw [State.shadowWrite_frame]
  · rw [State.busWrite_frame, State.translate_done_frame h1]

/-- Without other agents on the bus a write leaves the interfaces. -/
theorem State.memWrite_quiet {s t : State} {rel : Rel} {va w : Word} {u : Unit} (hq : s.steals = [])
    (h : s.memWrite rel va w = .done u t) :
    t = { s with
      pcr := t.pcr, prot := t.prot, map := t.map, watch := t.watch, iid := t.iid, pes := t.pes, pea := t.pea, pesLock := t.pesLock
      freeCount := t.freeCount, busMonitor := t.busMonitor, cache := t.cache, mem := t.mem, ecc := t.ecc } := by
  rcases State.memWrite_done h with ⟨_, rfl⟩ | ⟨_, pa, s', h1, rfl⟩
  · rw [State.shadowWrite_frame]
  · have hf := State.translate_done_frame h1
    have hy : s'.yieldBus = s' := State.yieldBus_quiet (by rw [hf]; exact hq)
    rw [State.busWrite_frame, hy, hf]

/-- The prefetch changes at most the protect halves, and what is noted of them. -/
theorem State.prefetch_frame (s : State) : s.prefetch = { s with prot := s.prefetch.prot, watch := s.prefetch.watch } := by
  unfold State.prefetch
  dsimp only
  split
  · split <;> rfl
  · rfl

/-- The effective location: at once, or by way of the indirect word. -/
theorem State.effLoc_done {s t : State} {m : MemRef} {el : Word} {rel : Rel} (h : s.effLoc m = .done (el, rel) t) :
    (m.i = false ∧ t = s) ∨
    (m.i = true ∧ rel = .nonprel ∧ ∃ iw,
      s.memRead .raddr (if m.b then .nonprel else .prel) ((if m.b then s.b else s.p) + sext8 m.disp) = .done iw t ∧
      el = iw + if m.x then s.x else 0) := by
  unfold State.effLoc at h
  dsimp only at h
  split at h
  · rename_i hi
    obtain ⟨iw, s', h1, h2⟩ := Access.bind_eq_done.1 h
    cases h2
    exact .inr ⟨hi, rfl, iw, h1, rfl⟩
  · rename_i hi
    refine .inl ⟨by simpa using hi, ?_⟩
    split at h <;> cases h <;> rfl

/-! ### Privilege and operands -/

/-- A privileged instruction has its effect or takes PI. -/
theorem State.privileged_eq_next {s t : State} {e : Result} :
    s.privileged e = .next t ↔
      (s.mayRunPrivileged = true ∧ e = .next t) ∨ (s.mayRunPrivileged = false ∧ t = (s.raise .pi).advance) := by
  unfold State.privileged
  cases s.mayRunPrivileged <;> simp [eq_comm]

theorem State.putReg_frame (s : State) (n : RField) (v : Word) : s.putReg n v = { s with regs := (s.putReg n v).regs } := by
  cases n <;> rfl

theorem State.endReg_frame (s : State) (n : RField) (v : Word) : s.endReg n v = { s with regs := (s.endReg n v).regs } := by
  cases n <;> rfl

theorem State.setCur_frame (s : State) (r : RegSet) : s.setCur r = { s with regs := (s.setCur r).regs } := rfl

/-! ### MOVB -/

/-- The stores of MOVB complete exactly when those in ascending order do, and leave what these leave. -/
theorem State.storeMoved_done {s t : State} {src dst : ByteAddr} {bytes : List Byte} {u : Unit} :
    s.storeMoved src dst bytes = .done u t ↔
      Sys2Proof.Machine.writeBytes (descRel s.t) bytes dst s = .done u t := by
  unfold State.storeMoved
  split
  · rename_i h
    rw [h]
    split <;> simp
  · rfl

end Sys2Proof.Machine
end

