-- ==== Sys2Proof/Laws/Inv.lean ====
section
/-! SUPPORT. The shared operations keep the invariant. -/

namespace Sys2Proof.Machine

/-- The invariant looks at these fields alone. -/
theorem State.Inv.of_eq {s t : State} (h : s.Inv) (hmem : t.mem = s.mem) (hecc : t.ecc = s.ecc)
    (hcache : t.cache = s.cache) (hiie : t.iie = s.iie) (hiid : t.iid = s.iid) (hpsr : t.psr = s.psr)
    (hponi : t.poni = s.poni) (hsexi : t.sexi = s.sexi) (hcfg : t.cfg = s.cfg) : t.Inv :=
  ⟨hmem ▸ h.mem, hecc ▸ h.ecc, hcache ▸ h.cache, hiie ▸ h.iie, hiid ▸ h.iid, hpsr ▸ h.psr,
    fun e => hcfg ▸ h.poni (hponi ▸ e), fun e => hcfg ▸ h.sexi (hsexi ▸ e)⟩

/-- Setting an assigned bit of IID leaves the unassigned ones. -/
theorem unassigned_setBit (v : Word) (n : Nat) (b : Bool) (h : v &&& 0o174001 = 0) (hn : 1 ≤ n ∧ n ≤ 10) :
    setBit v n b &&& 0o174001 = 0 := by
  obtain ⟨h1, h2⟩ := hn
  have ht : BitVec.twoPow 16 n &&& 0o174001 = 0 := by interval_cases n <;> decide
  have hor : (v ||| BitVec.twoPow 16 n) &&& 0o174001 = v &&& 0o174001 ||| BitVec.twoPow 16 n &&& 0o174001 := by
    ext i hi; simp [Bool.and_or_distrib_right]
  have hand : (v &&& ~~~ BitVec.twoPow 16 n) &&& 0o174001 = (v &&& 0o174001) &&& ~~~ BitVec.twoPow 16 n := by
    rw [BitVec.and_assoc, BitVec.and_comm (~~~ _), ← BitVec.and_assoc]
  unfold setBit
  split
  · rw [hor, h, ht]; rfl
  · rw [hand, h]; exact BitVec.zero_and

theorem Source.code_range (x : Source) : 1 ≤ x.code ∧ x.code ≤ 10 := by cases x <;> decide

theorem State.Inv.raise {s : State} (h : s.Inv) (x : Source) : (s.raise x).Inv :=
  ⟨h.mem, h.ecc, h.cache, h.iie, unassigned_setBit _ _ _ h.iid x.code_range, h.psr, h.poni, h.sexi⟩

theorem State.Inv.setCur {s : State} (h : s.Inv) (r : RegSet) : (s.setCur r).Inv :=
  h.of_eq rfl rfl rfl rfl rfl rfl rfl rfl rfl

theorem State.Inv.advance {s : State} (h : s.Inv) : s.advance.Inv := h.setCur _

theorem State.Inv.setProt {s : State} (h : s.Inv) (e : BitVec 8) (w : Word) : (s.setProt e w).Inv :=
  h.of_eq rfl rfl rfl rfl rfl rfl rfl rfl rfl

/-- The cache order in the terms of `List.Pairwise`. -/
theorem cacheSorted_iff (l : List CacheLine) : cacheSorted l = true ↔ l.Pairwise fun a b => a.index < b.index := by
  induction l with
  | nil => simp [cacheSorted]
  | cons a r ih =>
    cases r with
    | nil => simp [cacheSorted]
    | cons b r =>
      simp only [cacheSorted, Bool.and_eq_true, decide_eq_true_eq, ih, List.pairwise_cons, List.mem_cons,
        forall_eq_or_imp]
      constructor
      · rintro ⟨h1, h2, h3⟩
        exact ⟨⟨h1, fun c hc => BitVec.lt_trans h1 (h2 c hc)⟩, h2, h3⟩
      · rintro ⟨⟨h1, _⟩, h2, h3⟩
        exact ⟨h1, h2, h3⟩

theorem dropLine_eq_filter (i : BitVec 10) (l : List CacheLine) : dropLine i l = l.filter fun e => e.index ≠ i := by
  induction l with
  | nil => rfl
  | cons e r ih => by_cases h : e.index = i <;> simp [dropLine, h, ih]

theorem mem_insertLine (n : CacheLine) (l : List CacheLine) (e : CacheLine) :
    e ∈ insertLine n l ↔ e = n ∨ e ∈ l := by
  induction l with
  | nil => simp [insertLine]
  | cons d r ih =>
    by_cases h : n.index < d.index
    · simp [insertLine, h]
    · simp only [insertLine, h, if_false, List.mem_cons, ih]; tauto

theorem insertLine_pairwise (n : CacheLine) (l : List CacheLine) (hn : ∀ e ∈ l, e.index ≠ n.index)
    (h : l.Pairwise fun a b => a.index < b.index) : (insertLine n l).Pairwise fun a b => a.index < b.index := by
  induction l with
  | nil => simp [insertLine]
  | cons d r ih =>
    obtain ⟨h1, h2⟩ := List.pairwise_cons.1 h
    by_cases hlt : n.index < d.index
    · rw [insertLine, if_pos hlt]
      refine List.pairwise_cons.2 ⟨fun e he => ?_, h⟩
      rcases List.mem_cons.1 he with rfl | he
      · exact hlt
      · exact BitVec.lt_trans hlt (h1 e he)
    · rw [insertLine, if_neg hlt]
      refine List.pairwise_cons.2 ⟨fun e he => ?_, ih (fun e he => hn e (by simp [he])) h2⟩
      rcases (mem_insertLine _ _ _).1 he with rfl | he
      · have := hn d (by simp)
        rw [BitVec.lt_def] at *
        have : d.index.toNat ≠ e.index.toNat := fun q => this (BitVec.eq_of_toNat_eq q)
        omega
      · exact h1 e he

/-- Filling an entry keeps the cache in order. -/
theorem State.Inv.cacheFill {s : State} (h : s.Inv) (pa : PhysAddr) (w : Word) : (s.cacheFill pa w).Inv := by
  unfold State.cacheFill
  split
  · exact h
  · refine ⟨h.mem, h.ecc, ?_, h.iie, h.iid, h.psr, h.poni, h.sexi⟩
    rw [cacheSorted_iff, dropLine_eq_filter]
    exact insertLine_pairwise _ _ (by simp) (((cacheSorted_iff _).1 h.cache).filter _)

theorem State.Inv.latchMemError {s : State} (h : s.Inv) (src : MemSource) (pa : PhysAddr) (code : BitVec 6) :
    (s.latchMemError src pa code).Inv := by
  unfold State.latchMemError
  split <;> exact h.of_eq rfl rfl rfl rfl rfl rfl rfl rfl rfl

theorem State.Inv.drawWord {s : State} (h : s.Inv) : s.drawWord.2.Inv := h.of_eq rfl rfl rfl rfl rfl rfl rfl rfl rfl

theorem State.Inv.outOfRange {s : State} (h : s.Inv) (src : MemSource) (pa : PhysAddr) : (s.outOfRange src pa).Inv :=
  (h.drawWord.latchMemError src pa _).raise .mor

theorem State.Inv.strobe {s : State} (h : s.Inv) (src : MemSource) (write : Bool) (pa : PhysAddr) (w : Word) :
    (s.strobe src write pa w).Inv := by
  rw [State.strobe_frame]
  exact h.of_eq rfl rfl rfl rfl rfl rfl rfl rfl rfl

theorem State.Inv.physRead {s : State} (h : s.Inv) (src : MemSource) (pa : PhysAddr) : (s.physRead src pa).2.Inv := by
  unfold State.physRead
  split
  · dsimp only
    split
    · exact ((h.strobe src false pa _).latchMemError src pa _).raise .pty
    · exact h.strobe src false pa _
  · exact (h.drawWord.strobe src false pa _).outOfRange src pa

theorem State.Inv.physWrite {s : State} (h : s.Inv) (src : MemSource) (pa : PhysAddr) (w : Word) :
    (s.physWrite src pa w).Inv := by
  unfold State.physWrite
  replace h := h.strobe src true pa w
  dsimp only
  split
  · exact ⟨Memory.wf_writeWord _ pa w h.mem, Memory.wf_write _ _ _ h.ecc, h.cache, h.iie, h.iid, h.psr, h.poni, h.sexi⟩
  · exact h.outOfRange src pa

theorem State.Inv.dmaCycle {s : State} (h : s.Inv) (n : Nat) (word : Option Word) : (s.dmaCycle n word).Inv := by
  unfold State.dmaCycle
  split
  · dsimp only
    refine State.Inv.of_eq (s := (s.dmaTransfer _ word).2) ?_ rfl rfl rfl rfl rfl rfl rfl rfl rfl
    unfold State.dmaTransfer
    split
    · exact h
    · split
      · split
        · exact h.physWrite _ _ _
        · exact h
      · split
        · exact h.physRead _ _
        · exact h
  · exact h

/-- Other agents on the bus keep the invariant. -/
theorem State.Inv.busCycle {s : State} (h : s.Inv) (c : BusCycle) : (s.busCycle c).Inv := by
  cases c with
  | dmaIn n w => exact h.dmaCycle n (some w)
  | dmaOut n => exact h.dmaCycle n none
  | foreignWrite pa w => exact h.physWrite _ _ _
  | foreignRead pa => exact h.physRead _ _

theorem State.Inv.busCycles {s : State} (h : s.Inv) (cs : List BusCycle) : (s.busCycles cs).Inv := by
  induction cs generalizing s with
  | nil => exact h
  | cons c r ih => exact ih (h.busCycle c)

theorem State.Inv.yieldBus {s : State} (h : s.Inv) : s.yieldBus.Inv := by
  unfold State.yieldBus
  split
  · exact h
  · refine State.Inv.busCycles ?_ _
    exact h.of_eq rfl rfl rfl rfl rfl rfl rfl rfl rfl

theorem State.Inv.busRead {s : State} (h : s.Inv) (src : MemSource) (pa : PhysAddr) : (s.busRead src pa).2.Inv := by
  rcases s.busRead_eq src pa with ⟨w, _, _, e⟩ | ⟨_, _, e⟩ | ⟨_, e⟩ <;> rw [e]
  · exact h.yieldBus
  · exact (h.yieldBus.physRead src pa).cacheFill pa _
  · exact h.yieldBus.physRead src pa

theorem State.Inv.storeThrough {s : State} (h : s.Inv) (src : MemSource) (pa : PhysAddr) (w : Word) :
    (s.storeThrough src pa w).Inv := by
  unfold State.storeThrough
  dsimp only
  split
  · exact (h.physWrite src pa w).cacheFill pa w
  · exact h.physWrite src pa w

theorem State.Inv.busWrite {s : State} (h : s.Inv) (src : MemSource) (pa : PhysAddr) (w : Word) :
    (s.busWrite src pa w).Inv := h.yieldBus.storeThrough src pa w

theorem pagingStatus_unassigned (kind : Kind) (r : PageRefusal) (e : BitVec 8) :
    pagingStatus kind r e &&& 0o037400 = 0 := by
  unfold pagingStatus
  generalize (kind == Kind.fetch) = f, (r == PageRefusal.permit) = g
  revert f g e
  decide +kernel

theorem State.Inv.translate_done {s t : State} (h : s.Inv) {kind : Kind} {rel : Rel} {va : Word} {pa : PhysAddr}
    (e : s.translate kind rel va = .done pa t) : t.Inv := by
  rw [State.translate_done_frame e]
  exact h.of_eq rfl rfl rfl rfl rfl rfl rfl rfl rfl

theorem State.Inv.translate_aborted {s t : State} (h : s.Inv) {kind : Kind} {rel : Rel} {va : Word}
    (e : s.translate kind rel va = .aborted t) : t.Inv := by
  obtain ⟨_, r, _, rfl⟩ := State.translate_aborted e
  unfold State.refuseAccess
  refine State.Inv.raise ?_ _
  split
  · exact h
  · exact ⟨h.mem, h.ecc, h.cache, h.iie, h.iid, pagingStatus_unassigned .., h.poni, h.sexi⟩

/-- A read by a program keeps the invariant, whether or not it passes. -/
theorem State.Inv.memRead_done {s t : State} (h : s.Inv) {kind : Kind} {rel : Rel} {va w : Word}
    (e : s.memRead kind rel va = .done w t) : t.Inv := by
  rcases State.memRead_done e with ⟨_, _, rfl⟩ | ⟨_, pa, s', h1, h2⟩
  · exact h
  · obtain rfl : t = (s'.busRead kind.source pa).2 := by rw [← h2]
    exact (h.translate_done h1).busRead _ _

theorem State.Inv.memRead_aborted {s t : State} (h : s.Inv) {kind : Kind} {rel : Rel} {va : Word}
    (e : s.memRead kind rel va = .aborted t) : t.Inv := h.translate_aborted (State.memRead_aborted e).2

/-- A write by a program keeps the invariant, whether or not it passes. -/
theorem State.Inv.memWrite_done {s t : State} (h : s.Inv) {rel : Rel} {va w : Word} {u : Unit}
    (e : s.memWrite rel va w = .done u t) : t.Inv := by
  rcases State.memWrite_done e with ⟨_, rfl⟩ | ⟨_, pa, s', h1, rfl⟩
  · rw [State.shadowWrite_frame]
    exact h.of_eq rfl rfl rfl rfl rfl rfl rfl rfl rfl
  · exact (h.translate_done h1).busWrite _ _ _

theorem State.Inv.memWrite_aborted {s t : State} (h : s.Inv) {rel : Rel} {va w : Word}
    (e : s.memWrite rel va w = .aborted t) : t.Inv := h.translate_aborted (State.memWrite_aborted e).2

theorem State.Inv.prefetch {s : State} (h : s.Inv) : s.prefetch.Inv := by
  rw [State.prefetch_frame]
  exact h.of_eq rfl rfl rfl rfl rfl rfl rfl rfl rfl

/-- Cutting a transfer to or from an interface changes no more than the interfaces and the count of draws. -/
theorem State.cutTransfer_frame (s : State) (addr v : Word) :
    s.cutTransfer addr v =
      { s with
        clock := (s.cutTransfer addr v).clock, console := (s.cutTransfer addr v).console
        devices := (s.cutTransfer addr v).devices, freeCount := (s.cutTransfer addr v).freeCount } := by
  unfold State.cutTransfer
  dsimp only
  split
  · rfl
  · split <;> rfl

theorem State.Inv.cutTransfer {s : State} (h : s.Inv) (addr v : Word) : (s.cutTransfer addr v).Inv := by
  rw [State.cutTransfer_frame]
  exact h.of_eq rfl rfl rfl rfl rfl rfl rfl rfl rfl

/-- Setting or clearing a request changes no more than the interfaces. -/
theorem State.putRequest_frame (s : State) (level : Nat) (n : Option Nat) (b : Bool) :
    s.putRequest level n b =
      { s with
        clock := (s.putRequest level n b).clock, console := (s.putRequest level n b).console
        devices := (s.putRequest level n b).devices } := by
  unfold State.putRequest
  split
  · split <;> rfl
  · split
    · rfl
    · split <;> rfl

theorem State.Inv.putRequest {s : State} (h : s.Inv) (level : Nat) (n : Option Nat) (b : Bool) :
    (s.putRequest level n b).Inv := by
  rw [State.putRequest_frame]
  exact h.of_eq rfl rfl rfl rfl rfl rfl rfl rfl rfl

/-- Any value drawn into a place keeps the invariant. -/
theorem State.Inv.scramble {s : State} (h : s.Inv) (place : Place) : (s.scramble place).Inv := by
  cases place with
  | word pa =>
    dsimp only [State.scramble]
    split
    · have h := h.drawWord.drawWord
      exact ⟨Memory.wf_writeWord _ pa _ h.mem, Memory.wf_write _ _ _ h.ecc, h.cache, h.iie, h.iid, h.psr, h.poni, h.sexi⟩
    · exact h.drawWord
  | transfer addr v => exact h.drawWord.cutTransfer addr v
  | request level n => exact h.drawWord.putRequest level n _
  | shadow va =>
    dsimp only [State.scramble]
    rw [State.shadowWrite_frame]
    exact h.drawWord.of_eq rfl rfl rfl rfl rfl rfl rfl rfl rfl
  | _ => exact h.drawWord.of_eq rfl rfl rfl rfl rfl rfl rfl rfl rfl

theorem State.Inv.scrambleAll {s : State} (h : s.Inv) (places : List Place) : (s.scrambleAll places).Inv := by
  induction places generalizing s with
  | nil => exact h
  | cons place r ih => exact ih (h.scramble place)

/-- An instruction that a master clear cuts off keeps the invariant that the whole instruction keeps. -/
theorem State.Inv.cutOff {t : State} (h : t.Inv) (s u : State) : (t.cutOff s u).Inv := by
  unfold State.cutOff
  refine State.Inv.scrambleAll ?_ _
  refine ⟨h.mem, h.ecc, h.cache, h.iie, h.iid, ?_, h.poni, h.sexi⟩
  dsimp only
  split
  · rw [BitVec.and_assoc]; exact BitVec.and_zero
  · exact h.psr

end Sys2Proof.Machine
end

