-- ==== Sys2Proof/Laws/Sequences.lean ====
section
/-! SUPPORT. Sequences of reads and stores: an access depends on no register but PTM and changes none, and the functions that make
a sequence complete exactly in the ways that the relations of `Safety.lean` say. -/

namespace Sys2Proof.Machine

/-! ### Accesses and the register file -/

section Registers

/-- A state with another register file. -/
def State.withRegs (s : State) (r : Vector RegSet 16) : State := { s with regs := r }

/-- The same access of a state with another register file. -/
def Access.withRegs {α : Type} (x : Access α) (r : Vector RegSet 16) : Access α :=
  match x with
  | .done v s => .done v (s.withRegs r)
  | .aborted s => .aborted (s.withRegs r)

variable (s : State) (r : Vector RegSet 16)

variable {r} in
theorem ite_withRegs {c : Prop} [Decidable c] {a b a' b' : State} (ha : a' = a.withRegs r) (hb : b' = b.withRegs r) :
    (if c then a' else b') = (if c then a else b).withRegs r := by split <;> assumption

theorem State.strobe_withRegs (src : MemSource) (write : Bool) (pa : PhysAddr) (w : Word) :
    (s.withRegs r).strobe src write pa w = (s.strobe src write pa w).withRegs r :=
  ite_withRegs rfl rfl

theorem State.latchMemError_withRegs (src : MemSource) (pa : PhysAddr) (code : BitVec 6) :
    (s.withRegs r).latchMemError src pa code = (s.latchMemError src pa code).withRegs r :=
  ite_withRegs rfl rfl

theorem State.raise_withRegs (i : Source) : (s.withRegs r).raise i = (s.raise i).withRegs r := rfl

theorem State.cacheFill_withRegs (pa : PhysAddr) (w : Word) :
    (s.withRegs r).cacheFill pa w = (s.cacheFill pa w).withRegs r :=
  ite_withRegs rfl rfl

theorem State.outOfRange_withRegs (src : MemSource) (pa : PhysAddr) :
    (s.withRegs r).outOfRange src pa = (s.outOfRange src pa).withRegs r :=
  congrArg (·.raise .mor) (State.latchMemError_withRegs s.drawWord.2 r src pa _)

theorem State.memoryError_withRegs (src : MemSource) (pa : PhysAddr) (code : BitVec 6) :
    (s.withRegs r).memoryError src pa code = (s.memoryError src pa code).withRegs r :=
  congrArg (·.raise .pty) (s.latchMemError_withRegs r src pa code)

theorem State.physRead_withRegs (src : MemSource) (pa : PhysAddr) :
    (s.withRegs r).physRead src pa = ((s.physRead src pa).1, (s.physRead src pa).2.withRegs r) := by
  by_cases hp : s.memPresent pa = true
  · have hp' : (s.withRegs r).memPresent pa = true := hp
    unfold State.physRead
    rw [if_pos hp, if_pos hp']
    dsimp only
    rw [show (s.withRegs r).strobe src false pa _ = _ from s.strobe_withRegs r ..]
    refine Prod.ext rfl ?_
    dsimp only
    rw [State.memoryError_withRegs]
    exact ite_withRegs rfl rfl
  · have hp' : ¬ (s.withRegs r).memPresent pa = true := hp
    unfold State.physRead
    rw [if_neg hp, if_neg hp']
    refine Prod.ext rfl ?_
    dsimp only
    rw [← State.outOfRange_withRegs, ← State.strobe_withRegs]
    rfl

theorem State.physWrite_withRegs (src : MemSource) (pa : PhysAddr) (w : Word) :
    (s.withRegs r).physWrite src pa w = (s.physWrite src pa w).withRegs r := by
  unfold State.physWrite
  dsimp only
  rw [State.strobe_withRegs, State.outOfRange_withRegs]
  exact ite_withRegs rfl rfl

theorem State.dmaTransfer_withRegs (d : DmaController) (w : Option Word) :
    (s.withRegs r).dmaTransfer d w = ((s.dmaTransfer d w).1, (s.dmaTransfer d w).2.withRegs r) := by
  unfold State.dmaTransfer
  split
  · rfl
  · split
    · split
      · rw [State.physWrite_withRegs]
      · rfl
    · split
      · rw [State.physRead_withRegs]
      · rfl

theorem State.dmaCycle_withRegs (n : Nat) (w : Option Word) :
    (s.withRegs r).dmaCycle n w = (s.dmaCycle n w).withRegs r := by
  unfold State.dmaCycle
  rw [show (s.withRegs r).devices = s.devices from rfl]
  split
  · rw [State.dmaTransfer_withRegs]; rfl
  · rfl

theorem State.busCycle_withRegs (c : BusCycle) : (s.withRegs r).busCycle c = (s.busCycle c).withRegs r := by
  cases c <;> simp only [State.busCycle, State.dmaCycle_withRegs, State.physWrite_withRegs, State.physRead_withRegs]

theorem State.busCycles_withRegs (cs : List BusCycle) :
    (s.withRegs r).busCycles cs = (s.busCycles cs).withRegs r := by
  induction cs generalizing s with
  | nil => rfl
  | cons c l ih => unfold State.busCycles; rw [State.busCycle_withRegs, ih]

theorem State.yieldBus_withRegs : (s.withRegs r).yieldBus = s.yieldBus.withRegs r := by
  unfold State.yieldBus
  rw [show (s.withRegs r).steals = s.steals from rfl]
  split
  · rfl
  · exact State.busCycles_withRegs { s with steals := _ } r _

theorem State.busRead_withRegs (src : MemSource) (pa : PhysAddr) :
    (s.withRegs r).busRead src pa = ((s.busRead src pa).1, (s.busRead src pa).2.withRegs r) := by
  unfold State.busRead
  dsimp only
  rw [State.yieldBus_withRegs, State.physRead_withRegs]
  generalize s.yieldBus = u
  rw [show (u.withRegs r).cacheEnabled = u.cacheEnabled from rfl, show (u.withRegs r).cacheHit pa = u.cacheHit pa from rfl]
  split
  · split
    · rfl
    · dsimp only; rw [State.cacheFill_withRegs]
  · rfl

theorem State.busWrite_withRegs (src : MemSource) (pa : PhysAddr) (w : Word) :
    (s.withRegs r).busWrite src pa w = (s.busWrite src pa w).withRegs r := by
  unfold State.busWrite State.storeThrough
  dsimp only
  rw [State.yieldBus_withRegs, State.physWrite_withRegs, State.cacheFill_withRegs]
  exact ite_withRegs rfl rfl

theorem State.degrade_withRegs (kind : Kind) (p : Word) :
    (s.withRegs r).degrade kind p = (s.degrade kind p).withRegs r := by
  unfold State.degrade
  exact ite_withRegs rfl rfl

theorem State.refuseAccess_withRegs (kind : Kind) (x : PageRefusal) (e : BitVec 8) :
    (s.withRegs r).refuseAccess kind x e = (s.refuseAccess kind x e).withRegs r := by
  unfold State.refuseAccess
  rw [show (s.withRegs r).psrLock = s.psrLock from rfl]
  cases s.psrLock <;> rfl

theorem State.shadowWrite_withRegs (va w : Word) :
    (s.withRegs r).shadowWrite va w = (s.shadowWrite va w).withRegs r := by
  unfold State.shadowWrite
  exact ite_withRegs (ite_withRegs rfl rfl) rfl

variable {s r}

theorem State.entryFor_withRegs (h : (s.withRegs r).sts = s.sts) (rel : Rel) (va : Word) :
    (s.withRegs r).entryFor rel va = s.entryFor rel va := by
  have hf : (s.withRegs r).flag .ptm = s.flag .ptm := by simp only [State.flag, h]
  simp only [State.entryFor, State.tableFor, hf]
  rfl

/-- Of the registers only PTM has a part in translation. -/
theorem State.translate_withRegs (h : (s.withRegs r).sts = s.sts) (kind : Kind) (rel : Rel) (va : Word) :
    (s.withRegs r).translate kind rel va = (s.translate kind rel va).withRegs r := by
  unfold State.translate
  dsimp only
  rw [State.entryFor_withRegs h, show (s.withRegs r).ring = s.ring from rfl]
  generalize s.entryFor rel va = e
  rw [show (s.withRegs r).protAt e = s.protAt e from rfl]
  by_cases hp : (s.cfg.hasMms && s.poni) = true
  · rw [if_pos hp, if_pos (show ((s.withRegs r).cfg.hasMms && (s.withRegs r).poni) = true from hp)]
    cases hc : pageCheck kind (s.protAt e) s.ring with
    | some x =>
      exact congrArg Access.aborted (s.refuseAccess_withRegs r kind x e)
    | none =>
      exact congrArg (fun u => Access.done _ (State.usePage u kind e (s.protAt e))) (s.degrade_withRegs r kind _)
  · rw [if_neg hp, if_neg (show ¬ ((s.withRegs r).cfg.hasMms && (s.withRegs r).poni) = true from hp)]
    rfl

/-- A read does not depend on the registers but for PTM, nor changes them. -/
theorem State.memRead_withRegs (h : (s.withRegs r).sts = s.sts) (kind : Kind) (rel : Rel) (va : Word) :
    (s.withRegs r).memRead kind rel va = (s.memRead kind rel va).withRegs r := by
  unfold State.memRead
  rw [State.translate_withRegs h, show (s.withRegs r).shadowReached va = s.shadowReached va from rfl]
  split
  · rfl
  · cases s.translate kind rel va with
    | done pa u => simp [Access.withRegs, State.busRead_withRegs]
    | aborted u => rfl

/-- A write does not depend on the registers but for PTM, nor changes them. -/
theorem State.memWrite_withRegs (h : (s.withRegs r).sts = s.sts) (rel : Rel) (va w : Word) :
    (s.withRegs r).memWrite rel va w = (s.memWrite rel va w).withRegs r := by
  unfold State.memWrite
  rw [State.translate_withRegs h, show (s.withRegs r).shadowReached va = s.shadowReached va from rfl]
  split
  · exact congrArg (Access.done _) (s.shadowWrite_withRegs r va w)
  · cases s.translate .sto rel va with
    | done pa u => simp [Access.withRegs, State.busWrite_withRegs]
    | aborted u => rfl

end Registers

/-! ### Sequences -/

theorem halfOf_eq_iff (w : Word) (right : Bool) (b : Byte) :
    halfOf w right = b ↔ b.toNat = if right then w.toNat % 256 else w.toNat / 256 := by
  rw [← BitVec.toNat_inj]
  cases right <;> simp [halfOf, BitVec.extractLsb'_toNat, Nat.shiftRight_eq_div_pow] <;> omega

theorem withHalf_eq_iff (w : Word) (right : Bool) (b : Byte) (w' : Word) :
    w' = withHalf w right b ↔ halfReplaced w right b w' := by
  have h1 (x y : Byte) : (x ++ y : Word).toNat = x.toNat * 256 + y.toNat := by
    have := y.isLt
    rw [BitVec.toNat_append, ← Nat.shiftLeft_add_eq_or_of_lt this, Nat.shiftLeft_eq]
  have := w.isLt
  rw [halfReplaced, ← BitVec.toNat_inj]
  cases right <;> simp only [withHalf, if_true, if_false, Bool.false_eq_true, h1, BitVec.extractLsb'_toNat,
    Nat.shiftRight_eq_div_pow] <;> omega

/-- What LoadByte can do when it completes. -/
theorem loadByte_eq_done {rel : Rel} {s t : State} {a : ByteAddr} {b : Byte} :
    s.loadByte rel a = .done b t ↔ readsByte rel s a b t := by
  simp only [State.loadByte, Access.bind_eq_done, readsByte, Access.done.injEq, halfOf_eq_iff]
  constructor
  · rintro ⟨w, u, h, hb, rfl⟩; exact ⟨w, h, hb⟩
  · rintro ⟨w, h, hb⟩; exact ⟨w, t, h, hb, rfl⟩

/-- What StoreByte can do when it completes. -/
theorem storeByte_eq_done {rel : Rel} {s t : State} {a : ByteAddr} {b : Byte} :
    s.storeByte rel a b = .done () t ↔ storesByte rel s a b t := by
  simp only [State.storeByte, Access.bind_eq_done, storesByte, ← withHalf_eq_iff]
  constructor
  · rintro ⟨w, u, h, hs⟩; exact ⟨w, _, u, h, rfl, hs⟩
  · rintro ⟨w, _, u, h, rfl, hs⟩; exact ⟨w, u, h, hs⟩

theorem writeBytes_eq_done {rel : Rel} {t : State} (bytes : List Byte) (s : State) (a : ByteAddr) :
    writeBytes rel bytes a s = .done () t ↔ storesBytes rel s a bytes t := by
  induction bytes generalizing s a with
  | nil => simp [writeBytes, storesBytes, eq_comm]
  | cons b r ih =>
    simp only [writeBytes, storesBytes, Access.bind_eq_done, ← storeByte_eq_done, ih]
    exact ⟨fun ⟨_, h⟩ => h, fun h => ⟨(), h⟩⟩

theorem readBytes_eq_done {rel : Rel} {t : State} (n : Nat) (s : State) (a : ByteAddr) (bytes : List Byte) :
    readBytes rel n a s = .done bytes t ↔ bytes.length = n ∧ readsBytes rel s a bytes t := by
  induction n generalizing s a bytes with
  | zero => cases bytes <;> simp [readBytes, readsBytes, eq_comm]
  | succ n ih =>
    simp only [readBytes, Access.bind_eq_done, loadByte_eq_done, Access.done.injEq]
    cases bytes with
    | nil => simp
    | cons b r =>
      simp only [List.cons.injEq, List.length_cons, Nat.add_right_cancel_iff, readsBytes]
      constructor
      · rintro ⟨_, u, h, r', t', hr, ⟨rfl, rfl⟩, rfl⟩; exact ⟨((ih ..).1 hr).1, u, h, ((ih ..).1 hr).2⟩
      · rintro ⟨hl, u, h, hr⟩; exact ⟨b, u, h, r, t, (ih ..).2 ⟨hl, hr⟩, ⟨rfl, rfl⟩, rfl⟩

theorem storeWords_eq_done {t : State} (ws : List Word) (s : State) (va : Word) :
    s.storeWords va ws = .done () t ↔ storesInOrder .nonprel s va ws t := by
  induction ws generalizing s va with
  | nil => simp [State.storeWords, storesInOrder, eq_comm]
  | cons w r ih =>
    simp only [State.storeWords, storesInOrder, Access.bind_eq_done, ih]
    exact ⟨fun ⟨_, h⟩ => h, fun h => ⟨(), h⟩⟩

theorem loadWords_eq_done {t : State} (n : Nat) (s : State) (va : Word) (ws : List Word) :
    s.loadWords n va = .done ws t ↔ ws.length = n ∧ readsInOrder .nonprel s va ws t := by
  induction n generalizing s va ws with
  | zero => cases ws <;> simp [State.loadWords, readsInOrder, eq_comm]
  | succ n ih =>
    simp only [State.loadWords, Access.bind_eq_done, Access.done.injEq]
    cases ws with
    | nil => simp
    | cons w r =>
      simp only [List.cons.injEq, List.length_cons, Nat.add_right_cancel_iff, readsInOrder]
      constructor
      · rintro ⟨_, u, h, r', t', hr, ⟨rfl, rfl⟩, rfl⟩; exact ⟨((ih ..).1 hr).1, u, h, ((ih ..).1 hr).2⟩
      · rintro ⟨hl, u, h, hr⟩; exact ⟨w, u, h, r, t, (ih ..).2 ⟨hl, hr⟩, ⟨rfl, rfl⟩, rfl⟩

end Sys2Proof.Machine
end

