-- ==== Sys2Proof/Tests/Slice0.lean ====
section
/-! SUPPORT. Tests. Expected results are those of the vectors S<n> and V<n> of `spec/95_test_vectors.md` and of the rules
named beside them; the words are written out from the encodings of `spec/30_encoding.md`. Then, for every statement with
hypotheses, states and operands that meet them. -/

namespace Sys2Proof.Tests

set_option Elab.async false

open Sys2Proof.Machine

/-! ### Well-formedness -/

/-- R209, log 7: `radd` with the bits of COPY, RSUB, COPY CM2, RINC or RDCR is no term of its own. -/
theorem test_illformed_radd :
    Instr.wellFormed true (.radd false false false true .a .x) = false ∧
    Instr.wellFormed true (.radd false true true false .a .x) = false ∧
    Instr.wellFormed true (.radd false true true true .a .x) = false ∧
    Instr.wellFormed true (.radd false true false false .zero .x) = false ∧
    Instr.wellFormed true (.radd false false true false .zero .x) = false := by decide

/-- R209, log 7: `copy` from number 0 is RCLR, from L to P it is EXIT. -/
theorem test_illformed_copy :
    Instr.wellFormed true (.copy .zero .x) = false ∧ Instr.wellFormed true (.copy .l .p) = false := by decide

/-- R208: with the CX option 0o1403XX is no customer code. -/
theorem test_illformed_cust2 : Instr.wellFormed true (.cust2 0) = false := by decide

/-- R226: the CX codes need the option. -/
theorem test_illformed_cx :
    [Instr.addd, .subd, .comd, .tset, .pack, .upack, .shde, .rdus, .init, .entr, .leave, .eleav, .setpt, .clept,
      .clnreent, .chreentpages, .clepu, .movew 0].all (fun i => !i.wellFormed false) = true := by decide

/-! ### Decoding -/

/-- R203: bits 15-11, then `,X`, `I`, `,B` and the displacement. -/
theorem test_decode_memory_reference :
    decodeWord true 0o000005 = .ok (.stz ⟨false, false, false, 0o005⟩) ∧
    decodeWord true 0o004002 = .ok (.sta ⟨false, false, false, 0o002⟩) ∧
    decodeWord true 0o010403 = .ok (.stt ⟨false, false, true, 0o003⟩) ∧
    decodeWord true 0o016000 = .ok (.stx ⟨true, false, false, 0⟩) ∧
    decodeWord true 0o021010 = .ok (.std ⟨false, true, false, 0o010⟩) ∧
    decodeWord true 0o026400 = .ok (.ldd ⟨true, false, true, 0⟩) ∧
    decodeWord true 0o033377 = .ok (.stf ⟨true, true, false, 0o377⟩) ∧
    decodeWord true 0o037776 = .ok (.ldf ⟨true, true, true, 0o376⟩) ∧
    decodeWord true 0o041001 = .ok (.min ⟨false, true, false, 0o001⟩) ∧
    decodeWord true 0o044774 = .ok (.lda ⟨false, false, true, 0o374⟩) ∧
    decodeWord true 0o052000 = .ok (.ldt ⟨true, false, false, 0⟩) ∧
    decodeWord true 0o056001 = .ok (.ldx ⟨true, false, false, 0o001⟩) ∧
    decodeWord true 0o062400 = .ok (.add ⟨true, false, true, 0⟩) ∧
    decodeWord true 0o064012 = .ok (.sub ⟨false, false, false, 0o012⟩) ∧
    decodeWord true 0o070005 = .ok (.and ⟨false, false, false, 0o005⟩) ∧
    decodeWord true 0o075405 = .ok (.ora ⟨false, true, true, 0o005⟩) ∧
    decodeWord true 0o100200 = .ok (.fad ⟨false, false, false, 0o200⟩) ∧
    decodeWord true 0o104177 = .ok (.fsb ⟨false, false, false, 0o177⟩) ∧
    decodeWord true 0o110004 = .ok (.fmu ⟨false, false, false, 0o004⟩) ∧
    decodeWord true 0o116005 = .ok (.fdv ⟨true, false, false, 0o005⟩) ∧
    decodeWord true 0o121005 = .ok (.mpy ⟨false, true, false, 0o005⟩) ∧
    decodeWord true 0o124376 = .ok (.jmp ⟨false, false, false, 0o376⟩) ∧
    decodeWord true 0o135403 = .ok (.jpl ⟨false, true, true, 0o003⟩) := by
  refine ⟨?_, ?_, ?_, ?_, ?_, ?_, ?_, ?_, ?_, ?_, ?_, ?_, ?_, ?_, ?_, ?_, ?_, ?_, ?_, ?_, ?_, ?_, ?_⟩ <;> rfl

/-- R204: the condition in bits 10-8. -/
theorem test_decode_jump :
    decodeWord true 0o130003 = .ok (.jap 0o003) ∧
    decodeWord true 0o130777 = .ok (.jan 0o377) ∧
    decodeWord true 0o131010 = .ok (.jaz 0o010) ∧
    decodeWord true 0o131402 = .ok (.jaf 0o002) ∧
    decodeWord true 0o132373 = .ok (.jpc 0o373) ∧
    decodeWord true 0o132776 = .ok (.jnc 0o376) ∧
    decodeWord true 0o133004 = .ok (.jxz 0o004) ∧
    decodeWord true 0o133402 = .ok (.jxn 0o002) := by
  refine ⟨?_, ?_, ?_, ?_, ?_, ?_, ?_, ?_⟩ <;> rfl

/-- R206: the condition in bits 10-8, bits 7-6 zero, sr, dr. -/
theorem test_decode_skip :
    decodeWord true 0o140041 = .ok (.skpEql .l .d) ∧
    decodeWord true 0o140475 = .ok (.skpGeq .x .a) ∧
    decodeWord true 0o141037 = .ok (.skpGre .b .x) ∧
    decodeWord true 0o141464 = .ok (.skpMgre .t .l) ∧
    decodeWord true 0o142076 = .ok (.skpUeq .x .t) ∧
    decodeWord true 0o142453 = .ok (.skpLss .a .b) ∧
    decodeWord true 0o143075 = .ok (.skpLst .x .a) ∧
    decodeWord true 0o143473 = .ok (.skpMlst .x .b) := by
  refine ⟨?_, ?_, ?_, ?_, ?_, ?_, ?_, ?_⟩ <;> rfl

/-- R208: the CX codes of the group 0o1401XX. -/
theorem test_decode_decimal_and_stack :
    decodeWord true 0o140120 = .ok (.addd) ∧
    decodeWord true 0o140121 = .ok (.subd) ∧
    decodeWord true 0o140122 = .ok (.comd) ∧
    decodeWord true 0o140123 = .ok (.tset) ∧
    decodeWord true 0o140124 = .ok (.pack) ∧
    decodeWord true 0o140125 = .ok (.upack) ∧
    decodeWord true 0o140126 = .ok (.shde) ∧
    decodeWord true 0o140127 = .ok (.rdus) ∧
    decodeWord true 0o140130 = .ok (.bfill) ∧
    decodeWord true 0o140131 = .ok (.movb) ∧
    decodeWord true 0o140132 = .ok (.movbf) ∧
    decodeWord true 0o140134 = .ok (.init) ∧
    decodeWord true 0o140135 = .ok (.entr) ∧
    decodeWord true 0o140136 = .ok (.leave) ∧
    decodeWord true 0o140137 = .ok (.eleav) ∧
    decodeWord true 0o140300 = .ok (.setpt) ∧
    decodeWord true 0o140301 = .ok (.clept) ∧
    decodeWord true 0o140302 = .ok (.clnreent) ∧
    decodeWord true 0o140303 = .ok (.chreentpages) ∧
    decodeWord true 0o140304 = .ok (.clepu) ∧
    decodeWord true 0o143117 = .ok (.movew 0o17) := by
  refine ⟨?_, ?_, ?_, ?_, ?_, ?_, ?_, ?_, ?_, ?_, ?_, ?_, ?_, ?_, ?_, ?_, ?_, ?_, ?_, ?_, ?_⟩ <;> rfl

/-- R207, R215, R492: single words of the group 0o14XXXX. -/
theorem test_decode_extended :
    decodeWord true 0o142200 = .ok (.lbyt) ∧
    decodeWord true 0o142600 = .ok (.sbyt) ∧
    decodeWord true 0o143200 = .ok (.mix3) ∧
    decodeWord true 0o143500 = .ok (.lwcs) ∧
    decodeWord true 0o143604 = .ok (.identPl10) ∧
    decodeWord true 0o143611 = .ok (.identPl11) ∧
    decodeWord true 0o143622 = .ok (.identPl12) ∧
    decodeWord true 0o143643 = .ok (.identPl13) ∧
    decodeWord true 0o140650 = .ok (.exr .a) ∧
    decodeWord true 0o141257 = .ok (.rmpy .a .x) ∧
    decodeWord true 0o141660 = .ok (.rdiv .t 0) ∧
    decodeWord true 0o141664 = .ok (.rdiv .t 4) := by
  refine ⟨?_, ?_, ?_, ?_, ?_, ?_, ?_, ?_, ?_, ?_, ?_, ?_⟩ <;> rfl

/-- R208, R521: the customer codes. -/
theorem test_decode_customer :
    decodeWord true 0o140277 = .ok (.cust1 0o77) ∧
    decodeWord true 0o140500 = .ok (.cust3 0) ∧
    decodeWord true 0o140701 = .ok (.cust4 0o01) ∧
    decodeWord true 0o141102 = .ok (.cust5 0o02) ∧
    decodeWord true 0o141304 = .ok (.cust6 0o04) ∧
    decodeWord true 0o141510 = .ok (.cust7 0o10) ∧
    decodeWord true 0o141720 = .ok (.cust10 0o20) ∧
    decodeWord true 0o142140 = .ok (.cust11 0o40) ∧
    decodeWord true 0o142377 = .ok (.cust12 0o77) ∧
    decodeWord true 0o142500 = .ok (.cust13 0) := by
  refine ⟨?_, ?_, ?_, ?_, ?_, ?_, ?_, ?_, ?_, ?_⟩ <;> rfl

/-- R210: delta in bits 5-3, the function in bits 2-0; R213. -/
theorem test_decode_physical :
    decodeWord true 0o143330 = .ok (.ldatx 3) ∧
    decodeWord true 0o143371 = .ok (.ldxtx 7) ∧
    decodeWord true 0o143312 = .ok (.lddtx 1) ∧
    decodeWord true 0o143303 = .ok (.ldbtx 0) ∧
    decodeWord true 0o143344 = .ok (.statx 4) ∧
    decodeWord true 0o143305 = .ok (.stztx 0) ∧
    decodeWord true 0o143326 = .ok (.stdtx 2) ∧
    decodeWord true 0o150416 = .ok (.exam) ∧
    decodeWord true 0o150417 = .ok (.depo) := by
  refine ⟨?_, ?_, ?_, ?_, ?_, ?_, ?_, ?_, ?_⟩ <;> rfl

/-- R209: RAD, C, I, CM1, CLD, sr, dr. -/
theorem test_decode_register_operation :
    decodeWord true 0o144051 = .ok (.swap false false .a .d) ∧
    decodeWord true 0o144157 = .ok (.swap false true .a .x) ∧
    decodeWord true 0o144355 = .ok (.swap true true .a .a) ∧
    decodeWord true 0o144447 = .ok (.rand false false .l .x) ∧
    decodeWord true 0o144675 = .ok (.rand true false .x .a) ∧
    decodeWord true 0o145055 = .ok (.rexo false false .a .a) ∧
    decodeWord true 0o145516 = .ok (.rora false true .d .t) ∧
    decodeWord true 0o145465 = .ok (.rora false false .t .a) ∧
    decodeWord true 0o146057 = .ok (.radd false false false false .a .x) ∧
    decodeWord true 0o147005 = .ok (.radd true false false false .zero .a) ∧
    decodeWord true 0o147355 = .ok (.radd true false true true .a .a) ∧
    decodeWord true 0o146542 = .ok (.radd false true false true .l .p) ∧
    decodeWord true 0o146663 = .ok (.rsub .t .b) ∧
    decodeWord true 0o146176 = .ok (.copy .x .t) ∧
    decodeWord true 0o146755 = .ok (.copyCm2 .a .a) ∧
    decodeWord true 0o146142 = .ok (.exit) ∧
    decodeWord true 0o146106 = .ok (.rclr .t) ∧
    decodeWord true 0o146407 = .ok (.rinc .x) ∧
    decodeWord true 0o146204 = .ok (.rdcr .l) := by
  refine ⟨?_, ?_, ?_, ?_, ?_, ?_, ?_, ?_, ?_, ?_, ?_, ?_, ?_, ?_, ?_, ?_, ?_, ?_, ?_⟩ <;> rfl

/-- R212: the register in bits 3-0; R216, R217: the level in bits 6-3. -/
theorem test_decode_internal_register :
    decodeWord true 0o150001 = .ok (.tra 1) ∧
    decodeWord true 0o150014 = .ok (.tra 0o14) ∧
    decodeWord true 0o150105 = .ok (.trr 5) ∧
    decodeWord true 0o150206 = .ok (.mcl 6) ∧
    decodeWord true 0o150307 = .ok (.mst 7) ∧
    decodeWord true 0o152542 = .ok (.srb 0o14) ∧
    decodeWord true 0o152640 = .ok (.lrb 4) ∧
    decodeWord true 0o153412 = .ok (.irw 1 .p) ∧
    decodeWord true 0o153762 = .ok (.irr 14 .p) := by
  refine ⟨?_, ?_, ?_, ?_, ?_, ?_, ?_, ?_, ?_⟩ <;> rfl

/-- R213, R214. -/
theorem test_decode_system_control :
    decodeWord true 0o150400 = .ok (.opcom) ∧
    decodeWord true 0o150401 = .ok (.iof) ∧
    decodeWord true 0o150402 = .ok (.ion) ∧
    decodeWord true 0o150404 = .ok (.pof) ∧
    decodeWord true 0o150405 = .ok (.piof) ∧
    decodeWord true 0o150406 = .ok (.sex) ∧
    decodeWord true 0o150407 = .ok (.rex) ∧
    decodeWord true 0o150410 = .ok (.pon) ∧
    decodeWord true 0o150412 = .ok (.pion) ∧
    decodeWord true 0o150415 = .ok (.ioxt) ∧
    decodeWord true 0o151123 = .ok (.wait 0o123) ∧
    decodeWord true 0o153377 = .ok (.mon 0o377) ∧
    decodeWord true 0o164777 = .ok (.iox 0o777) ∧
    decodeWord true 0o167770 = .ok (.iox 0o3770) := by
  refine ⟨?_, ?_, ?_, ?_, ?_, ?_, ?_, ?_, ?_, ?_, ?_, ?_, ?_, ?_⟩ <;> rfl

/-- R215: the scaling factor; R219: type, register, bit 6, counter. -/
theorem test_decode_conversion_and_shift :
    decodeWord true 0o151420 = .ok (.nlz 0o020) ∧
    decodeWord true 0o152360 = .ok (.dnz 0o360) ∧
    decodeWord true 0o155006 = .ok (.sht .rotational false 0o06) ∧
    decodeWord true 0o156276 = .ok (.shd .zeroEnd false 0o76) ∧
    decodeWord true 0o157401 = .ok (.sha .linkEnd false 0o01) ∧
    decodeWord true 0o154500 = .ok (.sha .arithmetic true 0) ∧
    decodeWord true 0o154610 = .ok (.sad .arithmetic false 0o10) ∧
    decodeWord true 0o155620 = .ok (.sad .rotational false 0o20) := by
  refine ⟨?_, ?_, ?_, ?_, ?_, ?_, ?_, ?_⟩ <;> rfl

/-- R221. -/
theorem test_decode_argument :
    decodeWord true 0o170352 = .ok (.sab 0o352) ∧
    decodeWord true 0o170640 = .ok (.saa 0o240) ∧
    decodeWord true 0o171013 = .ok (.sat 0o013) ∧
    decodeWord true 0o171777 = .ok (.sax 0o377) ∧
    decodeWord true 0o172100 = .ok (.aab 0o100) ∧
    decodeWord true 0o172772 = .ok (.aaa 0o372) ∧
    decodeWord true 0o173200 = .ok (.aat 0o200) ∧
    decodeWord true 0o173403 = .ok (.aax 0o003) := by
  refine ⟨?_, ?_, ?_, ?_, ?_, ?_, ?_, ?_⟩ <;> rfl

/-- R222: the function in bits 10-7, the bit number in bits 6-3. -/
theorem test_decode_bit :
    decodeWord true 0o174050 = .ok (.bsetZro 5 .zero) ∧
    decodeWord true 0o174267 = .ok (.bsetOne 6 .x) ∧
    decodeWord true 0o174576 = .ok (.bsetBcm 15 .t) ∧
    decodeWord true 0o174757 = .ok (.bsetBac 13 .x) ∧
    decodeWord true 0o175175 = .ok (.bskpZro 15 .a) ∧
    decodeWord true 0o175260 = .ok (.bskpOne 6 .zero) ∧
    decodeWord true 0o175405 = .ok (.bskpBcm 0 .a) ∧
    decodeWord true 0o175605 = .ok (.bskpBac 0 .a) ∧
    decodeWord true 0o176017 = .ok (.bstc 1 .x) ∧
    decodeWord true 0o176217 = .ok (.bsta 1 .x) ∧
    decodeWord true 0o176523 = .ok (.bldc 10 .b) ∧
    decodeWord true 0o176765 = .ok (.blda 14 .a) ∧
    decodeWord true 0o177005 = .ok (.banc 0 .a) ∧
    decodeWord true 0o177214 = .ok (.band 1 .l) ∧
    decodeWord true 0o177421 = .ok (.borc 2 .d) ∧
    decodeWord true 0o177732 = .ok (.bora 11 .p) := by
  refine ⟨?_, ?_, ?_, ?_, ?_, ?_, ?_, ?_, ?_, ?_, ?_, ?_, ?_, ?_, ?_, ?_⟩ <;> rfl
/-- R208: without the CX option. -/
theorem test_decode_customer_2 : decodeWord false 0o140377 = .ok (.cust2 0o77) := rfl

/-- R225, R226 and the table of unassigned words of `spec/95_test_vectors.md` 2.14. -/
theorem test_decode_unassigned :
    [0o160000, 0o163777, 0o140100, 0o140133, 0o140177, 0o140601, 0o150020, 0o150403, 0o150411, 0o150413, 0o150414,
      0o150420, 0o143601, 0o143700, 0o143337, 0o152400, 0o152602].all (fun w =>
        match decodeWord true w with | .error _ => true | .ok _ => false) = true := by decide +kernel

/-- R200: bytes, and the table's numbering of a word. -/
theorem test_decode_bytes :
    decode true [0o250, 0o376, 7] = .ok (.jmp ⟨false, false, false, 0o376⟩, [7]) ∧
    decodeTableWord 16 0o140300 = some .setpt := ⟨rfl, rfl⟩

/-! ### Instructions -/

/-- Level 0 with the given registers, some words of memory, paging and interrupts off. -/
def start (r : RegSet) (ws : List (PhysAddr × Word)) : State :=
  (ws.foldl (fun s w => { s with mem := s.mem.writeWord w.1 w.2 }) State.reset).setCur r

/-- A word of memory. -/
def word (s : State) (pa : PhysAddr) : Word := s.mem.readWord pa

/-- The word decodes, its instruction completes, and the next state passes the check. -/
def runs (w : Word) (s : State) (check : State → Bool) : Bool :=
  match decodeWord s.cfg.hasCx w with
  | .ok i =>
    match exec i s with
    | .next t => check t
    | _ => false
  | .error _ => false

/-- S1. -/
theorem test_sta : runs 0o004002 (start { RegSet.zero with p := 0o403, a := 0o77 } [])
    (fun t => word t 0o405 == 0o77 && t.p == 0o404) = true := by decide +kernel

/-- S3. -/
theorem test_lda : runs 0o045002 (start { RegSet.zero with p := 0o405 } [(0o407, 0o16003), (0o16003, 0o17)])
    (fun t => t.a == 0o17 && t.p == 0o406) = true := by decide +kernel

/-- S6. -/
theorem test_lda_2 :
    runs 0o047377
      (start { RegSet.zero with p := 0o4002, x := 0o177700 } [(0o4001, 0o10100), (0o10000, 3)])
    (fun t => t.a == 3) = true := by decide +kernel

/-- V1. -/
theorem test_stz : runs 0o000005 (start { RegSet.zero with p := 0o1000 } [(0o1005, 0o123)])
    (fun t => word t 0o1005 == 0 && t.p == 0o1001) = true := by decide +kernel

/-- V2. -/
theorem test_stt : runs 0o010403 (start { RegSet.zero with b := 0o2000, t := 7 } [])
    (fun t => word t 0o2003 == 7) = true := by decide +kernel

/-- V3. -/
theorem test_stx : runs 0o016000 (start { RegSet.zero with x := 0o700 } [])
    (fun t => word t 0o700 == 0o700) = true := by decide +kernel

/-- V4. -/
theorem test_std : runs 0o020010 (start { RegSet.zero with p := 0o1000, a := 1, d := 2 } [])
    (fun t => word t 0o1010 == 1 && word t 0o1011 == 2) = true := by decide +kernel

/-- V5. -/
theorem test_ldd : runs 0o024400 (start { RegSet.zero with b := 0o600 } [(0o600, 1), (0o601, 2)])
    (fun t => t.a == 1 && t.d == 2) = true := by decide +kernel

/-- V6. -/
theorem test_ldt : runs 0o052000 (start { RegSet.zero with x := 0o700 } [(0o700, 5)])
    (fun t => t.t == 5) = true := by decide +kernel

/-- V7. -/
theorem test_ldx : runs 0o056001 (start { RegSet.zero with x := 0o100 } [(0o101, 0o55)])
    (fun t => t.x == 0o55) = true := by decide +kernel

/-- V8. -/
theorem test_min : runs 0o040004 (start { RegSet.zero with p := 0o1000 } [(0o1004, 5)])
    (fun t => word t 0o1004 == 6 && t.p == 0o1001) = true := by decide +kernel

/-- V9. -/
theorem test_min_2 : runs 0o041001 (start { RegSet.zero with p := 0o1000 } [(0o1001, 0o2000), (0o2000, 0o177777)])
    (fun t => word t 0o2000 == 0 && t.p == 0o1002) = true := by decide +kernel

/-- V10. -/
theorem test_add : runs 0o060005 (start { RegSet.zero with p := 0o1000, a := 0o77777 } [(0o1005, 1)])
    (fun t => t.a == 0o100000 && !t.flag .c && t.flag .o && t.flag .q) = true := by decide +kernel

/-- V11. -/
theorem test_add_2 :
    runs 0o060005
      (start { RegSet.zero with p := 0o1000, a := 0o177777, sts := 0o40 } [(0o1005, 1)])
    (fun t => t.a == 0 && t.flag .c && t.flag .o && !t.flag .q) = true := by decide +kernel

/-- V13. -/
theorem test_sub : runs 0o064005 (start { RegSet.zero with p := 0o1000, a := 5 } [(0o1005, 5)])
    (fun t => t.a == 0 && t.flag .c && !t.flag .q) = true := by decide +kernel

/-- V15. -/
theorem test_sub_2 : runs 0o064005 (start { RegSet.zero with p := 0o1000, a := 0o100000 } [(0o1005, 1)])
    (fun t => t.a == 0o77777 && t.flag .c && t.flag .o && t.flag .q) = true := by decide +kernel

/-- V17. -/
theorem test_and : runs 0o070005 (start { RegSet.zero with p := 0o1000, a := 0o170360 } [(0o1005, 0o7777)])
    (fun t => t.a == 0o360) = true := by decide +kernel

/-- V18. -/
theorem test_ora : runs 0o074005 (start { RegSet.zero with p := 0o1000, a := 0o170000 } [(0o1005, 0o17)])
    (fun t => t.a == 0o170017) = true := by decide +kernel

/-- V19. -/
theorem test_mpy : runs 0o120005 (start { RegSet.zero with p := 0o1000, a := 3, sts := 0o100 } [(0o1005, 0o177776)])
    (fun t => t.a == 0o177772 && !t.flag .q && t.flag .c && !t.flag .o) = true := by decide +kernel

/-- V20. -/
theorem test_mpy_2 : runs 0o120005 (start { RegSet.zero with p := 0o1000, a := 0o400 } [(0o1005, 0o400)])
    (fun t => t.a == 0 && t.flag .q && t.flag .o) = true := by decide +kernel

/-- S2. -/
theorem test_jmp : runs 0o124376 (start { RegSet.zero with p := 0o403 } [])
    (fun t => t.p == 0o401) = true := by decide +kernel

/-- V22. -/
theorem test_jmp_2 : runs 0o125001 (start { RegSet.zero with p := 0o100 } [(0o101, 0o4000)])
    (fun t => t.p == 0o4000) = true := by decide +kernel

/-- S5. -/
theorem test_jpl : runs 0o135403 (start { RegSet.zero with p := 0o10031, b := 0o400 } [(0o403, 0o2000)])
    (fun t => t.l == 0o10032 && t.p == 0o2000) = true := by decide +kernel

/-- V24. -/
theorem test_jap : runs 0o130003 (start { RegSet.zero with p := 0o200 } [])
    (fun t => t.p == 0o203) = true := by decide +kernel

/-- V25. -/
theorem test_jap_2 : runs 0o130003 (start { RegSet.zero with p := 0o200, a := 0o100000 } [])
    (fun t => t.p == 0o201) = true := by decide +kernel

/-- V26. -/
theorem test_jan : runs 0o130777 (start { RegSet.zero with p := 0o200, a := 0o177777 } [])
    (fun t => t.p == 0o177) = true := by decide +kernel

/-- V27. -/
theorem test_jaz : runs 0o131010 (start { RegSet.zero with p := 0o200 } [])
    (fun t => t.p == 0o210) = true := by decide +kernel

/-- V28. -/
theorem test_jaf : runs 0o131402 (start { RegSet.zero with p := 0o200, a := 1 } [])
    (fun t => t.p == 0o202) = true := by decide +kernel

/-- V30. -/
theorem test_jpc : runs 0o132373 (start { RegSet.zero with p := 0o300, x := 0o177777 } [])
    (fun t => t.x == 0 && !t.flag .c && t.p == 0o273) = true := by decide +kernel

/-- V31. -/
theorem test_jpc_2 : runs 0o132373 (start { RegSet.zero with p := 0o300, x := 0o77777 } [])
    (fun t => t.x == 0o100000 && t.p == 0o301) = true := by decide +kernel

/-- V32. -/
theorem test_jnc : runs 0o132776 (start { RegSet.zero with p := 0o300, x := 0o177700 } [])
    (fun t => t.x == 0o177701 && t.p == 0o276) = true := by decide +kernel

/-- V33. -/
theorem test_jnc_2 : runs 0o132776 (start { RegSet.zero with p := 0o300, x := 0o177777 } [])
    (fun t => t.x == 0 && t.p == 0o301) = true := by decide +kernel

/-- V34. -/
theorem test_jxz : runs 0o133004 (start { RegSet.zero with p := 0o300 } [])
    (fun t => t.p == 0o304) = true := by decide +kernel

/-- V35. -/
theorem test_jxn : runs 0o133402 (start { RegSet.zero with p := 0o300, x := 0o100000 } [])
    (fun t => t.p == 0o302) = true := by decide +kernel

/-- V36. -/
theorem test_jxn_2 : runs 0o133402 (start { RegSet.zero with p := 0o300, x := 1 } [])
    (fun t => t.p == 0o301) = true := by decide +kernel

/-- V38. -/
theorem test_lbyt : runs 0o142200 (start { RegSet.zero with t := 0o1000, x := 3 } [(0o1001, 0o40502)])
    (fun t => t.a == 0o102) = true := by decide +kernel

/-- V39. -/
theorem test_lbyt_2 : runs 0o142200 (start { RegSet.zero with t := 0o1000, x := 2 } [(0o1001, 0o40502)])
    (fun t => t.a == 0o101) = true := by decide +kernel

/-- V40. -/
theorem test_sbyt :
    runs 0o142600
      (start { RegSet.zero with t := 0o1000, x := 2, a := 0o177460 } [(0o1001, 0o40502)])
    (fun t => word t 0o1001 == 0o30102) = true := by decide +kernel

/-- V41. -/
theorem test_bfill :
    runs 0o140130
      (start { RegSet.zero with x := 0o2000, t := 0o100003, a := 0o52 } [(0o2000, 0o111111)])
    (fun t => word t 0o2000 == 0o111052 && word t 0o2001 == 0o25052 && t.x == 0o2002 && t.t == 0
      && t.p == 2) = true := by decide +kernel

/-- V42. -/
theorem test_movb :
    runs 0o140131
      (start { RegSet.zero with a := 0o3000, d := 4, x := 0o3001, t := 4 } [(0o3000, 0o40502), (0o3001, 0o41504)])
    (fun t => word t 0o3001 == 0o40502 && word t 0o3002 == 0o41504 && t.a == 0o3002 && t.d == 0 && t.x == 0o3003
      && t.t == 4 && t.p == 2) = true := by decide +kernel

/-- V43. -/
theorem test_movbf :
    runs 0o140132
      (start { RegSet.zero with a := 0o3000, d := 3, x := 0o4000, t := 0o100005 } [(0o3000, 0o40502), (0o3001,
      0o41400)])
    (fun t => word t 0o4000 == 0o101 && word t 0o4001 == 0o41103 && t.a == 0o3001 && t.d == 0o100000
      && t.x == 0o4002 && t.t == 2 && t.p == 2) = true := by decide +kernel

/-- V44. -/
theorem test_movbf_2 : runs 0o140132 (start { RegSet.zero with a := 0o3000, d := 4, x := 0o3001, t := 4 } [])
    (fun t => t.a == 0o3000 && t.x == 0o3001 && t.p == 1) = true := by decide +kernel

/-- V46. -/
theorem test_fad :
    runs 0o100005
      (start { RegSet.zero with p := 0o1000, t := 0o40001, a := 0o100000 } [(0o1005, 0o40001), (0o1006, 0o100000),
      (0o1007, 0)])
    (fun t => t.t == 0o40002 && t.a == 0o100000 && t.d == 0) = true := by decide +kernel

/-- V47. -/
theorem test_fsb :
    runs 0o104005
      (start { RegSet.zero with p := 0o1000, t := 0o40001, a := 0o100000 } [(0o1005, 0o40001), (0o1006, 0o100000),
      (0o1007, 0)])
    (fun t => t.t == 0 && t.a == 0 && t.d == 0) = true := by decide +kernel

/-- V48. -/
theorem test_fmu :
    runs 0o110005
      (start { RegSet.zero with p := 0o1000, t := 0o40002, a := 0o140000 } [(0o1005, 0o40000), (0o1006, 0o100000),
      (0o1007, 0)])
    (fun t => t.t == 0o40001 && t.a == 0o140000 && t.d == 0) = true := by decide +kernel

/-- V49. -/
theorem test_fdv :
    runs 0o114005
      (start { RegSet.zero with p := 0o1000, t := 0o40001, a := 0o100000 } [(0o1005, 0o40002), (0o1006, 0o100000),
      (0o1007, 0)])
    (fun t => t.t == 0o40000 && t.a == 0o100000 && t.d == 0) = true := by decide +kernel

/-- V52. -/
theorem test_nlz : runs 0o151420 (start { RegSet.zero with a := 0o177777, t := 5, d := 6 } [])
    (fun t => t.t == 0o140001 && t.a == 0o100000 && t.d == 0) = true := by decide +kernel

/-- V57. -/
theorem test_nlz_2 :
    runs 0o151420
      { start { RegSet.zero with a := 3, t := 5 } []
        with cfg := { Installation.default with fp32 := true } }
    (fun t => t.a == 0o40240 && t.d == 0 && t.t == 5) = true := by decide +kernel

/-- V59. -/
theorem test_dnz : runs 0o152360 (start { RegSet.zero with t := 0o140002, a := 0o144420 } [])
    (fun t => t.a == 0o177775) = true := by decide +kernel

/-- V60. -/
theorem test_dnz_2 : runs 0o152360 (start { RegSet.zero with t := 0o40020, a := 0o100000 } [])
    (fun t => t.flag .z && t.t == 0 && t.d == 0) = true := by decide +kernel

/-- V62. -/
theorem test_sha : runs 0o154401 (start { RegSet.zero with a := 0o140001 } [])
    (fun t => t.a == 0o100002 && t.flag .m) = true := by decide +kernel

/-- V67. -/
theorem test_sha_2 : runs 0o154440 (start { RegSet.zero with a := 0o100000 } [])
    (fun t => t.a == 0o177777 && t.flag .m) = true := by decide +kernel

/-- V70. -/
theorem test_sht : runs 0o155006 (start { RegSet.zero with t := 0o123456 } [])
    (fun t => t.t == 0o145651 && t.flag .m) = true := by decide +kernel

/-- V71. -/
theorem test_shd : runs 0o155277 (start { RegSet.zero with d := 1 } [])
    (fun t => t.d == 0o100000 && t.flag .m) = true := by decide +kernel

/-- S19. -/
theorem test_shd_2 : runs 0o156276 (start { RegSet.zero with d := 0o177777 } [])
    (fun t => t.d == 0o37777 && t.flag .m) = true := by decide +kernel

/-- V72. -/
theorem test_sad : runs 0o154601 (start { RegSet.zero with a := 0o40000, d := 0o100000 } [])
    (fun t => t.a == 0o100001 && t.d == 0 && !t.flag .m) = true := by decide +kernel

/-- S18. -/
theorem test_sad_2 : runs 0o155620 (start { RegSet.zero with a := 0o123456, d := 7 } [])
    (fun t => t.a == 7 && t.d == 0o123456 && !t.flag .m) = true := by decide +kernel

/-- S20. -/
theorem test_swap : runs 0o144051 (start { RegSet.zero with a := 1, d := 2 } [])
    (fun t => t.a == 2 && t.d == 1) = true := by decide +kernel

/-- S21. -/
theorem test_swap_2 : runs 0o144157 (start { RegSet.zero with a := 5, x := 0o11 } [])
    (fun t => t.x == 5 && t.a == 0) = true := by decide +kernel

/-- S22. -/
theorem test_rand : runs 0o144447 (start { RegSet.zero with l := 0o170360, x := 0o123456 } [])
    (fun t => t.x == 0o120040) = true := by decide +kernel

/-- S23. -/
theorem test_radd : runs 0o146057 (start { RegSet.zero with a := 0o77777, x := 1 } [])
    (fun t => t.x == 0o100000 && !t.flag .c && t.flag .o && t.flag .q) = true := by decide +kernel

/-- S24. -/
theorem test_rsub : runs 0o146663 (start { RegSet.zero with b := 5, t := 7 } [])
    (fun t => t.b == 0o177776 && !t.flag .c && !t.flag .q) = true := by decide +kernel

/-- V76. -/
theorem test_rsub_2 : runs 0o146663 (start { RegSet.zero with b := 7, t := 5 } [])
    (fun t => t.b == 2 && t.flag .c && !t.flag .q) = true := by decide +kernel

/-- S25. -/
theorem test_copy : runs 0o146176 (start { RegSet.zero with x := 7, sts := 0o100 } [])
    (fun t => t.t == 7 && !t.flag .c) = true := by decide +kernel

/-- V87. -/
theorem test_copy_2 : runs 0o146125 (start { RegSet.zero with p := 0o1000 } [])
    (fun t => t.a == 0o1001) = true := by decide +kernel

/-- S26. -/
theorem test_copy_cm2 : runs 0o146755 (start { RegSet.zero with a := 1 } [])
    (fun t => t.a == 0o177777 && !t.flag .c) = true := by decide +kernel

/-- V78. -/
theorem test_copy_cm2_2 : runs 0o146755 (start { RegSet.zero with a := 0o100000 } [])
    (fun t => t.a == 0o100000 && !t.flag .c && t.flag .o && t.flag .q) = true := by decide +kernel

/-- S27. -/
theorem test_exit : runs 0o146142 (start { RegSet.zero with l := 0o402 } [])
    (fun t => t.p == 0o402) = true := by decide +kernel

/-- V79. -/
theorem test_rclr : runs 0o146106 (start { RegSet.zero with t := 7, sts := 0o100 } [])
    (fun t => t.t == 0 && !t.flag .c) = true := by decide +kernel

/-- V83. -/
theorem test_rinc : runs 0o146402 (start { RegSet.zero with p := 5 } [])
    (fun t => t.p == 7) = true := by decide +kernel

/-- V84. -/
theorem test_rdcr : runs 0o146204 (start RegSet.zero [])
    (fun t => t.l == 0o177777 && !t.flag .c) = true := by decide +kernel

/-- V85. -/
theorem test_rdcr_2 : runs 0o146204 (start { RegSet.zero with l := 0o100000 } [])
    (fun t => t.l == 0o77777 && t.flag .c && t.flag .o && t.flag .q) = true := by decide +kernel

/-- V74. -/
theorem test_rexo : runs 0o145055 (start { RegSet.zero with a := 0o123456 } [])
    (fun t => t.a == 0) = true := by decide +kernel

/-- V75. -/
theorem test_rora : runs 0o145465 (start { RegSet.zero with t := 0o17, a := 0o360 } [])
    (fun t => t.a == 0o377) = true := by decide +kernel

/-- V89. -/
theorem test_rmpy : runs 0o141257 (start { RegSet.zero with a := 0o454, x := 0o310 } [])
    (fun t => t.a == 0 && t.d == 0o165140) = true := by decide +kernel

/-- V91. -/
theorem test_rmpy_2 : runs 0o141257 (start { RegSet.zero with a := 0o100000, x := 0o100000 } [])
    (fun t => t.a == 0o40000 && t.d == 0) = true := by decide +kernel

/-- R412. -/
theorem test_rdiv : runs 0o141660 (start { RegSet.zero with a := 0o177777, d := 0o177752, t := 4 } [])
    (fun t => t.a == 0o177773 && t.d == 0o177776) = true := by decide +kernel

/-- R412. -/
theorem test_rdiv_2 : runs 0o141660 (start { RegSet.zero with a := 5, d := 0o143124, t := 0o177760 } [])
    (fun t => t.a == 0o121633 && t.d == 4) = true := by decide +kernel

/-- V93. -/
theorem test_exr : runs 0o140650 (start { RegSet.zero with p := 0o500, a := 0o44002 } [(0o502, 0o77)])
    (fun t => t.a == 0o77 && t.p == 0o501) = true := by decide +kernel

/-- V94. -/
theorem test_exr_2 : runs 0o140650 (start { RegSet.zero with p := 0o500, a := 0o140650 } [])
    (fun t => t.flag .z && t.p == 0o501) = true := by decide +kernel

/-- V96b. -/
theorem test_mix3 : runs 0o143200 (start { RegSet.zero with a := 5 } [])
    (fun t => t.x == 0o14) = true := by decide +kernel

/-- V96c. -/
theorem test_mix3_2 : runs 0o143200 (start RegSet.zero [])
    (fun t => t.x == 0o177775) = true := by decide +kernel

/-- S42. -/
theorem test_sab : runs 0o170352 (start RegSet.zero [])
    (fun t => t.b == 0o177752) = true := by decide +kernel

/-- V101. -/
theorem test_sab_2 : runs 0o170200 (start RegSet.zero [])
    (fun t => t.b == 0o177600) = true := by decide +kernel

/-- S45. -/
theorem test_aaa : runs 0o172772 (start { RegSet.zero with a := 0o12 } [])
    (fun t => t.a == 4 && t.flag .c) = true := by decide +kernel

/-- V104. -/
theorem test_aaa_2 : runs 0o172401 (start { RegSet.zero with a := 0o77777 } [])
    (fun t => t.a == 0o100000 && !t.flag .c && t.flag .o && t.flag .q) = true := by decide +kernel

/-- V98. -/
theorem test_sax : runs 0o171777 (start RegSet.zero [])
    (fun t => t.x == 0o177777) = true := by decide +kernel

/-- V106. -/
theorem test_aat : runs 0o173200 (start RegSet.zero [])
    (fun t => t.t == 0o177600 && !t.flag .c) = true := by decide +kernel

/-- V102. -/
theorem test_aab : runs 0o172100 (start { RegSet.zero with b := 0o400, sts := 0o100 } [])
    (fun t => t.b == 0o500 && !t.flag .c) = true := by decide +kernel

/-- S46. -/
theorem test_aax : runs 0o173403 (start { RegSet.zero with x := 0o177777 } [])
    (fun t => t.x == 2 && t.flag .c) = true := by decide +kernel

/-- S47. -/
theorem test_bset_zro : runs 0o174050 (start { RegSet.zero with sts := 0o40 } [])
    (fun t => !t.flag .o) = true := by decide +kernel

/-- V107. -/
theorem test_bset_one : runs 0o174260 (start RegSet.zero [])
    (fun t => t.flag .c) = true := by decide +kernel

/-- V119. -/
theorem test_bset_one_2 : runs 0o174222 (start { RegSet.zero with p := 0o1000 } [])
    (fun t => t.p == 0o1005) = true := by decide +kernel

/-- S49. -/
theorem test_bset_bcm : runs 0o174576 (start { RegSet.zero with t := 0o40001 } [])
    (fun t => t.t == 0o140001) = true := by decide +kernel

/-- V110. -/
theorem test_bskp_zro : runs 0o175175 (start { RegSet.zero with a := 0o77777 } [])
    (fun t => t.p == 2) = true := by decide +kernel

/-- V111. -/
theorem test_bskp_one : runs 0o175230 (start RegSet.zero [])
    (fun t => t.p == 1) = true := by decide +kernel

/-- S50. -/
theorem test_bskp_one_2 : runs 0o175260 (start { RegSet.zero with sts := 0o100 } [])
    (fun t => t.p == 2) = true := by decide +kernel

/-- V112a. -/
theorem test_bskp_bcm : runs 0o175405 (start { RegSet.zero with a := 1, sts := 0o4 } [])
    (fun t => t.p == 1) = true := by decide +kernel

/-- V112b. -/
theorem test_bskp_bac : runs 0o175605 (start { RegSet.zero with a := 1, sts := 0o4 } [])
    (fun t => t.p == 2) = true := by decide +kernel

/-- V113. -/
theorem test_bstc : runs 0o176017 (start RegSet.zero [])
    (fun t => t.x == 2 && t.flag .k) = true := by decide +kernel

/-- V118b. -/
theorem test_bstc_2 : runs 0o176020 (start { RegSet.zero with sts := 0o4 } [])
    (fun t => t.flag .k) = true := by decide +kernel

/-- V114. -/
theorem test_bsta : runs 0o176217 (start { RegSet.zero with sts := 0o4 } [])
    (fun t => t.x == 2 && !t.flag .k) = true := by decide +kernel

/-- V118a. -/
theorem test_bsta_2 : runs 0o176220 (start { RegSet.zero with sts := 0o4 } [])
    (fun t => !t.flag .k) = true := by decide +kernel

/-- V115. -/
theorem test_bldc : runs 0o176405 (start { RegSet.zero with a := 1 } [])
    (fun t => !t.flag .k) = true := by decide +kernel

/-- V116177005. -/
theorem test_banc : runs 0o177005 (start { RegSet.zero with a := 1, sts := 0o4 } [])
    (fun t => !t.flag .k) = true := by decide +kernel

/-- V117177405. -/
theorem test_borc : runs 0o177405 (start RegSet.zero [])
    (fun t => t.flag .k) = true := by decide +kernel

/-- V116177205. -/
theorem test_band : runs 0o177205 (start { RegSet.zero with a := 1, sts := 0o4 } [])
    (fun t => t.flag .k) = true := by decide +kernel

/-- V117177605. -/
theorem test_bora : runs 0o177605 (start RegSet.zero [])
    (fun t => !t.flag .k) = true := by decide +kernel

/-- V160. -/
theorem test_addd :
    runs 0o140120
      (start { RegSet.zero with a := 0o1000, d := 6, x := 0o2000, t := 4 } [(0o1000, 0o22), (0o1001, 0o36000),
      (0o2000, 0o114234)])
    (fun t => word t 0o1000 == 0o421 && word t 0o1001 == 0o26000 && t.p == 2) = true := by decide +kernel

/-- V161. -/
theorem test_addd_2 :
    runs 0o140120
      (start { RegSet.zero with a := 0o1000, d := 3, x := 0o2000, t := 2 } [(0o1000, 0o4634), (0o2000, 0o16000)])
    (fun t => word t 0o1000 == 0o14 && t.p == 1) = true := by decide +kernel

/-- V162. -/
theorem test_subd :
    runs 0o140121
      (start { RegSet.zero with a := 0o1000, d := 4, x := 0o2000, t := 4 } [(0o1000, 0o134), (0o2000, 0o174)])
    (fun t => word t 0o1000 == 0o55 && t.p == 2) = true := by decide +kernel

/-- V163. -/
theorem test_comd :
    runs 0o140122
      (start { RegSet.zero with a := 0o1000, d := 3, x := 0o2000, t := 5 } [(0o1000, 0o455), (0o2000, 0), (0o2001,
      0o36000)])
    (fun t => t.a == 0o177777 && t.p == 2) = true := by decide +kernel

/-- V164. -/
theorem test_pack :
    runs 0o140124
      (start { RegSet.zero with a := 0o1000, d := 0o4004, x := 0o2000, t := 6 } [(0o1000, 0o30462), (0o1001,
      0o31455)])
    (fun t => word t 0o2000 == 0o22 && word t 0o2001 == 0o36400 && t.p == 2) = true := by decide +kernel

/-- V165. -/
theorem test_pack_2 :
    runs 0o140124
      (start { RegSet.zero with a := 0o1000, d := 0o4004, x := 0o2000, t := 3 } [(0o1000, 0o30462), (0o1001,
      0o31455)])
    (fun t => t.d == 0o4003 && t.p == 1) = true := by decide +kernel

/-- V166. -/
theorem test_upack :
    runs 0o140125
      (start { RegSet.zero with a := 0o1000, d := 4, x := 0o2000, t := 4 } [(0o1000, 0o455)])
    (fun t => word t 0o2000 == 0o30060 && word t 0o2001 == 0o30513 && t.p == 2) = true := by decide +kernel

/-- V167. -/
theorem test_shde :
    runs 0o140126
      (start { RegSet.zero with a := 0o1000, d := 0o106, x := 0o2000, t := 6 } [(0o1000, 0o11064), (0o1001,
      0o56000)])
    (fun t => word t 0o2000 == 0o22 && word t 0o2001 == 0o36000 && t.p == 2) = true := by decide +kernel

/-- V168. -/
theorem test_shde_2 :
    runs 0o140126
      (start { RegSet.zero with a := 0o1000, d := 0o106, x := 0o2000, t := 0o46 } [(0o1000, 0o11064), (0o1001,
      0o56000)])
    (fun t => word t 0o2000 == 0o443 && word t 0o2001 == 0o56000 && t.p == 2) = true := by decide +kernel

/-- V170. -/
theorem test_init :
    runs 0o140134
      (start { RegSet.zero with p := 0o1000, l := 0o500, b := 0o77 } [(0o1001, 0o10), (0o1002, 0o40000), (0o1003,
      0o1000), (0o1004, 1)])
    (fun t => t.b == 0o77 && word t 0o40000 == 0 && t.p == 0o1006) = true := by decide +kernel

/-- V172. -/
theorem test_leave :
    runs 0o140136
      (start { RegSet.zero with p := 0o2000, b := 0o40216 } [(0o40016, 0o1235), (0o40017, 0o40200)])
    (fun t => t.b == 0o40200 && t.p == 0o1235) = true := by decide +kernel

/-- V173. -/
theorem test_eleav :
    runs 0o140137
      (start { RegSet.zero with p := 0o2000, b := 0o40216, a := 5 } [(0o40016, 0o1235), (0o40017, 0o40200)])
    (fun t => t.b == 0o40200 && word t 0o40016 == 0o1234 && word t 0o40023 == 5
      && t.p == 0o1234) = true := by decide +kernel

/-- V136. -/
theorem test_tra : runs 0o150001 { start { RegSet.zero with sts := 0o104 } [] with ioni := true }
    (fun t => t.a == 0o110104) = true := by decide +kernel

/-- V139. -/
theorem test_trr : runs 0o150101 (start { RegSet.zero with a := 0o177777 } [])
    (fun t => t.flag .z && t.flag .c && t.flag .k) = true := by decide +kernel

/-- V149. -/
theorem test_srb :
    runs 0o152402
      (start { RegSet.zero with p := 0o1000, x := 0o2000, t := 6, a := 5, d := 1, l := 4, b := 3, sts := 0o100 } [])
    (fun t => word t 0o2000 == 0o1001 && word t 0o2001 == 0o2000 && word t 0o2002 == 6 && word t 0o2003 == 5
      && word t 0o2004 == 1 && word t 0o2005 == 4 && word t 0o2006 == 0o100
      && word t 0o2007 == 3) = true := by decide +kernel

/-- V151. -/
theorem test_lrb :
    runs 0o152600
      (start { RegSet.zero with p := 0o1000, x := 0o2000 } [(0o2000, 0o100), (0o2001, 1), (0o2002, 2), (0o2003,
      3), (0o2004, 4), (0o2005, 5), (0o2006, 0o377), (0o2007, 7)])
    (fun t => t.x == 1 && t.t == 2 && t.a == 3 && t.d == 4 && t.l == 5 && t.b == 7 && t.flag .z
      && t.p == 0o1001) = true := by decide +kernel

/-- V153. -/
theorem test_depo : runs 0o150417 (start { RegSet.zero with d := 0o100, t := 0o54321 } [])
    (fun t => word t 0o100 == 0o54321 && t.p == 1) = true := by decide +kernel

/-- V155. -/
theorem test_ldbtx : runs 0o143303 (start { RegSet.zero with x := 0o500 } [(0o500, 0o105)])
    (fun t => t.b == 0o177212) = true := by decide +kernel

/-- V156. -/
theorem test_ldbtx_2 : runs 0o143303 (start { RegSet.zero with x := 0o500 } [(0o500, 0o100001)])
    (fun t => t.b == 0o177002) = true := by decide +kernel

/-- V158. -/
theorem test_stztx : runs 0o143305 (start { RegSet.zero with x := 0o500 } [(0o500, 7)])
    (fun t => word t 0o500 == 0) = true := by decide +kernel

/-- S43. -/
theorem test_saa : runs 0o170640 (start RegSet.zero [])
    (fun t => t.a == 0o177640) = true := by decide +kernel

/-- S44. -/
theorem test_sat : runs 0o171013 (start { RegSet.zero with t := 7 } [])
    (fun t => t.t == 0o13) = true := by decide +kernel

/-- S51a. -/
theorem test_blda : runs 0o176765 (start { RegSet.zero with a := 0o40000 } [])
    (fun t => t.flag .k) = true := by decide +kernel

/-- S51b. -/
theorem test_bset_bac : runs 0o174757 (start { RegSet.zero with sts := 0o4 } [])
    (fun t => t.x == 0o20000) = true := by decide +kernel

/-- program 7. -/
theorem test_stf :
    runs 0o030006
      (start { RegSet.zero with p := 0o603, t := 0o40002, a := 0o140000 } [])
    (fun t => word t 0o611 == 0o40002 && word t 0o612 == 0o140000 && word t 0o613 == 0
      && t.p == 0o604) = true := by decide +kernel

/-- R343. -/
theorem test_ldf :
    runs 0o034001
      (start { RegSet.zero with p := 0o1000 } [(0o1001, 0o40001), (0o1002, 0o100000), (0o1003, 7)])
    (fun t => t.t == 0o40001 && t.a == 0o100000 && t.d == 7 && t.p == 0o1001) = true := by decide +kernel

/-- program 4. -/
theorem test_radd_2 : runs 0o147005 (start { RegSet.zero with a := 1, sts := 0o100 } [])
    (fun t => t.a == 2 && !t.flag .c) = true := by decide +kernel

/-- R430, R439. -/
theorem test_skp_eql : runs 0o140075 (start { RegSet.zero with a := 7, x := 7 } [])
    (fun t => t.p == 2) = true := by decide +kernel

/-- R430, R439. -/
theorem test_skp_eql_2 : runs 0o140075 (start { RegSet.zero with a := 5, x := 3 } [])
    (fun t => t.p == 1) = true := by decide +kernel

/-- R430, R439. -/
theorem test_skp_geq : runs 0o140475 (start { RegSet.zero with a := 0o77777, x := 0o177777 } [])
    (fun t => t.p == 1) = true := by decide +kernel

/-- R430, R439. -/
theorem test_skp_geq_2 : runs 0o140475 (start { RegSet.zero with a := 0o100000, x := 1 } [])
    (fun t => t.p == 2) = true := by decide +kernel

/-- R430, R439. -/
theorem test_skp_gre : runs 0o141075 (start { RegSet.zero with x := 0o177777 } [])
    (fun t => t.p == 2) = true := by decide +kernel

/-- R430, R439. -/
theorem test_skp_gre_2 : runs 0o141075 (start { RegSet.zero with a := 0o100000, x := 1 } [])
    (fun t => t.p == 1) = true := by decide +kernel

/-- R430, R439. -/
theorem test_skp_mgre : runs 0o141475 (start { RegSet.zero with a := 0o177777 } [])
    (fun t => t.p == 2) = true := by decide +kernel

/-- R430, R439. -/
theorem test_skp_mgre_2 : runs 0o141475 (start { RegSet.zero with x := 0o177777 } [])
    (fun t => t.p == 1) = true := by decide +kernel

/-- R430, R439. -/
theorem test_skp_ueq : runs 0o142075 (start { RegSet.zero with a := 3, x := 5 } [])
    (fun t => t.p == 2) = true := by decide +kernel

/-- R430, R439. -/
theorem test_skp_ueq_2 : runs 0o142075 (start { RegSet.zero with a := 7, x := 7 } [])
    (fun t => t.p == 1) = true := by decide +kernel

/-- R430, R439. -/
theorem test_skp_lss : runs 0o142475 (start { RegSet.zero with a := 0o100000, x := 1 } [])
    (fun t => t.p == 1) = true := by decide +kernel

/-- R430, R439. -/
theorem test_skp_lss_2 : runs 0o142475 (start { RegSet.zero with a := 0o77777, x := 0o177777 } [])
    (fun t => t.p == 2) = true := by decide +kernel

/-- R430, R439. -/
theorem test_skp_lst : runs 0o143075 (start { RegSet.zero with a := 0o100000, x := 1 } [])
    (fun t => t.p == 2) = true := by decide +kernel

/-- R430, R439. -/
theorem test_skp_lst_2 : runs 0o143075 (start { RegSet.zero with x := 0o177777 } [])
    (fun t => t.p == 1) = true := by decide +kernel

/-- R430, R439. -/
theorem test_skp_mlst : runs 0o143475 (start { RegSet.zero with x := 0o177777 } [])
    (fun t => t.p == 2) = true := by decide +kernel

/-- R430, R439. -/
theorem test_skp_mlst_2 : runs 0o143475 (start { RegSet.zero with a := 0o177777 } [])
    (fun t => t.p == 1) = true := by decide +kernel
/-- V169, the frame that INIT builds where the stack does not overflow (log 37). -/
theorem test_init_2 : frameEnd 0o40200 0o10 = 0o40016 ∧
    (match enterFrame 0o40200 { link := 0o501, prevb := 0o77, stp := 0o40016, smax := 0o41000 } 0o1007
        (start RegSet.zero []) with
      | .next t =>
        word t 0o40000 == 0o501 && word t 0o40001 == 0o77 && word t 0o40002 == 0o40016 &&
          word t 0o40003 == 0o41000 && t.b == 0o40200 && t.p == 0o1007
      | _ => false) = true := by decide +kernel

/-- V171, the operands of ENTR and the end of its frame. -/
theorem test_entr : frameEnd 0o40216 4 = 0o40030 ∧
    (match (start { RegSet.zero with p := 0o2000, b := 0o40200 }
        [(0o2001, 4), (0o40002, 0o40016), (0o40003, 0o41000)]).entrParameters with
      | .done v _ => v == (4, 0o40016, 0o41000)
      | .aborted _ => false) = true := by decide +kernel

/-- V134: LWCS without the writable control store. -/
theorem test_lwcs : runs 0o143500 { start RegSet.zero [] with cfg := { Installation.default with hasWcs := false } }
    (fun t => t.p == 1 && !t.wcsLoaded && t.iid == 0) = true := by decide +kernel

/-- V174, R226: TSET without the CX option is no instruction. -/
theorem test_tset : decodeWord false 0o140123 = .error .unassigned := rfl

/-- R522, R226: a customer code with no microprogram loaded raises II. -/
theorem test_customer :
    [0o140200, 0o140500, 0o140700, 0o141100, 0o141300, 0o141500, 0o141700, 0o142100, 0o142300, 0o142500].all
      (fun w => runs w (start RegSet.zero []) fun t => t.iid == 0o20 && t.p == 1) = true := by decide +kernel

/-- R208, R522: without the CX option 0o1403XX is customer code 2. -/
theorem test_cust_2 : runs 0o140300 { start RegSet.zero [] with cfg := { Installation.default with hasCx := false } }
    (fun t => t.iid == 0o20 && t.p == 1) = true := by decide +kernel

/-- R492: IDENT on level 10 finds the console's output channel, ident code 1 (R746). -/
theorem test_ident_pl10 :
    runs 0o143604 { start RegSet.zero [] with console := { Console.initial with outFf := true } }
      (fun t => t.a == 1 && !t.console.outFf && t.iid == 0) = true := by decide +kernel

/-- R492: no interface interrupts on level 11. -/
theorem test_ident_pl11 : runs 0o143611 (start { RegSet.zero with a := 5 } [])
    (fun t => t.a == 5 && t.iid == 0o200 && t.p == 1) = true := by decide +kernel

/-- V133. -/
theorem test_ident_pl12 : runs 0o143622 (start { RegSet.zero with a := 5 } [])
    (fun t => t.a == 5 && t.iid == 0o200) = true := by decide +kernel

/-- V214. -/
theorem test_ident_pl13 :
    runs 0o143643 { start RegSet.zero [] with clock := { cleared := false, ready := true, ie := true, ff := true } }
      (fun t => t.a == 1 && !t.clock.ff && t.clock.ready) = true := by decide +kernel

/-- V154. -/
theorem test_ldatx : runs 0o143330 (start { RegSet.zero with t := 1, x := 0o177776 } [(0o200001, 7)])
    (fun t => t.a == 7 && t.x == 0o177776) = true := by decide +kernel

/-- R568. -/
theorem test_ldxtx : runs 0o143301 (start { RegSet.zero with x := 0o500 } [(0o500, 7)])
    (fun t => t.x == 7) = true := by decide +kernel

/-- R569. -/
theorem test_lddtx : runs 0o143312 (start { RegSet.zero with x := 0o500 } [(0o501, 7), (0o502, 0o11)])
    (fun t => t.a == 7 && t.d == 0o11) = true := by decide +kernel

/-- R571. -/
theorem test_statx : runs 0o143344 (start { RegSet.zero with a := 3, x := 0o500 } [])
    (fun t => word t 0o504 == 3) = true := by decide +kernel

/-- V157. -/
theorem test_stdtx : runs 0o143326 (start { RegSet.zero with t := 3, x := 0o10000, a := 1, d := 2 } [])
    (fun t => word t 0o610002 == 1 && word t 0o610003 == 2) = true := by decide +kernel

/-- V152. -/
theorem test_exam : runs 0o150416 (start { RegSet.zero with a := 2, d := 0o1234 } [(0o401234, 0o55)])
    (fun t => t.t == 0o55 && t.a == 2) = true := by decide +kernel

/-- V138. -/
theorem test_tra_2 : runs 0o150005 { start RegSet.zero [] with iic := 2, iicLock := true }
    (fun t => t.a == 2 && t.iic == 0 && !t.iicLock) = true := by decide +kernel

/-- V141. -/
theorem test_trr_2 : runs 0o150103 (start { RegSet.zero with a := 0o3423 } [])
    (fun t => t.pcrOf 2 == { pt := 3, apt := 2, ring := 3 } && t.pcrOf 0 == { pt := 0, apt := 0, ring := 0 }) = true := by
  decide +kernel

/-- V143. -/
theorem test_mcl : runs 0o150206 { start { RegSet.zero with a := 0o20 } [] with pid := 0o70 }
    (fun t => t.pid == 0o50) = true := by decide +kernel

/-- V144. -/
theorem test_mst : runs 0o150307 { start { RegSet.zero with a := 0o40000 } [] with pie := 1 }
    (fun t => t.pie == 0o40001) = true := by decide +kernel

/-- V135. -/
theorem test_opcom : runs 0o150400 { start RegSet.zero [] with runState := .run, opcomActive := false }
    (fun t => t.opcomActive && t.runState == .run) = true := by decide +kernel

/-- V125. -/
theorem test_ion : runs 0o150402 (start RegSet.zero []) (fun t => t.ioni && t.p == 1) = true := by decide +kernel

/-- V125. -/
theorem test_iof : runs 0o150401 { start RegSet.zero [] with ioni := true } (fun t => !t.ioni) = true := by
  decide +kernel

/-- V196: ION on a user ring raises PI. -/
theorem test_ion_2 : runs 0o150402 { start RegSet.zero [] with poni := true }
    (fun t => !t.ioni && t.iid == 0o100 && t.p == 1) = true := by decide +kernel

/-- V126: PON without memory management. -/
theorem test_pon : runs 0o150410 { start RegSet.zero [] with cfg := { Installation.default with hasMms := false } }
    (fun t => !t.poni && t.p == 1) = true := by decide +kernel

/-- R485. -/
theorem test_pon_2 : runs 0o150410 (start RegSet.zero []) (fun t => t.poni && !t.ioni) = true := by decide +kernel

/-- R487. -/
theorem test_pion : runs 0o150412 (start RegSet.zero []) (fun t => t.poni && t.ioni) = true := by decide +kernel

/-- R486, on ring 2. -/
theorem test_pof :
    runs 0o150404 { (start RegSet.zero []).setPcr 0 { pt := 0, apt := 0, ring := 2 } with poni := true, ioni := true }
      (fun t => !t.poni && t.ioni) = true := by decide +kernel

/-- V127. -/
theorem test_piof :
    runs 0o150405 { (start RegSet.zero []).setPcr 0 { pt := 0, apt := 0, ring := 2 } with poni := true, ioni := true }
      (fun t => !t.poni && !t.ioni) = true := by decide +kernel

/-- V128. -/
theorem test_sex : runs 0o150406 (start RegSet.zero []) (fun t => t.sexi && t.statusWord == 0o30000) = true := by
  decide +kernel

/-- V128. -/
theorem test_rex : runs 0o150407 { start RegSet.zero [] with sexi := true } (fun t => !t.sexi) = true := by
  decide +kernel

/-- V132. -/
theorem test_ioxt :
    runs 0o150415 { start { RegSet.zero with t := 0o300 } [] with
      opcomActive := false, console := { Console.initial with data := 0o101, avail := true } }
      (fun t => t.a == 0o101 && !t.console.avail) = true := by decide +kernel

/-- V215: the console after master clear. -/
theorem test_iox : runs 0o164306 (start { RegSet.zero with a := 0o123 } []) (fun t => t.a == 0o10) = true := by
  decide +kernel

/-- V130: no device has the address. -/
theorem test_iox_2 : runs 0o164777 (start { RegSet.zero with a := 0o123 } [])
    (fun t => t.a == 0o123 && t.iid == 0o200) = true := by decide +kernel

/-- V122. -/
theorem test_wait : runs 0o151000 { start RegSet.zero [] with runState := .run }
    (fun t => t.runState == .stop && t.p == 1) = true := by decide +kernel

/-- V124. -/
theorem test_wait_2 : runs 0o151123 { start RegSet.zero [] with runState := .run, ioni := true, pil := 5, pid := 0o40 }
    (fun t => t.runState == .run && t.pid == 0 && t.p == 1) = true := by decide +kernel

/-- V120. -/
theorem test_mon : runs 0o153003 { start RegSet.zero [] with pil := 2 }
    (fun t => (t.reg 14).t == 3 && t.iid == 2 && t.p == 1) = true := by decide +kernel

/-- V121. -/
theorem test_mon_2 : runs 0o153200 (start RegSet.zero []) (fun t => (t.reg 14).t == 0o177600 && t.t == 0) = true := by
  decide +kernel

/-- V148. -/
theorem test_irw : runs 0o153410 (start { RegSet.zero with a := 0o177777 } [])
    (fun t => (t.reg 1).sts == 0o377 && t.sts == 0) = true := by decide +kernel

/-- V147. -/
theorem test_irw_2 : runs 0o153432 { start RegSet.zero [] with pil := 3 } (fun t => t.p == 1) = true := by
  decide +kernel

/-- S58. -/
theorem test_irr : runs 0o153762 ((start RegSet.zero []).setReg 14 { RegSet.zero with p := 0o200 })
    (fun t => t.a == 0o200) = true := by decide +kernel

/-! ### The step -/

/-- R16: the word placed at P is fetched and executed; the next boundary's test is open again. -/
theorem test_step :
    (match step (State.reset.withFetchWord 16 0o170405) with
      | .next t => t.a == 5 && t.p == 1 && !t.boundaryDone
      | _ => false) = true := by decide +kernel

/-- V193: an unassigned word with its source enabled is latched at the next boundary, which is entered on level 14. -/
theorem test_trap :
    (match step { State.reset.withFetchWord 16 0o160000 with pil := 3, ioni := true, pie := 0o40000, iie := 0o20 } with
      | .next t =>
        match step t with
        | .next u =>
          t.iid == 0o20 && u.pil == 14 && u.pvl == 3 && u.iic == 4 && u.iicLock && u.iid == 0 && (u.reg 3).p == 1
        | _ => false
      | _ => false) = true := by decide +kernel

/-- V224: the second character of `20!` has been typed; the mark starts the program. -/
theorem test_operator_start :
    (match step { State.reset with
        console := { Console.initial with data := 0o41, avail := true }
        mopc := { Mopc.initial with num := 0o20, haveNum := true, lineStart := false } } with
      | .next t => t.p == 0o20 && t.runState == .run && t.pil == 0
      | _ => false) = true := by decide +kernel

/-- V181: a refused fetch. -/
theorem test_page_fault :
    (match step { State.reset.setCur { RegSet.zero with p := 0o4000 } with
        runState := .run, poni := true, boundaryDone := true } with
      | .next t => t.psr == 0o100002 && t.psrLock && t.iid == 0o10 && t.p == 0o4000
      | _ => false) = true := by decide +kernel

/-! ### The bus, the cache and devices -/

/-- R187: another agent's word falls between the read and the write of MIN, and its increment is lost. -/
theorem test_min_split : runs 0o040005 { start RegSet.zero [] with steals := [[], [.foreignWrite 5 0o100]] }
    (fun t => word t 5 == 1 && t.steals.isEmpty) = true := by decide +kernel

/-- R183, R162: a DMA word behind a cached copy; the copy is read. -/
theorem test_stale_copy :
    (let s := { start RegSet.zero [(5, 1)] with cacheClearing := false, lcil := 1, ucil := 0 }
      let s := (s.busRead .data 5).2
      let s := s.busCycle (.foreignWrite 5 2)
      (s.busRead .data 5).1 == 1 && word s 5 == 2 && (s.cacheClear.busRead .data 5).1 == 2) = true := by
  decide +kernel

/-- R747, R761: the output channel's double buffer: ready again, with the flip-flop, when the first character is in the
transmitter, and a second one behind it. -/
theorem test_double_buffer :
    (let t : Terminal := ⟨0o340, 0o44, .cleared, .cleared, 0, false, 0, false, false, false, false, false, 0, 0, []⟩
      let t := (t.write 7 1).write 5 0o101
      let u := t.sentOne.write 5 0o102
      !t.out.ready && t.out.ff && t.sentOne.out.ready && u.out.busy && u.sentOne.output == [0o101] &&
        u.sentOne.sentOne.output == [0o102, 0o101] && !u.sentOne.sentOne.out.busy) = true := by decide +kernel

/-- R761: with motor autostop the motor stops when nothing is transmitted, and starts after a new character; without it, it never
stops. -/
theorem test_motor_autostop :
    (let t : Terminal := ⟨0o340, 0o44, .cleared, .cleared, 0, false, 0, false, false, false, false, false, 0, 0, []⟩
      let u := (t.write 3 0o100000).turnMotor true
      let v := u.write 5 0o101
      !(t.turnMotor true).motorStopped && u.inputStatus == 0o100000 && (u.turnMotor false).motorStopped &&
        v.outputStatus == 0o100004 && !(v.turnMotor false).motorStopped &&
        !((v.turnMotor false).turnMotor true).motorStopped) = true := by decide +kernel

/-- R804: the prompt comes first when the machine has stopped. -/
theorem test_prompt :
    (match step State.reset with
      | .next t => t.mopc.outq == [0o43] && !t.mopc.lineStart
      | _ => false) = true := by decide +kernel

/-- R346: in the 32-bit format a product with exponent 0 is exact. -/
theorem test_exponent_0 :
    runs 0o110005 { start { RegSet.zero with a := 0x0060 } [(5, 0x4000)] with
      cfg := { Installation.default with fp32 := true } }
      (fun t => t.a == 0x0020 && t.d == 0) = true := by decide +kernel

/-- R860: a master clear during LDA, which may write A and P alone: X and memory stay. -/
theorem test_clear_within :
    (match step { (State.reset.setX 7).withFetchWord 16 0o044005 with events := [.clearWithin true] } with
      | .next t => t.runState == .stop && t.pil == 0 && t.x == 7 && word t 0 == 0o044005
      | _ => false) = true := by decide +kernel

/-- R860: what STA may write, also where the word holds A already. -/
theorem test_places_of_store :
    (State.reset.withFetchWord 16 0o004005).unitPlaces = [.reg 0 .p, .word 5] := by decide +kernel

/-- R860: a master clear during MON 100 (153100) that is fetched from the page tables on ring 3; it may write P and T of level
14, and its word is what the tables hold, bits 12 and 11 included. -/
theorem test_clear_within_page_table :
    (let s := ((((State.reset.setPcr 0 ⟨0, 0, 3⟩).setProt 0 0o153000).setMap 0 0o100).setA 7).setP 0o177400
      let s := { s with runState := .run, poni := true, boundaryDone := true, events := [.clearWithin true] }
      s.unitPlaces == [.reg 0 .p, .reg 14 .t] &&
        match step s with
        | .next t => t.runState == .stop && t.a == 7 && t.mapAt 0 == 0o100
        | _ => false) = true := by decide +kernel

/-- R136, R860: STA on page 0 marks it as used and as written, also where it was marked before, and no other page. -/
theorem test_marks_noted :
    (let s := (start RegSet.zero [(0, 0o004005)]).setProt 0 0o174000
      let s := { s with poni := true }
      match s.watched.instruction with
      | .next u => (u.marksNoted 0 == 0o014000 && u.marksNoted 1 == 0) && u.protAt 0 == 0o174000
      | _ => false) = true := by decide +kernel

/-- What the panel shows of its message after `F` with a number, when the panel processor has taken the packet. -/
def panelAfterFormat (n : BitVec 24) : List Byte × Bool × Bool :=
  match State.lineCommand { State.reset with
      mopc := { Mopc.initial with num := n, haveNum := true }
      panel := { Panel.initial with text := [0o101], active := true } } .format with
  | .next s =>
    let t := ((s.sendPacket s.mopc.packets.flatten).panelProcess.panelProcess).panelProcess
    (t.panel.text, t.panel.active, t.panel.comRdy)
  | _ => ([], false, true)

/-- R839, R773: the maintenance code 10 aborts the message, and 1421F (S79) leaves it. -/
theorem test_format_abort :
    panelAfterFormat 0o100000 = ([0o101], false, false) ∧ panelAfterFormat 0o1421 = ([0o101], true, false) := by
  decide +kernel

/-- R839, R773: the maintenance code 4 initialises the panel processor, whose text buffer is then empty. -/
theorem test_format_clear : (panelAfterFormat 0o40000).1 = [] := by decide +kernel

/-- R775: the panel processor has asked for a sample, and its packet takes places of the FIFO. -/
theorem test_sample_packet :
    (match step { State.reset with mopc := { Mopc.initial with lineStart := false } } with
      | .next t => t.panel.fifo.length == 3 && !t.panel.request && !t.mopc.sampleDue
      | _ => false) = true := by decide +kernel

/-- R774: a holding byte of the calendar reads back as it was written. -/
theorem test_holding_byte :
    ((State.reset.panelPerform 0o2525).2.panelPerform 0o22400).1 = 0o125 := by decide +kernel

/-- R660: the operator enters MOPC after the test and before the fetch; the program then goes on. -/
theorem test_mopc_between :
    (match step { State.reset.withFetchWord 16 0o170405 with
        boundaryDone := false, events := [.mopcEntry], mopc := { Mopc.initial with lineStart := false, outq := [0o60] } } with
      | .next t => t.boundaryDone && t.p == 0 && t.console.sending == some 0o60 && t.mopc.outq == []
      | _ => false) = true := by decide +kernel

/-- R850: `23 BUS/` samples the addresses that the CPU sends to memory, here that of STA after that of its fetch. -/
theorem test_bus_monitor :
    runs 0o004005 { start RegSet.zero [] with mopc := { Mopc.initial with bus := 0o23 } }
      (fun t => t.busMonitor == 5) = true := by decide +kernel

/-- R850: with the panel status read, PANREQ is gone, also where the FIFO has no room for the sample. -/
theorem test_panel_status :
    (match step { State.reset with
        mopc := { Mopc.initial with lineStart := false }
        panel := { Panel.initial with fifo := List.replicate 15 0 } } with
      | .next t => t.panel.fifo.length == 15 && !t.panel.request && t.mopc.sampleDue
      | _ => false) = true := by decide +kernel

/-- R162, R183: with no DMA the cache is invisible, a binary load behind a cached copy included. -/
theorem test_load_through_cache :
    (let s := { start RegSet.zero [(5, 1)] with cacheClearing := false, lcil := 1, ucil := 0 }
      let s := (s.busRead .data 5).2
      let s := { s with loader := { Loader.idle with part := .dataLo, address := 5, remaining := 1 } }.binaryLoad 2
      word s 5 == 2 && (s.busRead .data 5).1 == 2) = true := by decide +kernel

/-- The machine running on level 0 with level 3 requested, and CR about to be read behind the letters. -/
def typed (letters : List Byte) : State :=
  { State.reset with
    runState := .run, ioni := true, pie := 8, pid := 8, events := [.mopcEntry]
    console := { Console.initial with data := 0o15, avail := true }
    mopc := { Mopc.initial with lineStart := false, letters := letters } }

/-- R660, R810: the test comes before MOPC handles MACL, so that PVL is the level that the request has brought. -/
theorem test_macl_after_test :
    (match step (typed [76, 67, 65, 77]) with
      | .next t => t.runState == .stop && t.pil == 0 && t.pvl == 3
      | _ => false) = true := by decide +kernel

/-- R812: no level change is performed at STOP. -/
theorem test_stop_before_test :
    (match step (typed [80, 79, 84, 83]) with
      | .next t => t.runState == .stop && t.pil == 0 && t.pvl == 0 && t.pid == 8
      | _ => false) = true := by decide +kernel

/-- R766: the last word of a DMA transfer moves between the fetch and the search of IDENT PL11, which finds its interrupt. -/
theorem test_dma_before_ident :
    runs 0o143611 { start { RegSet.zero with a := 7 } [] with
        devices := [.dma ⟨0o540, 5, 0o400, false, false, 0, 0, 1, 5, false, false, false⟩]
        steals := [[.dmaIn 0 0o1234]] }
      (fun t => t.a == 5 && word t 0o400 == 0o1234 && t.iid == 0 && t.steals.isEmpty) = true := by decide +kernel

/-- R860: BFILL on ring 3 through page table 3: the word behind the table is the one that the new entry of page 0 maps. -/
theorem test_places_of_bfill :
    (let s :=
      { start { RegSet.zero with a := 0xE1, x := 0o177700, t := 130 } [] with
        poni := true, pcr := Vector.replicate 16 { pt := 3, apt := 3, ring := 3 } }
     match exec .bfill s with
      | .next t =>
        (s.fieldPlaces t .prel ⟨0o177700, false⟩ 130).getLast? == some (.word 0x78400) && word t 0x78400 == 0xE1E1
      | _ => false) = true := by decide +kernel

/-- R860: what IOX to register 13 octal may write: P and the registers of the clock. -/
theorem test_places_of_iox :
    (State.reset.withFetchWord 16 0o164013).unitPlaces = [.reg 0 .p, .transfer 0o13 0] := by decide +kernel

/-! ### States that meet the hypotheses of the statements

`witness_<Name>` shows, for each clause of the statement `Obligations.<Name>`, states and operands that meet all of its
hypotheses together. -/

/-- Running, the test between instructions made, paging off, memory and registers zero. -/
def calm : State := { State.reset with runState := .run, boundaryDone := true }

/-- The same with paging on and an empty page table. -/
def faulting : State := { calm with poni := true }

/-- The same with an entry for page 0 that permits everything on ring 0. -/
def mapped : State := { calm.setProt 0 0o160000 with poni := true }

theorem calm_flat : calm.Flat := ⟨rfl, rfl, rfl, by decide, rfl, rfl, rfl⟩

/-- An operand at P + 5. -/
def near : MemRef := ⟨false, false, false, 5⟩

theorem witness_DecodeOfEncode :
    Instr.wellFormed true (.radd true true false false .zero .x) = true ∧ Instr.wellFormed false (.cust2 0o77) = true :=
  ⟨rfl, rfl⟩

theorem witness_EncodeOfDecode :
    decodeWord true 0o177777 = .ok (.bora 15 .x) ∧ decodeWord false 0 = .ok (.stz ⟨false, false, false, 0⟩) := ⟨rfl, rfl⟩

theorem witness_StepRunsDecodedInstruction :
    (∃ s1 s2 w i, calm.events = [] ∧ calm.runState = .run ∧ calm.mopc.semi = .none ∧
      (calm.boundaryDone = true ∧ s1 = calm) ∧ s1.memRead .fetch .prel s1.p = .done w s2 ∧
      decodeWord s2.cfg.hasCx w = .ok i ∧ ∃ t, exec i s2.prefetch = .next t) ∧
    (∃ s s1 s2 : State, ∃ w i, s.events = [] ∧ s.runState = .run ∧ s.mopc.semi = .none ∧
      (s.boundaryDone = false ∧ s1 = s.latchInternal ∧ (s1.ioni = false ∨ s1.pk = s1.pil)) ∧
      s1.memRead .fetch .prel s1.p = .done w s2 ∧ decodeWord s2.cfg.hasCx w = .ok i ∧
      ∃ r, exec i s2.prefetch = .refused r) :=
  ⟨⟨calm, calm, 0, .stz ⟨false, false, false, 0⟩, rfl, rfl, rfl, ⟨rfl, rfl⟩, rfl, rfl, _, rfl⟩,
    { start RegSet.zero [(0, 0o140123)] with runState := .run }, _, _, 0o140123, .tset, rfl, rfl, rfl,
    ⟨rfl, rfl, .inl rfl⟩, rfl, rfl, _, rfl⟩

theorem witness_InternalInterruptLatched :
    calm.pendingInternal = 0 ∧
    (∃ s : State, s.iicLock = false ∧ s.iie &&& 0o174001 = 0 ∧ s.pendingInternal ≠ 0 ∧
      s.pendingInternal.getLsbD 10 = false) ∧
    (∃ s : State, s.iicLock = false ∧ s.iie &&& 0o174001 = 0 ∧ s.pendingInternal ≠ 0 ∧
      s.pendingInternal.getLsbD 10 = true) :=
  ⟨by decide +kernel, ⟨{ calm with iie := 0o1376, iid := 2 }, by decide +kernel⟩,
    ⟨{ calm with iie := 0o2002, iid := 0o2002 }, by decide +kernel⟩⟩

theorem witness_LevelChange :
    (∃ s : State, s.pie &&& s.pidSeen ≠ 0 ∧ s.pk.toNat < 15) ∧ calm.pie &&& calm.pidSeen = 0 ∧
    (∃ s : State, s.events = [] ∧ s.runState = .run ∧ s.mopc.semi = .none ∧ s.boundaryDone = false ∧ s.ioni = true ∧
      s.latchInternal.pk ≠ s.pil) :=
  ⟨⟨{ calm with pie := 2, pid := 2 }, by decide +kernel⟩, by decide +kernel,
    { calm with boundaryDone := false, ioni := true, pie := 0o100000, pid := 0o100000 }, rfl, rfl, rfl, rfl, rfl,
    by decide +kernel⟩

/-- A read whose page-table entry refuses it. -/
theorem refused {s : State} {kind : Kind} {rel : Rel} {va : Word}
    (h : (!s.shadowReached va && (s.cfg.hasMms && s.poni) &&
      (pageCheck kind (s.protAt (s.entryFor rel va)) s.ring).isSome) = true) :
    (∃ t, s.memRead kind rel va = .aborted t) ∧ ∀ w, kind = .sto → ∃ t, s.memWrite rel va w = .aborted t := by
  simp only [Bool.and_eq_true, Bool.not_eq_true', Option.isSome_iff_exists] at h
  obtain ⟨⟨h1, h2⟩, r, h3⟩ := h
  refine ⟨⟨s.refuseAccess kind r (s.entryFor rel va), ?_⟩, ?_⟩
  · simp [State.memRead, State.translate, h1, h2, h3, Access.bind]
  · rintro w rfl
    exact ⟨s.refuseAccess .sto r (s.entryFor rel va), by simp [State.memWrite, State.translate, h1, h2, h3, Access.bind]⟩

theorem witness_FetchFailures :
    (∃ s s2 : State, ∃ w, s.events = [] ∧ s.runState = .run ∧ s.mopc.semi = .none ∧ s.boundaryDone = true ∧
      s.memRead .fetch .prel s.p = .done w s2 ∧ decodeWord s2.cfg.hasCx w = .error .unassigned) ∧
    (∀ lock, ∃ s s1 : State, s.events = [] ∧ s.runState = .run ∧ s.mopc.semi = .none ∧ s.boundaryDone = true ∧
      s.psrLock = lock ∧ s.memRead .fetch .prel s.p = .aborted s1) :=
  ⟨⟨{ start RegSet.zero [(0, 0o160000)] with runState := .run, boundaryDone := true }, _, 0o160000, rfl, rfl, rfl, rfl,
      rfl, rfl⟩,
    fun lock =>
      have ⟨t, h⟩ := (refused (s := { faulting with psrLock := lock }) (kind := .fetch) (rel := .prel) (va := 0)
        (by cases lock <;> decide +kernel)).1
      ⟨{ faulting with psrLock := lock }, t, rfl, rfl, rfl, rfl, rfl, h⟩⟩

/-- An access to the next page, which its entry refuses while the page before it is open. -/
def edge : State := mapped.setCur { RegSet.zero with x := 0o1777, t := 0o2000, b := 0o2000 }

/-- The same on ring 2, where SRB and LRB may run. -/
def edgeRing2 : State := edge.setPcr 0 { pt := 0, apt := 0, ring := 2 }

theorem witness_RefusedDataAccess :
    (∃ s1, edge.effLoc { x := false, i := true, b := true, disp := 0 } = .aborted s1) ∧
    (∃ sE, edge.effLoc { x := true, i := false, b := false, disp := 1 } = .done (0o2000, .nonprel) sE ∧
      (∃ s1, sE.memRead .rop .nonprel 0o2000 = .aborted s1) ∧ ∀ w, ∃ s1, sE.memWrite .nonprel 0o2000 w = .aborted s1) ∧
    (∃ sE s2, edge.effLoc { x := true, i := false, b := false, disp := 0 } = .done (0o1777, .nonprel) sE ∧
      sE.memRead .rop .nonprel 0o1777 = .done 0 s2 ∧ (∃ s1, s2.memRead .rop .nonprel (0o1777 + 1) = .aborted s1) ∧
      ∃ s3, sE.memWrite .nonprel 0o1777 0 = .done () s3 ∧ ∀ w, ∃ s1, s3.memWrite .nonprel (0o1777 + 1) w = .aborted s1) ∧
    (∃ s1, edge.memRead .rop .nonprel (edge.t + BitVec.ofNat 16 (0 / 2)) = .aborted s1) ∧
    (∃ s2, edgeRing2.mayRunPrivileged = true ∧ edgeRing2.loadWords 1 edgeRing2.x = .done [0] s2 ∧
      ∃ s1, s2.memRead .rop .nonprel (edgeRing2.x + BitVec.ofNat 16 1) = .aborted s1) := by
  have ⟨t, h⟩ := (refused (s := edge) (kind := .raddr) (rel := .nonprel) (va := 0o2000) (by decide +kernel)).1
  refine ⟨⟨t, congrArg (fun x => x.bind fun iw s => Access.done (iw + 0, Rel.nonprel) s) h⟩,
    ⟨_, rfl, (refused (by decide +kernel)).1, fun w => ?_⟩,
    ⟨_, _, rfl, rfl, (refused (by decide +kernel)).1, _, rfl, fun w => ?_⟩, (refused (by decide +kernel)).1,
    ⟨_, rfl, rfl, (refused (by decide +kernel)).1⟩⟩
  · exact (refused (kind := .sto) (by decide +kernel)).2 w rfl
  · exact (refused (kind := .sto) (by decide +kernel)).2 w rfl

/-- A page that may be read and not written, and memory behind two open pages: MIN and SBYT are refused at their write, the
third word of three at its access. -/
theorem witness_RefusedDataAccess_later :
    (∃ s s2 : State, s.memRead .rop .prel 5 = .done 0 s2 ∧ ∀ w, ∃ s1, s2.memWrite .prel 5 w = .aborted s1) ∧
    (∃ s2 s3, edge.memRead .rop .nonprel 0o1776 = .done 0 s2 ∧ s2.memRead .rop .nonprel (0o1776 + 1) = .done 0 s3 ∧
      ∃ s1, s3.memRead .rop .nonprel (0o1776 + 2) = .aborted s1) ∧
    (∃ s2 s3, edge.memWrite .nonprel 0o1776 0 = .done () s2 ∧ s2.memWrite .nonprel (0o1776 + 1) 0 = .done () s3 ∧
      ∀ w, ∃ s1, s3.memWrite .nonprel (0o1776 + 2) w = .aborted s1) := by
  refine ⟨⟨mapped.setProt 0 0o060000, _, rfl, fun w => ?_⟩, ⟨_, _, rfl, rfl, (refused (by decide +kernel)).1⟩,
    ⟨_, _, rfl, rfl, fun w => ?_⟩⟩
  · exact (refused (kind := .sto) (by decide +kernel)).2 w rfl
  · exact (refused (kind := .sto) (by decide +kernel)).2 w rfl

/-- The number of the entry that the statements about translation name. -/
def tableEntry (s : State) (rel : Rel) (va : Word) : Nat :=
  64 * (if s.sts.getLsbD 0 = true ∧ rel = .nonprel then (s.pcrOf s.pil).apt else (s.pcrOf s.pil).pt).toNat + va.toNat / 1024

/-- With PTM, table 1 and the alternative table 3, the last page of each: closed by its ring, and open. -/
def alternative : State :=
  { ((calm.setPcr 0 ⟨1, 3, 0⟩).setProt 255 0o160000).setProt 127 0o162000 with poni := true }.setSts 1

theorem witness_TranslatedAccess :
    mapped.cfg.hasMms = true ∧ mapped.poni = true ∧
    (∀ kind rel, (0 : BitVec 8).toNat = tableEntry mapped rel 0 ∧ pageCheck kind (mapped.protAt 0) mapped.ring = none) ∧
    (255 : BitVec 8).toNat = tableEntry alternative .nonprel 0o177777 ∧
    (127 : BitVec 8).toNat = tableEntry alternative .prel 0o177777 ∧
    (∀ kind, pageCheck kind (alternative.protAt 255) alternative.ring = none ∧
      pageCheck kind (alternative.protAt 127) alternative.ring = some .ring) :=
  ⟨rfl, rfl, fun kind rel => by cases kind <;> cases rel <;> decide +kernel, by decide +kernel, by decide +kernel,
    fun kind => by cases kind <;> decide +kernel⟩

theorem witness_RefusedTranslation :
    ∀ r lock, ∃ s : State, ∃ kind rel va, ∃ e : BitVec 8, s.cfg.hasMms = true ∧ s.poni = true ∧ s.psrLock = lock ∧
      e.toNat = tableEntry s rel va ∧ pageCheck kind (s.protAt e) s.ring = some r := by
  intro r lock
  cases r
  · exact ⟨{ faulting with psrLock := lock }, .fetch, .prel, 0, 0, rfl, rfl, rfl, by cases lock <;> decide +kernel⟩
  · exact ⟨{ faulting.setProt 0 0o040000 with psrLock := lock }, .sto, .prel, 0, 0, rfl, rfl, rfl,
      by cases lock <;> decide +kernel⟩
  · exact ⟨{ faulting.setProt 0 0o163000 with psrLock := lock }, .sto, .nonprel, 0, 0, rfl, rfl, rfl,
      by cases lock <;> decide +kernel⟩

theorem witness_ShadowWriteThenRead :
    calm.shadowReached 0o177400 = true ∧ calm.shadowReached 0o177777 = true ∧
    { calm with sexi := true }.shadowReached 0o177000 = true := ⟨rfl, rfl, rfl⟩

theorem witness_PhysicalAccess : calm.Flat ∧ calm.shadowReached 0 = false ∧ calm.shadowReached 0o177377 = false :=
  ⟨calm_flat, rfl, rfl⟩

/-- The cache in use, nothing inhibited, with a copy of word 0o2017 that memory has not. -/
def cached : State := { calm with cacheClearing := false, lcil := 1, ucil := 0, cache := [⟨0o17, 7, 1⟩] }

theorem witness_PhysicalAccess_cache :
    cached.steals = [] ∧ cached.cacheEnabled = true ∧ cacheSorted cached.cache = true ∧
    cached.shadowReached 0o2017 = false ∧ cached.translate .rop .prel 0o2017 = .done 0o2017 cached ∧
    (∃ e ∈ cached.cache, e.index.toNat = (0o2017 : PhysAddr).toNat % 1024 ∧
      e.cpn.toNat = (0o2017 : PhysAddr).toNat / 1024) ∧
    (∀ e ∈ cached.cache, ¬ (e.index.toNat = (0o17 : PhysAddr).toNat % 1024 ∧
      e.cpn.toNat = (0o17 : PhysAddr).toNat / 1024)) := by
  refine ⟨rfl, rfl, rfl, by decide +kernel, rfl, by decide +kernel, by decide +kernel⟩

theorem witness_MemoryErrorsReported :
    (∀ any, ∃ s : State, s.memPresent 0o1777777 = true ∧ s.syndrome 0o1777777 = 0 ∧ s.eccr.getLsbD 3 = false ∧
      s.eccr.getLsbD 2 = any ∧ s.pesLock = false) ∧
    (∃ s : State, s.memPresent 0 = true ∧ s.syndrome 0 = 0 ∧ s.eccr.getLsbD 3 = true ∧ s.pesLock = true) ∧
    (∃ s : State, ∃ pa : PhysAddr, s.mayRunPrivileged = true ∧ pa.toNat = s.a.toNat % 256 * 65536 + s.d.toNat ∧
      s.memPresent pa = false ∧ s.steals = [] ∧ s.cacheEnabled = false) :=
  ⟨fun any => ⟨{ calm with eccr := if any then 4 else 0 }, by cases any <;> decide +kernel⟩,
    ⟨{ calm with eccr := 8, pesLock := true }, by decide +kernel⟩,
    start { RegSet.zero with a := 0o10 } [], 0o2000000, by decide +kernel⟩

theorem calm_inv : calm.Inv := ⟨rfl, rfl, rfl, rfl, rfl, rfl, nofun, nofun⟩

theorem witness_InvariantKeptByStep : calm.Inv ∧ ∃ t, step calm = .next t := ⟨calm_inv, _, rfl⟩

theorem witness_OtherLevelsUntouched :
    reachesOtherLevels .exit = false ∧ (15 : BitVec 4) ≠ calm.pil ∧ ∃ t, exec .exit calm = .next t :=
  ⟨rfl, by decide, _, rfl⟩

theorem witness_CommonStatusUntouched :
    ∃ t, exec .exit calm = .next t ∧ (∀ r, Instr.exit ≠ .exr r) ∧ Instr.exit ∉ [Instr.ion, .iof, .pion, .piof] ∧
      Instr.exit ∉ [Instr.pon, .pof, .pion, .piof] ∧ Instr.exit ∉ [Instr.sex, .rex] :=
  ⟨_, rfl, nofun, by decide, by decide, by decide⟩

theorem witness_PrivilegedInstructionTraps :
    isPrivileged .ion = true ∧ faulting.mayRunPrivileged = false ∧
    (faulting.setPcr 0 { pt := 0, apt := 0, ring := 1 }).mayRunPrivileged = false := ⟨rfl, rfl, rfl⟩

theorem witness_RegisterInstructionFrame : ∃ rs fs, registerFrame (.radd false false false true .a .x) = some (rs, fs) :=
  ⟨_, _, rfl⟩

theorem witness_MemoryReadFrame :
    ∃ rs fs t, readFrame (.lda near) = some (rs, fs) ∧ exec (.lda near) calm = .next t ∧ calm.steals = [] :=
  ⟨_, _, _, rfl, rfl, rfl⟩

theorem witness_StoreFrame :
    ∀ i ∈ [Instr.stz near, .sta near, .stt near, .stx near, .std near, .stf near, .min near, .sbyt, .srb 15],
      ∃ s1 rel va ws t, calm.mayRunPrivileged = true ∧ storesOf i calm = .done (rel, va, ws) s1 ∧
        exec i calm = .next t ∧ calm.steals = [] := by
  intro i hi
  simp only [List.mem_cons, List.not_mem_nil, or_false] at hi
  rcases hi with rfl | rfl | rfl | rfl | rfl | rfl | rfl | rfl | rfl <;>
    exact ⟨_, _, _, _, _, rfl, rfl, rfl, rfl⟩

/-- A store on ring 0 with paging on. -/
theorem witness_StoreFrame_mapped :
    ∃ s1 rel va ws t, mapped.mayRunPrivileged = false ∧ (∀ level, Instr.sta near = .srb level → False) ∧
      storesOf (.sta near) mapped = .done (rel, va, ws) s1 ∧ exec (.sta near) mapped = .next t :=
  ⟨_, _, _, _, _, rfl, nofun, rfl, rfl⟩

theorem witness_EffectiveLocation :
    calm.Flat ∧ calm.shadowReached (calm.p + sext8 0o177) = false ∧ calm.shadowReached (calm.b + sext8 0o177) = false :=
  ⟨calm_flat, rfl, rfl⟩

/-- An indirect word that can be read with paging on, for each base, and one that cannot: page 1 is closed. -/
theorem witness_EffectiveLocation_indirect :
    (∃ iw s1, mapped.memRead .raddr .prel (mapped.p + BitVec.ofInt 16 (0o177 : BitVec 8).toInt) = .done iw s1) ∧
    (∃ iw s1, mapped.memRead .raddr .nonprel (mapped.b + BitVec.ofInt 16 (0o177 : BitVec 8).toInt) = .done iw s1) ∧
    (∃ s1, edge.memRead .raddr .nonprel (edge.b + BitVec.ofInt 16 (0 : BitVec 8).toInt) = .aborted s1) ∧
    (∃ s1, faulting.memRead .raddr .prel (faulting.p + BitVec.ofInt 16 (0 : BitVec 8).toInt) = .aborted s1) :=
  ⟨⟨_, _, rfl⟩, ⟨_, _, rfl⟩, (refused (by decide +kernel)).1, (refused (by decide +kernel)).1⟩

theorem witness_LoadResult :
    (∃ w s1, calm.readOperand near = .done w s1) ∧
    (∃ el rel s1 w0 s2 w1 s3 w2 s4, calm.effLoc near = .done (el, rel) s1 ∧ s1.memRead .rop rel el = .done w0 s2 ∧
      s2.memRead .rop rel (el + 1) = .done w1 s3 ∧ s3.memRead .rop rel (el + 2) = .done w2 s4) :=
  ⟨⟨_, _, rfl⟩, _, _, _, _, _, _, _, _, _, rfl, rfl, rfl, rfl⟩

theorem ordinary_of_all {s : State} {va : Word} {n : Nat}
    (h : (List.range n).all (fun k => !s.shadowReached (va + Word.ofNat k)) = true) : s.ordinary va n := by
  intro k hk
  simpa using List.all_eq_true.1 h k (List.mem_range.2 hk)

theorem witness_StoreResult :
    ∃ s1 el rel, calm.Flat ∧ calm.effLoc near = .done (el, rel) s1 ∧ calm.ordinary el 1 ∧ calm.ordinary el 2 ∧
      calm.ordinary el 3 :=
  ⟨calm, 5, .prel, calm_flat, rfl, ordinary_of_all rfl, ordinary_of_all rfl, ordinary_of_all rfl⟩

/-- Each storing form with paging on, and MIN. -/
theorem witness_StoreResult_mapped :
    (∃ el rel s1, mapped.effLoc near = .done (el, rel) s1 ∧
      ∀ ws ∈ [[(0 : Word)], [mapped.a], [mapped.t], [mapped.x], [mapped.a, mapped.d], [mapped.t, mapped.a, mapped.d]],
        ∃ s2, storesInOrder rel s1 el ws s2) ∧
    (∃ el rel w s1 s2 s3, mapped.effLoc near = .done (el, rel) s1 ∧ s1.memRead .rop rel el = .done w s2 ∧
      s2.memWrite rel el (w + 1) = .done () s3) := by
  refine ⟨⟨_, _, _, rfl, fun ws h => ?_⟩, _, _, _, _, _, _, rfl, rfl, rfl⟩
  simp only [List.mem_cons, List.not_mem_nil, or_false] at h
  rcases h with rfl | rfl | rfl | rfl | rfl | rfl
  iterate 4 exact ⟨_, _, rfl, rfl⟩
  · exact ⟨_, _, rfl, _, rfl, rfl⟩
  · exact ⟨_, _, rfl, _, rfl, _, rfl, rfl⟩

theorem witness_ArithmeticResult : ∃ w s1, calm.readOperand near = .done w s1 := ⟨_, _, rfl⟩

theorem witness_Jumps :
    (∃ el rel s1, calm.effLoc near = .done (el, rel) s1) ∧
    (Instr.jap 0o377 = .jap 0o377 ∧ (True ↔ 0 ≤ calm.a.toInt)) ∧ (Instr.jan 0 = .jan 0 ∧ (False ↔ calm.a.toInt < 0)) ∧
    (Instr.jaz 1 = .jaz 1 ∧ (True ↔ calm.a.toInt = 0)) ∧ (Instr.jaf 1 = .jaf 1 ∧ (False ↔ calm.a.toInt ≠ 0)) ∧
    (Instr.jxz 1 = .jxz 1 ∧ (True ↔ calm.x.toInt = 0)) ∧ (Instr.jxn 1 = .jxn 1 ∧ (False ↔ calm.x.toInt < 0)) := by
  refine ⟨⟨_, _, _, rfl⟩, ?_⟩
  decide +kernel

/-- A and B as the operands of a condition that holds or does not. -/
theorem witness_SkipConditions :
    (Instr.skpEql .b .a = .skpEql .b .a ∧ (True ↔ calm.regValue .a = calm.regValue .b)) ∧
    (Instr.skpUeq .b .a = .skpUeq .b .a ∧ (False ↔ calm.regValue .a ≠ calm.regValue .b)) ∧
    (Instr.skpGre .b .a = .skpGre .b .a ∧ (True ↔ (calm.regValue .b).toInt ≤ (calm.regValue .a).toInt)) ∧
    (Instr.skpLst .b .a = .skpLst .b .a ∧ (False ↔ (calm.regValue .a).toInt < (calm.regValue .b).toInt)) ∧
    (Instr.skpMgre .b .a = .skpMgre .b .a ∧ (True ↔ (calm.regValue .b).toNat ≤ (calm.regValue .a).toNat)) ∧
    (Instr.skpMlst .b .a = .skpMlst .b .a ∧ (False ↔ (calm.regValue .a).toNat < (calm.regValue .b).toNat)) ∧
    (Instr.skpGeq .b .a = .skpGeq .b .a ∧ (True ↔ 0 ≤ (calm.regValue .a - calm.regValue .b).toInt)) ∧
    (Instr.skpLss .b .a = .skpLss .b .a ∧ (False ↔ (calm.regValue .a - calm.regValue .b).toInt < 0)) := by
  decide +kernel

theorem witness_ByteLoadStore :
    ∃ va w s1, va = calm.t + BitVec.ofNat 16 (calm.x.toNat / 2) ∧ calm.memRead .rop .nonprel va = .done w s1 ∧
      calm.Flat ∧ calm.shadowReached va = false := ⟨0, 0, calm, rfl, rfl, calm_flat, rfl⟩

/-- With paging on: the left byte of a word replaced. -/
theorem witness_ByteLoadStore_mapped :
    ∃ va w s1 w' s2, va = mapped.t + BitVec.ofNat 16 (mapped.x.toNat / 2) ∧ mapped.memRead .rop .nonprel va = .done w s1 ∧
      halfReplaced w (decide (mapped.x.toNat % 2 = 1)) (BitVec.ofNat 8 mapped.a.toNat) w' ∧
      s1.memWrite .nonprel va w' = .done () s2 :=
  ⟨0, 0, _, 0, _, rfl, rfl, rfl, rfl⟩

/-- A descriptor of two bytes, from the right half of a word on, with bit 14 and without it. -/
theorem witness_fieldRel : fieldRel 0o140002 = .nonprel ∧ fieldRel 0o100002 = .prel ∧ fieldRel 0o037777 = .prel := ⟨rfl, rfl, rfl⟩

/-- Whether an access completes. -/
def completes {α : Type} : Access α → Bool
  | .done _ _ => true
  | .aborted _ => false

theorem storesBytes_of_completes {rel : Rel} {s : State} {a : ByteAddr} {bytes : List Byte}
    (h : completes (writeBytes rel bytes a s) = true) : ∃ t, storesBytes rel s a bytes t := by
  cases hw : writeBytes rel bytes a s with
  | done u t => exact ⟨t, (writeBytes_eq_done ..).1 hw⟩
  | aborted t => rw [hw] at h; cases h

/-- With paging on, two bytes in two words by both kinds of access, and a field in a closed page. -/
theorem witness_ByteFill_mapped :
    (∀ t ∈ [(0o140002 : Word), 0o100002],
      let s := mapped.setCur { RegSet.zero with x := 0o100, t := t, a := 0o101 }
      ∃ s1, storesBytes (fieldRel s.t) s (descAddr s.x s.t)
        (List.replicate (descLength s.t).toNat (BitVec.ofNat 8 s.a.toNat)) s1) ∧
    (∃ s s1 : State, descLength s.t ≠ 0 ∧ s.memRead .rop (fieldRel s.t) s.x = .aborted s1) := by
  constructor
  · intro t h
    simp only [List.mem_cons, List.not_mem_nil, or_false] at h
    rcases h with rfl | rfl <;> exact storesBytes_of_completes (by decide +kernel)
  · have ⟨s1, h⟩ := (refused (s := mapped.setCur { RegSet.zero with x := 0o2000, t := 0o140002 }) (kind := .rop)
      (rel := .nonprel) (va := 0o2000) (by decide +kernel)).1
    exact ⟨_, s1, by decide, h⟩

/-- With paging on, one byte from each kind of field into the other. -/
theorem witness_ByteMove_mapped :
    ∀ r ∈ [{ RegSet.zero with a := 0o100, d := 0o040001, x := 0o200, t := 3 },
        { RegSet.zero with a := 0o100, d := 3, x := 0o200, t := 0o040001 }],
      let s := mapped.setCur r
      ∃ s1 s2, [(0 : Byte)].length = min (s.d.toNat % 4096) (s.t.toNat % 4096) ∧
        readsBytes (fieldRel s.d) s (descAddr s.a s.d) [0] s1 ∧ storesBytes (fieldRel s.t) s1 (descAddr s.x s.t) [0] s2 := by
  intro r h
  simp only [List.mem_cons, List.not_mem_nil, or_false] at h
  rcases h with rfl | rfl <;>
    exact ⟨_, _, rfl, ⟨_, ⟨0, rfl, rfl⟩, rfl⟩, _, ⟨0, 0, _, rfl, rfl, rfl⟩, rfl⟩

/-- With paging on, one byte forward, no overlap. -/
theorem witness_ByteMoveForward_mapped :
    let s := mapped.setCur { RegSet.zero with a := 0o100, d := 0o040001, x := 0o100, t := 3 }
    ∃ s1, ¬ (0 < 1 ∧ 2 * s.a.toNat + s.d.toNat / 32768 < 2 * s.x.toNat + s.t.toNat / 32768 ∧
        2 * s.x.toNat + s.t.toNat / 32768 < 2 * s.a.toNat + s.d.toNat / 32768 + 1) ∧ s.moveLength.toNat = 1 ∧
      movesBytes (fieldRel s.d) (fieldRel s.t) 1 s (descAddr s.a s.d) (descAddr s.x s.t) s1 :=
  ⟨_, by decide +kernel, rfl, 0, _, _, ⟨0, rfl, rfl⟩, ⟨0, 0, _, rfl, rfl, rfl⟩, rfl⟩

theorem witness_ByteFill :
    ∃ s : State, s.Flat ∧ s.ordinary s.x ((descLength s.t).toNat / 2 + 1) ∧ (descLength s.t).toNat = 3 :=
  ⟨start { RegSet.zero with x := 0o177375, t := 0o100003 } [], ⟨rfl, rfl, rfl, by decide, rfl, rfl, rfl⟩, ordinary_of_all rfl, rfl⟩

theorem witness_ByteMove :
    ∃ s : State, s.Flat ∧ s.ordinary s.a (s.moveLength.toNat / 2 + 1) ∧ s.ordinary s.x (s.moveLength.toNat / 2 + 1) ∧
      s.moveLength.toNat = 4 :=
  ⟨start { RegSet.zero with a := 0o3000, d := 4, x := 0o3001, t := 4 } [], ⟨rfl, rfl, rfl, by decide, rfl, rfl, rfl⟩,
    ordinary_of_all rfl, ordinary_of_all rfl, rfl⟩

/-- The destination one byte behind the source and one byte before the end of it: overlap; at its first byte and right
behind its last: none. -/
theorem witness_ByteMoveForward :
    (∀ d t : Word, (d, t) ∈ [((4 : Word), (0o100004 : Word)), (2, 0o100002)] →
      let s := start { RegSet.zero with a := 0o3000, d := d, x := 0o3000, t := t } []
      0 < s.moveLength.toNat ∧ 2 * s.a.toNat + s.d.toNat / 32768 < 2 * s.x.toNat + s.t.toNat / 32768 ∧
        2 * s.x.toNat + s.t.toNat / 32768 < 2 * s.a.toNat + s.d.toNat / 32768 + s.moveLength.toNat) ∧
    (∀ r ∈ [{ RegSet.zero with a := 0o3000, d := 2, x := 0o3001, t := 5 },
        { RegSet.zero with a := 0o3000, d := 2, x := 0o3000, t := 2 }],
      let s := start r []
      ¬ (0 < s.moveLength.toNat ∧ 2 * s.a.toNat + s.d.toNat / 32768 < 2 * s.x.toNat + s.t.toNat / 32768 ∧
        2 * s.x.toNat + s.t.toNat / 32768 < 2 * s.a.toNat + s.d.toNat / 32768 + s.moveLength.toNat) ∧
      s.Flat ∧ s.ordinary s.a (s.moveLength.toNat / 2 + 1) ∧ s.ordinary s.x (s.moveLength.toNat / 2 + 1) ∧
      2 * s.a.toNat + s.d.toNat / 32768 + s.moveLength.toNat ≤ 131072 ∧
      2 * s.x.toNat + s.t.toNat / 32768 + s.moveLength.toNat ≤ 131072) := by
  constructor
  · intro d t h
    simp only [List.mem_cons, List.not_mem_nil, or_false, Prod.mk.injEq] at h
    rcases h with ⟨rfl, rfl⟩ | ⟨rfl, rfl⟩ <;> decide +kernel
  · intro r h
    simp only [List.mem_cons, List.not_mem_nil, or_false] at h
    rcases h with rfl | rfl <;>
      exact ⟨by decide +kernel, ⟨rfl, rfl, rfl, by decide, rfl, rfl, rfl⟩, ordinary_of_all rfl, ordinary_of_all rfl,
        by decide +kernel, by decide +kernel⟩

/-- Fields that wrap and do not meet: 4 bytes from the last word of memory on, without the memory management module, whose
page tables lie there. -/
theorem witness_ByteMoveForward_wraps :
    ∃ s : State, s.Flat ∧ s.ordinary s.a (s.moveLength.toNat / 2 + 1) ∧ s.ordinary s.x (s.moveLength.toNat / 2 + 1) ∧
      ¬ (2 * s.a.toNat + s.d.toNat / 32768 + s.moveLength.toNat ≤ 131072) ∧ s.moveLength.toNat = 4 ∧
      ∀ j k, k < j → j < 4 → (descAddr s.x s.t).plus k ≠ (descAddr s.a s.d).plus j := by
  refine ⟨{ start { RegSet.zero with a := 0o177777, d := 4, x := 0o1000, t := 4 } [] with
      cfg := { Installation.default with hasMms := false } }, ⟨rfl, rfl, rfl, by decide, rfl, rfl, rfl⟩, ordinary_of_all rfl,
    ordinary_of_all rfl, by decide +kernel, rfl, ?_⟩
  have h : ∀ j ∈ List.range 4, ∀ k ∈ List.range 4, ByteAddr.plus ⟨0o1000, false⟩ k ≠ ByteAddr.plus ⟨0o177777, false⟩ j := by
    decide +kernel
  intro j k hk hj
  exact h j (by simpa using hj) k (by simp; omega)

/-- A floating operand pair: 1.5 in the accumulator, 0.5 in memory at P + 5. -/
def floating : State :=
  start { RegSet.zero with t := 0o040001, a := 0o140000 } [(5, 0o040000), (6, 0o100000)]

/-- The same numbers in the 32-bit format. -/
def floating32 : State :=
  { start { RegSet.zero with a := 0o040140 } [(5, 0o040000)] with cfg := { Installation.default with fp32 := true } }

/-- 1.5 and 0.5 in each format. -/
def threeHalves : FpNum := ⟨false, 3221225472, -31⟩
def half : FpNum := ⟨false, 2147483648, -32⟩
def threeHalves32 : FpNum := ⟨false, 6291456, -22⟩
def half32 : FpNum := ⟨false, 4194304, -23⟩

theorem witness_FloatingExactResult_operands :
    ∃ el w0 w1 w2 rel s1 s2 s3 s4, floating.cfg.fp32 = false ∧ floating.effLoc near = .done (el, rel) s1 ∧
      s1.memRead .rop rel el = .done w0 s2 ∧ s2.memRead .rop rel (el + 1) = .done w1 s3 ∧
      s3.memRead .rop rel (el + 2) = .done w2 s4 ∧
      decode48 (floating.t ++ floating.a ++ floating.d) = some threeHalves ∧
      decode48 (w0 ++ w1 ++ w2) = some half :=
  ⟨5, 0o040000, 0o100000, 0, .prel, floating, floating, floating, floating, rfl, rfl, rfl, rfl, rfl,
    by decide +kernel, by decide +kernel⟩

theorem witness_FloatingExactResult_results :
    (∃ v c, decode48 v = some c ∧ c.value = threeHalves.value + half.value) ∧
    (∃ v c, decode48 v = some c ∧ c.value = threeHalves.value - half.value) ∧
    (∃ v c, decode48 v = some c ∧ c.value = threeHalves.value * half.value) ∧
    (∃ v c, decode48 v = some c ∧ half.value ≠ 0 ∧
      c.value = threeHalves.value / half.value) := by
  refine ⟨⟨0x400280000000, ⟨false, 2147483648, -30⟩, by decide +kernel, ?_⟩,
    ⟨0x400180000000, ⟨false, 2147483648, -31⟩, by decide +kernel, ?_⟩,
    ⟨0x4000C0000000, ⟨false, 3221225472, -32⟩, by decide +kernel, ?_⟩,
    ⟨0x4002C0000000, ⟨false, 3221225472, -30⟩, by decide +kernel, ?_, ?_⟩⟩ <;>
    norm_num [FpNum.value, threeHalves, half, threeHalves32, half32]

theorem witness_FloatingExactResult_operands32 :
    ∃ el w0 w1 rel s1 s2 s3, floating32.cfg.fp32 = true ∧ floating32.effLoc near = .done (el, rel) s1 ∧
      s1.memRead .rop rel el = .done w0 s2 ∧ s2.memRead .rop rel (el + 1) = .done w1 s3 ∧
      decode32 (floating32.a ++ floating32.d) = some threeHalves32 ∧
      decode32 (w0 ++ w1) = some half32 :=
  ⟨5, 0o040000, 0, .prel, floating32, floating32, floating32, rfl, rfl, rfl, rfl, by decide +kernel, by decide +kernel⟩

theorem witness_FloatingExactResult_results32 :
    (∃ v, (value32 v).value = threeHalves32.value + half32.value) ∧
    (∃ v, (value32 v).value = threeHalves32.value - half32.value) ∧
    (∃ v, (value32 v).value = threeHalves32.value * half32.value) ∧
    (∃ v, half32.value ≠ 0 ∧ (value32 v).value = threeHalves32.value / half32.value) := by
  have h1 : value32 0x40800000 = ⟨false, 4194304, -21⟩ := by decide +kernel
  have h2 : value32 0x40400000 = ⟨false, 4194304, -22⟩ := by decide +kernel
  have h3 : value32 0x40200000 = ⟨false, 6291456, -23⟩ := by decide +kernel
  have h4 : value32 0x40A00000 = ⟨false, 6291456, -21⟩ := by decide +kernel
  refine ⟨⟨0x40800000, ?_⟩, ⟨0x40400000, ?_⟩, ⟨0x40200000, ?_⟩, ⟨0x40A00000, ?_, ?_⟩⟩ <;>
    norm_num [FpNum.value, threeHalves32, half32, h1, h2, h3, h4]

/-- 0.75 times 2 to the power -255, times 0.5: a result with exponent 0. -/
theorem witness_FloatingExactResult_exponent0 :
    ∃ a b v, decode32 0x00600000 = some a ∧ decode32 0x40000000 = some b ∧ v.extractLsb' 22 9 = 0 ∧ v ≠ 0 ∧
      (value32 v).value = a.value * b.value := by
  have h : value32 0x00200000 = ⟨false, 6291456, -279⟩ := by decide +kernel
  refine ⟨⟨false, 6291456, -278⟩, half32, 0x00200000, by decide +kernel, by decide +kernel, by decide, by decide, ?_⟩
  simp only [FpNum.value, half32, h]
  norm_num
  rw [show (2 : ℚ) ^ (279 : ℕ) = 2 ^ 278 * 2 by rw [← pow_succ]]
  generalize (2 : ℚ) ^ (278 : ℕ) = x
  ring

/-- The calm state in an installation with the 32-bit format. -/
def calm32 : State := { calm with cfg := { Installation.default with fp32 := true } }

theorem witness_FloatingDivisionByZero :
    (∃ el rel s1 s2 s3 s4, calm.effLoc near = .done (el, rel) s1 ∧ s1.memRead .rop rel el = .done 0 s2 ∧
      s2.memRead .rop rel (el + 1) = .done 0 s3 ∧ calm.cfg.fp32 = false ∧
      s3.memRead .rop rel (el + 2) = .done 0 s4) ∧
    (∃ el rel s1 s2 s3, calm32.effLoc near = .done (el, rel) s1 ∧ s1.memRead .rop rel el = .done 0 s2 ∧
      s2.memRead .rop rel (el + 1) = .done 0 s3 ∧ calm32.cfg.fp32 = true) :=
  ⟨⟨5, .prel, calm, calm, calm, calm, rfl, rfl, rfl, rfl, rfl⟩, 5, .prel, calm32, calm32, calm32, rfl, rfl, rfl, rfl⟩

theorem witness_NormalizeDenormalize :
    calm.cfg.fp32 = false ∧ calm32.cfg.fp32 = true ∧
    (∃ v c, decode32 v = some c ∧ c.value = calm32.a.toInt * 2 ^ ((16 : Int) - 16)) ∧
    (∃ c q, decode48 (calm.t ++ calm.a ++ calm.d) = some c ∧ q = ⌊|c.value| * 2 ^ ((-16 : Int) + 16)⌋₊ ∧ q ≤ 32767) ∧
    (∃ c q, decode32 (calm32.a ++ calm32.d) = some c ∧ q = ⌊|c.value|⌋₊ ∧ q ≤ 32767) ∧
    (∃ s : State, ∃ c q, s.cfg.fp32 = false ∧ decode48 (s.t ++ s.a ++ s.d) = some c ∧
      q = ⌊|c.value| * 2 ^ ((-16 : Int) + 16)⌋₊ ∧ 32767 < q) := by
  have ha : calm32.a.toInt = 0 := rfl
  refine ⟨rfl, rfl, ⟨0, ⟨false, 0, 0⟩, rfl, ?_⟩, ⟨⟨false, 0, 0⟩, 0, rfl, ?_, by decide⟩, ⟨⟨false, 0, 0⟩, 0, rfl, ?_,
    by decide⟩, start { RegSet.zero with t := 0o140020, a := 0o100000 } [], ⟨true, 2147483648, -16⟩, 32768, rfl,
    by decide +kernel, ?_, by decide⟩
  · norm_num [FpNum.value, ha]
  · norm_num [FpNum.value]
  · norm_num [FpNum.value]
  · norm_num [FpNum.value]

theorem witness_RegisterLogicAndSwap :
    ∃ (s : State) (cm1 cld : Bool) (sr dr : RField) (v d : Word), v = sourceOperand s cm1 sr ∧ d = destOperand s cld dr ∧
      dr ≠ .zero ∧ sr = dr := ⟨calm, true, false, .p, .p, _, _, rfl, rfl, by decide, rfl⟩

theorem witness_RegisterAddition :
    ∃ (s : State) (x y : Word) (cin : Nat) (sum : Int) (ovf : Bool),
      additionOf (.rdcr .p) = some (false, false, true, false, .zero, .p) ∧ x = destOperand s false .p ∧
      y = sourceOperand s true .zero ∧ cin = (if false ∨ (false ∧ s.flag .c) then 1 else 0) ∧
      sum = x.toInt + y.toInt + cin ∧ ovf = decide (sum < -32768 ∨ 32767 < sum) :=
  ⟨calm, _, _, _, _, _, rfl, rfl, rfl, rfl, rfl, rfl⟩

theorem witness_ExecuteRegister :
    (∃ s : State, decodeWord s.cfg.hasCx (s.regValue .a) = .ok .exit ∧ (∀ r, Instr.exit ≠ .exr r) ∧
      ∃ rs fs, registerFrame .exit = some (rs, fs)) ∧
    (∃ s : State, decodeWord s.cfg.hasCx (s.regValue .a) = .ok (.exr .a)) ∧
    (∃ s : State, decodeWord s.cfg.hasCx (s.regValue .a) = .error .unassigned) :=
  ⟨⟨start { RegSet.zero with a := 0o146142 } [], rfl, nofun, _, _, rfl⟩,
    ⟨start { RegSet.zero with a := 0o140650 } [], rfl⟩, start { RegSet.zero with a := 0o160000 } [], rfl⟩

theorem witness_MultiplyDivideResult :
    (∃ (s : State) (n v : Int), n = (s.a ++ s.d).toInt ∧ v = (s.regValue .t).toInt ∧ v ≠ 0 ∧ -32768 ≤ n.tdiv v ∧
      n.tdiv v ≤ 32767) ∧
    (∃ (s : State) (n v : Int), n = (s.a ++ s.d).toInt ∧ v = (s.regValue .t).toInt ∧ v ≠ 0 ∧ 32767 < n.tdiv v) ∧
    (∃ (s : State) (v : Int), v = (s.regValue .t).toInt ∧ v = 0) :=
  ⟨⟨start { RegSet.zero with a := 0o177777, d := 0o100000, t := 1 } [], _, _, rfl, rfl, by decide +kernel⟩,
    ⟨start { RegSet.zero with d := 0o100000, t := 1 } [], _, _, rfl, rfl, by decide +kernel⟩, calm, _, rfl, rfl⟩

theorem witness_ArgumentResult :
    (∃ (s : State) (sum : Int) (ovf : Bool), argumentOf (.sab 0o200) = some (.b, 0o200, false) ∧
      sum = (s.cur.get .b).toInt + (0o200 : BitVec 8).toInt ∧ ovf = decide (sum < -32768 ∨ 32767 < sum)) ∧
    (∃ (s : State) (sum : Int) (ovf : Bool), argumentOf (.aax 0o177) = some (.x, 0o177, true) ∧
      sum = (s.cur.get .x).toInt + (0o177 : BitVec 8).toInt ∧ ovf = decide (sum < -32768 ∨ 32767 < sum)) :=
  ⟨⟨calm, _, _, rfl, rfl, rfl⟩, calm, _, _, rfl, rfl, rfl⟩

theorem witness_BitInstructions :
    ∀ (s : State) (bn : BitVec 4) (dr : RField), ∃ bit k : Bool,
      bit = (if dr = .zero then decide (bn.toNat < 8) && s.sts.getLsbD bn.toNat
        else (s.regValue dr).getLsbD bn.toNat) ∧ k = s.flag .k := fun _ _ _ => ⟨_, _, rfl, rfl⟩

/-- Two packed operands: -5 in four nibbles, 7 in four nibbles. -/
def packed : State :=
  start { RegSet.zero with a := 0o1000, d := 4, x := 0o2000, t := 4 } [(0o1000, 0x005D), (0o2000, 0x007C)]

/-- Minus zero twice: a zero sum of operands of one sign; and an empty first field. -/
theorem witness_DecimalArithmetic_zero :
    (∃ s : State, s.Flat ∧ s.cfg.hasCx = true ∧ s.ordinaryField s.a (packedBytes s.d) ∧
      s.ordinaryField s.x (packedBytes s.t) ∧ (s.packedAt s.a s.d).illegal = false ∧
      (s.packedAt s.x s.t).illegal = false ∧ (s.packedAt s.a s.d).neg = true ∧ (s.packedAt s.x s.t).neg = true ∧
      (s.packedAt s.a s.d).toInt + (s.packedAt s.x s.t).toInt = 0) ∧
    decLength 0 = 0 ∧ (packed.packedAt 0 0).illegal = false :=
  ⟨⟨start { RegSet.zero with a := 0o1000, d := 4, x := 0o1000, t := 4 } [(0o1000, 0x000D)],
      ⟨rfl, rfl, rfl, by decide, rfl, rfl, rfl⟩, rfl, ordinary_of_all rfl, ordinary_of_all rfl, by decide +kernel⟩,
    rfl, rfl⟩

theorem witness_DecimalArithmetic :
    packed.Flat ∧ packed.cfg.hasCx = true ∧ packed.ordinaryField packed.a (packedBytes packed.d) ∧
    packed.ordinaryField packed.x (packedBytes packed.t) ∧ (packed.packedAt packed.a packed.d).illegal = false ∧
    (packed.packedAt packed.x packed.t).illegal = false :=
  ⟨⟨rfl, rfl, rfl, by decide, rfl, rfl, rfl⟩, rfl, ordinary_of_all rfl, ordinary_of_all rfl, by decide +kernel, by decide +kernel⟩

/-- An ASCII operand "12-" with a separate sign behind it, and one with an illegal byte. -/
def ascii (low : Word) : State :=
  start { RegSet.zero with a := 0o1000, d := 0o4004, x := 0o2000, t := 4 } [(0o1000, 0o30061), (0o1001, low)]

theorem witness_DecimalConversion_pack :
    (∃ v, (ascii 0o31055).Flat ∧ (ascii 0o31055).cfg.hasCx = true ∧
      (ascii 0o31055).ordinaryField (ascii 0o31055).a (decLength (ascii 0o31055).d) ∧
      (ascii 0o31055).ordinaryField (ascii 0o31055).x (packedBytes (ascii 0o31055).t) ∧
      scanAscii (signForm (ascii 0o31055).d) (decLength (ascii 0o31055).d) 0
        ((ascii 0o31055).bytesAt (descAddr (ascii 0o31055).a (ascii 0o31055).d) (decLength (ascii 0o31055).d)) = .ok v) ∧
    (∃ j, (ascii 0o40455).Flat ∧ (ascii 0o40455).cfg.hasCx = true ∧
      (ascii 0o40455).ordinaryField (ascii 0o40455).a (decLength (ascii 0o40455).d) ∧
      scanAscii (signForm (ascii 0o40455).d) (decLength (ascii 0o40455).d) 0
        ((ascii 0o40455).bytesAt (descAddr (ascii 0o40455).a (ascii 0o40455).d) (decLength (ascii 0o40455).d)) =
        .error j) :=
  ⟨⟨_, ⟨rfl, rfl, rfl, by decide, rfl, rfl, rfl⟩, rfl, ordinary_of_all rfl, ordinary_of_all rfl, rfl⟩,
    _, ⟨rfl, rfl, rfl, by decide, rfl, rfl, rfl⟩, rfl, ordinary_of_all rfl, rfl⟩

theorem witness_DecimalConversion_upack :
    (∃ v, packed.ordinaryField packed.a (packedBytes packed.d) ∧ packed.ordinaryField packed.x (decLength packed.t) ∧
      v = packed.packedAt packed.a packed.d ∧ v.illegal = false) ∧
    (∃ s : State, s.Flat ∧ s.cfg.hasCx = true ∧ s.ordinaryField s.a (packedBytes s.d) ∧
      lastIllegal 0 (s.packedAt s.a s.d).digits = some 2) :=
  ⟨⟨_, ordinary_of_all rfl, ordinary_of_all rfl, rfl, by decide +kernel⟩,
    start { RegSet.zero with a := 0o1000, d := 4 } [(0o1000, 0x00AC)], ⟨rfl, rfl, rfl, by decide, rfl, rfl, rfl⟩, rfl,
    ordinary_of_all rfl, by decide +kernel⟩

theorem witness_DecimalShift :
    packed.Flat ∧ packed.cfg.hasCx = true ∧ packed.ordinaryField packed.a (packedBytes packed.d) ∧
    packed.ordinaryField packed.x (packedBytes packed.t) ∧
    (packed.packedAt packed.a packed.d).illegal = false ∧
    (∀ p1 p2 : Nat, ∃ m v : Nat, ∃ noRound : Bool, (p1 ≤ p2 → m = v * 10 ^ (p2 - p1)) ∧
      (p2 < p1 → noRound = true → m = v / 10 ^ (p1 - p2)) ∧
      (p2 < p1 → noRound = false → m = (v + 5 * 10 ^ (p1 - p2 - 1)) / 10 ^ (p1 - p2))) :=
  ⟨⟨rfl, rfl, rfl, by decide, rfl, rfl, rfl⟩, rfl, ordinary_of_all rfl, ordinary_of_all rfl, by decide +kernel,
    fun p1 p2 => ⟨if p1 ≤ p2 then 3 * 10 ^ (p2 - p1) else 3 / 10 ^ (p1 - p2), 3, true, fun h => by simp [h],
      fun h _ => by simp [Nat.not_le.2 h], fun _ h => by cases h⟩⟩

theorem witness_StackFrames :
    (∃ s : State, ∃ demand start smax stp, s.Flat ∧ s.ordinary start 4 ∧ s.ordinary (s.p + 1) 4 ∧
      demand = s.wordAt (s.p + 1) ∧ start = s.wordAt (s.p + 2) ∧ smax = start + s.wordAt (s.p + 3) ∧
      stp = start + 6 + demand) ∧
    (∃ s : State, ∃ demand start smax stp, s.Flat ∧ s.ordinary start 4 ∧ s.ordinary (s.p + 1) 1 ∧
      s.ordinary (s.b - 126) 2 ∧ demand = s.wordAt (s.p + 1) ∧ start = s.wordAt (s.b - 126) ∧
      smax = s.wordAt (s.b - 125) ∧ stp = start + 6 + demand) ∧
    (∃ s : State, s.Flat ∧ s.ordinary (s.b - 128) 2 ∧ s.ordinary (s.b - 123) 1) :=
  ⟨⟨start { RegSet.zero with p := 0o1000 } [(0o1001, 8), (0o1002, 0o40000), (0o1003, 0o1000)], 8, 0o40000, 0o41000,
      0o40016, ⟨rfl, rfl, rfl, by decide, rfl, rfl, rfl⟩, ordinary_of_all rfl, ordinary_of_all rfl, by decide +kernel⟩,
    ⟨start { RegSet.zero with p := 0o2000, b := 0o40200 } [(0o2001, 4), (0o40002, 0o40016), (0o40003, 0o41000)], 4,
      0o40016, 0o41000, 0o40030, ⟨rfl, rfl, rfl, by decide, rfl, rfl, rfl⟩, ordinary_of_all rfl, ordinary_of_all rfl,
      ordinary_of_all rfl, by decide +kernel⟩,
    start { RegSet.zero with b := 0o40216 } [], ⟨rfl, rfl, rfl, by decide, rfl, rfl, rfl⟩, ordinary_of_all rfl,
    ordinary_of_all rfl⟩

theorem witness_StatusControl :
    calm.mayRunPrivileged = true ∧ calm.ioni = false ∧ { calm with ioni := true }.mayRunPrivileged = true ∧
    (∀ active, ∃ s : State, s.mayRunPrivileged = true ∧ s.opcomActive = active ∧ s.mopc.lineStart = false) :=
  ⟨rfl, rfl, rfl, fun active => ⟨{ calm with opcomActive := active, mopc := { Mopc.initial with lineStart := false } },
    rfl, rfl, rfl⟩⟩

/-- The console in front of nothing, and on level 11 the second of two DMA controllers. -/
theorem witness_IdentResult :
    (∃ s : State, s.mayRunPrivileged = true ∧ s = s.yieldBus ∧ s.steals = [] ∧ ∀ n ∈ [10, 11, 12, 13], s.line n = false) ∧
    (∃ s : State, s.mayRunPrivileged = true ∧ s = s.yieldBus ∧ s.clock.ff = true ∧ s.console.outFf = true ∧
      s.console.inFf = true) ∧
    (∃ s : State, ∃ before behind d, s.mayRunPrivileged = true ∧ s = s.yieldBus ∧ s.clock.ff = false ∧
      s.console.outFf = false ∧ s.console.inFf = false ∧ s.devices = before ++ d :: behind ∧ before ≠ [] ∧
      (∀ e ∈ before, e.drives 11 = false) ∧ d.drives 11 = true) := by
  refine ⟨⟨calm, rfl, rfl, rfl, by decide +kernel⟩,
    ⟨{ calm with
      clock := ⟨false, true, true, true⟩, console := { Console.initial with outFf := true, inFf := true } },
      rfl, rfl, rfl, rfl, rfl⟩,
    { calm with devices := [.dma ⟨0o500, 1, 0, false, false, 0, 0, 0, 0, true, false, false⟩,
        .dma ⟨0o540, 5, 0, false, false, 0, 0, 0, 0, true, false, true⟩] },
    [.dma ⟨0o500, 1, 0, false, false, 0, 0, 0, 0, true, false, false⟩], [],
    .dma ⟨0o540, 5, 0, false, false, 0, 0, 0, 0, true, false, true⟩, rfl, rfl, rfl, rfl, rfl, rfl, by decide, ?_, rfl⟩
  decide

theorem witness_InputOutputResult :
    calm.mayRunPrivileged = true ∧ (calm = calm.yieldBus ∧ calm.steals = []) ∧
    (∃ (i : Instr) (addr : Word), (∃ a : BitVec 11, i = .iox a ∧ addr.toNat = a.toNat) ∧ addr.getLsbD 0 = false ∧
      isClock addr = false ∧ isConsole addr = false ∧ addr ≠ 0o100115 ∧
      ∀ d ∈ calm.devices, d.decodes addr = false) ∧
    (∃ (i : Instr) (addr : Word), (i = .ioxt ∧ addr = (calm.setT 0o177777).t) ∧ addr.getLsbD 0 = true) ∧
    (∃ s : State, s.mayRunPrivileged = true ∧ s = s.yieldBus ∧ s.t = 0o100115) :=
  ⟨rfl, ⟨rfl, rfl⟩, ⟨.iox 0o3776, 0o3776, ⟨_, rfl, rfl⟩, by decide +kernel, by decide +kernel, by decide +kernel, by decide,
    List.forall_mem_nil _⟩, ⟨.ioxt, 0o177777, ⟨rfl, rfl⟩, by decide⟩, calm.setT 0o100115, rfl, rfl, rfl⟩

/-- The transmitter of the console ready, and not; a character of five bits. -/
theorem witness_InputOutputResult_console :
    calm.console.outReady = true ∧
    (∃ s : State, ∃ (v : Word) (ch : Byte), s.console.outReady = false ∧
      ch.toNat = v.toNat % 2 ^ (8 - s.console.len.toNat)) :=
  ⟨rfl, { calm with console := { Console.initial with outReady := false, len := 3 } }, 0o177777, 0o37, rfl, rfl⟩

theorem witness_ControlStoreAndStops :
    (∃ s : State, s.mayRunPrivileged = true ∧ s.cfg.hasWcs = false) ∧
    (calm.mayRunPrivileged = true ∧ calm.cfg.hasWcs = true ∧ calm.Flat) ∧
    (nameOnlyMnemonic (.movew 0o77) = some "MOVEW" ∧ calm.cfg.hasCx = true) ∧
    (∃ s : State, (∃ name, nameOnlyMnemonic .tset = some name) ∧ s.cfg.hasCx = false) ∧
    (∃ s : State, customerEntry (.cust13 0o77) = some 0o4013 ∧ s.cfg.hasWcs = true ∧ s.wcsLoaded = true) ∧
    (customerEntry (.cust1 0) = some 0o4001 ∧ calm.wcsLoaded = false) :=
  ⟨⟨{ calm with cfg := { Installation.default with hasWcs := false } }, rfl, rfl⟩, ⟨rfl, rfl, calm_flat⟩, ⟨rfl, rfl⟩,
    ⟨{ calm with cfg := { Installation.default with hasCx := false } }, ⟨_, rfl⟩, rfl⟩,
    ⟨{ calm with wcsLoaded := true }, rfl, rfl, rfl⟩, rfl, rfl⟩

theorem witness_InternalRegisterRead :
    calm.mayRunPrivileged = true ∧ ((15 : BitVec 4), (0 : Word), calm) ∈ [((15 : BitVec 4), (0 : Word), calm)] ∧
    calm.panelPresent = true ∧
    (∃ s : State, s.mayRunPrivileged = true ∧ s.panelPresent = false) ∧
    (∀ pos : AldSwitch, ∃ s : State, s.mayRunPrivileged = true ∧ s.cfg.ald = pos) :=
  ⟨rfl, by simp, rfl, ⟨{ calm with cfg := { Installation.default with hasPanel := false } }, rfl, rfl⟩,
    fun pos => ⟨{ calm with cfg := { Installation.default with ald := pos } }, rfl, rfl⟩⟩

/-- The fetch behind TRA misses in the cache, and hits; there is no cache. -/
theorem witness_InternalRegisterRead_csr :
    (cached.mayRunPrivileged = true ∧ (cached.cfg.hasMms && cached.cfg.hasCache) = true ∧
      cacheSorted cached.cache = true ∧ cached.cacheClearing = false ∧ cached.shadowReached (cached.p + 1) = false ∧
      cached.translate .fetch .prel (cached.p + 1) = .done 1 cached ∧
      ∀ e ∈ cached.cache, e.index.toNat = (1 : PhysAddr).toNat % 1024 → e.cpn.toNat ≠ (1 : PhysAddr).toNat / 1024) ∧
    ((cached.setP 0o2016).translate .fetch .prel 0o2017 = .done 0o2017 (cached.setP 0o2016) ∧
      ∃ e ∈ cached.cache, e.index.toNat = (0o2017 : PhysAddr).toNat % 1024 ∧
        e.cpn.toNat = (0o2017 : PhysAddr).toNat / 1024) ∧
    (∃ s : State, s.mayRunPrivileged = true ∧ (s.cfg.hasMms && s.cfg.hasCache) = false) := by
  refine ⟨⟨rfl, rfl, rfl, rfl, by decide +kernel, rfl, by decide +kernel⟩, ⟨rfl, by decide +kernel⟩,
    { calm with cfg := { Installation.default with hasCache := false } }, rfl, rfl⟩

theorem witness_InternalRegisterWrite :
    calm.mayRunPrivileged = true ∧ (calm.panelPresent = true ∧ calm.panel.fifo.length < calm.cfg.panelFifoDepth) ∧
    calm.cfg.hasMms = true ∧
    (∃ s : State, s.mayRunPrivileged = true ∧ s.panelPresent = false ∧ s.cfg.hasMms = false) ∧
    (15 : BitVec 4) ∉ [(1 : BitVec 4), 6, 7] ∧
    (∃ s : State, s.mayRunPrivileged = true ∧ s.panelPresent = true ∧ s.panel.fifo.length = s.cfg.panelFifoDepth) :=
  ⟨rfl, ⟨rfl, by decide +kernel⟩, rfl,
    ⟨{ calm with cfg := { Installation.default with hasMms := false } }, rfl, rfl, rfl⟩, by decide,
    { calm with panel := { Panel.initial with fifo := List.replicate 16 0 } }, rfl, rfl, rfl⟩

theorem witness_InterLevelRegisters :
    calm.mayRunPrivileged = true ∧ ¬ (RField.p = .p ∧ (15 : BitVec 4) = calm.pil) ∧
    ∃ (l : BitVec 4) (q : RField), (l, q) ≠ ((15 : BitVec 4), RField.p) ∧ (l, q) ≠ (calm.pil, .p) :=
  ⟨rfl, by decide, 0, .a, by decide, by decide⟩

theorem witness_RegisterBlocks : calm.mayRunPrivileged = true ∧ calm.Flat ∧ calm.ordinary calm.x 8 :=
  ⟨rfl, calm_flat, ordinary_of_all rfl⟩

/-- With paging on, on ring 2: the eight words at address 0 stored and read. -/
theorem witness_RegisterBlocks_mapped :
    ∃ s : State, s.mayRunPrivileged = true ∧ s.poni = true ∧
      (∃ s1, storesInOrder .nonprel s s.x [1, 2, 3, 4, 5, 6, 7, 8] s1) ∧
      (∃ s1, readsInOrder .nonprel s s.x [0, 0, 0, 0, 0, 0, 0, 0] s1) :=
  ⟨{ mapped.setPcr 0 ⟨0, 0, 2⟩ with regs := mapped.regs }, rfl, rfl,
    ⟨_, _, rfl, _, rfl, _, rfl, _, rfl, _, rfl, _, rfl, _, rfl, _, rfl, rfl⟩,
    ⟨_, _, rfl, _, rfl, _, rfl, _, rfl, _, rfl, _, rfl, _, rfl, _, rfl, rfl⟩⟩

theorem witness_PhysicalLoads :
    calm.mayRunPrivileged = true ∧ (∃ pa : PhysAddr, pa.toNat = calm.a.toNat % 256 * 65536 + calm.d.toNat ∧
      calm.goodWord pa) ∧
    calm.physicallyReadable (txAddressOf calm 7 0) ∧ calm.physicallyReadable (txAddressOf calm 7 1) ∧
    calm.cfg.earlyMicroprogram = false ∧
    (∃ s : State, s.physicallyReadable (txAddressOf s 0 0) ∧ s.txShadow (txAddressOf s 0 0) = true) :=
  ⟨rfl, ⟨0, by decide +kernel, rfl, rfl, by decide +kernel, rfl, by decide +kernel⟩,
    .inr ⟨rfl, rfl, by decide +kernel, rfl, by decide +kernel⟩,
    .inr ⟨rfl, rfl, by decide +kernel, rfl, by decide +kernel⟩, rfl,
    calm.setX 0o177777, .inl (by decide +kernel), by decide +kernel⟩

/-- EXAM of the word that the cache holds, and a load of one that it does not hold. -/
theorem witness_PhysicalLoads_cache :
    cached.mayRunPrivileged = true ∧ cached.steals = [] ∧ cached.cacheEnabled = true ∧ cacheSorted cached.cache = true ∧
    (∃ s : State, ∃ pa : PhysAddr, s.cache = cached.cache ∧ pa.toNat = s.a.toNat % 256 * 65536 + s.d.toNat ∧
      ∃ e ∈ s.cache, e.index.toNat = pa.toNat % 1024 ∧ e.cpn.toNat = pa.toNat / 1024) ∧
    cached.txShadow (txAddressOf cached 7 0) = false ∧ cached.txShadow (txAddressOf cached 7 1) = false ∧
    (∀ e ∈ cached.cache, ¬ (e.index.toNat = (txAddressOf cached 7 0).toNat % 1024 ∧
      e.cpn.toNat = (txAddressOf cached 7 0).toNat / 1024)) ∧
    cached.cfg.earlyMicroprogram = false := by
  refine ⟨rfl, rfl, rfl, rfl, ⟨cached.setD 0o2017, 0o2017, rfl, by decide +kernel, by decide +kernel⟩, by decide +kernel,
    by decide +kernel, by decide +kernel, rfl⟩

/-- Both words of STDTX in memory; the first below the page tables and the second in them; both in them. -/
theorem witness_PhysicalStores :
    calm.mayRunPrivileged = true ∧ calm.steals = [] ∧
    (∃ pa : PhysAddr, pa.toNat = calm.a.toNat % 256 * 65536 + calm.d.toNat ∧ calm.memPresent pa = true) ∧
    (∀ k, k < 2 → calm.txShadow (txAddressOf calm 7 k) = false ∧ calm.memPresent (txAddressOf calm 7 k) = true) ∧
    (∃ s : State, s.mayRunPrivileged = true ∧ s.txShadow (txAddressOf s 0 0) = false ∧
      s.memPresent (txAddressOf s 0 0) = true ∧ s.txShadow (txAddressOf s 0 1) = true) ∧
    (∃ s : State, s.mayRunPrivileged = true ∧ s.txShadow (txAddressOf s 0 0) = true ∧
      s.txShadow (txAddressOf s 0 1) = true) :=
  ⟨rfl, rfl, ⟨0, by decide +kernel, by decide +kernel⟩, by decide +kernel,
    ⟨calm.setX 0o177377, rfl, by decide +kernel, by decide +kernel, by decide +kernel⟩,
    calm.setX 0o177400, rfl, by decide +kernel, by decide +kernel⟩

theorem witness_OperatorStart :
    ∀ haveNum, ∃ s : State, s.events = [] ∧ s.runState = .stop ∧ s.opcomActive = true ∧ s.console.avail = true ∧
      s.console.data &&& 0o177 = 0o41 ∧ s.mopc.outq = [] ∧ s.mopc.dump = none ∧ s.mopc.lineStart = false ∧
      s.mopc.haveNum = haveNum :=
  fun haveNum => ⟨{ State.reset with
    console := { Console.initial with data := 0o241, avail := true }
    mopc := { Mopc.initial with num := 0o77777777, haveNum := haveNum, lineStart := false } }, rfl, rfl, rfl, rfl,
    by show (0o241 : Byte) &&& 0o177 = 0o41; decide, rfl, rfl, rfl, rfl⟩

end Sys2Proof.Tests
end

section
/-! The instruction cycle of R660 in RUN, followed from `step` to `exec`: one lemma per stage of the cycle. -/

namespace Sys2Proof.Machine

@[simp] theorem State.latchInternal_mopc (s : State) : s.latchInternal.mopc = s.mopc := by
  rw [State.latchInternal_frame]

@[simp] theorem State.prefetch_cfg (s : State) : s.prefetch.cfg = s.cfg := by
  rw [State.prefetch_frame]

/-- Without a host event and without a semi-RUN, a step in RUN is one unit of R660. -/
theorem step_eq_unit {s : State} (hevents : s.events = []) (hrun : s.runState = .run) (hsemi : s.mopc.semi = .none) :
    step s = s.unit := by
  simp only [step, State.advanceMachine, hevents, State.machineStep, hrun, State.runUnit, hsemi, if_true]

/-- Where the test of this boundary has been made already, the unit goes on behind it. -/
theorem State.unit_of_boundaryDone {s : State} (h : s.boundaryDone = true) : s.unit = s.afterTest := if_pos h

/-- The test of this boundary finds no level to change to: interrupts off, or PK the running level. -/
theorem State.unit_of_sameLevel {s : State} (hdone : s.boundaryDone = false)
    (hlevel : s.latchInternal.ioni = false ∨ s.latchInternal.pk = s.latchInternal.pil) :
    s.unit = s.latchInternal.afterTest := by
  have hstay : ¬ (s.latchInternal.ioni = true ∧ s.latchInternal.pk ≠ s.latchInternal.pil) := by
    rintro ⟨hon, hne⟩
    rcases hlevel with hoff | heq
    · simp [hoff] at hon
    · exact hne heq
  simp [State.unit, hdone, hstay]

/-- Outside a semi-RUN there is no breakpoint and no manual instruction: the instruction at P follows the test. -/
theorem State.afterTest_of_noSemi {s : State} (h : s.mopc.semi = .none) : s.afterTest = s.instruction := by
  simp only [State.afterTest, h]

/-- A word that decodes is executed as the instruction that it decodes to, after the prefetch. -/
theorem State.runWord_of_decode {s : State} {w : Word} {i : Instr} (h : decodeWord s.cfg.hasCx w = .ok i) :
    s.runWord w = exec i s.prefetch := by
  simp only [State.runWord, State.executeFetched, State.prefetch_cfg, h]

/-- An instruction whose word is fetched and decodes: its meaning, and behind it a boundary still to be tested. -/
theorem State.instruction_of_fetch {s s' : State} {w : Word} {i : Instr}
    (hfetch : s.memRead .fetch .prel s.p = .done w s') (hdecode : decodeWord s'.cfg.hasCx w = .ok i) :
    s.instruction = andThen (exec i s'.prefetch) fun t => .next t.atBoundary := by
  simp only [State.instruction, hfetch, State.runWord_of_decode hdecode]

/-- Settles O6: the unit is the instruction at P in both forms of the boundary, and the instruction is the meaning of the
word fetched there. -/
theorem stepRunsDecodedInstruction : Obligations.StepRunsDecodedInstruction := by
  unfold Obligations.StepRunsDecodedInstruction
  intro s s1 s2 w i hevents hrun hsemi hboundary hfetch hdecode
  have hunit : s.unit = s1.instruction := by
    rcases hboundary with ⟨hdone, rfl⟩ | ⟨hdone, rfl, hlevel⟩
    · rw [State.unit_of_boundaryDone hdone, State.afterTest_of_noSemi hsemi]
    · rw [State.unit_of_sameLevel hdone hlevel, State.afterTest_of_noSemi (s.latchInternal_mopc ▸ hsemi)]
  have hstep : step s = andThen (exec i s2.prefetch) fun t => .next t.atBoundary := by
    rw [step_eq_unit hevents hrun hsemi, hunit, State.instruction_of_fetch hfetch hdecode]
  exact ⟨fun t hexec => by rw [hstep, hexec, andThen], fun r hexec => by rw [hstep, hexec, andThen]⟩

end Sys2Proof.Machine
end

section
/-! Reset and the level change: the values of the machine after reset, PK, and the step that changes the level. -/

namespace Sys2Proof.Machine

/-- Settles O4: the fields of `State.reset` and of the initial console and MOPC in it. -/
theorem resetState : Obligations.ResetState := by
  unfold Obligations.ResetState
  exact ⟨rfl, rfl, rfl, rfl, rfl, rfl, rfl, rfl, rfl, rfl, rfl, rfl, rfl, rfl, rfl, rfl, rfl, rfl, rfl, rfl⟩

/-- Settles O17: memory and cache are empty, the interrupt registers, PSR, PONI and SEXI are 0. -/
theorem invariantAtReset : Obligations.InvariantAtReset := by
  unfold Obligations.InvariantAtReset
  exact ⟨State.reset_mem_wf, State.reset_ecc_wf, rfl, rfl, rfl, rfl, nofun, nofun⟩

@[simp] theorem State.latchInternal_pil (s : State) : s.latchInternal.pil = s.pil := by rw [State.latchInternal_frame]
@[simp] theorem State.latchInternal_ioni (s : State) : s.latchInternal.ioni = s.ioni := by rw [State.latchInternal_frame]

theorem State.pk_toNat (s : State) : s.pk.toNat = highestBit (s.pie &&& s.pidSeen) 16 := by
  have hlt := highestBit_lt (s.pie &&& s.pidSeen) 16 (by decide)
  rw [State.pk, BitVec.toNat_ofNat, Nat.mod_eq_of_lt (by omega)]

/-- A word that is not zero has a 1 bit. -/
theorem exists_getLsbD_of_ne_zero {w : Nat} {v : BitVec w} (h : v ≠ 0) : ∃ n, n < w ∧ v.getLsbD n = true := by
  by_contra hnone
  push Not at hnone
  exact h (BitVec.eq_of_getLsbD_eq fun n hn => by simpa using hnone n hn)

/-- No level above PK is both enabled and requested. -/
theorem State.pk_above (s : State) {n : Nat} (h : s.pk.toNat < n) (hn : n < 16) :
    (s.pie.getLsbD n && s.pidSeen.getLsbD n) = false := by
  rw [State.pk_toNat] at h
  simpa using highestBit_above _ 16 n h hn

/-- Where a level is both enabled and requested, PK is such a level. -/
theorem State.pk_requested (s : State) (h : s.pie &&& s.pidSeen ≠ 0) :
    (s.pie.getLsbD s.pk.toNat && s.pidSeen.getLsbD s.pk.toNat) = true := by
  obtain ⟨n, hn, hbit⟩ := exists_getLsbD_of_ne_zero h
  rw [State.pk_toNat]
  simpa using highestBit_set _ 16 n hn hbit

theorem State.pk_of_noRequest {s : State} (h : s.pie &&& s.pidSeen = 0) : s.pk = 0 := by
  rw [State.pk, h]; rfl

/-- The test of this boundary finds another level: the unit is the level change alone. -/
theorem State.unit_of_levelChange {s : State} (hdone : s.boundaryDone = false) (hon : s.ioni = true)
    (hpk : s.latchInternal.pk ≠ s.pil) :
    s.unit = .next { s.latchInternal with pvl := s.pil, pil := s.latchInternal.pk, boundaryDone := true } := by
  have htest : s.latchInternal.ioni = true ∧ s.latchInternal.pk ≠ s.latchInternal.pil := by simpa [hon] using hpk
  have hchange : s.latchInternal.changeLevel = { s.latchInternal with pvl := s.pil, pil := s.latchInternal.pk } := by
    rw [State.changeLevel, State.latchInternal_pil]
  simp only [State.unit, hdone, Bool.false_eq_true, if_false, if_pos htest, hchange]

/-- Settles O8: PK by the bits that `highestBit` finds, the level change as the unit of a boundary whose test finds another
level. -/
theorem levelChange : Obligations.LevelChange := by
  unfold Obligations.LevelChange
  refine ⟨fun s => ⟨fun _ => s.pk_above, s.pk_requested, State.pk_of_noRequest⟩, ?_⟩
  intro s hevents hrun hsemi hdone hon hpk
  exact ⟨(step_eq_unit hevents hrun hsemi).trans (State.unit_of_levelChange hdone hon hpk), s.latchInternal_frame⟩

end Sys2Proof.Machine
end

section
/-! Properties of states that the shared operations keep. `ClosedUnderOps P` lists what a property `P` must survive; from it
follows, once for every such `P`, that each instruction keeps `P`. The invariant of `Safety.lean` is one such property, the
register set of a level that is not the current one another. -/

namespace Sys2Proof.Machine

/-- The fields that the invariant looks at. -/
def State.invFields (s : State) : Memory × Memory × List CacheLine × Word × Word × Word × Bool × Bool × Installation :=
  (s.mem, s.ecc, s.cache, s.iie, s.iid, s.psr, s.poni, s.sexi, s.cfg)

/-- The status bits above the flags, PONI and SEXI set only where they were or where the memory management module is. -/
structure State.MayBecome (s : State) (poni sexi : Bool) : Prop where
  poni : poni = true → s.poni = true ∨ s.cfg.hasMms = true
  sexi : sexi = true → s.sexi = true ∨ s.cfg.hasMms = true

/-- `P` is kept by the operations that the instructions share. -/
structure ClosedUnderOps (P : State → Prop) : Prop where
  /-- `P` depends on no other fields. -/
  congr : ∀ {s t : State}, P s → t.invFields = s.invFields → t.regs = s.regs → t.pil = s.pil → P t
  setCur : ∀ {s : State}, P s → ∀ r, P (s.setCur r)
  raise : ∀ {s : State}, P s → ∀ x, P (s.raise x)
  refuse : ∀ {s : State}, P s → ∀ kind r e, P (s.refuseAccess kind r e)
  yieldBus : ∀ {s : State}, P s → P s.yieldBus
  physRead : ∀ {s : State}, P s → ∀ src pa, P (s.physRead src pa).2
  busRead : ∀ {s : State}, P s → ∀ src pa, P (s.busRead src pa).2
  busWrite : ∀ {s : State}, P s → ∀ src pa w, P (s.busWrite src pa w)
  cacheClear : ∀ {s : State}, P s → P s.cacheClear
  enable : ∀ {s : State}, P s → ∀ v : Word, P { s with iie := v &&& 0o3776 }
  status : ∀ {s : State}, P s → ∀ {poni sexi : Bool}, s.MayBecome poni sexi → ∀ ioni : Bool,
    P { s with ioni := ioni, poni := poni, sexi := sexi }

/-- An access leaves a state with `P`, whether or not it passes. -/
def Access.All {α : Type} (P : State → Prop) : Access α → Prop
  | .done _ s => P s
  | .aborted s => P s

/-- The next state, if there is one, has `P`. -/
def NextAll (P : State → Prop) : Result → Prop
  | .next s => P s
  | _ => True

theorem NextAll.of_eq_next {P : State → Prop} {r : Result} {t : State} (h : NextAll P r) (e : r = .next t) : P t := by
  rw [e] at h; exact h

/-- An access that passes hands its state on. -/
theorem Access.All.bind {α β : Type} {P : State → Prop} {x : Access α} {f : α → State → Access β} (hx : x.All P)
    (hf : ∀ v s, P s → (f v s).All P) : (x.bind f).All P := by
  cases x with
  | done v s => exact hf v s hx
  | aborted s => exact hx

theorem NextAll.true (r : Result) : NextAll (fun _ => True) r := by
  cases r <;> trivial

theorem NextAll.ite {P : State → Prop} {c : Prop} [Decidable c] {a b : Result} (ha : NextAll P a) (hb : NextAll P b) :
    NextAll P (if c then a else b) := by split <;> assumption

theorem ite_keeps {P : State → Prop} {c : Prop} [Decidable c] {a b : State} (ha : P a) (hb : P b) :
    P (if c then a else b) := by split <;> assumption

namespace ClosedUnderOps

variable {P : State → Prop} (hP : ClosedUnderOps P) {s : State}
include hP

/-! ### Registers, flags and draws -/

theorem setSts (h : P s) (v : BitVec 8) : P (s.setSts v) := hP.setCur h _
theorem setD (h : P s) (v : Word) : P (s.setD v) := hP.setCur h _
theorem setP (h : P s) (v : Word) : P (s.setP v) := hP.setCur h _
theorem setB (h : P s) (v : Word) : P (s.setB v) := hP.setCur h _
theorem setL (h : P s) (v : Word) : P (s.setL v) := hP.setCur h _
theorem setA (h : P s) (v : Word) : P (s.setA v) := hP.setCur h _
theorem setT (h : P s) (v : Word) : P (s.setT v) := hP.setCur h _
theorem setX (h : P s) (v : Word) : P (s.setX v) := hP.setCur h _
theorem advance (h : P s) : P s.advance := hP.setCur h _
theorem skip (h : P s) : P s.skip := hP.setCur h _
theorem skipIf (h : P s) (c : Bool) : P (s.skipIf c) := ite_keeps (hP.skip h) (hP.advance h)
theorem setFlag (h : P s) (f : Flag) (b : Bool) : P (s.setFlag f b) := hP.setCur h _

theorem setOverflow (h : P s) (ovf : Bool) : P (s.setOverflow ovf) :=
  ite_keeps (hP.setFlag (hP.setFlag h _ _) _ _) (hP.setFlag h _ _)

theorem setAddFlags (h : P s) (r : Sum16) : P (s.setAddFlags r) := hP.setOverflow (hP.setFlag h _ _) _

theorem putReg (h : P s) (n : RField) (v : Word) : P (s.putReg n v) := by
  cases n with
  | zero => exact h
  | _ => exact hP.setCur h _

theorem endReg (h : P s) (n : RField) (v : Word) : P (s.endReg n v) := by
  cases n with
  | p => exact hP.setP h v
  | _ => exact hP.advance (hP.putReg h _ v)

theorem drawWord (h : P s) : P s.drawWord.2 := hP.congr h rfl rfl rfl
theorem drawBit (h : P s) : P s.drawBit.2 := hP.congr h rfl rfl rfl

/-! ### The ends of an instruction -/

theorem illegal (h : P s) : NextAll P s.illegal := hP.advance (hP.raise h _)

theorem privileged (h : P s) {e : Result} (he : NextAll P e) : NextAll P (s.privileged e) :=
  NextAll.ite he (hP.advance (hP.raise h _))

theorem withCx (h : P s) {r : Result} (hr : NextAll P r) : NextAll P (withCx s r) := NextAll.ite hr (hP.illegal h)

theorem complete {α : Type} {x : Access α} {k : α → State → Result} (hx : x.All P)
    (hk : ∀ v s, P s → NextAll P (k v s)) : NextAll P (x.complete k) := by
  cases x with
  | done v s => exact hk v s hx
  | aborted s => exact hP.advance hx

/-! ### Accesses -/

theorem translate (h : P s) (kind : Kind) (rel : Rel) (va : Word) : (s.translate kind rel va).All P := by
  cases e : s.translate kind rel va with
  | done pa t => rw [State.translate_done_frame e]; exact hP.congr h rfl rfl rfl
  | aborted t => obtain ⟨_, r, _, rfl⟩ := State.translate_aborted e; exact hP.refuse h _ _ _

theorem shadowWrite (h : P s) (va w : Word) : P (s.shadowWrite va w) := by
  rw [State.shadowWrite_frame]; exact hP.congr h rfl rfl rfl

theorem memRead (h : P s) (kind : Kind) (rel : Rel) (va : Word) : (s.memRead kind rel va).All P := by
  unfold State.memRead
  split
  · exact h
  · exact (hP.translate h kind rel va).bind fun pa _ h => hP.busRead h _ pa

theorem memWrite (h : P s) (rel : Rel) (va w : Word) : (s.memWrite rel va w).All P := by
  unfold State.memWrite
  split
  · exact hP.shadowWrite h va w
  · exact (hP.translate h _ rel va).bind fun pa _ h => hP.busWrite h _ pa w

theorem effLoc (h : P s) (m : MemRef) : (s.effLoc m).All P := by
  unfold State.effLoc
  dsimp only
  split
  · exact (hP.memRead h _ _ _).bind fun _ _ h => h
  · split <;> exact h

theorem readOperand (h : P s) (m : MemRef) : (s.readOperand m).All P :=
  (hP.effLoc h m).bind fun _ _ h => hP.memRead h _ _ _

theorem writeOperand (h : P s) (m : MemRef) (w : Word) : (s.writeOperand m w).All P :=
  (hP.effLoc h m).bind fun _ _ h => hP.memWrite h _ _ _

theorem readDouble (h : P s) (kind : Kind) (rel : Rel) (va : Word) : (s.readDouble kind rel va).All P :=
  (hP.memRead h _ _ _).bind fun _ _ h => (hP.memRead h _ _ _).bind fun _ _ h => h

theorem writeDouble (h : P s) (rel : Rel) (va w0 w1 : Word) : (s.writeDouble rel va w0 w1).All P :=
  (hP.memWrite h _ _ _).bind fun _ _ h => hP.memWrite h _ _ _

theorem readTriple (h : P s) (kind : Kind) (rel : Rel) (va : Word) : (s.readTriple kind rel va).All P :=
  (hP.memRead h _ _ _).bind fun _ _ h => (hP.memRead h _ _ _).bind fun _ _ h => (hP.memRead h _ _ _).bind fun _ _ h => h

theorem writeTriple (h : P s) (rel : Rel) (va w0 w1 w2 : Word) : (s.writeTriple rel va w0 w1 w2).All P :=
  (hP.memWrite h _ _ _).bind fun _ _ h => (hP.memWrite h _ _ _).bind fun _ _ h => hP.memWrite h _ _ _

end ClosedUnderOps

end Sys2Proof.Machine
end

section
/-! Each instruction keeps what the shared operations keep, family by family in the order of the model's files. -/

namespace Sys2Proof.Machine.ClosedUnderOps

variable {P : State → Prop} (hP : ClosedUnderOps P) {s : State}
include hP

/-! ### Argument and bit instructions -/

theorem addArgument (h : P s) (n : RField) (arg : BitVec 8) : NextAll P (addArgument n arg s) :=
  hP.advance (hP.setAddFlags (hP.putReg h _ _) _)

theorem putBit (h : P s) (bn : BitVec 4) (dr : RField) (v : Bool) : P (s.putBit bn dr v) := by
  unfold State.putBit
  split
  · exact ite_keeps (hP.setSts h _) h
  · exact hP.putReg h _ _

theorem endBit (h : P s) (dr : RField) : P (s.endBit dr) := ite_keeps h (hP.advance h)

theorem bitSet (h : P s) (v : Bool) (bn : BitVec 4) (dr : RField) : NextAll P (bitSet v bn dr s) :=
  hP.endBit (hP.putBit h _ _ _) _

theorem bitStore (h : P s) (v k : Bool) (bn : BitVec 4) (dr : RField) : NextAll P (bitStore v k bn dr s) :=
  hP.endBit (hP.setFlag (hP.putBit h _ _ _) _ _) _

theorem bitLoad (h : P s) (k : Bool) : NextAll P (bitLoad k s) := hP.advance (hP.setFlag h _ _)

/-! ### Byte instructions -/

theorem loadByte (h : P s) (rel : Rel) (a : ByteAddr) : (s.loadByte rel a).All P :=
  (hP.memRead h _ _ _).bind fun _ _ h => h

theorem storeByte (h : P s) (rel : Rel) (a : ByteAddr) (b : Byte) : (s.storeByte rel a b).All P :=
  (hP.memRead h _ _ _).bind fun _ _ h => hP.memWrite h _ _ _

theorem setDest (h : P s) (a : ByteAddr) (mid : BitVec 3) (length : BitVec 12) : P (s.setDest a mid length) :=
  hP.setT (hP.setX h _) _

theorem setSource (h : P s) (a : ByteAddr) (mid : BitVec 3) (length : BitVec 12) : P (s.setSource a mid length) :=
  hP.setD (hP.setA h _) _

theorem fillBytes (h : P s) (n : Nat) : (fillBytes n s).All P := by
  induction n generalizing s with
  | zero => exact h
  | succ n ih => exact (hP.storeByte h _ _ _).bind fun _ _ h => ih (hP.setDest h _ _ _)

theorem readBytes (h : P s) (rel : Rel) (n : Nat) (a : ByteAddr) : (readBytes rel n a s).All P := by
  induction n generalizing s a with
  | zero => exact h
  | succ n ih => exact (hP.loadByte h _ _).bind fun _ _ h => (ih h _).bind fun _ _ h => h

theorem writeBytes (h : P s) (rel : Rel) (bytes : List Byte) (a : ByteAddr) : (writeBytes rel bytes a s).All P := by
  induction bytes generalizing s a with
  | nil => exact h
  | cons b r ih => exact (hP.storeByte h _ _ _).bind fun _ _ h => ih h _

theorem abandonMove (h : P s) (begun : State) : P (s.abandonMove begun) :=
  have drawn := hP.drawWord (hP.drawWord (hP.drawWord (hP.drawWord h)))
  ite_keeps (hP.setT (hP.setX (hP.setD (hP.setA drawn _) _) _) _) drawn

theorem firstRefusal (h : P s) (rel : Rel) {t : State} (bytes : List Byte) (a : ByteAddr)
    (e : firstRefusal rel s bytes a = some t) : P t := by
  induction bytes generalizing a with
  | nil => cases e
  | cons b r ih =>
    have hb := hP.storeByte h rel a b
    unfold Machine.firstRefusal at e
    cases hs : s.storeByte rel a b with
    | aborted u =>
      rw [hs] at e hb
      cases e
      exact hb
    | done _ u =>
      rw [hs] at e
      exact ih _ e

theorem storeMoved (h : P s) (src dst : ByteAddr) (bytes : List Byte) : (s.storeMoved src dst bytes).All P := by
  have hw := hP.writeBytes h (descRel s.t) bytes dst
  unfold State.storeMoved
  split
  · rename_i now e
    rw [e] at hw
    split
    · exact hw
    · cases hf : Machine.firstRefusal (descRel s.t) s bytes dst with
      | some t => exact hP.firstRefusal h _ _ _ hf
      | none => exact hw
  · exact hw

theorem execLbyt (h : P s) : NextAll P (execLbyt s) :=
  hP.complete (hP.loadByte h _ _) fun _ _ h => hP.advance (hP.setA h _)

theorem execSbyt (h : P s) : NextAll P (execSbyt s) :=
  hP.complete (hP.storeByte h _ _ _) fun _ _ h => hP.advance h

theorem execBfill (h : P s) : NextAll P (execBfill s) := hP.complete (hP.fillBytes h _) fun _ _ h => hP.skip h

theorem execMovb (h : P s) : NextAll P (execMovb s) := by
  have hm := (hP.readBytes h (descRel s.d) s.moveLength.toNat (descAddr s.a s.d)).bind fun bytes _ h =>
    hP.storeMoved h (descAddr s.a s.d) (descAddr s.x s.t) bytes
  unfold Machine.execMovb
  dsimp only
  split
  · rename_i now e
    rw [e] at hm
    exact hP.advance (hP.abandonMove hm s)
  · rename_i t e
    rw [e] at hm
    exact hP.skip (hP.setDest (hP.setSource hm _ _ _) _ _ _)

theorem moveForward (h : P s) (n : Nat) : (moveForward n s).All P := by
  induction n generalizing s with
  | zero => exact h
  | succ n ih =>
    exact (hP.loadByte h _ _).bind fun _ _ h => (hP.storeByte h _ _ _).bind fun _ _ h =>
      ih (hP.setDest (hP.setSource h _ _ _) _ _ _)

theorem execMovbf (h : P s) : NextAll P (execMovbf s) :=
  NextAll.ite (hP.advance h) <|
    hP.complete (hP.moveForward h _) fun _ _ h => hP.skip (hP.setDest (hP.setSource h _ _ _) _ _ _)

/-! ### Decimal instructions -/

theorem readPacked (h : P s) (d1 d2 : Word) : (s.readPacked d1 d2).All P :=
  (hP.readBytes h _ _ _).bind fun _ _ h => h

theorem updateByte (h : P s) (rel : Rel) (a : ByteAddr) (f : Byte → Byte) : (s.updateByte rel a f).All P :=
  (hP.memRead h _ _ _).bind fun _ _ h => hP.memWrite h _ _ _

theorem writeNibbles (h : P s) (half : Bool) (ns : List Nat) (a : ByteAddr) : (writeNibbles half ns a s).All P := by
  induction half, ns, a, s using writeNibbles.induct with
  | case1 => unfold Machine.writeNibbles; exact h
  | case2 s n r a ih => exact (hP.updateByte h _ _ _).bind fun _ _ h => ih _ h
  | case3 => exact hP.updateByte h _ _ _
  | case4 s m n r a ih => exact (hP.storeByte h _ _ _).bind fun _ _ h => ih _ h

theorem writeField (h : P s) (d1 d2 : Word) (ns : List Nat) : (s.writeField d1 d2 ns).All P := hP.writeNibbles h _ _ _

theorem writePacked (h : P s) (d1 d2 : Word) (neg : Bool) (mag : Nat) : (s.writePacked d1 d2 neg mag).All P := by
  unfold State.writePacked
  split
  · exact h
  · exact hP.writeField h _ _ _

theorem drawNibbles (h : P s) (n : Nat) : P (drawNibbles n s).2 := by
  induction n generalizing s with
  | zero => exact h
  | succ n ih => exact ih (hP.drawWord h)

theorem arbitraryField (h : P s) (d1 d2 : Word) : (arbitraryField d1 d2 s).All P :=
  (hP.writeField (hP.drawBit (hP.drawNibbles h _)) _ _ _).bind fun _ _ h => h

theorem decimalReturn {x : Access Bool} (hx : x.All P) : NextAll P (decimalReturn x) :=
  hP.complete hx fun _ _ h => hP.skipIf h _

theorem readBoth (h : P s) : s.readBoth.All P :=
  (hP.readPacked h _ _).bind fun _ _ h => (hP.readPacked h _ _).bind fun _ _ h => h

theorem sumSign (h : P s) (r : Int) (isOpen : Bool) : P (sumSign r isOpen s).2 := by
  unfold Machine.sumSign
  split
  · exact hP.drawBit h
  · exact h

theorem decimalAdd (h : P s) (negate : Bool) : NextAll P (decimalAdd negate s) := by
  refine hP.decimalReturn ((hP.readBoth h).bind fun (v1, v2) s h => ?_)
  dsimp only
  split
  · exact hP.arbitraryField h _ _
  · exact (hP.writePacked (hP.sumSign h _ _) _ _ _ _).bind fun _ _ h => h

theorem execComd (h : P s) : NextAll P (execComd s) :=
  hP.withCx h <| hP.complete (hP.readBoth h) fun _ _ h =>
    NextAll.ite (hP.skip (hP.setA (hP.drawWord h) _)) (hP.skip (hP.setA h _))

theorem decimalError (h : P s) (code : BitVec 5) : P (s.decimalError code) := hP.advance (hP.setD h _)

theorem illegalCode (h : P s) (at_ : ByteAddr) : P (s.illegalCode at_) :=
  hP.decimalError (hP.setD (hP.setA h _) _) _

theorem convertReturn {x : Access Bool} (hx : x.All P) : NextAll P (convertReturn x) :=
  hP.complete hx fun _ _ h => ite_keeps (hP.skip h) (hP.decimalError h _)

theorem readFields (h : P s) (n1 n2 : Nat) : (s.readFields n1 n2).All P :=
  (hP.readBytes h _ _ _).bind fun _ _ h => (hP.readBytes h _ _ _).bind fun _ _ h => h

theorem writeAscii (h : P s) (d1 d2 : Word) (neg : Bool) (mag : Nat) : (s.writeAscii d1 d2 neg mag).All P := by
  unfold State.writeAscii
  split
  · exact h
  · exact hP.writeBytes h _ _ _

theorem execPack (h : P s) : NextAll P (execPack s) := by
  refine hP.withCx h (hP.complete (hP.readFields h _ _) fun _ _ h => ?_)
  split
  · exact hP.illegalCode h _
  · exact hP.convertReturn ((hP.writePacked h _ _ _ _).bind fun _ _ h => h)

theorem execUpack (h : P s) : NextAll P (execUpack s) := by
  refine hP.withCx h (hP.complete (hP.readFields h _ _) fun _ _ h => ?_)
  dsimp only
  split
  · exact hP.illegalCode h _
  · exact hP.convertReturn ((hP.writeAscii h _ _ _ _).bind fun _ _ h => h)

theorem execShde (h : P s) : NextAll P (execShde s) := by
  refine hP.withCx h (hP.decimalReturn ((hP.readBoth h).bind fun _ _ h => ?_))
  dsimp only
  split
  · exact hP.arbitraryField h _ _
  · exact (hP.writePacked h _ _ _ _).bind fun _ _ h => h

/-! ### Floating point instructions -/

theorem setFa48 (h : P s) (v : BitVec 48) : P (s.setFa48 v) := hP.setD (hP.setA (hP.setT h _) _) _
theorem setFa32 (h : P s) (v : BitVec 32) : P (s.setFa32 v) := hP.setD (hP.setA h _) _

theorem floating48 (h : P s) (op : FpOp) (y : BitVec 48) : P (s.floating48 op y) :=
  have drawn := hP.drawBit (hP.drawBit h)
  hP.setFlag (hP.setFlag (ite_keeps (hP.setFa48 (hP.setFlag drawn _ _) _) (hP.setFa48 drawn _)) _ _) _ _

theorem floating32 (h : P s) (op : FpOp) (y : BitVec 32) : P (s.floating32 op y) :=
  have drawn := hP.drawBit (hP.drawBit h)
  hP.setFlag (hP.setFlag (ite_keeps (hP.setFa32 (hP.setFlag drawn _ _) _) (hP.setFa32 drawn _)) _ _) _ _

theorem floatingOp (h : P s) (op : FpOp) (m : MemRef) : NextAll P (floatingOp op m s) :=
  NextAll.ite
    (hP.complete ((hP.effLoc h m).bind fun _ _ h => hP.readDouble h _ _ _) fun _ _ h =>
      hP.advance (hP.floating32 h _ _))
    (hP.complete ((hP.effLoc h m).bind fun _ _ h => hP.readTriple h _ _ _) fun _ _ h =>
      hP.advance (hP.floating48 h _ _))

theorem execLdf (h : P s) (m : MemRef) : NextAll P (execLdf m s) :=
  hP.complete ((hP.effLoc h m).bind fun _ _ h => hP.readTriple h _ _ _) fun _ _ h => hP.advance (hP.setFa48 h _)

theorem execStf (h : P s) (m : MemRef) : NextAll P (execStf m s) :=
  hP.complete ((hP.effLoc h m).bind fun _ _ h => hP.writeTriple h _ _ _ _ _) fun _ _ h => hP.advance h

theorem execNlz (h : P s) (sc : BitVec 8) : NextAll P (execNlz sc s) :=
  NextAll.ite (hP.advance (hP.setFa32 h _)) (hP.advance (hP.setFa48 h _))

theorem setInteger (h : P s) (neg : Bool) (q : Nat) : P (s.setInteger neg q) :=
  ite_keeps (hP.setA (hP.setFlag (hP.drawWord h) _ _) _) (hP.setA h _)

theorem execDnz (h : P s) (sc : BitVec 8) : NextAll P (execDnz sc s) :=
  NextAll.ite (hP.advance (hP.setD (hP.setInteger h _ _) _)) (hP.advance (hP.setT (hP.setD (hP.setInteger h _ _) _) _))

end Sys2Proof.Machine.ClosedUnderOps
end

section
/-! The instruction families with input and output, internal registers, physical memory, stack and status. -/

namespace Sys2Proof.Machine.ClosedUnderOps

variable {P : State → Prop} (hP : ClosedUnderOps P) {s : State}
include hP

/-! ### Input and output -/

theorem consoleWrite (h : P s) (reg : BitVec 3) (v : Word) : P (s.consoleWrite reg v) := by
  unfold State.consoleWrite
  refine ite_keeps (hP.congr h rfl rfl rfl) (ite_keeps (hP.congr h rfl rfl rfl) (ite_keeps ?_ h))
  exact ite_keeps (hP.congr h rfl rfl rfl) (ite_keeps (hP.congr h rfl rfl rfl) (hP.drawBit h))

theorem ioRead (h : P s) (addr : Word) : P (s.ioRead addr).2 := by
  unfold State.ioRead
  split
  · exact h
  · split
    · exact hP.congr h rfl rfl rfl
    · split
      · exact hP.congr h rfl rfl rfl
      · exact hP.congr h rfl rfl rfl
      · exact hP.drawWord (hP.raise h _)

theorem ioWrite (h : P s) (addr v : Word) : P (s.ioWrite addr v) := by
  unfold State.ioWrite
  refine ite_keeps (hP.congr h rfl rfl rfl) (ite_keeps (hP.consoleWrite h _ _) (ite_keeps (hP.congr h rfl rfl rfl) ?_))
  split
  · exact hP.congr h rfl rfl rfl
  · exact hP.raise h _

theorem ioTransfer (h : P s) (addr : Word) : P (s.ioTransfer addr) :=
  have hy := hP.yieldBus h
  ite_keeps (hP.ioWrite hy _ _) (hP.setA (hP.ioRead hy _) _)

theorem identSearch (h : P s) {level : Nat} {code : BitVec 9} {t : State} (e : s.identSearch level = some (code, t)) :
    P t := by
  unfold State.identSearch at e
  split at e
  · cases e; exact hP.congr h rfl rfl rfl
  · split at e
    · cases e; exact hP.congr h rfl rfl rfl
    · split at e
      · cases e; exact hP.congr h rfl rfl rfl
      · split at e
        · cases e; exact hP.congr h rfl rfl rfl
        · cases e

theorem ident (h : P s) (level : Nat) : NextAll P (ident level s) := by
  refine hP.privileged h ?_
  dsimp only
  split
  · rename_i e
    exact hP.advance (hP.setA (hP.identSearch (hP.yieldBus h) e) _)
  · exact hP.advance (hP.raise (hP.yieldBus h) _)

theorem readBlock (h : P s) (src : MemSource) (n : Nat) (pa : PhysAddr) : P (s.readBlock src n pa).2 := by
  induction n generalizing s pa with
  | zero => exact h
  | succ n ih => exact ih (hP.physRead (hP.yieldBus h) _ _) _

theorem execLwcs (h : P s) : NextAll P (execLwcs s) := by
  have hr := hP.readBlock h .data 1024 0o36000
  unfold Machine.execLwcs
  cases e : s.readBlock .data 1024 0o36000 with
  | mk ws t =>
    rw [e] at hr
    exact hP.privileged h (NextAll.ite (hP.advance (hP.congr hr rfl rfl rfl)) (hP.advance h))

theorem customer (h : P s) (entry : Word) : NextAll P (customer entry s) := NextAll.ite trivial (hP.illegal h)

/-! ### Internal registers -/

theorem traRead (h : P s) (n : BitVec 4) : P (s.traRead n).2 := by
  unfold State.traRead
  split
  · split
    · exact hP.congr h rfl rfl rfl
    · exact h
  · exact h
  · exact h
  · split
    · exact hP.congr h rfl rfl rfl
    · exact h
  all_goals exact hP.congr h rfl rfl rfl

theorem trrWrite (h : P s) {n : BitVec 4} {v : Word} {t : State} (e : s.trrWrite n v = some t) : P t := by
  unfold State.trrWrite at e
  split at e
  · split at e
    · cases e; exact h
    · split at e
      · cases e; exact hP.congr h rfl rfl rfl
      · cases e
  · cases e; exact hP.setSts h _
  · cases e; exact hP.congr h rfl rfl rfl
  · split at e
    · cases e; exact hP.congr h rfl rfl rfl
    · cases e; exact h
  · cases e; exact hP.enable h _
  · cases e; exact hP.congr h rfl rfl rfl
  · cases e; exact hP.congr h rfl rfl rfl
  · cases e; exact hP.cacheClear h
  · cases e; exact hP.congr h rfl rfl rfl
  · cases e; exact hP.congr h rfl rfl rfl
  · cases e; exact hP.congr (hP.yieldBus h) rfl rfl rfl
  · cases e; exact h

theorem execTra (h : P s) (n : BitVec 4) : NextAll P (execTra n s) :=
  hP.privileged h (hP.advance (hP.setA (hP.traRead h n) _))

theorem execTrr (h : P s) (n : BitVec 4) : NextAll P (execTrr n s) := by
  refine hP.privileged h ?_
  split
  · rename_i e
    exact hP.advance (hP.trrWrite h e)
  · trivial

theorem execMcl (h : P s) (n : BitVec 4) : NextAll P (execMcl n s) := by
  refine hP.privileged h (hP.advance ?_)
  split
  · exact hP.setSts h _
  · exact hP.congr h rfl rfl rfl
  · exact hP.congr h rfl rfl rfl
  · exact h

theorem execMst (h : P s) (n : BitVec 4) : NextAll P (execMst n s) := by
  refine hP.privileged h (hP.advance ?_)
  split
  · exact hP.setSts h _
  · exact hP.congr h rfl rfl rfl
  · exact hP.congr h rfl rfl rfl
  · exact h

theorem storeWords (h : P s) (ws : List Word) (va : Word) : (s.storeWords va ws).All P := by
  induction ws generalizing s va with
  | nil => exact h
  | cons w r ih => exact (hP.memWrite h _ _ _).bind fun _ _ h => ih h _

theorem loadWords (h : P s) (n : Nat) (va : Word) : (s.loadWords n va).All P := by
  induction n generalizing s va with
  | zero => exact h
  | succ n ih => exact (hP.memRead h _ _ _).bind fun _ _ h => (ih h _).bind fun _ _ h => h

theorem execIrr (h : P s) (level : BitVec 4) (dr : RField) : NextAll P (execIrr level dr s) :=
  hP.privileged h (hP.advance (hP.setA h _))

theorem execSrb (h : P s) (level : BitVec 4) : NextAll P (execSrb level s) :=
  hP.privileged h (hP.complete (hP.storeWords h _ _) fun _ _ h => hP.advance h)

/-! ### Memory reference and physical memory -/

theorem storeWord (h : P s) (m : MemRef) (w : Word) : NextAll P (storeWord m w s) :=
  hP.complete (hP.writeOperand h m w) fun _ _ h => hP.advance h

theorem withOperand (h : P s) (m : MemRef) {f : Word → State → State} (hf : ∀ w {s : State}, P s → P (f w s)) :
    NextAll P (withOperand m s f) :=
  hP.complete (hP.readOperand h m) fun w _ h => hP.advance (hf w h)

theorem execStd (h : P s) (m : MemRef) : NextAll P (execStd m s) :=
  hP.complete ((hP.effLoc h m).bind fun _ _ h => hP.writeDouble h _ _ _ _) fun _ _ h => hP.advance h

theorem execLdd (h : P s) (m : MemRef) : NextAll P (execLdd m s) :=
  hP.complete ((hP.effLoc h m).bind fun _ _ h => hP.readDouble h _ _ _) fun _ _ h => hP.advance (hP.setD (hP.setA h _) _)

theorem execMin (h : P s) (m : MemRef) : NextAll P (execMin m s) :=
  hP.complete
    ((hP.effLoc h m).bind fun _ _ h => (hP.memRead h _ _ _).bind fun _ _ h => (hP.memWrite h _ _ _).bind fun _ _ h => h)
    fun _ _ h => hP.skipIf h _

theorem xRead (h : P s) (pa : PhysAddr) : P (s.xRead pa).2 := by
  unfold State.xRead
  split
  · exact h
  · exact hP.busRead h _ _

theorem xWrite (h : P s) (pa : PhysAddr) (w : Word) : P (s.xWrite pa w) :=
  ite_keeps (hP.shadowWrite h _ _) (hP.busWrite h _ _ _)

theorem execExam (h : P s) : NextAll P (execExam s) :=
  hP.privileged h (hP.advance (hP.setT (hP.busRead h _ _) _))

theorem execDepo (h : P s) : NextAll P (execDepo s) := hP.privileged h (hP.advance (hP.busWrite h _ _ _))

theorem execLdatx (h : P s) (delta : BitVec 3) : NextAll P (execLdatx delta s) :=
  hP.privileged h (hP.advance (hP.setA (hP.xRead h _) _))

theorem execLdxtx (h : P s) (delta : BitVec 3) : NextAll P (execLdxtx delta s) :=
  hP.privileged h (hP.advance (hP.setX (hP.xRead h _) _))

theorem execLddtx (h : P s) (delta : BitVec 3) : NextAll P (execLddtx delta s) :=
  hP.privileged h (hP.advance (hP.setD (hP.setA (hP.xRead (hP.xRead h _) _) _) _))

theorem execLdbtx (h : P s) (delta : BitVec 3) : NextAll P (execLdbtx delta s) :=
  hP.privileged h (NextAll.ite trivial (hP.advance (hP.setB (hP.xRead h _) _)))

theorem execStatx (h : P s) (delta : BitVec 3) : NextAll P (execStatx delta s) :=
  hP.privileged h (hP.advance (hP.xWrite h _ _))

theorem execStztx (h : P s) (delta : BitVec 3) : NextAll P (execStztx delta s) :=
  hP.privileged h (hP.advance (hP.xWrite h _ _))

theorem execStdtx (h : P s) (delta : BitVec 3) : NextAll P (execStdtx delta s) :=
  hP.privileged h (hP.advance (hP.xWrite (hP.xWrite h _ _) _ _))

/-! ### Register operations and jumps -/

theorem swapSame (h : P s) (r : RField) (v d : Word) : NextAll P (swapSame s r v d) :=
  NextAll.ite (hP.endReg h _ _) (hP.endReg (hP.drawBit h) _ _)

theorem execSwap (h : P s) (cm1 cld : Bool) (sr dr : RField) : NextAll P (execSwap cm1 cld sr dr s) := by
  have hs (v d : Word) : P ((s.putReg dr v).putReg sr d) := hP.putReg (hP.putReg h _ _) _ _
  exact NextAll.ite (hP.advance h) (NextAll.ite (hP.swapSame h _ _ _) (ite_keeps (hs _ _) (hP.advance (hs _ _))))

theorem ropLogic (h : P s) (f : Word → Word → Word) (cm1 cld : Bool) (sr dr : RField) :
    NextAll P (ropLogic f cm1 cld sr dr s) := hP.endReg h _ _

theorem ropAdd (h : P s) (adc ad1 cm1 cld : Bool) (sr dr : RField) : NextAll P (ropAdd adc ad1 cm1 cld sr dr s) :=
  NextAll.ite (hP.advance (hP.setFlag h _ _)) (hP.endReg (hP.setAddFlags h _) _ _)

theorem setOpenFlags (h : P s) (f : BitVec 3) : P (s.setOpenFlags f) :=
  hP.setFlag (hP.setFlag (hP.setFlag h _ _) _ _) _ _

theorem setAD (h : P s) (v : BitVec 32) : P (s.setAD v) := hP.setD (hP.setA h _) _

theorem execRmpy (h : P s) (sr dr : RField) : NextAll P (execRmpy sr dr s) :=
  hP.advance (hP.setOpenFlags (hP.setAD h _) _)

theorem execRdiv (h : P s) (sr : RField) (ignored : BitVec 3) : NextAll P (execRdiv sr ignored s) :=
  hP.advance (hP.setOpenFlags (ite_keeps (hP.setAD (hP.setFlag h _ _) _) (hP.setD (hP.setA h _) _)) _)

theorem execJmp (h : P s) (m : MemRef) : NextAll P (execJmp m s) :=
  hP.complete (hP.effLoc h m) fun _ _ h => hP.setP h _

theorem execJpl (h : P s) (m : MemRef) : NextAll P (execJpl m s) :=
  hP.complete (hP.effLoc h m) fun _ _ h => hP.setP (hP.setL h _) _

theorem jumpIf (h : P s) (c : Bool) (disp : BitVec 8) : P (s.jumpIf c disp) := ite_keeps (hP.setP h _) (hP.advance h)

/-! ### Stack instructions -/

theorem enterFrame (h : P s) (newB : Word) (f : Frame) (normal : Word) : NextAll P (enterFrame newB f normal s) :=
  hP.complete ((hP.writeTriple h _ _ _ _ _).bind fun _ _ h => hP.memWrite h _ _ _) fun _ _ h => hP.setP (hP.setB h _) _

theorem execInit (h : P s) : NextAll P (execInit s) :=
  hP.complete ((hP.readTriple h _ _ _).bind fun _ _ h => (hP.memRead h _ _ _).bind fun _ _ h => h) fun _ _ h =>
    NextAll.ite (hP.setP h _) (hP.enterFrame h _ _ _)

theorem execEntr (h : P s) : NextAll P (execEntr s) :=
  hP.complete ((hP.memRead h _ _ _).bind fun _ _ h => (hP.readDouble h _ _ _).bind fun _ _ h => h) fun _ _ h =>
    NextAll.ite (hP.setP h _) (hP.enterFrame h _ _ _)

theorem execLeave (h : P s) : NextAll P (execLeave s) :=
  hP.complete (hP.readDouble h _ _ _) fun _ _ h => hP.setB (hP.setP h _) _

theorem execEleav (h : P s) : NextAll P (execEleav s) :=
  hP.complete
    ((hP.readDouble h _ _ _).bind fun _ _ h => (hP.memWrite h _ _ _).bind fun _ _ h =>
      (hP.memWrite h _ _ _).bind fun _ _ h => h)
    fun _ _ h => hP.setB (hP.setP h _) _

theorem nameOnly (h : P s) (mnemonic : String) : NextAll P (nameOnly mnemonic s) := NextAll.ite trivial (hP.illegal h)

/-! ### System control -/

/-- An instruction whose effect is on IONI, PONI and SEXI. -/
theorem statusControl (h : P s) {poni sexi : Bool} (hs : s.MayBecome poni sexi) (ioni : Bool) :
    NextAll P (s.privileged (.next { s with ioni := ioni, poni := poni, sexi := sexi }.advance)) :=
  hP.privileged h (hP.advance (hP.status h hs ioni))

theorem execWait (h : P s) (number : BitVec 8) : NextAll P (execWait number s) :=
  have ha := hP.advance h
  hP.privileged h (ite_keeps (hP.congr ha rfl rfl rfl) (ite_keeps ha (hP.congr ha rfl rfl rfl)))

theorem execOpcom (h : P s) : NextAll P (execOpcom s) :=
  hP.privileged h (hP.advance (hP.congr h rfl rfl rfl))

end Sys2Proof.Machine.ClosedUnderOps
end

section
/-! Every instruction keeps what the shared operations keep; IRW, LRB and MON where `P` survives a write into the
register set of any level. -/

namespace Sys2Proof.Machine

/-- Turning paging on sets PONI only with the memory management module (D35). -/
theorem State.mayBecome_pagingOn (s : State) : s.MayBecome (s.poni || s.cfg.hasMms) s.sexi := ⟨by simp, .inl⟩

/-- Entering extended mode sets SEXI only with the memory management module (D35). -/
theorem State.mayBecome_extended (s : State) : s.MayBecome s.poni (s.sexi || s.cfg.hasMms) := ⟨.inl, by simp⟩

theorem State.mayBecome_pagingOff (s : State) : s.MayBecome false s.sexi := ⟨nofun, .inl⟩

theorem State.mayBecome_normal (s : State) : s.MayBecome s.poni false := ⟨.inl, nofun⟩

variable {P : State → Prop} {s : State}

/-- One arm for each instruction, as in `execInner`. -/
theorem execInner_keeps (hP : ClosedUnderOps P) (i : Instr)
    (hreg : reachesOtherLevels i = true → ∀ {s : State}, P s → ∀ l r, P (s.setReg l r)) (h : P s) :
    NextAll P (execInner i s) := by
  cases i with
  | stz m => exact hP.storeWord h m _
  | sta m => exact hP.storeWord h m _
  | stt m => exact hP.storeWord h m _
  | stx m => exact hP.storeWord h m _
  | std m => exact hP.execStd h m
  | ldd m => exact hP.execLdd h m
  | stf m => exact hP.execStf h m
  | ldf m => exact hP.execLdf h m
  | min m => exact hP.execMin h m
  | lda m => exact hP.withOperand h m fun _ _ h => hP.setA h _
  | ldt m => exact hP.withOperand h m fun _ _ h => hP.setT h _
  | ldx m => exact hP.withOperand h m fun _ _ h => hP.setX h _
  | add m => exact hP.withOperand h m fun _ _ h => hP.setAddFlags (hP.setA h _) _
  | sub m => exact hP.withOperand h m fun _ _ h => hP.setAddFlags (hP.setA h _) _
  | and m => exact hP.withOperand h m fun _ _ h => hP.setA h _
  | ora m => exact hP.withOperand h m fun _ _ h => hP.setA h _
  | fad m => exact hP.floatingOp h _ m
  | fsb m => exact hP.floatingOp h _ m
  | fmu m => exact hP.floatingOp h _ m
  | fdv m => exact hP.floatingOp h _ m
  | mpy m => exact hP.withOperand h m fun _ _ h => hP.setOverflow (hP.setA h _) _
  | jmp m => exact hP.execJmp h m
  | jpl m => exact hP.execJpl h m
  | jap disp => exact hP.jumpIf h _ disp
  | jan disp => exact hP.jumpIf h _ disp
  | jaz disp => exact hP.jumpIf h _ disp
  | jaf disp => exact hP.jumpIf h _ disp
  | jpc disp => exact hP.jumpIf (hP.setX h _) _ disp
  | jnc disp => exact hP.jumpIf (hP.setX h _) _ disp
  | jxz disp => exact hP.jumpIf h _ disp
  | jxn disp => exact hP.jumpIf h _ disp
  | skpEql => exact hP.skipIf h _
  | skpGeq => exact hP.skipIf h _
  | skpGre => exact hP.skipIf h _
  | skpMgre => exact hP.skipIf h _
  | skpUeq => exact hP.skipIf h _
  | skpLss => exact hP.skipIf h _
  | skpLst => exact hP.skipIf h _
  | skpMlst => exact hP.skipIf h _
  | addd => exact hP.withCx h (hP.decimalAdd h false)
  | subd => exact hP.withCx h (hP.decimalAdd h true)
  | comd => exact hP.execComd h
  | tset => exact hP.nameOnly h _
  | pack => exact hP.execPack h
  | upack => exact hP.execUpack h
  | shde => exact hP.execShde h
  | rdus => exact hP.nameOnly h _
  | bfill => exact hP.execBfill h
  | movb => exact hP.execMovb h
  | movbf => exact hP.execMovbf h
  | init => exact hP.execInit h
  | entr => exact hP.execEntr h
  | leave => exact hP.execLeave h
  | eleav => exact hP.execEleav h
  | setpt => exact hP.nameOnly h _
  | clept => exact hP.nameOnly h _
  | clnreent => exact hP.nameOnly h _
  | chreentpages => exact hP.nameOnly h _
  | clepu => exact hP.nameOnly h _
  | lbyt => exact hP.execLbyt h
  | sbyt => exact hP.execSbyt h
  | mix3 => exact hP.advance (hP.setX h _)
  | lwcs => exact hP.execLwcs h
  | identPl10 => exact hP.ident h 10
  | identPl11 => exact hP.ident h 11
  | identPl12 => exact hP.ident h 12
  | identPl13 => exact hP.ident h 13
  | cust1 _ => exact hP.customer h _
  | cust2 _ => exact hP.customer h _
  | cust3 _ => exact hP.customer h _
  | cust4 _ => exact hP.customer h _
  | cust5 _ => exact hP.customer h _
  | cust6 _ => exact hP.customer h _
  | cust7 _ => exact hP.customer h _
  | cust10 _ => exact hP.customer h _
  | cust11 _ => exact hP.customer h _
  | cust12 _ => exact hP.customer h _
  | cust13 _ => exact hP.customer h _
  | exr _ => exact hP.advance (hP.setFlag h _ _)
  | rmpy sr dr => exact hP.execRmpy h sr dr
  | rdiv sr ignored => exact hP.execRdiv h sr ignored
  | movew _ => exact hP.nameOnly h _
  | ldatx delta => exact hP.execLdatx h delta
  | ldxtx delta => exact hP.execLdxtx h delta
  | lddtx delta => exact hP.execLddtx h delta
  | ldbtx delta => exact hP.execLdbtx h delta
  | statx delta => exact hP.execStatx h delta
  | stztx delta => exact hP.execStztx h delta
  | stdtx delta => exact hP.execStdtx h delta
  | swap cm1 cld sr dr => exact hP.execSwap h cm1 cld sr dr
  | rand cm1 cld sr dr => exact hP.ropLogic h _ cm1 cld sr dr
  | rexo cm1 cld sr dr => exact hP.ropLogic h _ cm1 cld sr dr
  | rora cm1 cld sr dr => exact hP.ropLogic h _ cm1 cld sr dr
  | radd _ _ _ _ _ _ => exact hP.ropAdd h _ _ _ _ _ _
  | rsub _ _ => exact hP.ropAdd h _ _ _ _ _ _
  | copy _ _ => exact hP.ropAdd h _ _ _ _ _ _
  | copyCm2 _ _ => exact hP.ropAdd h _ _ _ _ _ _
  | exit => exact hP.ropAdd h false false false true .l .p
  | rclr _ => exact hP.ropAdd h _ _ _ _ _ _
  | rinc _ => exact hP.ropAdd h _ _ _ _ _ _
  | rdcr _ => exact hP.ropAdd h _ _ _ _ _ _
  | tra n => exact hP.execTra h n
  | trr n => exact hP.execTrr h n
  | mcl n => exact hP.execMcl h n
  | mst n => exact hP.execMst h n
  | opcom => exact hP.execOpcom h
  | iof => exact hP.statusControl h ⟨.inl, .inl⟩ _
  | ion => exact hP.statusControl h ⟨.inl, .inl⟩ _
  | pof => exact hP.statusControl h s.mayBecome_pagingOff _
  | piof => exact hP.statusControl h s.mayBecome_pagingOff _
  | sex => exact hP.statusControl h s.mayBecome_extended _
  | rex => exact hP.statusControl h s.mayBecome_normal _
  | pon => exact hP.statusControl h s.mayBecome_pagingOn _
  | pion => exact hP.statusControl h s.mayBecome_pagingOn _
  | ioxt => exact hP.privileged h (hP.advance (hP.ioTransfer h _))
  | exam => exact hP.execExam h
  | depo => exact hP.execDepo h
  | wait number => exact hP.execWait h number
  | nlz sc => exact hP.execNlz h sc
  | dnz sc => exact hP.execDnz h sc
  | srb level => exact hP.execSrb h level
  | lrb _ => exact hP.privileged h (hP.complete (hP.loadWords h _ _) fun _ _ h => hP.advance (hreg rfl h _ _))
  | mon _ => exact hP.advance (hP.raise (hreg rfl h _ _) _)
  | irw _ _ => exact hP.privileged h (hP.advance (ite_keeps h (hreg rfl h _ _)))
  | irr level dr => exact hP.execIrr h level dr
  | sht _ _ _ => exact hP.advance (hP.setFlag (hP.setT h _) _ _)
  | shd _ _ _ => exact hP.advance (hP.setFlag (hP.setD h _) _ _)
  | sha _ _ _ => exact hP.advance (hP.setFlag (hP.setA h _) _ _)
  | sad _ _ _ => exact hP.advance (hP.setFlag (hP.setD (hP.setA h _) _) _ _)
  | iox _ => exact hP.privileged h (hP.advance (hP.ioTransfer h _))
  | sab _ => exact hP.advance (hP.setB h _)
  | saa _ => exact hP.advance (hP.setA h _)
  | sat _ => exact hP.advance (hP.setT h _)
  | sax _ => exact hP.advance (hP.setX h _)
  | aab arg => exact hP.addArgument h _ arg
  | aaa arg => exact hP.addArgument h _ arg
  | aat arg => exact hP.addArgument h _ arg
  | aax arg => exact hP.addArgument h _ arg
  | bsetZro bn dr => exact hP.bitSet h _ bn dr
  | bsetOne bn dr => exact hP.bitSet h _ bn dr
  | bsetBcm bn dr => exact hP.bitSet h _ bn dr
  | bsetBac bn dr => exact hP.bitSet h _ bn dr
  | bskpZro _ _ => exact hP.skipIf h _
  | bskpOne _ _ => exact hP.skipIf h _
  | bskpBcm _ _ => exact hP.skipIf h _
  | bskpBac _ _ => exact hP.skipIf h _
  | bstc bn dr => exact hP.bitStore h _ _ bn dr
  | bsta bn dr => exact hP.bitStore h _ _ bn dr
  | bldc _ _ => exact hP.bitLoad h _
  | blda _ _ => exact hP.bitLoad h _
  | banc _ _ => exact hP.bitLoad h _
  | band _ _ => exact hP.bitLoad h _
  | borc _ _ => exact hP.bitLoad h _
  | bora _ _ => exact hP.bitLoad h _

/-- Directly and by way of EXR an instruction has the same meaning, but for EXR itself. -/
theorem exec_eq_execInner {i : Instr} (hi : ∀ sr, i ≠ .exr sr) (s : State) : exec i s = execInner i s := by
  cases i with
  | exr sr => exact absurd rfl (hi sr)
  | _ => rfl

theorem executeWord_keeps (hP : ClosedUnderOps P) (hreg : ∀ {s : State}, P s → ∀ l r, P (s.setReg l r)) (h : P s)
    (w : Word) : NextAll P (executeWord w s) := by
  unfold executeWord
  split
  · exact execInner_keeps hP _ (fun _ => hreg) h
  · exact hP.illegal h

/-- Every instruction keeps a `P` that survives a write into the register set of any level. -/
theorem exec_keeps (hP : ClosedUnderOps P) (hreg : ∀ {s : State}, P s → ∀ l r, P (s.setReg l r)) (i : Instr)
    (h : P s) : NextAll P (exec i s) := by
  by_cases hi : ∃ sr, i = .exr sr
  · obtain ⟨sr, rfl⟩ := hi
    exact executeWord_keeps hP hreg h (s.regValue sr)
  · rw [exec_eq_execInner (not_exists.1 hi)]
    exact execInner_keeps hP i (fun _ => hreg) h

/-- An instruction that reaches no other level keeps every `P`. -/
theorem exec_keeps_of_ownLevel (hP : ClosedUnderOps P) {i : Instr} (hi : reachesOtherLevels i = false) (h : P s) :
    NextAll P (exec i s) := by
  have hexr (sr : RField) : i ≠ .exr sr := by rintro rfl; cases hi
  rw [exec_eq_execInner hexr]
  exact execInner_keeps hP i (fun hreach => absurd hreach (by simp [hi])) h

end Sys2Proof.Machine
end

section
/-! The register set of a level that is not the current one. -/

namespace Sys2Proof.Machine

/-- `p` is the current level, and the register set of level `l` is `r`. -/
def State.LevelHolds (p l : BitVec 4) (r : RegSet) (s : State) : Prop := s.pil = p ∧ s.reg l = r

/-- An operation that leaves the register file and the level leaves the register set of a level. -/
theorem State.LevelHolds.of_eq {p l : BitVec 4} {r : RegSet} {s t : State} (h : s.LevelHolds p l r)
    (hregs : t.regs = s.regs) (hpil : t.pil = s.pil) : t.LevelHolds p l r := by
  unfold State.LevelHolds State.reg at *
  rw [hregs, hpil]
  exact h

/-- The shared operations write registers of the current level only (`spec/10_state.md` R32). -/
theorem closedUnderOps_levelHolds {p l : BitVec 4} (r : RegSet) (hl : l ≠ p) : ClosedUnderOps (State.LevelHolds p l r) where
  congr h _ hregs hpil := h.of_eq hregs hpil
  setCur {s} h q := by
    obtain ⟨hpil, hreg⟩ := h
    exact ⟨hpil, (s.reg_setCur_ne q (hpil ▸ hl)).trans hreg⟩
  raise h _ := h.of_eq rfl rfl
  refuse h _ _ _ := h.of_eq (by rw [State.refuseAccess_frame]) (by rw [State.refuseAccess_frame])
  yieldBus h := h.of_eq (by rw [State.yieldBus_frame]) (by rw [State.yieldBus_frame])
  physRead h _ _ := h.of_eq (by rw [State.physRead_frame]) (by rw [State.physRead_frame])
  busRead h _ _ := h.of_eq (by rw [State.busRead_frame]) (by rw [State.busRead_frame])
  busWrite h _ _ _ := h.of_eq (by rw [State.busWrite_frame]) (by rw [State.busWrite_frame])
  cacheClear h := h.of_eq rfl rfl
  enable h _ := h.of_eq rfl rfl
  status h _ _ _ _ := h.of_eq rfl rfl

/-- Settles O19: by the arms of `execInner`, of which only those of IRW, LRB and MON write a register set by its level. -/
theorem otherLevelsUntouched : Obligations.OtherLevelsUntouched := by
  unfold Obligations.OtherLevelsUntouched
  intro i s t l hi hl hexec
  have hkeeps : NextAll (State.LevelHolds s.pil l (s.reg l)) (exec i s) :=
    exec_keeps_of_ownLevel (closedUnderOps_levelHolds _ hl) hi ⟨rfl, rfl⟩
  obtain ⟨_, hreg⟩ := hkeeps.of_eq_next hexec
  exact hreg

end Sys2Proof.Machine
end

section
/-! The invariant is kept by every instruction and by every unit of the instruction cycle. -/

namespace Sys2Proof.Machine

theorem State.Inv.of_invFields {s t : State} (h : s.Inv) (e : t.invFields = s.invFields) : t.Inv := by
  simp only [State.invFields, Prod.mk.injEq] at e
  obtain ⟨hmem, hecc, hcache, hiie, hiid, hpsr, hponi, hsexi, hcfg⟩ := e
  exact h.of_eq hmem hecc hcache hiie hiid hpsr hponi hsexi hcfg

theorem State.Inv.refuseAccess {s : State} (h : s.Inv) (kind : Kind) (r : PageRefusal) (e : BitVec 8) :
    (s.refuseAccess kind r e).Inv := by
  unfold State.refuseAccess
  refine State.Inv.raise ?_ _
  split
  · exact h
  · exact ⟨h.mem, h.ecc, h.cache, h.iie, h.iid, pagingStatus_unassigned .., h.poni, h.sexi⟩

/-- Bits that a mask leaves out stay 0 under it. -/
theorem unassigned_of_masked (v : Word) : (v &&& 0o3776) &&& 0o174001 = 0 := by
  rw [BitVec.and_assoc]; exact BitVec.and_zero

/-- The shared operations keep the invariant. -/
theorem inv_closedUnderOps : ClosedUnderOps State.Inv where
  congr h e _ _ := h.of_invFields e
  setCur h r := h.setCur r
  raise h x := h.raise x
  refuse h kind r e := h.refuseAccess kind r e
  yieldBus h := h.yieldBus
  physRead h src pa := h.physRead src pa
  busRead h src pa := h.busRead src pa
  busWrite h src pa w := h.busWrite src pa w
  cacheClear h := ⟨h.mem, h.ecc, rfl, h.iie, h.iid, h.psr, h.poni, h.sexi⟩
  enable h v := ⟨h.mem, h.ecc, h.cache, unassigned_of_masked v, h.iid, h.psr, h.poni, h.sexi⟩
  status h _ _ hs _ :=
    ⟨h.mem, h.ecc, h.cache, h.iie, h.iid, h.psr, fun e => (hs.poni e).elim h.poni id,
      fun e => (hs.sexi e).elim h.sexi id⟩

theorem State.Inv.setReg {s : State} (h : s.Inv) (l : BitVec 4) (r : RegSet) : (s.setReg l r).Inv := h.of_invFields rfl

theorem State.Inv.setP {s : State} (h : s.Inv) (v : Word) : (s.setP v).Inv := h.setCur _

/-! ### Instructions -/

theorem State.Inv.exec {s : State} (h : s.Inv) (i : Instr) : NextAll State.Inv (exec i s) :=
  exec_keeps inv_closedUnderOps (fun h => h.setReg) i h

theorem State.Inv.executeFetched {s : State} (h : s.Inv) (w : Word) : NextAll State.Inv (s.executeFetched w) := by
  unfold State.executeFetched
  split
  · exact h.exec _
  · exact inv_closedUnderOps.illegal h

/-- Two results in sequence. -/
theorem NextAll.andThen {P Q : State → Prop} {r : Result} {f : State → Result} (hr : NextAll P r)
    (hf : ∀ s, P s → NextAll Q (f s)) : NextAll Q (andThen r f) := by
  cases r with
  | next s => exact hf s hr
  | fault e => trivial
  | refused e => trivial

theorem State.Inv.atBoundary {s : State} (h : s.Inv) : s.atBoundary.Inv := h.of_invFields rfl

theorem State.Inv.instruction {s : State} (h : s.Inv) : NextAll State.Inv s.instruction := by
  have hfetch := inv_closedUnderOps.memRead h .fetch .prel s.p
  unfold State.instruction
  split
  · rename_i e
    rw [e] at hfetch
    exact State.Inv.atBoundary hfetch
  · rename_i e
    rw [e] at hfetch
    exact (State.Inv.executeFetched (State.Inv.prefetch hfetch) _).andThen fun _ h => h.atBoundary

theorem State.Inv.manualInstruction {s : State} (h : s.Inv) (w : Word) : NextAll State.Inv (s.manualInstruction w) :=
  (h.executeFetched w).andThen fun _ h => (h.drawWord.setP _).atBoundary

/-! ### The test between instructions -/

/-- Clearing a bit sets none. -/
theorem and_setBit_false {v m : Word} (n : Nat) (h : v &&& m = 0) : setBit v n false &&& m = 0 := by
  rw [setBit, if_neg Bool.false_ne_true, BitVec.and_assoc, BitVec.and_comm (~~~ _), ← BitVec.and_assoc, h]
  exact BitVec.zero_and

theorem State.Inv.latchInternal {s : State} (h : s.Inv) : s.latchInternal.Inv := by
  unfold State.latchInternal
  dsimp only
  split
  · exact h
  · exact ⟨h.mem, h.ecc, h.cache, h.iie, and_setBit_false _ h.iid, h.psr, h.poni, h.sexi⟩

theorem State.Inv.test {s : State} (h : s.Inv) : s.test.Inv := by
  unfold State.test
  dsimp only
  split
  · exact h.latchInternal.of_invFields rfl
  · exact h.latchInternal.of_invFields rfl

theorem State.Inv.stopRun {s : State} (h : s.Inv) : s.stopRun.Inv := ite_keeps h (h.of_invFields rfl)

theorem State.Inv.print {s : State} (h : s.Inv) (cs : List Byte) : (s.print cs).Inv := h.of_invFields rfl

theorem State.Inv.afterTest {s : State} (h : s.Inv) : NextAll State.Inv s.afterTest := by
  unfold State.afterTest
  split
  · exact NextAll.ite (h.stopRun.print _).atBoundary h.instruction
  · exact h.manualInstruction _
  · exact h.instruction

theorem State.Inv.unit {s : State} (h : s.Inv) : NextAll State.Inv s.unit :=
  NextAll.ite h.afterTest (NextAll.ite (h.latchInternal.of_invFields rfl) h.latchInternal.afterTest)

theorem State.Inv.countUnit {s : State} (h : s.Inv) : s.countUnit.Inv := by
  unfold State.countUnit
  split
  · exact h.of_invFields rfl
  · split
    · exact ite_keeps h.stopRun (h.of_invFields rfl)
    · exact h

end Sys2Proof.Machine
end

section
/-! The operator's communication keeps the invariant: its line, its examines and deposits, its commands. -/

namespace Sys2Proof.Machine

variable {s : State}

/-! ### Master clear, start and stop -/

theorem State.Inv.masterClear (h : s.Inv) : s.masterClear.Inv :=
  ⟨h.mem, h.ecc, rfl, BitVec.zero_and, BitVec.zero_and, h.psr, nofun, nofun⟩

theorem State.Inv.continueRun (h : s.Inv) : s.continueRun.Inv := h.of_invFields rfl

theorem State.Inv.startSemi (h : s.Inv) (m : SemiRun) : (s.startSemi m).Inv := h.of_invFields rfl

theorem State.Inv.startLoader (h : s.Inv) (v : Word) : (s.startLoader v).Inv := h.of_invFields rfl

theorem State.Inv.loadFromAld (h : s.Inv) : s.loadFromAld.Inv := ite_keeps h (h.startLoader _)

/-! ### The line and the display -/

theorem State.Inv.withMopc (h : s.Inv) (m : Mopc) : State.Inv { s with mopc := m } := h.of_invFields rfl

theorem State.Inv.clearLine (h : s.Inv) : s.clearLine.Inv := h.of_invFields rfl

theorem State.Inv.endLine (h : s.Inv) : s.endLine.Inv := h.of_invFields rfl

theorem State.Inv.answerQuestion (h : s.Inv) : s.answerQuestion.Inv := (h.print _).endLine

theorem State.Inv.announce (h : s.Inv) (packet : List Byte) : (s.announce packet).Inv := ite_keeps (h.of_invFields rfl) h

theorem State.Inv.select (h : s.Inv) (source : DisplaySource) : (s.select source).Inv := h.of_invFields rfl

theorem State.Inv.traRead (h : s.Inv) (n : BitVec 4) : (s.traRead n).2.Inv := inv_closedUnderOps.traRead h n

theorem State.Inv.readPanelStatus (h : s.Inv) : s.readPanelStatus.Inv := h.of_invFields rfl

theorem State.Inv.sendPacket (h : s.Inv) (packet : List Byte) : (s.sendPacket packet).Inv := h.of_invFields rfl

theorem State.Inv.samplePacket (h : s.Inv) : s.samplePacket.2.Inv := by
  unfold State.samplePacket
  cases s.mopc.source with
  | activity => exact h.drawWord
  | _ => exact h

theorem State.Inv.displayStep (h : s.Inv) : s.displayStep.Inv := by
  have hr := h.readPanelStatus
  unfold State.displayStep
  refine ite_keeps h ?_
  dsimp only
  split
  · exact ite_keeps ((hr.withMopc _).sendPacket _) hr
  · exact ite_keeps (ite_keeps ((hr.samplePacket.withMopc _).sendPacket _) hr) hr

/-! ### Memory -/

theorem State.Inv.mopcExamine (h : s.Inv) (addr : PhysAddr) : (s.mopcExamine addr).Inv := (h.busRead _ _).print _

theorem State.Inv.mopcDeposit (h : s.Inv) (addr : PhysAddr) (w : Word) : (s.mopcDeposit addr w).Inv := h.busWrite _ _ _

theorem State.Inv.examineMemory (h : s.Inv) (addr : PhysAddr) : (s.examineMemory addr).Inv :=
  (((h.withMopc _).select _).announce _).mopcExamine addr

theorem State.Inv.examineNext (h : s.Inv) : s.examineNext.Inv := ((h.withMopc _).print _).mopcExamine _

theorem State.Inv.dumpOne (h : s.Inv) (d : Dump) : (s.dumpOne d).Inv :=
  have hx := h.mopcExamine (s.mopc.pseg ++ d.next)
  ite_keeps (hx.of_invFields rfl) (hx.of_invFields rfl)

theorem State.Inv.testWords (h : s.Inv) (n : Nat) (pa : PhysAddr) : (s.testWords n pa).2.Inv := by
  induction n generalizing s pa with
  | zero => exact h
  | succ n ih =>
    unfold State.testWords
    split
    · exact ih (h.drawWord.busWrite _ _ _) _
    · exact h.physRead _ _

theorem State.Inv.memoryTest (h : s.Inv) : s.memoryTest.Inv :=
  have hw := h.testWords (s.x.toNat + 1 - s.b.toNat) (s.mopc.num.extractLsb' 0 8 ++ s.b)
  (hw.drawWord.drawWord.drawWord.drawWord.setCur _).print _

/-! ### Registers -/

theorem State.Inv.dumpLevels (h : s.Inv) (n : Nat) (level : BitVec 4) : (s.dumpLevels n level).Inv := by
  induction n generalizing s level with
  | zero => exact h
  | succ n ih => exact ih (h.print _) _

theorem State.Inv.dumpScratch (h : s.Inv) (n : Nat) : (s.dumpScratch n).Inv := by
  induction n generalizing s with
  | zero => exact h
  | succ n ih => exact ih (h.drawWord.print _)

theorem State.Inv.selectInternal (h : s.Inv) (code : BitVec 4) : (s.selectInternal code).Inv := (h.select _).announce _

theorem State.Inv.examineInternal (h : s.Inv) (code : BitVec 4) : (s.examineInternal code).Inv :=
  (((h.withMopc _).selectInternal code).traRead code).print _

theorem State.Inv.dumpInternal (h : s.Inv) (n : Nat) (code : BitVec 4) : (s.dumpInternal n code).Inv := by
  induction n generalizing s code with
  | zero => exact h
  | succ n ih => exact ih (h.examineInternal _) _

theorem State.Inv.examineRegister (h : s.Inv) (r : RField) : (s.examineRegister r).Inv :=
  (((h.withMopc _).select _).announce _).print _

theorem State.Inv.examineWord (h : s.Inv) (last : Examined) (source : DisplaySource) (w : Word) (label : List Byte) :
    (s.examineWord last source w label).Inv :=
  (((h.withMopc _).select _).announce _).print _

theorem State.Inv.deposit (h : s.Inv) (w : Word) : NextAll State.Inv (s.deposit w) := by
  unfold State.deposit
  split
  · exact h.endLine
  · exact ((h.mopcDeposit _ w).examineNext).clearLine
  · exact (h.setReg _ _).endLine
  · split
    · rename_i e
      exact State.Inv.endLine (inv_closedUnderOps.trrWrite h e)
    · trivial
  · exact h.of_invFields rfl
  · exact h.of_invFields rfl

theorem State.Inv.operatorIo (h : s.Inv) : s.operatorIo.Inv :=
  have hy := h.yieldBus.withMopc { s.mopc with last := .none }
  ite_keeps (inv_closedUnderOps.ioWrite hy _ _) (State.Inv.print (inv_closedUnderOps.ioRead hy _) _)

/-! ### Commands -/

theorem State.Inv.lineCommand (h : s.Inv) (c : Command) : NextAll State.Inv (s.lineCommand c) := by
  unfold State.lineCommand
  split
  · exact h.masterClear
  · exact h.stopRun.endLine
  · exact h.of_invFields rfl
  · exact NextAll.ite (h.deposit _) h.endLine
  · split
    · exact (h.dumpLevels _ _).endLine
    · trivial
  · split
    · exact (h.dumpScratch _).endLine
    · trivial
  · exact ite_keeps (h.dumpInternal 16 0).endLine h.answerQuestion
  · exact ((h.withMopc _).announce _).endLine
  all_goals trivial

theorem State.Inv.carriageReturn (h : s.Inv) : NextAll State.Inv s.carriageReturn := by
  unfold State.carriageReturn
  split
  · refine NextAll.ite (NextAll.ite (h.of_invFields rfl) trivial) (NextAll.ite (NextAll.ite h.endLine ?_) ?_)
    · exact NextAll.ite (h.deposit _) h.answerQuestion
    · exact NextAll.ite h.examineNext.clearLine h.endLine
  · split
    · exact h.lineCommand _
    · trivial

theorem State.Inv.slash (h : s.Inv) : NextAll State.Inv s.slash := by
  unfold State.slash
  split
  · exact (h.examineMemory _).clearLine
  · split
    · exact (h.examineRegister _).clearLine
    · exact (h.examineRegister _).clearLine
    · exact (h.examineWord _ _ _ _).clearLine
    · exact (h.examineWord _ _ _ _).clearLine
    · exact (h.examineInternal _).clearLine
    · exact h.operatorIo.clearLine
    · exact (((h.withMopc _).select _).announce _).clearLine
    · exact (h.select _).clearLine
    · trivial

theorem State.Inv.stopCharacter (h : s.Inv) (c : Byte) : (s.stopCharacter c).Inv := by
  unfold State.stopCharacter
  refine ite_keeps (ite_keeps (h.setP _) h).continueRun.clearLine (ite_keeps (h.startSemi _).clearLine ?_)
  refine ite_keeps (h.startSemi _).clearLine (ite_keeps (h.startSemi _).clearLine ?_)
  exact ite_keeps h.memoryTest.clearLine (ite_keeps (h.startLoader _) h.loadFromAld).clearLine

theorem State.Inv.digit (h : s.Inv) (c : Byte) : (s.digit c).Inv := ite_keeps (h.of_invFields rfl) (h.of_invFields rfl)

theorem State.Inv.command (h : s.Inv) (c : Byte) : NextAll State.Inv (s.command c) := by
  unfold State.command
  refine NextAll.ite (h.digit c) (NextAll.ite (h.of_invFields rfl) (NextAll.ite h.clearLine ?_))
  refine NextAll.ite (h.of_invFields rfl) (NextAll.ite h.slash (NextAll.ite h.carriageReturn ?_))
  refine NextAll.ite (h.print _) (NextAll.ite (ite_keeps (h.of_invFields rfl) h) ?_)
  exact NextAll.ite (h.stopCharacter c) h.answerQuestion

theorem State.Inv.handleCharacter (h : s.Inv) (c : Byte) : NextAll State.Inv (s.handleCharacter c) :=
  State.Inv.command (ite_keeps h.stopRun h) c

theorem State.Inv.takeCharacter (h : s.Inv) : s.takeCharacter.2.Inv := h.of_invFields rfl

/-- An entry of MOPC keeps the invariant. -/
theorem State.Inv.mopcStep (h : s.Inv) : NextAll State.Inv s.mopcStep := by
  unfold State.mopcStep
  dsimp only
  split
  · exact NextAll.ite (h.of_invFields rfl) h.displayStep
  · refine NextAll.ite (h.of_invFields rfl) ?_
    split
    · exact NextAll.ite (h.of_invFields rfl) (h.dumpOne _)
    · exact NextAll.ite (h.takeCharacter.handleCharacter _) h.displayStep

theorem State.Inv.mopcBetween (h : s.Inv) : NextAll State.Inv s.mopcBetween := State.Inv.mopcStep (ite_keeps h h.test)

end Sys2Proof.Machine
end

section
/-! The loaders, the host events and the step keep the invariant. -/

namespace Sys2Proof.Machine

variable {s : State}

/-! ### The bootstrap loaders -/

theorem State.Inv.withLoader (h : s.Inv) (l : Loader) : State.Inv { s with loader := l } := h.of_invFields rfl

theorem State.Inv.loaderStops (h : s.Inv) : s.loaderStops.Inv := h.of_invFields rfl

theorem State.Inv.drawLevelZero (h : s.Inv) : s.drawLevelZero.Inv :=
  h.drawWord.drawWord.drawWord.drawWord.drawWord.drawWord.setReg _ _

theorem State.Inv.startLevelZero (h : s.Inv) : s.startLevelZero.Inv :=
  have hl : State.Inv (if s.pil = 0 then s else { s with pvl := s.pil, pil := 0 }) := ite_keeps h (h.of_invFields rfl)
  (hl.withLoader Loader.idle).continueRun

theorem State.Inv.binaryLoad (h : s.Inv) (c : Byte) : (s.binaryLoad c).Inv := by
  unfold State.binaryLoad
  split
  · exact h.withLoader _
  · exact (h.storeThrough _ _ _).withLoader _
  · exact ite_keeps (h.withLoader _) (h.drawLevelZero.print _).loaderStops
  · have hp := h.drawLevelZero.setReg 0 { s.drawLevelZero.reg 0 with p := s.loader.bnum }
    exact ite_keeps hp.startLevelZero hp.loaderStops
  · exact h.withLoader _

theorem State.Inv.loaderByte (h : s.Inv) (c : Byte) : (s.loaderByte c).Inv := ite_keeps (h.binaryLoad c) h

theorem State.Inv.storeBlock (h : s.Inv) (pa : PhysAddr) (ws : List Word) : (s.storeBlock pa ws).Inv := by
  induction ws generalizing s pa with
  | nil => exact h
  | cons w r ih => exact ih (h.physWrite _ _ _) _

theorem State.Inv.massBlock (h : s.Inv) (block : Option (List Word)) : NextAll State.Inv (s.massBlock block) := by
  refine NextAll.ite ?_ h
  split
  · exact NextAll.ite (((h.storeBlock _ _).setP _).withLoader _).continueRun trivial
  · trivial

theorem State.Inv.powerUpAction (h : s.Inv) (standbyOk : Bool) : (s.powerUpAction standbyOk).Inv :=
  ite_keeps (h.setP _).continueRun h.loadFromAld

/-! ### The panel processor -/

theorem State.Inv.withPanel (h : s.Inv) (p : Panel) : State.Inv { s with panel := p } := h.of_invFields rfl

theorem State.Inv.sampleCalendar (h : s.Inv) : s.sampleCalendar.Inv :=
  ite_keeps (h.withPanel _) (h.drawWord.drawWord.withPanel _)

theorem State.Inv.panelPerform (h : s.Inv) (w : Word) : (s.panelPerform w).2.Inv := by
  unfold State.panelPerform
  dsimp only
  split
  · split
    · exact h
    · exact ite_keeps h.sampleCalendar h
  · split
    · exact h
    · exact h
    · exact h.withPanel _
    · exact h.withPanel _
    · exact h.withPanel _

theorem State.Inv.panelProcess (h : s.Inv) : s.panelProcess.Inv := by
  unfold State.panelProcess
  split
  · exact h
  · exact ite_keeps ((h.withPanel _).withPanel _) (((h.withPanel _).panelPerform _).withPanel _)

/-! ### Power and upsets -/

theorem State.Inv.powerUp (h : s.Inv) (k : PanelKey) (standbyOk : Bool) : (s.powerUp k standbyOk).Inv := by
  have reset := invariantAtReset
  have held {m : Memory} (hm : m.wf = true) {r : Memory} (hr : r.wf = true) : (if standbyOk then m else r).wf = true := by
    split <;> assumption
  exact ⟨held h.mem reset.mem, held h.ecc reset.ecc, reset.cache, reset.iie, reset.iid, reset.psr, nofun, nofun⟩

theorem State.Inv.powerOn (h : s.Inv) (k : PanelKey) (standbyOk : Bool) : (s.powerOn k standbyOk).Inv := by
  cases k with
  | standBy => exact h.of_invFields rfl
  | on => exact (h.powerUp .on standbyOk).masterClear
  | lock => exact (h.powerUp .lock standbyOk).masterClear.powerUpAction standbyOk

theorem State.Inv.memoryUpset (h : s.Inv) (pa : PhysAddr) (data : Word) (check : BitVec 6) :
    (s.memoryUpset pa data check).Inv := by
  unfold State.memoryUpset
  split
  · exact ⟨Memory.wf_writeWord _ _ _ h.mem, Memory.wf_write _ _ _ h.ecc, h.cache, h.iie, h.iid, h.psr, h.poni, h.sexi⟩
  · exact h

/-! ### The events -/

theorem State.Inv.characterReceived (h : s.Inv) (c : Byte) (framing parity : Bool) :
    (s.characterReceived c framing parity).Inv :=
  ite_keeps (h.loaderByte c) (h.of_invFields rfl)

theorem State.Inv.clockInterrupt (h : s.Inv) : s.clockInterrupt.Inv :=
  ite_keeps (h.of_invFields rfl) (h.of_invFields rfl)

theorem State.Inv.deviceEvent (h : s.Inv) (n : Nat) (e : DeviceEvent) : (s.deviceEvent n e).Inv := by
  unfold State.deviceEvent
  split
  · exact h.of_invFields rfl
  · exact h

theorem State.Inv.onEvent (h : s.Inv) (e : HostEvent) : NextAll State.Inv (s.onEvent e) := by
  cases e with
  | run => exact h
  | clockPulse => exact h.clockInterrupt
  | charReceived c framing parity => exact h.characterReceived c framing parity
  | transmitterReady => exact h.of_invFields rfl
  | panelProcess => exact ite_keeps h.panelProcess h
  | calendarSecond => exact h.withPanel _
  | mopcEntry => exact NextAll.ite h.mopcBetween h
  | buttonMcl => exact ite_keeps h.masterClear h
  | buttonStop => exact ite_keeps h.stopRun h
  | buttonLoad => exact ite_keeps h.loadFromAld h
  | buttonOpcom => exact ite_keeps (h.of_invFields rfl) h
  | turnKey k => exact ite_keeps (h.of_invFields rfl) (h.of_invFields rfl)
  | powerFail => exact h.raise _
  | powerOff => exact h.of_invFields rfl
  | powerOn k standbyOk => exact h
  | remoteMcl => exact h.masterClear
  | remoteLoad => exact h.loadFromAld
  | clearWithin remote => exact ite_keeps h.masterClear h
  | cacheReady => exact h.of_invFields rfl
  | busCycle c => exact h.busCycle c
  | steal plan => exact h.of_invFields rfl
  | memoryUpset pa data check => exact h.memoryUpset pa data check
  | device n e => exact h.deviceEvent n e
  | loaderByte c => exact h.loaderByte c
  | massBlock b => exact h.massBlock b

theorem State.Inv.onEventOff (h : s.Inv) (e : HostEvent) : (s.onEventOff e).Inv := by
  unfold State.onEventOff
  split
  · exact h.powerOn _ _
  · exact h.of_invFields rfl
  · exact h.withPanel _
  · exact h

theorem State.Inv.hostEvent (h : s.Inv) (e : HostEvent) : NextAll State.Inv (s.hostEvent e) :=
  NextAll.ite (h.onEventOff e) (h.onEvent e)

/-! ### The step -/

theorem State.Inv.semiUnit (h : s.Inv) : NextAll State.Inv s.semiUnit := by
  have ht : State.Inv (if s.boundaryDone then s else s.latchInternal) := ite_keeps h h.latchInternal
  unfold State.semiUnit
  generalize (if s.boundaryDone then s else s.latchInternal) = t at ht ⊢
  refine NextAll.ite (h.withMopc _).mopcStep (NextAll.ite ?_ (NextAll.ite (h.withMopc _).mopcBetween ?_))
  · exact State.Inv.countUnit (ht.of_invFields rfl)
  · exact ht.afterTest.andThen fun _ h => (h.withMopc _).countUnit

theorem State.Inv.machineStep (h : s.Inv) : NextAll State.Inv s.machineStep := by
  unfold State.machineStep
  split
  · exact NextAll.ite h.unit h.semiUnit
  · exact h.mopcStep
  · exact h
  · trivial

/-- Whatever the second run of the unit leaves, the cut instruction keeps what the whole one keeps. -/
theorem State.Inv.cutUnit {t : State} (h : t.Inv) (s : State) : NextAll State.Inv (s.cutUnit t) :=
  (NextAll.true s.watched.afterTest).andThen fun u _ => h.cutOff s u

theorem State.Inv.masterClearWithin (h : s.Inv) (remote : Bool) : NextAll State.Inv (s.masterClearWithin remote) :=
  NextAll.ite
    (h.unit.andThen fun _ h =>
      NextAll.ite h.masterClear ((h.cutUnit _).andThen fun _ h => h.masterClear))
    (h.hostEvent _)

theorem State.Inv.withEvents (h : s.Inv) (es : List HostEvent) : State.Inv { s with events := es } := h.of_invFields rfl

theorem State.Inv.step (h : s.Inv) : NextAll State.Inv (step s) := by
  unfold Machine.step State.advanceMachine
  split
  · exact h.machineStep
  · exact (h.withEvents _).masterClearWithin _
  · exact NextAll.ite (h.withEvents _) (h.withEvents _).machineStep
  · exact (h.withEvents _).hostEvent _

/-- Settles O18: the step by its cases, instructions by `exec_keeps`, the cut of an instruction by `State.Inv.cutOff`. -/
theorem invariantKeptByStep : Obligations.InvariantKeptByStep := by
  unfold Obligations.InvariantKeptByStep
  intro s t h hstep
  exact h.step.of_eq_next hstep

end Sys2Proof.Machine
end

section
/-! Translation: the checks of an access and their order, the entry that it goes through, what it leaves when it passes and
when it is refused (R130 to R138). -/

namespace Sys2Proof.Machine

/-! ### The checks -/

theorem and_twoPow_eq_zero_iff {w : Nat} (v : BitVec w) (i : Nat) (hi : i < w) :
    v &&& BitVec.twoPow w i = 0 ↔ v.getLsbD i = false := by
  have hne : BitVec.twoPow w i ≠ 0 := fun h => by simpa [hi] using congrArg (·.getLsbD i) h
  rw [BitVec.and_twoPow]
  cases v.getLsbD i
  · simp
  · simpa using hne

/-- The permit bits of which a kind of access needs one (R132). -/
def permitMask : Kind → Word
  | .fetch => 0o020000
  | .rop => 0o040000
  | .raddr => 0o060000
  | .sto => 0o100000

theorem wpm_eq_false_iff (p : Word) : wpm p = false ↔ p &&& 0o100000 = 0 := (and_twoPow_eq_zero_iff p 15 (by decide)).symm
theorem rpm_eq_false_iff (p : Word) : rpm p = false ↔ p &&& 0o040000 = 0 := (and_twoPow_eq_zero_iff p 14 (by decide)).symm
theorem fpm_eq_false_iff (p : Word) : fpm p = false ↔ p &&& 0o020000 = 0 := (and_twoPow_eq_zero_iff p 13 (by decide)).symm

theorem and_or_eq_zero_iff {w : Nat} (v a b : BitVec w) : v &&& (a ||| b) = 0 ↔ v &&& a = 0 ∧ v &&& b = 0 := by
  rw [BitVec.and_or_distrib_left]
  exact BitVec.or_eq_zero_iff

theorem permitted_eq_false_iff (kind : Kind) (p : Word) : permitted kind p = false ↔ p &&& permitMask kind = 0 := by
  cases kind with
  | fetch => exact fpm_eq_false_iff p
  | rop => exact rpm_eq_false_iff p
  | raddr =>
    have hmask : permitMask .raddr = 0o020000 ||| 0o040000 := rfl
    rw [hmask, and_or_eq_zero_iff, ← fpm_eq_false_iff, ← rpm_eq_false_iff]
    exact Bool.or_eq_false_iff
  | sto => exact wpm_eq_false_iff p

theorem noPermit_iff (p : Word) : (!wpm p && !rpm p && !fpm p) = true ↔ p &&& 0o160000 = 0 := by
  have hmask : (0o160000 : Word) = 0o100000 ||| 0o040000 ||| 0o020000 := rfl
  rw [hmask, and_or_eq_zero_iff, and_or_eq_zero_iff, ← wpm_eq_false_iff, ← rpm_eq_false_iff, ← fpm_eq_false_iff]
  simp

theorem permitMask_and_eq_zero {p : Word} (kind : Kind) (h : p &&& 0o160000 = 0) : p &&& permitMask kind = 0 := by
  have hmask : permitMask kind = 0o160000 &&& permitMask kind := by cases kind <;> rfl
  rw [hmask, ← BitVec.and_assoc, h]
  exact BitVec.zero_and

theorem ringOf_toNat (p : Word) : (ringOf p).toNat = (p >>> 9).toNat % 4 := by
  rw [ringOf, BitVec.extractLsb'_toNat, BitVec.toNat_ushiftRight]

/-- The order of the checks, in the terms of the masks of the entry's word. -/
theorem pageCheck_eq (kind : Kind) (p : Word) (ring : BitVec 2) :
    pageCheck kind p ring =
      if p &&& 0o160000 = 0 then some .pageFault
      else if p &&& permitMask kind = 0 then some .permit
      else if ring.toNat < (p >>> 9).toNat % 4 then some .ring
      else none := by
  unfold pageCheck
  simp only [noPermit_iff, Bool.not_eq_true', permitted_eq_false_iff, BitVec.lt_def, ringOf_toNat]

theorem pageCheck_eq_pageFault_iff (kind : Kind) (p : Word) (ring : BitVec 2) :
    pageCheck kind p ring = some .pageFault ↔ p &&& 0o160000 = 0 := by
  rw [pageCheck_eq]
  split_ifs <;> simp_all

theorem pageCheck_eq_permit_iff (kind : Kind) (p : Word) (ring : BitVec 2) :
    pageCheck kind p ring = some .permit ↔ p &&& 0o160000 ≠ 0 ∧ p &&& permitMask kind = 0 := by
  rw [pageCheck_eq]
  split_ifs <;> simp_all

theorem pageCheck_eq_ring_iff (kind : Kind) (p : Word) (ring : BitVec 2) :
    pageCheck kind p ring = some .ring ↔ p &&& permitMask kind ≠ 0 ∧ ring.toNat < (p >>> 9).toNat % 4 := by
  have hfault := permitMask_and_eq_zero (p := p) kind
  rw [pageCheck_eq]
  split_ifs <;> simp_all

/-- Settles O11: `pageCheck` by masks, one lemma for each refusal. -/
theorem pageChecks : Obligations.PageChecks := by
  unfold Obligations.PageChecks
  intro kind p ring
  have hfault := pageCheck_eq_pageFault_iff kind p ring
  have hpermit := pageCheck_eq_permit_iff kind p ring
  have hring := pageCheck_eq_ring_iff kind p ring
  cases kind <;> exact ⟨hfault, hpermit, hring⟩

/-! ### The entry of an access -/

/-- The table of an access by the bit PTM and the level's PCR (R123). -/
theorem State.tableFor_eq (s : State) (rel : Rel) :
    s.tableFor rel =
      if s.sts.getLsbD 0 = true ∧ rel = .nonprel then (s.pcrOf s.pil).apt else (s.pcrOf s.pil).pt := by
  simp [State.tableFor, State.flag, Flag.bit, State.curPcr]

theorem State.eq_entryFor {s : State} {rel : Rel} {va : Word} {e : BitVec 8}
    (h : e.toNat =
      64 * (if s.sts.getLsbD 0 = true ∧ rel = .nonprel then (s.pcrOf s.pil).apt else (s.pcrOf s.pil).pt).toNat +
        va.toNat / 1024) : e = s.entryFor rel va := by
  rw [← State.tableFor_eq, ← State.entryFor_toNat] at h
  exact BitVec.eq_of_toNat_eq h

/-! ### Translation, one equation for each outcome -/

theorem State.translate_of_physical {s : State} (h : (s.cfg.hasMms && s.poni) = false) (kind : Kind) (rel : Rel)
    (va : Word) : s.translate kind rel va = .done (va.zeroExtend 24) s := by
  simp [State.translate, h]

theorem State.translate_of_passes {s : State} {kind : Kind} {rel : Rel} {va : Word} (h : (s.cfg.hasMms && s.poni) = true)
    (hcheck : pageCheck kind (s.protAt (s.entryFor rel va)) s.ring = none) :
    s.translate kind rel va =
      .done (s.pageNumber (s.entryFor rel va) ++ va.extractLsb' 0 10)
        ((s.degrade kind (s.protAt (s.entryFor rel va))).usePage kind (s.entryFor rel va)
          (s.protAt (s.entryFor rel va))) := by
  simp only [State.translate, h, if_true, hcheck]

theorem State.translate_of_refused {s : State} {kind : Kind} {rel : Rel} {va : Word} {r : PageRefusal}
    (h : (s.cfg.hasMms && s.poni) = true) (hcheck : pageCheck kind (s.protAt (s.entryFor rel va)) s.ring = some r) :
    s.translate kind rel va = .aborted (s.refuseAccess kind r (s.entryFor rel va)) := by
  simp only [State.translate, h, if_true, hcheck]

/-! ### An access that passes -/

/-- The physical address: the page number above the displacement (R138). -/
theorem State.physicalAddress_toNat (s : State) (e : BitVec 8) (va : Word) :
    (s.pageNumber e ++ va.extractLsb' 0 10 : PhysAddr).toNat =
      (s.mapAt e).toNat % (if s.sexi then 16384 else 512) * 1024 + va.toNat % 1024 := by
  have hpage : (s.pageNumber e).toNat = (s.mapAt e).toNat % (if s.sexi then 16384 else 512) := by
    unfold State.pageNumber
    split
    · simp [BitVec.extractLsb'_toNat]
    · simp [BitVec.extractLsb'_toNat]; omega
  rw [BitVec.toNat_append, ← Nat.shiftLeft_add_eq_or_of_lt (BitVec.isLt _), Nat.shiftLeft_eq, hpage,
    BitVec.extractLsb'_toNat, Nat.shiftRight_zero]

/-- What PGU and WIP of a protect half become, and that its other bits stay (R136). -/
theorem getLsbD_markUsed (kind : Kind) (p : Word) {k : Nat} (hk : k < 16) :
    (markUsed kind p).getLsbD k =
      if k = 11 then true else if k = 12 then p.getLsbD 12 || kind == .sto else p.getLsbD k := by
  unfold markUsed
  cases hs : kind == .sto
  · simp only [Bool.false_eq_true, if_false, getLsbD_setBit _ _ _ _ hk, Bool.or_false]
    split_ifs with _ hw
    · rfl
    · rw [hw]
    · rfl
  · simp only [if_true, getLsbD_setBit _ _ _ _ hk, Bool.or_true]
    split_ifs <;> rfl

theorem State.protAt_usePage_self (s : State) (kind : Kind) (e : BitVec 8) (p : Word) :
    (s.usePage kind e p).protAt e = markUsed kind p := s.protAt_setProt_self e _

theorem State.protAt_usePage_ne (s : State) (kind : Kind) {e e' : BitVec 8} (p : Word) (h : e' ≠ e) :
    (s.usePage kind e p).protAt e' = s.protAt e' := s.protAt_setProt_ne _ h

theorem State.protAt_degrade (s : State) (kind : Kind) (p : Word) (e : BitVec 8) :
    (s.degrade kind p).protAt e = s.protAt e := by
  rw [State.degrade_frame]; rfl

/-- A fetch from a page of a lower ring takes the level to that ring (R135). -/
theorem State.ring_degrade (s : State) (kind : Kind) (p : Word) :
    (s.degrade kind p).ring = if kind = .fetch ∧ ringOf p < s.ring then ringOf p else s.ring := by
  unfold State.degrade
  simp only [Bool.and_eq_true, beq_iff_eq, decide_eq_true_eq]
  split
  · simp [State.ring, State.curPcr]
  · rfl

/-- Settles O12: the entry is `entryFor`, the state behind the access that of `degrade` and `usePage`. -/
theorem translatedAccess : Obligations.TranslatedAccess := by
  unfold Obligations.TranslatedAccess
  intro s kind rel va e hmms hponi he hcheck
  obtain rfl := State.eq_entryFor he
  have hpaging : (s.cfg.hasMms && s.poni) = true := by simp [hmms, hponi]
  refine ⟨_, _, State.translate_of_passes hpaging hcheck, s.physicalAddress_toNat _ va, ?_, ?_, ?_, ?_, ?_, ?_⟩
  · rw [State.protAt_usePage_self, getLsbD_markUsed _ _ (by decide), if_pos rfl]
  · rw [State.protAt_usePage_self, getLsbD_markUsed _ _ (by decide), if_neg (by decide), if_pos rfl]
  · intro k hk h11 h12
    rw [State.protAt_usePage_self, getLsbD_markUsed _ _ hk, if_neg h11, if_neg h12]
  · intro e' hne
    rw [State.protAt_usePage_ne _ _ _ hne, State.protAt_degrade]
  · exact s.ring_degrade kind _
  · rw [State.degrade_frame]
    exact ⟨rfl, rfl, rfl, rfl⟩

/-! ### A refused access -/

/-- The fields of PSR (R137). -/
theorem pagingStatus_toNat (kind : Kind) (r : PageRefusal) (e : BitVec 8) :
    (pagingStatus kind r e).toNat =
      (if kind = .fetch then 32768 else 0) + (if r = .permit then 16384 else 0) + e.toNat := by
  have hflags : (BitVec.ofBool (kind == .fetch) ++ BitVec.ofBool (r == .permit) ++ (0 : BitVec 6) : Byte).toNat =
      (if kind = .fetch then 128 else 0) + (if r = .permit then 64 else 0) := by
    cases kind <;> cases r <;> rfl
  rw [pagingStatus, BitVec.toNat_append, ← Nat.shiftLeft_add_eq_or_of_lt e.isLt, Nat.shiftLeft_eq, hflags]
  split_ifs <;> omega

@[simp] theorem State.refuseAccess_iid (s : State) (kind : Kind) (r : PageRefusal) (e : BitVec 8) :
    (s.refuseAccess kind r e).iid = setBit s.iid (if r = .pageFault then 3 else 2) true := by
  unfold State.refuseAccess
  cases s.psrLock <;> cases r <;> rfl

theorem State.refuseAccess_of_locked {s : State} (h : s.psrLock = true) (kind : Kind) (r : PageRefusal) (e : BitVec 8) :
    (s.refuseAccess kind r e).psr = s.psr ∧ (s.refuseAccess kind r e).psrLock = true := by
  simp [State.refuseAccess, h]

theorem State.refuseAccess_of_unlocked {s : State} (h : s.psrLock = false) (kind : Kind) (r : PageRefusal)
    (e : BitVec 8) :
    (s.refuseAccess kind r e).psr = pagingStatus kind r e ∧ (s.refuseAccess kind r e).psrLock = true := by
  simp [State.refuseAccess, h]

theorem State.refuseAccess_psrLock (s : State) (kind : Kind) (r : PageRefusal) (e : BitVec 8) :
    (s.refuseAccess kind r e).psrLock = true := by
  cases h : s.psrLock
  · exact (State.refuseAccess_of_unlocked h kind r e).2
  · exact (State.refuseAccess_of_locked h kind r e).2

/-- Settles O13: the refusal is that of the check, and `refuseAccess` records it. -/
theorem refusedTranslation : Obligations.RefusedTranslation := by
  unfold Obligations.RefusedTranslation
  intro s kind rel va e r hmms hponi he hcheck
  obtain rfl := State.eq_entryFor he
  have hpaging : (s.cfg.hasMms && s.poni) = true := by simp [hmms, hponi]
  refine ⟨_, State.translate_of_refused hpaging hcheck, s.refuseAccess_iid .., s.refuseAccess_psrLock .., ?_, ?_, ?_⟩
  · exact fun hlock => (State.refuseAccess_of_locked hlock ..).1
  · intro hlock
    rw [(State.refuseAccess_of_unlocked hlock ..).1, pagingStatus_toNat]
  · rw [State.refuseAccess_frame]
    exact ⟨rfl, rfl, rfl, rfl⟩

end Sys2Proof.Machine
end

section
/-! The page tables at their addresses: a word written there is read back, and leaves the other addresses (R124 to R128). -/

namespace Sys2Proof.Machine

theorem extractLsb'_append_extractLsb' (w : Word) : w.extractLsb' 9 7 ++ w.extractLsb' 0 9 = w := by
  ext i hi
  simp only [BitVec.getElem_append, BitVec.getElem_extractLsb']
  split <;> simp_all [BitVec.getElem_eq_testBit_toNat]

/-- The two halves of a word joined of them, at the word's own width. -/
@[simp] theorem extractLsb'_append_high (a : BitVec 7) (b : BitVec 9) : (a ++ b : Word).extractLsb' 9 7 = a :=
  BitVec.extractLsb'_append_eq_left

@[simp] theorem extractLsb'_append_low (a : BitVec 7) (b : BitVec 9) : (a ++ b : Word).extractLsb' 0 9 = b :=
  BitVec.extractLsb'_append_eq_right

/-! ### The two forms of a read and a write -/

theorem State.shadowRead_normal {s : State} (h : s.sexi = false) (va : Word) :
    s.shadowRead va =
      (s.protAt (va.extractLsb' 0 8)).extractLsb' 9 7 ++ (s.mapAt (va.extractLsb' 0 8)).extractLsb' 0 9 := by
  simp [State.shadowRead, h]

theorem State.shadowRead_extended {s : State} (h : s.sexi = true) (va : Word) :
    s.shadowRead va = if va.getLsbD 0 then s.mapAt (va.extractLsb' 1 8) else s.protAt (va.extractLsb' 1 8) := by
  simp only [State.shadowRead, h, if_true]

theorem State.shadowWrite_normal {s : State} (h : s.sexi = false) (va w : Word) :
    s.shadowWrite va w =
      (s.setProt (va.extractLsb' 0 8) (w.extractLsb' 9 7 ++ (s.protAt (va.extractLsb' 0 8)).extractLsb' 0 9)).setMap
        (va.extractLsb' 0 8) ((s.mapAt (va.extractLsb' 0 8)).extractLsb' 9 7 ++ w.extractLsb' 0 9) := by
  simp [State.shadowWrite, h]

theorem State.shadowWrite_extended {s : State} (h : s.sexi = true) (va w : Word) :
    s.shadowWrite va w =
      if va.getLsbD 0 then s.setMap (va.extractLsb' 1 8) w else s.setProt (va.extractLsb' 1 8) w := by
  simp only [State.shadowWrite, h, if_true]

@[simp] theorem State.shadowWrite_sexi (s : State) (va w : Word) : (s.shadowWrite va w).sexi = s.sexi := by
  rw [State.shadowWrite_frame]

@[simp] theorem State.shadowWrite_regs (s : State) (va w : Word) : (s.shadowWrite va w).regs = s.regs := by
  rw [State.shadowWrite_frame]
@[simp] theorem State.shadowWrite_pil (s : State) (va w : Word) : (s.shadowWrite va w).pil = s.pil := by
  rw [State.shadowWrite_frame]

theorem keepsMemory_shadowWrite (s : State) (va w : Word) : keepsMemory s (s.shadowWrite va w) := by
  rw [State.shadowWrite_frame]
  exact ⟨rfl, rfl⟩

@[simp] theorem State.shadowReached_shadowWrite (s : State) (va va' w : Word) :
    (s.shadowWrite va w).shadowReached va' = s.shadowReached va' := by
  rw [State.shadowWrite_frame]; rfl

/-! ### Reading back -/

/-- A word written into the page tables is read back, in both modes (R127, R128). -/
@[simp] theorem State.shadowRead_shadowWrite_self (s : State) (va w : Word) :
    (s.shadowWrite va w).shadowRead va = w := by
  cases h : s.sexi with
  | false =>
    rw [State.shadowRead_normal (by simp [h]), State.shadowWrite_normal h]
    simp [extractLsb'_append_extractLsb']
  | true =>
    rw [State.shadowRead_extended (by simp [h]), State.shadowWrite_extended h]
    split <;> simp

/-- Addresses of the range in normal mode differ in their entry. -/
theorem entry_ne_of_normal {va va' : Word} (h : 0o177400 ≤ va) (h' : 0o177400 ≤ va') (hne : va' ≠ va) :
    va'.extractLsb' 0 8 ≠ va.extractLsb' 0 8 := by
  intro e
  have := congrArg BitVec.toNat e
  simp only [BitVec.extractLsb'_toNat] at this
  bv_omega

/-- Addresses of the range in extended mode differ in their entry or in the half of it. -/
theorem half_ne_of_extended {va va' : Word} (h : 0o177000 ≤ va) (h' : 0o177000 ≤ va') (hne : va' ≠ va)
    (hhalf : va'.getLsbD 0 = va.getLsbD 0) : va'.extractLsb' 1 8 ≠ va.extractLsb' 1 8 := by
  intro e
  have hentry := congrArg BitVec.toNat e
  simp only [BitVec.extractLsb'_toNat, Nat.shiftRight_eq_div_pow] at hentry
  simp only [BitVec.getLsbD, Nat.testBit_zero, decide_eq_decide] at hhalf
  bv_omega

/-- A word written into the page tables leaves the words at their other addresses. -/
theorem State.shadowRead_shadowWrite_ne {s : State} {va va' : Word} (w : Word) (h : s.inShadow va = true)
    (h' : s.inShadow va' = true) (hne : va' ≠ va) : (s.shadowWrite va w).shadowRead va' = s.shadowRead va' := by
  unfold State.inShadow at h h'
  cases hs : s.sexi with
  | false =>
    have hentry := entry_ne_of_normal (by simpa [hs] using h) (by simpa [hs] using h') hne
    rw [State.shadowRead_normal (by simp [hs]), State.shadowRead_normal hs, State.shadowWrite_normal hs,
      State.protAt_setMap, State.protAt_setProt_ne _ _ hentry, State.mapAt_setMap_ne _ _ hentry, State.mapAt_setProt]
  | true =>
    have hentry := half_ne_of_extended (by simpa [hs] using h) (by simpa [hs] using h') hne
    rw [State.shadowRead_extended (by simp [hs]), State.shadowRead_extended hs, State.shadowWrite_extended hs]
    cases hv : va.getLsbD 0 <;> cases hv' : va'.getLsbD 0
    · exact s.protAt_setProt_ne w (hentry (hv'.trans hv.symm))
    · rfl
    · rfl
    · exact s.mapAt_setMap_ne w (hentry (hv'.trans hv.symm))

/-! ### Accesses to the page tables -/

theorem State.memRead_of_shadow {s : State} {va : Word} (h : s.shadowReached va = true) (kind : Kind) (rel : Rel) :
    s.memRead kind rel va = .done (s.shadowRead va) s := by
  simp [State.memRead, h]

theorem State.memWrite_of_shadow {s : State} {va : Word} (h : s.shadowReached va = true) (rel : Rel) (w : Word) :
    s.memWrite rel va w = .done () (s.shadowWrite va w) := by
  simp [State.memWrite, h]

/-- Settles O14: both accesses go to the page tables, which read back what is written. -/
theorem shadowWriteThenRead : Obligations.ShadowWriteThenRead := by
  unfold Obligations.ShadowWriteThenRead
  intro s va w kind rel hshadow
  have hshadow' : (s.shadowWrite va w).shadowReached va = true := by simpa using hshadow
  refine ⟨_, State.memWrite_of_shadow hshadow rel w, ?_, keepsMemory_shadowWrite s va w, s.shadowWrite_regs va w⟩
  rw [State.memRead_of_shadow hshadow', State.shadowRead_shadowWrite_self]

end Sys2Proof.Machine
end

section
/-! Physical memory and the cache: a read and a write of a word that a module answers, the cache between the CPU and memory, and
physical addressing (R101, R102, R140, R155 to R162, R170, R171). -/

namespace Sys2Proof.Machine

/-! ### What a memory cycle leaves -/

@[simp] theorem State.strobe_memPresent (s : State) (src : MemSource) (write : Bool) (pa pb : PhysAddr) (w : Word) :
    (s.strobe src write pa w).memPresent pb = s.memPresent pb := by rw [State.strobe_frame]; rfl

@[simp] theorem State.physRead_cache (s : State) (src : MemSource) (pa : PhysAddr) :
    (s.physRead src pa).2.cache = s.cache := by rw [State.physRead_frame]
@[simp] theorem State.physRead_lcil (s : State) (src : MemSource) (pa : PhysAddr) :
    (s.physRead src pa).2.lcil = s.lcil := by rw [State.physRead_frame]
@[simp] theorem State.physRead_ucil (s : State) (src : MemSource) (pa : PhysAddr) :
    (s.physRead src pa).2.ucil = s.ucil := by rw [State.physRead_frame]

@[simp] theorem State.physWrite_cache (s : State) (src : MemSource) (pa : PhysAddr) (w : Word) :
    (s.physWrite src pa w).cache = s.cache := by rw [State.physWrite_frame]
@[simp] theorem State.physWrite_lcil (s : State) (src : MemSource) (pa : PhysAddr) (w : Word) :
    (s.physWrite src pa w).lcil = s.lcil := by rw [State.physWrite_frame]
@[simp] theorem State.physWrite_ucil (s : State) (src : MemSource) (pa : PhysAddr) (w : Word) :
    (s.physWrite src pa w).ucil = s.ucil := by rw [State.physWrite_frame]

@[simp] theorem State.physRead_regs (s : State) (src : MemSource) (pa : PhysAddr) :
    (s.physRead src pa).2.regs = s.regs := by rw [State.physRead_frame]
@[simp] theorem State.physRead_pil (s : State) (src : MemSource) (pa : PhysAddr) :
    (s.physRead src pa).2.pil = s.pil := by rw [State.physRead_frame]
@[simp] theorem State.busWrite_regs (s : State) (src : MemSource) (pa : PhysAddr) (w : Word) :
    (s.busWrite src pa w).regs = s.regs := by rw [State.busWrite_frame]
@[simp] theorem State.busWrite_pil (s : State) (src : MemSource) (pa : PhysAddr) (w : Word) :
    (s.busWrite src pa w).pil = s.pil := by rw [State.busWrite_frame]

@[simp] theorem State.busCycle_cache (s : State) (c : BusCycle) : (s.busCycle c).cache = s.cache := by
  rw [State.busCycle_frame]

/-! ### A read and a write, by what answers -/

/-- A read that a module answers, by what the module finds in the word (R171). -/
theorem State.physRead_of_present {s : State} {pa : PhysAddr} {f : EccFinding} {code : BitVec 6}
    (hpresent : s.memPresent pa = true) (hfound : eccClassify (s.syndrome pa) = (f, code)) (src : MemSource) :
    s.physRead src pa =
      (s.eccDeliver f (s.mem.readWord pa),
        if s.eccReports f then (s.strobe src false pa (s.eccDeliver f (s.mem.readWord pa))).memoryError src pa code
        else s.strobe src false pa (s.eccDeliver f (s.mem.readWord pa))) := by
  unfold State.physRead
  rw [if_pos hpresent, hfound]
  dsimp only
  rw [State.strobe_frame]
  rfl

/-- A read that no module answers (R140). -/
theorem State.physRead_of_absent {s : State} {pa : PhysAddr} (h : s.memPresent pa = false) (src : MemSource) :
    s.physRead src pa =
      (s.drawWord.1, (s.drawWord.2.strobe src false pa s.drawWord.1).outOfRange src pa) := by
  simp [State.physRead, h]

/-- A word without a wrong bit is delivered, and nothing is reported. -/
theorem State.physRead_of_good {s : State} {pa : PhysAddr} (hpresent : s.memPresent pa = true)
    (hgood : s.syndrome pa = 0) (src : MemSource) :
    s.physRead src pa = (s.mem.readWord pa, s.strobe src false pa (s.mem.readWord pa)) := by
  have hfound : eccClassify (s.syndrome pa) = (.good, 0) := by rw [hgood]; decide
  rw [State.physRead_of_present hpresent hfound]
  simp [State.eccDeliver, State.eccReports]

/-- By how much the check bits that go with a word are wrong, under the test bits of ECCR (R70, R170). -/
def State.checkError (s : State) (w : Word) : Byte := (checkBits (s.eccForced w) ^^^ checkBits w).zeroExtend 8

/-- A write that a module answers (R140, R170). -/
theorem State.physWrite_of_present {s : State} {pa : PhysAddr} (h : s.memPresent pa = true) (src : MemSource) (w : Word) :
    s.physWrite src pa w =
      { s with
        mem := s.mem.writeWord pa w, ecc := s.ecc.write pa.toNat (s.checkError w)
        busMonitor := (s.strobe src true pa w).busMonitor } := by
  unfold State.physWrite
  dsimp only
  rw [State.strobe_memPresent, if_pos h, State.strobe_frame]
  rfl

/-- A write that no module answers (R140). -/
theorem State.physWrite_of_absent {s : State} {pa : PhysAddr} (h : s.memPresent pa = false) (src : MemSource) (w : Word) :
    s.physWrite src pa w = (s.strobe src true pa w).outOfRange src pa := by
  simp [State.physWrite, h]

/-! ### The CPU's accesses with no cycle of another agent before them -/

section Quiet

variable {s : State} (hsteals : s.steals = [])
include hsteals

theorem State.busRead_uncached (hoff : s.cacheEnabled = false) (src : MemSource) (pa : PhysAddr) :
    s.busRead src pa = s.physRead src pa := by
  simp [State.busRead, State.yieldBus_quiet hsteals, hoff]

theorem State.busRead_hit (hon : s.cacheEnabled = true) {pa : PhysAddr} {w : Word} (hhit : s.cacheHit pa = some w)
    (src : MemSource) : s.busRead src pa = (w, s) := by
  simp [State.busRead, State.yieldBus_quiet hsteals, hon, hhit]

theorem State.busRead_miss (hon : s.cacheEnabled = true) {pa : PhysAddr} (hmiss : s.cacheHit pa = none)
    (src : MemSource) :
    s.busRead src pa = ((s.physRead src pa).1, (s.physRead src pa).2.cacheFill pa (s.physRead src pa).1) := by
  simp [State.busRead, State.yieldBus_quiet hsteals, hon, hmiss]

theorem State.busWrite_uncached (hoff : s.cacheEnabled = false) (src : MemSource) (pa : PhysAddr) (w : Word) :
    s.busWrite src pa w = s.physWrite src pa w := by
  simp [State.busWrite_eq, State.yieldBus_quiet hsteals, hoff]

theorem State.busWrite_cached (hon : s.cacheEnabled = true) {pa : PhysAddr} (hpresent : s.memPresent pa = true)
    (src : MemSource) (w : Word) : s.busWrite src pa w = (s.physWrite src pa w).cacheFill pa w := by
  simp [State.busWrite_eq, State.yieldBus_quiet hsteals, hon, hpresent]

theorem State.busWrite_of_absent {pa : PhysAddr} (habsent : s.memPresent pa = false) (src : MemSource) (w : Word) :
    s.busWrite src pa w = s.physWrite src pa w := by
  simp [State.busWrite_eq, State.yieldBus_quiet hsteals, habsent]

end Quiet

/-! ### The cache -/

theorem cacheIndex_toNat (pa : PhysAddr) : (cacheIndex pa).toNat = pa.toNat % 1024 := by
  rw [cacheIndex, BitVec.extractLsb'_toNat, Nat.shiftRight_zero]

theorem pageOf_toNat (pa : PhysAddr) : (pageOf pa).toNat = pa.toNat / 1024 := by
  rw [pageOf, BitVec.extractLsb'_toNat, Nat.shiftRight_eq_div_pow]
  have := pa.isLt
  omega

theorem eq_cacheIndex_iff (i : BitVec 10) (pa : PhysAddr) : i = cacheIndex pa ↔ i.toNat = pa.toNat % 1024 := by
  rw [← cacheIndex_toNat, BitVec.toNat_inj]

theorem eq_pageOf_iff (p : BitVec 14) (pa : PhysAddr) : p = pageOf pa ↔ p.toNat = pa.toNat / 1024 := by
  rw [← pageOf_toNat, BitVec.toNat_inj]

/-- A sorted cache holds one entry for an index (R155). -/
theorem cacheSorted_unique {l : List CacheLine} (hsorted : cacheSorted l = true) {e f : CacheLine} (he : e ∈ l)
    (hf : f ∈ l) (hindex : e.index = f.index) : e = f := by
  have hnodup : (l.map (·.index)).Nodup :=
    List.pairwise_map.2 (((cacheSorted_iff l).1 hsorted).imp fun hlt heq => by
      rw [heq] at hlt; exact absurd hlt (BitVec.lt_irrefl _))
  exact List.inj_on_of_nodup_map hnodup he hf hindex

/-- The cache holds the word of an address where an entry in its place names its page (R156). -/
theorem State.cacheHit_eq_some {s : State} (hsorted : cacheSorted s.cache = true) {pa : PhysAddr} {e : CacheLine}
    (he : e ∈ s.cache) (hindex : e.index.toNat = pa.toNat % 1024) (hpage : e.cpn.toNat = pa.toNat / 1024) :
    s.cacheHit pa = some e.data := by
  rw [← eq_cacheIndex_iff] at hindex
  rw [← eq_pageOf_iff] at hpage
  unfold State.cacheHit
  cases hfind : s.cache.find? (fun e => e.index == cacheIndex pa) with
  | none => exact absurd hindex (by simpa using List.find?_eq_none.1 hfind e he)
  | some f =>
    have hf : f.index = cacheIndex pa := by simpa using List.find?_some hfind
    obtain rfl := cacheSorted_unique hsorted (List.mem_of_find?_eq_some hfind) he (hf.trans hindex.symm)
    simp [hpage]

theorem State.cacheHit_eq_none {s : State} {pa : PhysAddr}
    (h : ∀ e ∈ s.cache, ¬ (e.index.toNat = pa.toNat % 1024 ∧ e.cpn.toNat = pa.toNat / 1024)) :
    s.cacheHit pa = none := by
  unfold State.cacheHit
  cases hfind : s.cache.find? (fun e => e.index == cacheIndex pa) with
  | none => rfl
  | some f =>
    have hf : f.index = cacheIndex pa := by simpa using List.find?_some hfind
    have hpage : f.cpn ≠ pageOf pa := fun hp =>
      h f (List.mem_of_find?_eq_some hfind) ⟨(eq_cacheIndex_iff _ _).1 hf, (eq_pageOf_iff _ _).1 hp⟩
    simp [hpage]

/-- The pages between the limits are excluded (R161). -/
theorem State.cacheInhibited_pageOf_iff (s : State) (pa : PhysAddr) :
    s.cacheInhibited (pageOf pa) = true ↔ s.lcil.toNat ≤ pa.toNat / 1024 ∧ pa.toNat / 1024 ≤ s.ucil.toNat := by
  simp [State.cacheInhibited, BitVec.le_def, pageOf_toNat]

/-- What filling an entry does to the cache, in the words of the statements. -/
theorem cachedAfter_cacheFill {s t : State} (hcache : t.cache = s.cache) (hlcil : t.lcil = s.lcil)
    (hucil : t.ucil = s.ucil) (pa : PhysAddr) (w : Word) : cachedAfter s (t.cacheFill pa w) pa w := by
  unfold cachedAfter State.cacheFill
  simp only [State.cacheInhibited_pageOf_iff, hlcil, hucil]
  split
  · exact hcache
  · intro e
    rw [mem_insertLine, dropLine_eq_filter, List.mem_filter, hcache, CacheLine.mk.injEq]
    simp only [decide_eq_true_iff, ne_eq, ← eq_cacheIndex_iff, ← eq_pageOf_iff]
    tauto

theorem State.cacheFill_restore {s : State} {c : List CacheLine} (h : s.cache = c) (pa : PhysAddr) (w : Word) :
    { s.cacheFill pa w with cache := c } = s := by
  rw [State.cacheFill_frame, ← h]

/-- The cache is looked at through these fields alone. -/
theorem cachedAfter_congr {s s' t : State} (hcache : s'.cache = s.cache) (hlcil : s'.lcil = s.lcil)
    (hucil : s'.ucil = s.ucil) (pa : PhysAddr) (w : Word) : cachedAfter s' t pa w ↔ cachedAfter s t pa w := by
  unfold cachedAfter
  rw [hcache, hlcil, hucil]

/-- A write with the cache in use leaves a copy where a module answers, and else the cache as it was (R157; log 49). -/
theorem cachedAfter_busWrite {s : State} (hsteals : s.steals = []) (hon : s.cacheEnabled = true) (src : MemSource)
    (pa : PhysAddr) (w : Word) :
    if s.memPresent pa then cachedAfter s (s.busWrite src pa w) pa w else (s.busWrite src pa w).cache = s.cache := by
  split
  · rename_i hpresent
    rw [State.busWrite_cached hsteals hon hpresent]
    exact cachedAfter_cacheFill (by simp) (by simp) (by simp) pa w
  · rename_i habsent
    rw [State.busWrite_of_absent hsteals (by simpa using habsent), State.physWrite_cache]

/-- A write reaches memory as it would without a cache. -/
theorem State.busWrite_restore {s : State} (hsteals : s.steals = []) (src : MemSource) (pa : PhysAddr) (w : Word) :
    { s.busWrite src pa w with cache := s.cache } = s.physWrite src pa w := by
  rw [State.busWrite_eq, State.yieldBus_quiet hsteals]
  split
  · exact State.cacheFill_restore (by simp) pa w
  · rw [State.physWrite_frame]

/-! ### Accesses by way of a translation -/

theorem State.memRead_of_translate {s s1 : State} {kind : Kind} {rel : Rel} {va : Word} {pa : PhysAddr}
    (hshadow : s.shadowReached va = false) (h : s.translate kind rel va = .done pa s1) :
    s.memRead kind rel va = .done (s1.busRead kind.source pa).1 (s1.busRead kind.source pa).2 := by
  simp [State.memRead, hshadow, h]

theorem State.memWrite_of_translate {s s1 : State} {rel : Rel} {va : Word} {pa : PhysAddr}
    (hshadow : s.shadowReached va = false) (h : s.translate .sto rel va = .done pa s1) (w : Word) :
    s.memWrite rel va w = .done () (s1.busWrite .data pa w) := by
  simp [State.memWrite, hshadow, h]

/-! ### Physical addressing -/

namespace State.Flat

variable {s : State} (h : s.Flat)
include h

theorem memPresent (va : Word) : s.memPresent (va.zeroExtend 24) = true := by
  have hmemory := h.memory
  have hva := va.isLt
  have hmod : va.toNat % 16777216 = va.toNat := Nat.mod_eq_of_lt (by omega)
  simp [State.memPresent, hmod]
  omega

theorem syndrome (pa : PhysAddr) : s.syndrome pa = 0 := by
  simp [State.syndrome, Memory.read, h.checks, lookupCell, Memory.unlisted]

/-- With the test bits of ECCR at rest the check bits written are right. -/
theorem checkError (w : Word) : s.checkError w = 0 := by
  have htest (i : Nat) (hi : (0o23 : BitVec 5).getLsbD i = true) : s.eccr.getLsbD i = false := by
    have hand : (s.eccr.getLsbD i && (0o23 : BitVec 5).getLsbD i) = false := by
      rw [← BitVec.getLsbD_and, h.tests]; exact BitVec.getLsbD_zero
    rwa [hi, Bool.and_true] at hand
  have h0 := htest 0 (by decide)
  have h1 := htest 1 (by decide)
  have h4 := htest 4 (by decide)
  have hforced : s.eccForced w = w := by simp only [State.eccForced, h0, h1, h4, Bool.false_eq_true, if_false]
  rw [State.checkError, hforced, BitVec.xor_self]
  rfl

theorem write_ecc (a : Nat) : s.ecc.write a 0 = s.ecc := by
  have hecc : s.ecc = { cells := [] } := congrArg Memory.mk h.checks
  rw [hecc]
  rfl

theorem translate (kind : Kind) (rel : Rel) (va : Word) : s.translate kind rel va = .done (va.zeroExtend 24) s :=
  State.translate_of_physical (by simp [h.paging]) kind rel va

/-- A read outside the page tables is a read of the word of memory with that address (R101). -/
theorem memRead {va : Word} (hshadow : s.shadowReached va = false) (kind : Kind) (rel : Rel) :
    s.memRead kind rel va = .done (s.wordAt va) s := by
  rw [State.memRead_of_translate hshadow (h.translate kind rel va), State.busRead_uncached h.bus h.cache,
    State.physRead_of_good (h.memPresent va) (h.syndrome _), State.strobe_quiet h.monitor]
  rfl

/-- A write outside the page tables is a write of the word of memory with that address (R101). -/
theorem memWrite {va : Word} (hshadow : s.shadowReached va = false) (rel : Rel) (w : Word) :
    s.memWrite rel va w = .done () { s with mem := s.mem.writeWord (va.zeroExtend 24) w } := by
  rw [State.memWrite_of_translate hshadow (h.translate .sto rel va), State.busWrite_uncached h.bus h.cache,
    State.physWrite_of_present (h.memPresent va), State.strobe_quiet h.monitor, h.checkError, h.write_ecc]

end State.Flat

theorem zeroExtend_inj {va va' : Word} : va.zeroExtend 24 = va'.zeroExtend 24 ↔ va = va' := by
  constructor
  · intro h; bv_omega
  · rintro rfl; rfl

theorem zeroExtend_toNat (va : Word) : (va.zeroExtend 24).toNat = va.toNat := by
  have := va.isLt
  simp only [BitVec.toNat_setWidth]
  omega

/-- With physical addressing a read changes nothing, a write changes one word and is read back (R101, R102). -/
theorem physicalAccess_of_flat {s : State} (h : s.Flat) (kind : Kind) (rel : Rel) {va : Word} (w : Word)
    (hshadow : s.shadowReached va = false) :
    s.memRead kind rel va = .done (s.wordAt va) s ∧
      ∃ t, s.memWrite rel va w = .done () t ∧ t = { s with mem := t.mem } ∧ t.wordAt va = w ∧
        (∀ va', va' ≠ va → t.wordAt va' = s.wordAt va') ∧ (∀ a, a / 2 ≠ va.toNat → t.mem.read a = s.mem.read a) := by
  refine ⟨h.memRead hshadow kind rel, _, h.memWrite hshadow rel w, rfl, ?_, fun va' hne => ?_, fun a ha => ?_⟩
  · exact Memory.readWord_writeWord_self _ _ w
  · exact Memory.readWord_writeWord_ne _ w (zeroExtend_inj.not.2 hne)
  · exact Memory.read_writeWord_ne _ _ w (by rwa [zeroExtend_toNat])

/-- With the cache in use a word that it holds is read from it, any other is read from memory or stored there with a copy kept
(R156, R157, R161). -/
theorem physicalAccess_of_cached {s s1 : State} {kind : Kind} {rel : Rel} {va : Word} {pa : PhysAddr}
    (hsteals : s.steals = []) (hon : s.cacheEnabled = true) (hsorted : cacheSorted s.cache = true)
    (hshadow : s.shadowReached va = false) (htranslate : s.translate kind rel va = .done pa s1) :
    (∀ e ∈ s.cache, e.index.toNat = pa.toNat % 1024 → e.cpn.toNat = pa.toNat / 1024 →
      s.memRead kind rel va = .done e.data s1) ∧
    ((∀ e ∈ s.cache, ¬ (e.index.toNat = pa.toNat % 1024 ∧ e.cpn.toNat = pa.toNat / 1024)) →
      ∃ v t, s1.physRead kind.source pa = (v, { t with cache := s.cache }) ∧ s.memRead kind rel va = .done v t ∧
        cachedAfter s t pa v) ∧
    (∀ w, kind = .sto →
      ∃ t, s.memWrite rel va w = .done () t ∧ s1.physWrite .data pa w = { t with cache := s.cache } ∧
        (if s.memPresent pa then cachedAfter s t pa w else t.cache = s.cache)) := by
  have hframe := State.translate_done_frame htranslate
  have hcache : s1.cache = s.cache := by rw [hframe]
  have hlcil : s1.lcil = s.lcil := by rw [hframe]
  have hucil : s1.ucil = s.ucil := by rw [hframe]
  have hsteals1 : s1.steals = [] := by rw [hframe]; exact hsteals
  have hon1 : s1.cacheEnabled = true := by rw [hframe]; exact hon
  have hpresent : s1.memPresent pa = s.memPresent pa := by rw [hframe]; rfl
  have hread := State.memRead_of_translate hshadow htranslate
  refine ⟨fun e he hindex hpage => ?_, fun hnone => ?_, ?_⟩
  · have hhit : s1.cacheHit pa = some e.data :=
      State.cacheHit_eq_some (hcache.symm ▸ hsorted) (hcache.symm ▸ he) hindex hpage
    rw [hread, State.busRead_hit hsteals1 hon1 hhit]
  · have hmiss : s1.cacheHit pa = none := State.cacheHit_eq_none (hcache.symm ▸ hnone)
    rw [State.busRead_miss hsteals1 hon1 hmiss] at hread
    refine ⟨_, _, Prod.ext rfl ?_, hread, cachedAfter_cacheFill ?_ ?_ ?_ pa _⟩
    · exact (State.cacheFill_restore (by simpa using hcache) pa _).symm
    · simpa using hcache
    · simpa using hlcil
    · simpa using hucil
  · rintro w rfl
    refine ⟨_, State.memWrite_of_translate hshadow htranslate w, ?_, ?_⟩
    · rw [← hcache]
      exact (State.busWrite_restore hsteals1 .data pa w).symm
    · have hcopy := cachedAfter_busWrite hsteals1 hon1 .data pa w
      rwa [cachedAfter_congr hcache hlcil hucil, hpresent, hcache] at hcopy

/-- Settles O15: physical addressing by `State.Flat.memRead` and `State.Flat.memWrite`, the cache by hit, miss and write, and the
cycles of other agents by their frame. -/
theorem physicalAccess : Obligations.PhysicalAccess := by
  unfold Obligations.PhysicalAccess
  refine ⟨?_, ?_, State.busCycle_cache⟩
  · intro s kind rel va w hflat hshadow
    exact physicalAccess_of_flat hflat kind rel w hshadow
  · intro s s1 kind rel va pa hsteals hon hsorted hshadow htranslate
    exact physicalAccess_of_cached hsteals hon hsorted hshadow htranslate

end Sys2Proof.Machine
end

section
/-! Memory errors: what a wrong bit does to the syndrome of its word, and what an error or an absent module leaves in PES and PEA
(R140, R170 to R174). -/

namespace Sys2Proof.Machine

/-! ### The check bits are linear in the word -/

/-- The exclusive or of the listed bits, from a start on. -/
theorem foldl_xor_getLsbD (a b : Word) (l : List Nat) (p q : Bool) :
    l.foldl (fun r i => r ^^ (a ^^^ b).getLsbD i) (p ^^ q) =
      (l.foldl (fun r i => r ^^ a.getLsbD i) p ^^ l.foldl (fun r i => r ^^ b.getLsbD i) q) := by
  induction l generalizing p q with
  | nil => rfl
  | cons i r ih =>
    have hhead : ((p ^^ q) ^^ (a ^^^ b).getLsbD i) = ((p ^^ a.getLsbD i) ^^ (q ^^ b.getLsbD i)) := by
      simp only [BitVec.getLsbD_xor, Bool.xor_assoc, Bool.xor_left_comm]
    rw [List.foldl_cons, List.foldl_cons, List.foldl_cons, hhead, ih]

theorem parity_xor (a b : Word) : parity (a ^^^ b) = (parity a ^^ parity b) := foldl_xor_getLsbD a b _ false false

theorem setBit_xor {w : Nat} (c d : BitVec w) (i : Nat) (x y : Bool) :
    setBit (c ^^^ d) i (x ^^ y) = setBit c i x ^^^ setBit d i y := by
  refine BitVec.eq_of_getLsbD_eq fun j hj => ?_
  rw [BitVec.getLsbD_xor, getLsbD_setBit _ _ _ _ hj, getLsbD_setBit _ _ _ _ hj, getLsbD_setBit _ _ _ _ hj,
    BitVec.getLsbD_xor]
  split <;> rfl

/-- The check bits of two words added bit by bit, over a list of masks. -/
theorem foldl_setBit_parity_xor (a b : Word) (l : List (Word × Nat)) (c d : BitVec 6) :
    l.foldl (fun c (m, i) => setBit c i (parity ((a ^^^ b) &&& m))) (c ^^^ d) =
      l.foldl (fun c (m, i) => setBit c i (parity (a &&& m))) c ^^^
        l.foldl (fun c (m, i) => setBit c i (parity (b &&& m))) d := by
  induction l generalizing c d with
  | nil => rfl
  | cons e r ih =>
    have hmask : (a ^^^ b) &&& e.1 = (a &&& e.1) ^^^ (b &&& e.1) := by
      ext j; simp [Bool.and_xor_distrib_right]
    simp only [List.foldl_cons]
    rw [hmask, parity_xor, setBit_xor, ih]

theorem checkBits_xor (a b : Word) : checkBits (a ^^^ b) = checkBits a ^^^ checkBits b :=
  foldl_setBit_parity_xor a b _ 0 0

/-! ### The table of error codes (R172) -/

/-- The error codes of the data bits 0 to 15. -/
def dataBitCodes : List Nat :=
  [0o03, 0o05, 0o07, 0o11, 0o13, 0o14, 0o15, 0o16, 0o21, 0o22, 0o23, 0o24, 0o26, 0o30, 0o32, 0o34]

/-- The check bits of one data bit: an odd number of them, and its code in T16 to T20. -/
theorem checkBits_twoPow_table :
    ∀ i : Fin 16, parity ((checkBits (BitVec.twoPow 16 i)).zeroExtend 16) = true ∧
      (checkBits (BitVec.twoPow 16 i)).toNat % 32 = dataBitCodes[i] ∧
      eccClassify (checkBits (BitVec.twoPow 16 i)) = (.dataBit i, BitVec.ofNat 6 dataBitCodes[i]) := by
  decide +kernel

/-- One wrong data bit is found, with its code. -/
theorem eccClassify_dataBit {i code : Nat} (h : dataBitCodes[i]? = some code) :
    eccClassify (checkBits (BitVec.twoPow 16 i)) = (.dataBit i, BitVec.ofNat 6 code) ∧ code < 64 := by
  obtain ⟨hi, rfl⟩ := List.getElem?_eq_some_iff.1 h
  obtain ⟨_, hcode, hfound⟩ := checkBits_twoPow_table ⟨i, hi⟩
  simp only [Fin.getElem_fin] at hcode
  exact ⟨hfound, by omega⟩

theorem eccClassify_of_even {syn : BitVec 6} (heven : parity (syn.zeroExtend 16) = false) (hne : syn.toNat % 32 ≠ 0) :
    eccClassify syn = (.multiple, BitVec.ofNat 6 (32 + syn.toNat % 32)) := by
  simp [eccClassify, heven, hne]

theorem getLsbD_multipleCode {n : Nat} (h : n < 32) : (BitVec.ofNat 6 (32 + n)).getLsbD 5 = true := by
  have hbit : (2 ^ 5 + n).testBit 5 = true := by
    rw [Nat.testBit_two_pow_add_eq, Nat.testBit_lt_two_pow h]; rfl
  rw [BitVec.getLsbD_ofNat]
  simpa using hbit

/-- Two wrong data bits are a multiple error: their check bits differ in T16 to T20, and an even number of them is wrong. -/
theorem eccClassify_twoBits {i j : Nat} (hi : i < 16) (hj : j < 16) (hij : i ≠ j) :
    ∃ code, eccClassify (checkBits (BitVec.twoPow 16 i ||| BitVec.twoPow 16 j)) = (.multiple, code) ∧
      code.getLsbD 5 = true := by
  obtain ⟨hoddI, hcodeI, _⟩ := checkBits_twoPow_table ⟨i, hi⟩
  obtain ⟨hoddJ, hcodeJ, _⟩ := checkBits_twoPow_table ⟨j, hj⟩
  simp only [Fin.getElem_fin] at hoddI hoddJ hcodeI hcodeJ
  have hor : BitVec.twoPow 16 i ||| BitVec.twoPow 16 j = BitVec.twoPow 16 i ^^^ BitVec.twoPow 16 j := by
    refine BitVec.eq_of_getLsbD_eq fun k hk => ?_
    rw [BitVec.getLsbD_or, BitVec.getLsbD_xor, BitVec.getLsbD_twoPow, BitVec.getLsbD_twoPow]
    by_cases hik : i = k <;> by_cases hjk : j = k <;> simp_all
  rw [hor, checkBits_xor]
  refine ⟨_, eccClassify_of_even ?_ ?_, getLsbD_multipleCode (Nat.mod_lt _ (by decide))⟩
  · have hext (c d : BitVec 6) : (c ^^^ d).zeroExtend 16 = c.zeroExtend 16 ^^^ d.zeroExtend 16 := BitVec.setWidth_xor
    rw [hext, parity_xor, hoddI, hoddJ]
    rfl
  · have hcodes : dataBitCodes[i] ≠ dataBitCodes[j] := fun h =>
      hij ((List.Nodup.getElem_inj_iff (by decide)).1 h)
    rw [BitVec.toNat_xor, show 32 = 2 ^ 5 from rfl, Nat.xor_mod_two_pow]
    exact fun h => hcodes (hcodeI.symm.trans ((Nat.xor_eq_zero_iff.1 h).trans hcodeJ))

/-! ### A bit pattern falls on a word -/

section Upset

variable {s : State} {pa : PhysAddr} (hpresent : s.memPresent pa = true) (data : Word) (check : BitVec 6)
include hpresent

theorem State.memoryUpset_of_present :
    s.memoryUpset pa data check =
      { s with
        mem := (s.memoryUpset pa data check).mem, ecc := (s.memoryUpset pa data check).ecc } := by
  unfold State.memoryUpset
  rw [if_pos hpresent]

theorem State.memPresent_memoryUpset : (s.memoryUpset pa data check).memPresent pa = true := by
  rw [State.memoryUpset_of_present hpresent]; exact hpresent

theorem State.readWord_memoryUpset :
    (s.memoryUpset pa data check).mem.readWord pa = s.mem.readWord pa ^^^ data := by
  unfold State.memoryUpset
  rw [if_pos hpresent]
  exact Memory.readWord_writeWord_self ..

/-- The syndrome changes by the check bits of the pattern. -/
theorem State.syndrome_memoryUpset :
    (s.memoryUpset pa data check).syndrome pa = s.syndrome pa ^^^ check ^^^ checkBits data := by
  have hbyte (d : BitVec 6) : (d.zeroExtend 8).setWidth 6 = d := by simp
  have hold (c x : BitVec 6) : c ^^^ x ^^^ check ^^^ (c ^^^ checkBits data) = x ^^^ check ^^^ checkBits data := by
    rw [← BitVec.xor_assoc, BitVec.xor_comm _ c, ← BitVec.xor_assoc, ← BitVec.xor_assoc, BitVec.xor_self,
      BitVec.zero_xor]
  unfold State.memoryUpset
  rw [if_pos hpresent, State.syndrome]
  dsimp only
  rw [Memory.read_write_self, hbyte, checkBits_xor, hold]

/-- A good word after the upset: what the module finds is what the pattern's check bits say. -/
theorem State.upset_of_good (hgood : s.syndrome pa = 0) {data : Word} {f : EccFinding} {code : BitVec 6}
    (hclass : eccClassify (checkBits data) = (f, code)) {u : State} (hu : u = s.memoryUpset pa data 0) :
    u.eccr = s.eccr ∧ u.pesLock = s.pesLock ∧ u.memPresent pa = true ∧
      u.mem.readWord pa = s.mem.readWord pa ^^^ data ∧ eccClassify (u.syndrome pa) = (f, code) := by
  subst hu
  refine ⟨?_, ?_, State.memPresent_memoryUpset hpresent data 0, State.readWord_memoryUpset hpresent data 0, ?_⟩
  · rw [State.memoryUpset_of_present hpresent]
  · rw [State.memoryUpset_of_present hpresent]
  · rw [State.syndrome_memoryUpset hpresent, hgood, ← hclass]; simp

end Upset

/-! ### What an error leaves -/

theorem State.latchMemError_of_locked {s : State} (h : s.pesLock = true) (src : MemSource) (pa : PhysAddr)
    (code : BitVec 6) : s.latchMemError src pa code = s := if_pos h

theorem State.latchMemError_of_unlocked {s : State} (h : s.pesLock = false) (src : MemSource) (pa : PhysAddr)
    (code : BitVec 6) :
    s.latchMemError src pa code =
      { s with
        pes := BitVec.ofBool (src == .fetch || src == .examDepo) ++ BitVec.ofBool (src == .dma) ++ code ++
          pa.extractLsb' 16 8
        pea := pa.extractLsb' 0 16
        pesLock := true } := by
  simp [State.latchMemError, h]

/-- The fields of PES after an error (R174). -/
theorem errorStatus_fields (f g : Bool) (code : BitVec 6) (high : Byte) :
    (BitVec.ofBool f ++ BitVec.ofBool g ++ code ++ high : Word).getLsbD 15 = f ∧
    (BitVec.ofBool f ++ BitVec.ofBool g ++ code ++ high : Word).getLsbD 14 = g ∧
    (BitVec.ofBool f ++ BitVec.ofBool g ++ code ++ high : Word).extractLsb' 8 6 = code ∧
    (BitVec.ofBool f ++ BitVec.ofBool g ++ code ++ high : Word).toNat % 256 = high.toNat := by
  refine ⟨?_, ?_, ?_, ?_⟩
  · simp only [BitVec.getLsbD_append]; simp
  · simp only [BitVec.getLsbD_append]; simp
  · refine BitVec.eq_of_getLsbD_eq fun i hi => ?_
    simp only [BitVec.getLsbD_extractLsb', BitVec.getLsbD_append]
    simp [hi]
  · rw [BitVec.toNat_append, ← Nat.shiftLeft_add_eq_or_of_lt high.isLt, Nat.shiftLeft_eq]
    have := high.isLt
    omega

/-- A reported error or an absent module, over whatever the bus cycle itself has drawn and sampled (R174). -/
theorem errorLatched_latchMemError {s u : State}
    (hu : u = { s with freeCount := u.freeCount, busMonitor := u.busMonitor }) (src : MemSource) (pa : PhysAddr)
    (code : BitVec 6) (x : Source) : errorLatched s ((u.latchMemError src pa code).raise x) src pa x.code := by
  have hlock : u.pesLock = s.pesLock := by rw [hu]
  cases h : s.pesLock with
  | true =>
    rw [State.latchMemError_of_locked (hlock.trans h), hu]
    refine ⟨?_, rfl, fun _ => ⟨rfl, rfl⟩, fun h' => absurd (h.symm.trans h') (by decide)⟩
    rw [← h]; rfl
  | false =>
    rw [State.latchMemError_of_unlocked (hlock.trans h), hu]
    refine ⟨rfl, rfl, fun h' => absurd (h.symm.trans h') (by decide), fun _ => ?_⟩
    obtain ⟨h15, h14, _, hhigh⟩ :=
      errorStatus_fields (src == .fetch || src == .examDepo) (src == .dma) code (pa.extractLsb' 16 8)
    refine ⟨h15.trans ?_, h14.trans ?_, hhigh.trans ?_, ?_⟩
    · cases src <;> rfl
    · cases src <;> rfl
    · rw [BitVec.extractLsb'_toNat, Nat.shiftRight_eq_div_pow]
      have := pa.isLt
      omega
    · exact BitVec.extractLsb'_toNat ..

/-- The error code that is latched in PES. -/
theorem State.memoryError_code {s : State} (h : s.pesLock = false) (src : MemSource) (pa : PhysAddr) (code : BitVec 6) :
    (s.memoryError src pa code).pes.extractLsb' 8 6 = code := by
  obtain ⟨_, _, hcode, _⟩ :=
    errorStatus_fields (src == .fetch || src == .examDepo) (src == .dma) code (pa.extractLsb' 16 8)
  rw [State.memoryError, State.latchMemError_of_unlocked h]
  exact hcode

/-! ### What ECCR lets be corrected and reported (R173) -/

theorem State.eccReports_of_disabled {s : State} (h : s.eccr.getLsbD 3 = true) (f : EccFinding) :
    s.eccReports f = false := by simp only [State.eccReports, h, Bool.not_true, Bool.false_and]

theorem State.eccDeliver_of_disabled {s : State} (h : s.eccr.getLsbD 3 = true) (f : EccFinding) (w : Word) :
    s.eccDeliver f w = w := by simp only [State.eccDeliver, h, if_true]

theorem State.eccReports_dataBit {s : State} (h : s.eccr.getLsbD 3 = false) (i : Nat) :
    s.eccReports (.dataBit i) = s.eccr.getLsbD 2 := by simp only [State.eccReports, h, Bool.not_false, Bool.true_and]

theorem State.eccDeliver_dataBit {s : State} (h : s.eccr.getLsbD 3 = false) (i : Nat) (w : Word) :
    s.eccDeliver (.dataBit i) w = w ^^^ BitVec.twoPow 16 i := by
  simp only [State.eccDeliver, h, Bool.false_eq_true, if_false]

theorem State.eccReports_multiple {s : State} (h : s.eccr.getLsbD 3 = false) : s.eccReports .multiple = true := by
  simp only [State.eccReports, h, Bool.not_false, Bool.true_and]

theorem State.eccDeliver_multiple (s : State) (w : Word) : s.eccDeliver .multiple w = w := ite_self w

/-! ### A read of a word with an error -/

section Read

variable {s : State} {pa : PhysAddr} {f : EccFinding} {code : BitVec 6} (hpresent : s.memPresent pa = true)
  (hfound : eccClassify (s.syndrome pa) = (f, code)) (src : MemSource)
include hpresent hfound

/-- An error that is not reported changes nothing but the sample of the bus monitor. -/
theorem State.physRead_of_unreported (hreport : s.eccReports f = false) :
    ∃ m, s.physRead src pa = (s.eccDeliver f (s.mem.readWord pa), { s with busMonitor := m }) := by
  refine ⟨(s.physRead src pa).2.busMonitor, ?_⟩
  rw [State.physRead_of_present hpresent hfound, hreport, State.strobe_frame]
  rfl

/-- An error that is reported raises PTY and is latched with its code. -/
theorem State.physRead_of_reported (hreport : s.eccReports f = true) :
    ∃ t, s.physRead src pa = (s.eccDeliver f (s.mem.readWord pa), t) ∧ errorLatched s t src pa 8 ∧
      t.freeCount = s.freeCount ∧ (s.pesLock = false → t.pes.extractLsb' 8 6 = code) := by
  rw [State.physRead_of_present hpresent hfound, hreport, if_pos rfl]
  generalize s.eccDeliver f (s.mem.readWord pa) = v
  have hstrobe := s.strobe_frame src false pa v
  refine ⟨_, rfl, errorLatched_latchMemError ?_ src pa code .pty, ?_, fun hlock => ?_⟩
  · rw [hstrobe]
  · rw [State.memoryError, State.latchMemError_frame, hstrobe]; rfl
  · exact State.memoryError_code (by rw [hstrobe]; exact hlock) src pa code

end Read

theorem toNat_extractLsb'_code (w : Word) : (w.extractLsb' 8 6).toNat = w.toNat / 256 % 64 := by
  rw [BitVec.extractLsb'_toNat, Nat.shiftRight_eq_div_pow]

theorem getLsbD_extractLsb'_code (w : Word) : (w.extractLsb' 8 6).getLsbD 5 = w.getLsbD 13 := by
  rw [BitVec.getLsbD_extractLsb']; rfl

/-- A wrong data bit is corrected on reading, and reported as ECCR has it (R171 to R174). -/
theorem physRead_of_oneBit {s : State} {pa : PhysAddr} {i code : Nat} (src : MemSource)
    (hcode : dataBitCodes[i]? = some code) (hpresent : s.memPresent pa = true) (hgood : s.syndrome pa = 0) {u : State}
    (hu : u = s.memoryUpset pa (BitVec.twoPow 16 i) 0) :
    (s.eccr.getLsbD 3 = true →
      ∃ m, u.physRead src pa = (s.mem.readWord pa ^^^ BitVec.twoPow 16 i, { u with busMonitor := m })) ∧
    (s.eccr.getLsbD 3 = false → s.eccr.getLsbD 2 = false →
      ∃ m, u.physRead src pa = (s.mem.readWord pa, { u with busMonitor := m })) ∧
    (s.eccr.getLsbD 3 = false → s.eccr.getLsbD 2 = true →
      ∃ t, u.physRead src pa = (s.mem.readWord pa, t) ∧ errorLatched u t src pa 8 ∧ t.freeCount = u.freeCount ∧
        (s.pesLock = false → t.pes.toNat / 256 % 64 = code)) := by
  obtain ⟨hclass, hlt⟩ := eccClassify_dataBit hcode
  obtain ⟨heccr, hlock, hpresent', hword, hfound⟩ := State.upset_of_good hpresent hgood hclass hu
  have hrestored : u.mem.readWord pa ^^^ BitVec.twoPow 16 i = s.mem.readWord pa := by
    rw [hword, BitVec.xor_assoc, BitVec.xor_self, BitVec.xor_zero]
  refine ⟨fun h3 => ?_, fun h3 h2 => ?_, fun h3 h2 => ?_⟩
  · rw [← heccr] at h3
    obtain ⟨m, hread⟩ := State.physRead_of_unreported hpresent' hfound src (State.eccReports_of_disabled h3 _)
    exact ⟨m, by rw [hread, State.eccDeliver_of_disabled h3, hword]⟩
  · rw [← heccr] at h3 h2
    obtain ⟨m, hread⟩ :=
      State.physRead_of_unreported hpresent' hfound src ((State.eccReports_dataBit h3 i).trans h2)
    exact ⟨m, by rw [hread, State.eccDeliver_dataBit h3, hrestored]⟩
  · rw [← heccr] at h3 h2
    obtain ⟨t, hread, hlatched, hcount, hpes⟩ :=
      State.physRead_of_reported hpresent' hfound src ((State.eccReports_dataBit h3 i).trans h2)
    refine ⟨t, by rw [hread, State.eccDeliver_dataBit h3, hrestored], hlatched, hcount, fun hunlocked => ?_⟩
    rw [← toNat_extractLsb'_code, hpes (hlock.trans hunlocked), BitVec.toNat_ofNat, Nat.mod_eq_of_lt hlt]

/-- Two wrong data bits are delivered as they are and reported (R171 to R174). -/
theorem physRead_of_twoBits {s : State} {pa : PhysAddr} {i j : Nat} (src : MemSource) (hi : i < 16) (hj : j < 16)
    (hij : i ≠ j) (hpresent : s.memPresent pa = true) (hgood : s.syndrome pa = 0) (h3 : s.eccr.getLsbD 3 = false)
    {u : State} (hu : u = s.memoryUpset pa (BitVec.twoPow 16 i ||| BitVec.twoPow 16 j) 0) :
    ∃ t, u.physRead src pa = (u.mem.readWord pa, t) ∧ errorLatched u t src pa 8 ∧ t.freeCount = u.freeCount ∧
      (s.pesLock = false → t.pes.getLsbD 13 = true) := by
  obtain ⟨code, hclass, hbit⟩ := eccClassify_twoBits hi hj hij
  obtain ⟨heccr, hlock, hpresent', _, hfound⟩ := State.upset_of_good hpresent hgood hclass hu
  rw [← heccr] at h3
  obtain ⟨t, hread, hlatched, hcount, hpes⟩ :=
    State.physRead_of_reported hpresent' hfound src (State.eccReports_multiple h3)
  refine ⟨t, by rw [hread, State.eccDeliver_multiple], hlatched, hcount, fun hunlocked => ?_⟩
  rw [← getLsbD_extractLsb'_code, hpes (hlock.trans hunlocked), hbit]

/-! ### A reference that no module answers -/

theorem errorLatched_physRead_of_absent {s : State} {pa : PhysAddr} (h : s.memPresent pa = false) (src : MemSource) :
    errorLatched s (s.physRead src pa).2 src pa 9 := by
  rw [State.physRead_of_absent h]
  refine errorLatched_latchMemError ?_ src pa _ .mor
  rw [State.strobe_frame]; rfl

theorem errorLatched_physWrite_of_absent {s : State} {pa : PhysAddr} (h : s.memPresent pa = false) (src : MemSource)
    (w : Word) : errorLatched s (s.physWrite src pa w) src pa 9 := by
  rw [State.physWrite_of_absent h]
  refine errorLatched_latchMemError ?_ src pa _ .mor
  rw [State.strobe_frame]

end Sys2Proof.Machine
end

section
/-! EXAM, DEPO and the physical stores: what they leave in memory, in the page tables and in the cache
(R140, R157, R174; `spec/51_physical_memory.md` R561 to R573). -/

namespace Sys2Proof.Machine

/-! ### The registers at the end of an instruction -/

theorem State.cur_of_regs {s t : State} (hregs : t.regs = s.regs) (hpil : t.pil = s.pil) : t.cur = s.cur := by
  simp only [State.cur, State.reg, hregs, hpil]

theorem State.reg_of_regs {s t : State} (hregs : t.regs = s.regs) (l : BitVec 4) : t.reg l = s.reg l := by
  simp only [State.reg, hregs]

theorem State.setCur_withRegs (s : State) (q : RegSet) (r : Vector RegSet 16) : (s.setCur q).withRegs r = s.withRegs r :=
  rfl

theorem State.withRegs_of_regs {s : State} {r : Vector RegSet 16} (h : s.regs = r) : s.withRegs r = s := by
  rw [← h]; rfl

/-- Of the current level's set only the register `r` and P are written, and the instruction ends with the next word. -/
theorem registersBecome_put_advance {s t : State} (hregs : t.regs = s.regs) (hpil : t.pil = s.pil) {r : RField}
    (hzero : r ≠ .zero) (hp : r ≠ .p) (v : Word) :
    RegistersBecome s (t.setCur (t.cur.put r v)).advance [(r, v)] [] (s.p + 1) := by
  have hcur : (t.setCur (t.cur.put r v)).advance.cur = (s.cur.put r v).put .p (s.p + 1) := by
    simp only [State.advance, State.cur_setP, State.cur_setCur, State.cur_of_regs hregs hpil]
    cases r with
    | zero => exact absurd rfl hzero
    | p => exact absurd rfl hp
    | _ => simp [RegSet.put, State.p]
  have hsts : ((s.cur.put r v).put .p (s.p + 1)).sts = s.cur.sts := by
    cases r with
    | zero => exact absurd rfl hzero
    | _ => rfl
  refine ⟨hpil, ?_, nofun, ?_, ?_, ?_, ?_⟩
  · simp only [List.mem_singleton, forall_eq, hcur]
    rw [RegSet.get_put_ne _ _ hp, RegSet.get_put_self, if_neg hzero]
  · exact congrArg RegSet.p hcur
  · intro q _ hqp hq
    rw [hcur, RegSet.get_put_ne _ _ hqp, RegSet.get_put_ne _ _ (by simpa using hq)]
  · intro f _
    simp only [State.flag, State.sts, hcur, hsts]
  · intro l hl
    rw [← hpil] at hl
    exact (State.reg_setP_ne (t.setCur _) _ hl).trans ((State.reg_setCur_ne _ _ hl).trans (State.reg_of_regs hregs l))

/-- No register but P is written, and the instruction ends with the next word. -/
theorem registersBecome_advance {s t : State} (hregs : t.regs = s.regs) (hpil : t.pil = s.pil) :
    RegistersBecome s t.advance [] [] (s.p + 1) := by
  have hcur : t.advance.cur = s.cur.put .p (s.p + 1) := by
    simp [State.advance, State.p, State.cur_of_regs hregs hpil, RegSet.put]
  refine ⟨hpil, nofun, nofun, congrArg RegSet.p hcur, ?_, ?_, ?_⟩
  · intro q _ hqp _
    rw [hcur, RegSet.get_put_ne _ _ hqp]
  · intro f _
    simp only [State.flag, State.sts, hcur]
    rfl
  · intro l hl
    rw [← hpil] at hl
    rw [State.advance, State.reg_setP_ne _ _ hl, State.reg_of_regs hregs]

/-! ### Addresses -/

theorem toNat_append_word (hi : Byte) (lo : Word) : (hi ++ lo : PhysAddr).toNat = hi.toNat * 65536 + lo.toNat := by
  rw [BitVec.toNat_append, ← Nat.shiftLeft_add_eq_or_of_lt lo.isLt, Nat.shiftLeft_eq]

/-- The address of EXAM and DEPO (R562). -/
theorem State.adAddress_toNat (s : State) : s.adAddress.toNat = s.a.toNat % 256 * 65536 + s.d.toNat := by
  rw [State.adAddress, toNat_append_word, BitVec.extractLsb'_toNat, Nat.shiftRight_zero]

theorem State.eq_adAddress {s : State} {pa : PhysAddr} (h : pa.toNat = s.a.toNat % 256 * 65536 + s.d.toNat) :
    pa = s.adAddress := BitVec.eq_of_toNat_eq (h.trans s.adAddress_toNat.symm)

theorem txAddressOf_toNat (s : State) (delta : BitVec 3) (k : Nat) :
    (txAddressOf s delta k).toNat = s.t.toNat % 256 * 65536 + (s.x.toNat + delta.toNat + k) % 65536 := by
  rw [txAddressOf, BitVec.toNat_ofNat]
  omega

/-- The address of the xxxTX instructions is that of the statements (R565). -/
theorem State.txAddress_eq (s : State) (delta : BitVec 3) (k : Word) :
    s.txAddress delta k = txAddressOf s delta k.toNat := by
  apply BitVec.eq_of_toNat_eq
  rw [txAddressOf_toNat, State.txAddress, toNat_append_word, BitVec.extractLsb'_toNat, Nat.shiftRight_zero]
  simp only [BitVec.toNat_add, BitVec.toNat_setWidth]
  omega

theorem State.txAddress_zero (s : State) (delta : BitVec 3) : s.txAddress delta 0 = txAddressOf s delta 0 :=
  s.txAddress_eq delta 0

theorem State.txAddress_one (s : State) (delta : BitVec 3) : s.txAddress delta 1 = txAddressOf s delta 1 :=
  s.txAddress_eq delta 1

/-- The two words of a double word lie at different addresses. -/
theorem txAddressOf_one_ne_zero (s : State) (delta : BitVec 3) : txAddressOf s delta 1 ≠ txAddressOf s delta 0 := by
  intro h
  have := congrArg BitVec.toNat h
  rw [txAddressOf_toNat, txAddressOf_toNat] at this
  omega

theorem extractLsb'_low_eq_setWidth (pa : PhysAddr) : pa.extractLsb' 0 16 = pa.setWidth 16 :=
  BitVec.setWidth_eq_extractLsb' (by decide) |>.symm

/-! ### The instructions where they may run -/

section Allowed

variable {s : State} (hallowed : s.mayRunPrivileged = true)
include hallowed

theorem State.privileged_of_allowed (effect : Result) : s.privileged effect = effect := if_pos hallowed

theorem exec_exam_of_allowed :
    exec .exam s =
      .next ((s.busRead .examDepo s.adAddress).2.setT (s.busRead .examDepo s.adAddress).1).advance :=
  State.privileged_of_allowed hallowed _

theorem exec_depo_of_allowed : exec .depo s = .next (s.busWrite .examDepo s.adAddress s.t).advance :=
  State.privileged_of_allowed hallowed _

theorem exec_statx_of_allowed (delta : BitVec 3) :
    exec (.statx delta) s = .next (s.xWrite (txAddressOf s delta 0) s.a).advance := by
  rw [← State.txAddress_zero]
  exact State.privileged_of_allowed hallowed _

theorem exec_stztx_of_allowed (delta : BitVec 3) :
    exec (.stztx delta) s = .next (s.xWrite (txAddressOf s delta 0) 0).advance := by
  rw [← State.txAddress_zero]
  exact State.privileged_of_allowed hallowed _

theorem exec_stdtx_of_allowed (delta : BitVec 3) :
    exec (.stdtx delta) s =
      .next ((s.xWrite (txAddressOf s delta 0) s.a).xWrite (txAddressOf s delta 1) s.d).advance := by
  rw [← State.txAddress_zero, ← State.txAddress_one]
  exact State.privileged_of_allowed hallowed _

/-- STATX and STZTX by the word that they store. -/
theorem exec_singleStore {delta : BitVec 3} {i : Instr} {v : Word}
    (hi : (i, v) ∈ [(Instr.statx delta, s.a), (.stztx delta, 0)]) :
    exec i s = .next (s.xWrite (txAddressOf s delta 0) v).advance := by
  simp only [List.mem_cons, List.not_mem_nil, or_false, Prod.mk.injEq] at hi
  rcases hi with ⟨rfl, rfl⟩ | ⟨rfl, rfl⟩
  · exact exec_statx_of_allowed hallowed delta
  · exact exec_stztx_of_allowed hallowed delta

/-! ### EXAM and DEPO where no module answers -/

/-- EXAM completes with a word that is open, and the error is latched (R140, R174). -/
theorem exam_of_absent (habsent : s.memPresent s.adAddress = false) (hsteals : s.steals = [])
    (hoff : s.cacheEnabled = false) :
    ∃ t v, exec .exam s = .next t ∧ RegistersBecome s t [(.t, v)] [] (s.p + 1) ∧
      errorLatched s { t with regs := s.regs } .examDepo s.adAddress 9 := by
  have hexec := exec_exam_of_allowed hallowed
  have hlatched := errorLatched_physRead_of_absent habsent .examDepo
  have hregs := s.physRead_regs .examDepo s.adAddress
  rw [State.busRead_uncached hsteals hoff] at hexec
  refine ⟨_, (s.physRead .examDepo s.adAddress).1, hexec, ?_, ?_⟩
  · exact registersBecome_put_advance hregs (s.physRead_pil ..) (r := .t) nofun nofun _
  · change errorLatched s (State.withRegs _ s.regs) .examDepo s.adAddress 9
    rw [State.advance, State.setP, State.setCur_withRegs, State.setT, State.setCur_withRegs,
      State.withRegs_of_regs hregs]
    exact hlatched

/-- DEPO completes, and the error is latched (R140, R174). -/
theorem depo_of_absent (habsent : s.memPresent s.adAddress = false) (hsteals : s.steals = [])
    (hoff : s.cacheEnabled = false) :
    ∃ t, exec .depo s = .next t ∧ RegistersBecome s t [] [] (s.p + 1) ∧
      errorLatched s { t with regs := s.regs } .examDepo s.adAddress 9 := by
  have hexec := exec_depo_of_allowed hallowed
  have hlatched := errorLatched_physWrite_of_absent habsent .examDepo s.t
  have hregs := s.busWrite_regs .examDepo s.adAddress s.t
  refine ⟨_, hexec, registersBecome_advance hregs (s.busWrite_pil ..), ?_⟩
  change errorLatched s (State.withRegs _ s.regs) .examDepo s.adAddress 9
  rw [State.advance, State.setP, State.setCur_withRegs, State.withRegs_of_regs hregs,
    State.busWrite_uncached hsteals hoff]
  exact hlatched

end Allowed

/-- Settles O16: a wrong bit by the check bits of its pattern, an absent module by `outOfRange`; EXAM and DEPO end with the
physical cycle. -/
theorem memoryErrorsReported : Obligations.MemoryErrorsReported := by
  unfold Obligations.MemoryErrorsReported
  refine ⟨?_, ?_, ?_, ?_⟩
  · intro s u src pa i code hcode hpresent hgood hu
    exact physRead_of_oneBit src hcode hpresent hgood hu
  · intro s u src pa i j hi hj hij hpresent hgood h3 hu
    exact physRead_of_twoBits src hi hj hij hpresent hgood h3 hu
  · intro s src pa w habsent
    exact ⟨errorLatched_physRead_of_absent habsent src, errorLatched_physWrite_of_absent habsent src w⟩
  · intro s pa hallowed haddress habsent hsteals hoff
    obtain rfl := State.eq_adAddress haddress
    exact ⟨exam_of_absent hallowed habsent hsteals hoff, depo_of_absent hallowed habsent hsteals hoff⟩

/-! ### A single word stored -/

section Store

variable {s : State} (hsteals : s.steals = []) {pa : PhysAddr} (hpresent : s.memPresent pa = true)
include hsteals hpresent

/-- What a word stored where a module answers changes. -/
theorem State.busWrite_stored (src : MemSource) (w : Word) :
    s.busWrite src pa w =
      { s with
        mem := s.mem.writeWord pa w, ecc := (s.busWrite src pa w).ecc, cache := (s.busWrite src pa w).cache
        busMonitor := (s.busWrite src pa w).busMonitor } := by
  cases hon : s.cacheEnabled with
  | false => rw [State.busWrite_uncached hsteals hon, State.physWrite_of_present hpresent]
  | true =>
    rw [State.busWrite_cached hsteals hon hpresent, State.cacheFill_frame, State.physWrite_of_present hpresent]

/-- A word stored in the place of an instruction's one access: memory, the cache, the frame (R157, R561). -/
theorem storedWord_advance (src : MemSource) (w : Word) :
    RegistersBecome s (s.busWrite src pa w).advance [] [] (s.p + 1) ∧
    (s.busWrite src pa w).advance =
      { s with
        regs := (s.busWrite src pa w).advance.regs, mem := (s.busWrite src pa w).advance.mem
        ecc := (s.busWrite src pa w).advance.ecc, cache := (s.busWrite src pa w).advance.cache
        busMonitor := (s.busWrite src pa w).advance.busMonitor } ∧
    (s.busWrite src pa w).advance.mem.readWord pa = w ∧
    (∀ a, a / 2 ≠ pa.toNat → (s.busWrite src pa w).advance.mem.read a = s.mem.read a) ∧
    (s.cacheEnabled = true → cacheSorted s.cache = true → cachedAfter s (s.busWrite src pa w).advance pa w) ∧
    (s.cacheEnabled = false → (s.busWrite src pa w).advance.cache = s.cache) := by
  have hstored := State.busWrite_stored hsteals hpresent src w
  have hmem : (s.busWrite src pa w).advance.mem = s.mem.writeWord pa w := congrArg State.mem hstored
  refine ⟨?_, ?_, ?_, fun a ha => ?_, fun hon _ => ?_, fun hoff => ?_⟩
  · exact registersBecome_advance (s.busWrite_regs ..) (s.busWrite_pil ..)
  · rw [hstored]; rfl
  · rw [hmem, Memory.readWord_writeWord_self]
  · rw [hmem, Memory.read_writeWord_ne _ _ _ ha]
  · have hcopy := cachedAfter_busWrite hsteals hon src pa w
    rw [if_pos hpresent] at hcopy
    exact hcopy
  · rw [State.busWrite_uncached hsteals hoff]
    exact s.physWrite_cache src pa w

end Store

/-- A word written into the page tables in the place of an instruction's one access (R566). -/
theorem shadowWord_advance (s : State) (va w : Word) :
    RegistersBecome s (s.shadowWrite va w).advance [] [] (s.p + 1) ∧
    keepsMemory s (s.shadowWrite va w).advance ∧
    (s.shadowWrite va w).advance =
      { s with
        regs := (s.shadowWrite va w).advance.regs, prot := (s.shadowWrite va w).advance.prot
        map := (s.shadowWrite va w).advance.map } ∧
    (s.shadowWrite va w).advance.shadowRead va = w := by
  refine ⟨?_, keepsMemory_shadowWrite s va w, ?_, s.shadowRead_shadowWrite_self va w⟩
  · exact registersBecome_advance (s.shadowWrite_regs va w) (s.shadowWrite_pil va w)
  · rw [State.shadowWrite_frame]; rfl

/-! ### The words of the xxxTX stores, in memory or in the page tables -/

theorem State.xWrite_of_shadow {s : State} {pa : PhysAddr} (h : s.txShadow pa = true) (w : Word) :
    s.xWrite pa w = s.shadowWrite (pa.setWidth 16) w := by
  rw [State.xWrite, if_pos h, extractLsb'_low_eq_setWidth]

theorem State.xWrite_of_memory {s : State} {pa : PhysAddr} (h : s.txShadow pa = false) (w : Word) :
    s.xWrite pa w = s.busWrite .data pa w := by
  simp [State.xWrite, h]

/-- An address in the range of the page tables is in the lowest 64K, and reaches an entry by its low word (R566). -/
theorem State.txShadow_iff {s : State} {pa : PhysAddr} :
    s.txShadow pa = true ↔ s.cfg.hasMms = true ∧ pa.toNat < 65536 ∧ s.inShadow (pa.setWidth 16) = true := by
  have hbank : pa.extractLsb' 16 8 = 0 ↔ pa.toNat < 65536 := by
    rw [← BitVec.toNat_inj, BitVec.extractLsb'_toNat, Nat.shiftRight_eq_div_pow]
    have := pa.isLt
    simp
    omega
  simp only [State.txShadow, Bool.and_eq_true, beq_iff_eq, hbank, extractLsb'_low_eq_setWidth, and_assoc]

/-- Where a word of the xxxTX group goes: into the page tables, or to a module that answers. -/
def State.physicallyWritable (s : State) (pa : PhysAddr) : Prop := s.txShadow pa = true ∨ s.memPresent pa = true

section PhysicalWrite

variable {s : State} (hsteals : s.steals = []) {pa : PhysAddr} (hwritable : s.physicallyWritable pa) (w : Word)
include hsteals hwritable

theorem State.xWrite_frame :
    s.xWrite pa w =
      { s with
        mem := (s.xWrite pa w).mem, ecc := (s.xWrite pa w).ecc, cache := (s.xWrite pa w).cache
        prot := (s.xWrite pa w).prot, map := (s.xWrite pa w).map, busMonitor := (s.xWrite pa w).busMonitor } := by
  cases h : s.txShadow pa with
  | true => rw [State.xWrite_of_shadow h, State.shadowWrite_frame]
  | false =>
    have hpresent := hwritable.resolve_left (by simp [h])
    rw [State.xWrite_of_memory h, State.busWrite_stored hsteals hpresent]

theorem State.txShadow_xWrite (pb : PhysAddr) : (s.xWrite pa w).txShadow pb = s.txShadow pb := by
  rw [State.xWrite_frame hsteals hwritable]; rfl

theorem State.xWrite_mem :
    (s.xWrite pa w).mem = if s.txShadow pa then s.mem else s.mem.writeWord pa w := by
  cases h : s.txShadow pa with
  | true => rw [State.xWrite_of_shadow h, State.shadowWrite_frame]; rfl
  | false =>
    have hpresent := hwritable.resolve_left (by simp [h])
    rw [State.xWrite_of_memory h, State.busWrite_stored hsteals hpresent]; rfl

theorem State.xWrite_tables (h : s.txShadow pa = false) :
    (s.xWrite pa w).prot = s.prot ∧ (s.xWrite pa w).map = s.map := by
  have hpresent := hwritable.resolve_left (by simp [h])
  rw [State.xWrite_of_memory h, State.busWrite_stored hsteals hpresent]
  exact ⟨rfl, rfl⟩

/-- A physical word written is found there. -/
theorem State.physicalWord_xWrite_self : (s.xWrite pa w).physicalWord pa = w := by
  rw [State.physicalWord, State.txShadow_xWrite hsteals hwritable, State.xWrite_mem hsteals hwritable]
  cases h : s.txShadow pa with
  | true => rw [if_pos rfl, State.xWrite_of_shadow h, State.shadowRead_shadowWrite_self]
  | false => simp

/-- A physical word written leaves the words at the other addresses. -/
theorem State.physicalWord_xWrite_ne {pb : PhysAddr} (hne : pb ≠ pa) :
    (s.xWrite pa w).physicalWord pb = s.physicalWord pb := by
  rw [State.physicalWord, State.physicalWord, State.txShadow_xWrite hsteals hwritable,
    State.xWrite_mem hsteals hwritable]
  cases ha : s.txShadow pa with
  | true =>
    cases hb : s.txShadow pb with
    | true =>
      obtain ⟨_, hlowA, hinA⟩ := State.txShadow_iff.1 ha
      obtain ⟨_, hlowB, hinB⟩ := State.txShadow_iff.1 hb
      have hne' : pb.setWidth 16 ≠ pa.setWidth 16 := fun h => hne (by bv_omega)
      rw [if_pos rfl, if_pos rfl, State.xWrite_of_shadow ha, State.shadowRead_shadowWrite_ne w hinA hinB hne']
    | false => rfl
  | false =>
    cases hb : s.txShadow pb with
    | true =>
      have htables := State.xWrite_tables hsteals hwritable w ha
      rw [State.xWrite_frame hsteals hwritable, htables.1, htables.2]; rfl
    | false => exact Memory.readWord_writeWord_ne _ w hne

/-- A physical word written changes no byte of memory but those of its word. -/
theorem State.read_xWrite_ne {a : Nat} (ha : s.txShadow pa = false → a / 2 ≠ pa.toNat) :
    (s.xWrite pa w).mem.read a = s.mem.read a := by
  rw [State.xWrite_mem hsteals hwritable]
  cases h : s.txShadow pa with
  | true => rfl
  | false => exact Memory.read_writeWord_ne _ _ w (ha h)

end PhysicalWrite

/-! ### DEPO, STATX, STZTX and STDTX -/

section Stores

variable {s : State} (hallowed : s.mayRunPrivileged = true) (hsteals : s.steals = [])
include hallowed hsteals

/-- STDTX stores each of its words where its address lies, and changes nothing else (R573). -/
theorem exec_stdtx_stores {delta : BitVec 3}
    (hplaces : ∀ k, k < 2 → s.physicallyWritable (txAddressOf s delta k)) :
    ∃ t, exec (.stdtx delta) s = .next t ∧ RegistersBecome s t [] [] (s.p + 1) ∧
      t = { s with
        regs := t.regs, mem := t.mem, ecc := t.ecc, cache := t.cache, prot := t.prot, map := t.map
        busMonitor := t.busMonitor } ∧
      (∀ k v, (k, v) ∈ [(0, s.a), (1, s.d)] → t.physicalWord (txAddressOf s delta k) = v) ∧
      (∀ a, (∀ k, k < 2 → s.txShadow (txAddressOf s delta k) = false → a / 2 ≠ (txAddressOf s delta k).toNat) →
        t.mem.read a = s.mem.read a) ∧
      ((∀ k, k < 2 → s.txShadow (txAddressOf s delta k) = false) → t.prot = s.prot ∧ t.map = s.map) := by
  have hexec := exec_stdtx_of_allowed hallowed delta
  have hfirst := hplaces 0 (by decide)
  have hframe := State.xWrite_frame hsteals hfirst s.a
  have hshadow := State.txShadow_xWrite hsteals hfirst s.a
  have hself := State.physicalWord_xWrite_self hsteals hfirst s.a
  have hread (a : Nat) := State.read_xWrite_ne hsteals hfirst s.a (a := a)
  have htables := State.xWrite_tables hsteals hfirst s.a
  generalize s.xWrite (txAddressOf s delta 0) s.a = u at hexec hframe hshadow hself hread htables
  have hstealsU : u.steals = [] := by rw [hframe]; exact hsteals
  have hsecond : u.physicallyWritable (txAddressOf s delta 1) := by
    rw [hframe]; exact hplaces 1 (by decide)
  have hframeU := State.xWrite_frame hstealsU hsecond s.d
  refine ⟨_, hexec, ?_, ?_, ?_, fun a ha => ?_, fun hmemory => ?_⟩
  · exact registersBecome_advance (by rw [hframeU, hframe]) (by rw [hframeU, hframe])
  · rw [hframeU, hframe]; rfl
  · intro k v hkv
    simp only [List.mem_cons, List.not_mem_nil, or_false, Prod.mk.injEq] at hkv
    rcases hkv with ⟨rfl, rfl⟩ | ⟨rfl, rfl⟩
    · exact (State.physicalWord_xWrite_ne hstealsU hsecond s.d (txAddressOf_one_ne_zero s delta).symm).trans hself
    · exact State.physicalWord_xWrite_self hstealsU hsecond s.d
  · have hone : u.txShadow (txAddressOf s delta 1) = false → a / 2 ≠ (txAddressOf s delta 1).toNat := by
      rw [hshadow]; exact ha 1 (by decide)
    exact (State.read_xWrite_ne hstealsU hsecond s.d hone).trans (hread a (ha 0 (by decide)))
  · obtain ⟨hprot, hmap⟩ := htables (hmemory 0 (by decide))
    obtain ⟨hprotU, hmapU⟩ :=
      State.xWrite_tables hstealsU hsecond s.d ((hshadow _).trans (hmemory 1 (by decide)))
    exact ⟨hprotU.trans hprot, hmapU.trans hmap⟩

end Stores

/-- Settles O59: DEPO, STATX and STZTX by the one word that they store, STDTX by its two. -/
theorem physicalStores : Obligations.PhysicalStores := by
  unfold Obligations.PhysicalStores
  refine ⟨fun s pa hallowed hsteals haddress hpresent => ?_, fun s delta hallowed hsteals => ⟨fun i v hi => ?_, ?_⟩⟩
  · obtain rfl := State.eq_adAddress haddress
    exact ⟨_, exec_depo_of_allowed hallowed, storedWord_advance hsteals hpresent .examDepo s.t⟩
  · have hexec := exec_singleStore hallowed hi
    refine ⟨fun hmemory hpresent => ?_, fun hshadow => ?_⟩
    · rw [State.xWrite_of_memory hmemory] at hexec
      exact ⟨_, hexec, storedWord_advance hsteals hpresent .data v⟩
    · rw [State.xWrite_of_shadow hshadow] at hexec
      exact ⟨_, hexec, shadowWord_advance s _ v⟩
  · intro hplaces
    obtain ⟨t, hexec, hregisters, hframe, hwords, hrest⟩ := exec_stdtx_stores hallowed hsteals hplaces
    refine ⟨t, hexec, hregisters, hframe, fun k v hkv => ?_, hrest⟩
    have hshadow : t.txShadow = s.txShadow := by rw [hframe]; rfl
    have hword := hwords k v hkv
    rw [State.physicalWord, hshadow] at hword
    split_ifs at hword ⊢ <;> exact hword

end Sys2Proof.Machine
end

section
/-! The fields of an instruction word: what the decoder reads out of the word that the encoder puts together
(`spec/30_encoding.md` R200 to R223). A word is a base, which holds the operation code, plus its operands. -/

namespace Sys2Proof

/-! ### A base plus an operand below it -/

theorem base_add_div {base x d m : Nat} (hx : x < m) (hbase : m ∣ base) (hd : m ∣ d) :
    (base + x) / d = base / d := by
  obtain ⟨b, rfl⟩ := hbase
  obtain ⟨k, rfl⟩ := hd
  have hm : 0 < m := by omega
  rw [← Nat.div_div_eq_div_mul, ← Nat.div_div_eq_div_mul, Nat.mul_add_div hm, Nat.div_eq_of_lt hx,
    Nat.mul_div_cancel_left _ hm, Nat.add_zero]

theorem base_add_mod {base x m : Nat} (hx : x < m) (hbase : m ∣ base) : (base + x) % m = x := by
  rw [Nat.add_mod, Nat.mod_eq_zero_of_dvd hbase, Nat.zero_add, Nat.mod_mod, Nat.mod_eq_of_lt hx]

theorem ofNat_eq {w n : Nat} {v : BitVec w} (h : n % 2 ^ w = v.toNat) : BitVec.ofNat w n = v :=
  BitVec.eq_of_toNat_eq (by rw [BitVec.toNat_ofNat, h])

/-! ### Register numbers, shift types, bits -/

theorem RField.toNat_lt (r : RField) : r.toNat < 8 := by cases r <;> decide

@[simp] theorem RField.toNat_fromBits (n : Nat) : (RField.fromBits n).toNat = n % 8 := by
  have hlt : n % 8 < 8 := Nat.mod_lt _ (by decide)
  unfold RField.fromBits
  interval_cases n % 8 <;> rfl

theorem RField.fromBits_eq {n : Nat} {r : RField} (h : n % 8 = r.toNat) : RField.fromBits n = r := by
  rw [RField.fromBits, h]; cases r <;> rfl

@[simp] theorem decSr_toNat (n : Nat) : (decSr n).toNat = n / 8 % 8 := RField.toNat_fromBits _
@[simp] theorem decDr_toNat (n : Nat) : (decDr n).toNat = n % 8 := RField.toNat_fromBits _

theorem decSr_eq_iff {n : Nat} {r : RField} : decSr n = r ↔ n / 8 % 8 = r.toNat :=
  ⟨fun h => h ▸ (decSr_toNat n).symm, RField.fromBits_eq⟩

theorem decDr_eq_iff {n : Nat} {r : RField} : decDr n = r ↔ n % 8 = r.toNat :=
  ⟨fun h => h ▸ (decDr_toNat n).symm, RField.fromBits_eq⟩

theorem decSr_beq_false {n : Nat} {r : RField} (h : n / 8 % 8 ≠ r.toNat) : (decSr n == r) = false :=
  beq_eq_false_iff_ne.2 fun hr => h (decSr_eq_iff.1 hr)

theorem decDr_beq_false {n : Nat} {r : RField} (h : n % 8 ≠ r.toNat) : (decDr n == r) = false :=
  beq_eq_false_iff_ne.2 fun hr => h (decDr_eq_iff.1 hr)

theorem ShiftType.toNat_lt (t : ShiftType) : t.toNat < 4 := by cases t <;> decide

@[simp] theorem ShiftType.toNat_fromBits (n : Nat) : (ShiftType.fromBits n).toNat = n % 4 := by
  have hlt : n % 4 < 4 := Nat.mod_lt _ (by decide)
  unfold ShiftType.fromBits
  interval_cases n % 4 <;> rfl

theorem ShiftType.fromBits_eq {n : Nat} {t : ShiftType} (h : n % 4 = t.toNat) : ShiftType.fromBits n = t := by
  rw [ShiftType.fromBits, h]; cases t <;> rfl

theorem encBit_eq (b : Bool) (weight : Nat) : encBit b weight = b.toNat * weight := by cases b <;> simp [encBit]

@[simp] theorem decBit_toNat (n i : Nat) : (decBit n i).toNat = n / 2 ^ i % 2 := by
  unfold decBit
  rcases Nat.mod_two_eq_zero_or_one (n / 2 ^ i) with h | h <;> rw [h] <;> rfl

theorem decBit_eq {n i : Nat} {b : Bool} (h : n / 2 ^ i % 2 = b.toNat) : decBit n i = b := by
  rw [decBit, h]; cases b <;> rfl

/-- Bits 9-6 of a word are those of its modifier field. -/
theorem decBit_modifiers (n : Nat) :
    decBit n 9 = decBit (n / 64 % 16) 3 ∧ decBit n 8 = decBit (n / 64 % 16) 2 ∧
    decBit n 7 = decBit (n / 64 % 16) 1 ∧ decBit n 6 = decBit (n / 64 % 16) 0 := by
  refine ⟨decBit_eq ?_, decBit_eq ?_, decBit_eq ?_, decBit_eq ?_⟩ <;> rw [decBit_toNat] <;> omega

/-! ### The operands of each format, read back out of a word -/

theorem encMem_eq (m : MemRef) : encMem m = m.x.toNat * 1024 + m.i.toNat * 512 + m.b.toNat * 256 + m.disp.toNat := by
  simp only [encMem, encBit_eq]

theorem encMem_lt (m : MemRef) : encMem m < 2048 := by
  have := m.x.toNat_lt
  have := m.i.toNat_lt
  have := m.b.toNat_lt
  rw [encMem_eq]
  omega

/-- The memory reference format (R203). -/
theorem memoryFields {base : Nat} (hbase : 2048 ∣ base) (m : MemRef) :
    (base + encMem m) / 2048 = base / 2048 ∧ decMem (base + encMem m) = m := by
  refine ⟨base_add_div (encMem_lt m) hbase dvd_rfl, ?_⟩
  have := m.x.toNat_lt
  have := m.i.toNat_lt
  have := m.b.toNat_lt
  rw [decMem, encMem_eq, decBit_eq (b := m.x) (by omega), decBit_eq (b := m.i) (by omega),
    decBit_eq (b := m.b) (by omega), ofNat_eq (v := m.disp) (by omega)]

/-- An operand of `w` bits at the end of the word. -/
theorem operandField {w base : Nat} (hbase : 2 ^ w ∣ base) (v : BitVec w) :
    (∀ d, 2 ^ w ∣ d → (base + v.toNat) / d = base / d) ∧ BitVec.ofNat w (base + v.toNat) = v :=
  ⟨fun _ hd => base_add_div v.isLt hbase hd, ofNat_eq (base_add_mod v.isLt hbase)⟩

/-- A destination register at the end of the word (R223). -/
theorem destinationField {base : Nat} (hbase : 8 ∣ base) (dr : RField) :
    (∀ d, 8 ∣ d → (base + dr.toNat) / d = base / d) ∧ decDr (base + dr.toNat) = dr :=
  ⟨fun _ hd => base_add_div dr.toNat_lt hbase hd, RField.fromBits_eq (base_add_mod dr.toNat_lt hbase)⟩

theorem encSrDr_lt (sr dr : RField) : encSrDr sr dr < 64 := by
  have := sr.toNat_lt
  have := dr.toNat_lt
  unfold encSrDr
  omega

/-- The fields sr and dr (R223). -/
theorem registerFields {base : Nat} (hbase : 64 ∣ base) (sr dr : RField) :
    (∀ d, 64 ∣ d → (base + encSrDr sr dr) / d = base / d) ∧
    decSr (base + encSrDr sr dr) = sr ∧ decDr (base + encSrDr sr dr) = dr := by
  have := sr.toNat_lt
  have := dr.toNat_lt
  refine ⟨fun _ hd => base_add_div (encSrDr_lt sr dr) hbase hd, RField.fromBits_eq ?_, RField.fromBits_eq ?_⟩
  · unfold encSrDr; omega
  · unfold encSrDr; omega

/-- The source register over three ignored bits (R207). -/
theorem sourceFields {base : Nat} (hbase : 64 ∣ base) (sr : RField) (low : BitVec 3) :
    (∀ d, 64 ∣ d → (base + sr.toNat * 8 + low.toNat) / d = base / d) ∧
    decSr (base + sr.toNat * 8 + low.toNat) = sr ∧ BitVec.ofNat 3 (base + sr.toNat * 8 + low.toNat) = low := by
  have := sr.toNat_lt
  refine ⟨fun d hd => ?_, RField.fromBits_eq (by omega), ofNat_eq (by omega)⟩
  rw [Nat.add_assoc, base_add_div (by omega) hbase hd]

/-- The modifier bits 7 and 6 of a register operation with its registers (R209). -/
theorem modifierFields {base : Nat} (hbase : 256 ∣ base) (cm1 cld : Bool) (sr dr : RField) :
    (∀ d, 256 ∣ d → (base + encBit cm1 128 + encBit cld 64 + encSrDr sr dr) / d = base / d) ∧
    decBit (base + encBit cm1 128 + encBit cld 64 + encSrDr sr dr) 7 = cm1 ∧
    decBit (base + encBit cm1 128 + encBit cld 64 + encSrDr sr dr) 6 = cld ∧
    decSr (base + encBit cm1 128 + encBit cld 64 + encSrDr sr dr) = sr ∧
    decDr (base + encBit cm1 128 + encBit cld 64 + encSrDr sr dr) = dr := by
  have := cm1.toNat_lt
  have := cld.toNat_lt
  obtain ⟨_, hregs⟩ :=
    registerFields (base := base + encBit cm1 128 + encBit cld 64) (by simp only [encBit_eq]; omega) sr dr
  have := encSrDr_lt sr dr
  refine ⟨fun d hd => ?_, decBit_eq ?_, decBit_eq ?_, hregs⟩
  · rw [Nat.add_assoc, Nat.add_assoc, base_add_div (m := 256) _ hbase hd]
    simp only [encBit_eq]; omega
  · simp only [encBit_eq]; omega
  · simp only [encBit_eq]; omega

/-- The four modifier bits of an addition between registers with its registers (R209). -/
theorem additionFields {base : Nat} (hbase : 1024 ∣ base) (adc ad1 cm1 cld : Bool) (sr dr : RField) {n : Nat}
    (hn : n = base + encBit adc 512 + encBit ad1 256 + encBit cm1 128 + encBit cld 64 + encSrDr sr dr) :
    n / 1024 = base / 1024 ∧ decBit n 9 = adc ∧ decBit n 8 = ad1 ∧ decBit n 7 = cm1 ∧ decBit n 6 = cld ∧
    decSr n = sr ∧ decDr n = dr := by
  have := adc.toNat_lt
  have := ad1.toNat_lt
  have := cm1.toNat_lt
  have := cld.toNat_lt
  have := encSrDr_lt sr dr
  obtain ⟨_, hlow⟩ :=
    modifierFields (base := base + encBit adc 512 + encBit ad1 256) (by simp only [encBit_eq]; omega) cm1 cld sr dr
  rw [← hn] at hlow
  simp only [encBit_eq] at hn
  exact ⟨by omega, decBit_eq (by omega), decBit_eq (by omega), hlow⟩

/-- The level or bit number in bits 6-3 over a register number (R218, R222). -/
theorem nibbleFields {base : Nat} (hbase : 128 ∣ base) (v : BitVec 4) (dr : RField) :
    (∀ d, 128 ∣ d → (base + v.toNat * 8 + dr.toNat) / d = base / d) ∧
    decNibble3 (base + v.toNat * 8 + dr.toNat) = v ∧ decDr (base + v.toNat * 8 + dr.toNat) = dr := by
  have := dr.toNat_lt
  refine ⟨fun d hd => ?_, ofNat_eq (by omega), RField.fromBits_eq (by omega)⟩
  rw [Nat.add_assoc, base_add_div (by omega) hbase hd]

/-- The shift format: type, ignored bit and count, the register in bits 8-7 (R219). -/
theorem shiftFields {base : Nat} (hbase : 128 ∣ base) (htype : base / 512 % 4 = 0) (t : ShiftType) (ignored : Bool)
    (count : BitVec 6) :
    (base + t.toNat * 512 + encBit ignored 64 + count.toNat) / 2048 = base / 2048 ∧
    (base + t.toNat * 512 + encBit ignored 64 + count.toNat) / 128 % 4 = base / 128 % 4 ∧
    ShiftType.fromBits ((base + t.toNat * 512 + encBit ignored 64 + count.toNat) / 512) = t ∧
    decBit (base + t.toNat * 512 + encBit ignored 64 + count.toNat) 6 = ignored ∧
    BitVec.ofNat 6 (base + t.toNat * 512 + encBit ignored 64 + count.toNat) = count := by
  have := t.toNat_lt
  have := ignored.toNat_lt
  rw [encBit_eq]
  exact ⟨by omega, by omega, ShiftType.fromBits_eq (by omega), decBit_eq (by omega), ofNat_eq (by omega)⟩

/-- A field above bits 2-0, which are the operation code's: those bits, and the bits above the field, are the base's. -/
theorem base_add_middle {base x m : Nat} (hm : 8 ∣ m) (hx : x * 8 < m) (hbase : base % m < 8) :
    (∀ d, m ∣ d → (base + x * 8) / d = base / d) ∧ (base + x * 8) % 8 = base % 8 ∧ (base + x * 8) % m / 8 = x := by
  have hlt : base % m + x * 8 < m := by omega
  refine ⟨fun d hd => ?_, by omega, ?_⟩
  · rw [← Nat.div_add_mod base m, Nat.add_assoc, base_add_div hlt (dvd_mul_right ..) hd,
      base_add_div (by omega) (dvd_mul_right ..) hd]
  · rw [Nat.add_mod, Nat.mod_eq_of_lt hx, Nat.mod_eq_of_lt hlt]
    omega

/-- The level in bits 6-3 of SRB and LRB (R216). -/
theorem levelField {base : Nat} (hbase : base % 128 < 8) (v : BitVec 4) :
    (∀ d, 128 ∣ d → (base + v.toNat * 8) / d = base / d) ∧ (base + v.toNat * 8) % 8 = base % 8 ∧
    decNibble3 (base + v.toNat * 8) = v := by
  obtain ⟨hdiv, hmod, hfield⟩ := base_add_middle (m := 128) (x := v.toNat) (by decide) (by omega) hbase
  exact ⟨hdiv, hmod, ofNat_eq (by omega)⟩

/-- The displacement in bits 5-3 of a physical memory instruction (R210). -/
theorem deltaField {base : Nat} (hbase : base % 64 < 8) (v : BitVec 3) :
    (∀ d, 64 ∣ d → (base + v.toNat * 8) / d = base / d) ∧ (base + v.toNat * 8) % 8 = base % 8 ∧
    BitVec.ofNat 3 ((base + v.toNat * 8) / 8) = v := by
  obtain ⟨hdiv, hmod, hfield⟩ := base_add_middle (m := 64) (x := v.toNat) (by decide) (by omega) hbase
  exact ⟨hdiv, hmod, ofNat_eq (by omega)⟩

/-- The source register of EXR, bits 2-0 zero (R207). -/
theorem sourceField {base : Nat} (hbase : base % 64 < 8) (sr : RField) :
    (∀ d, 64 ∣ d → (base + sr.toNat * 8) / d = base / d) ∧ (base + sr.toNat * 8) % 8 = base % 8 ∧
    decSr (base + sr.toNat * 8) = sr := by
  have := sr.toNat_lt
  obtain ⟨hdiv, hmod, hfield⟩ := base_add_middle (m := 64) (x := sr.toNat) (by decide) (by omega) hbase
  exact ⟨hdiv, hmod, RField.fromBits_eq (by omega)⟩

/-! ### The operands that the decoder reads, put together again -/

theorem encBit_decBit (n i weight : Nat) : encBit (decBit n i) weight = n / 2 ^ i % 2 * weight := by
  rw [encBit_eq, decBit_toNat]

theorem encMem_decMem (n : Nat) : encMem (decMem n) = n % 2048 := by
  simp only [encMem, decMem, encBit_decBit, BitVec.toNat_ofNat]
  omega

theorem encSrDr_decSr_decDr (n : Nat) : encSrDr (decSr n) (decDr n) = n % 64 := by
  rw [encSrDr, decSr_toNat, decDr_toNat]
  omega

theorem decNibble3_toNat (n : Nat) : (decNibble3 n).toNat = n / 8 % 16 := BitVec.toNat_ofNat ..

end Sys2Proof
end

section
/-! The encoder's word decodes to its instruction (`spec/30_encoding.md` R200 to R222). -/

namespace Sys2Proof

/-! ### The additions between registers, whose words may have a name of their own (R209, log 7) -/

/-- The codes that bits 9-6 give a name, two of them only where the source is number 0. -/
theorem raddHasName_iff (n : Nat) :
    raddHasName (decBit n 9) (decBit n 8) (decBit n 7) (decBit n 6) (decSr n) = true ↔
      n / 64 % 16 = 1 ∨ n / 64 % 16 = 6 ∨ n / 64 % 16 = 7 ∨
        (n / 64 % 16 = 2 ∨ n / 64 % 16 = 4) ∧ n / 8 % 8 = 0 := by
  have hlt : n / 64 % 16 < 16 := Nat.mod_lt _ (by decide)
  have hzero : (decSr n == .zero) = true ↔ n / 8 % 8 = 0 := beq_iff_eq.trans decSr_eq_iff
  simp only [decBit_modifiers n]
  interval_cases n / 64 % 16 <;> simp [raddHasName, decBit, hzero]

/-- The words of RADD that no assembler name covers are decoded by their fields (R209). -/
theorem decodeRadd_of_unnamed {n : Nat}
    (h : raddHasName (decBit n 9) (decBit n 8) (decBit n 7) (decBit n 6) (decSr n) = false) :
    decodeRadd n = .radd (decBit n 9) (decBit n 8) (decBit n 7) (decBit n 6) (decSr n) (decDr n) := by
  unfold decodeRadd
  simp only [decBit_modifiers n] at h ⊢
  split
  case h_1 hcode | h_4 hcode | h_5 hcode => rw [hcode] at h; cases h
  case h_2 hcode | h_3 hcode =>
    rw [hcode] at h ⊢
    split
    case h_1 hs => rw [(decSr_eq_iff (r := .zero)).2 hs] at h; cases h
    case h_2 => rfl
  case h_6 => rfl

/-- With bit 10 set a register operation is an addition (R209). -/
theorem decodeRop_of_addition {n : Nat} (h : n / 1024 % 2 = 1) : decodeRop n = decodeRadd n := by
  unfold decodeRop
  split
  case h_5 => rfl
  all_goals omega

/-- COPY, but for the words named RCLR and EXIT (R209). -/
theorem decodeRadd_copy {n : Nat} (hcode : n / 64 % 16 = 1) (h : copyHasName (decSr n) (decDr n) = false) :
    decodeRadd n = .copy (decSr n) (decDr n) := by
  unfold decodeRadd
  simp only [hcode]
  split
  case h_1 hs => rw [(decSr_eq_iff (r := .zero)).2 hs] at h; cases h
  case h_2 hs =>
    refine if_neg fun hd => ?_
    rw [(decSr_eq_iff (r := .l)).2 hs, (decDr_eq_iff (r := .p)).2 hd] at h
    cases h
  case h_3 => rfl

/-! ### Every instruction -/

/-- The decoder reads an instruction's operation code and operands out of its value. -/
theorem decodeNat_encodeNat {hasCx : Bool} {i : Instr} (hwf : i.wellFormed hasCx = true) :
    decodeNat hasCx (encodeNat i) = .ok i := by
  cases i with
  | stz m | sta m | stt m | stx m | std m | ldd m | stf m | ldf m | min m | lda m | ldt m | ldx m | add m | sub m
  | and m | ora m | fad m | fsb m | fmu m | fdv m | mpy m | jmp m | jpl m =>
    simp (disch := decide) only [encodeNat, decodeNat, memoryFields]
  | jap v | jan v | jaz v | jaf v | jpc v | jnc v | jxz v | jxn v =>
    simp (disch := decide) only [encodeNat, decodeNat, operandField, decodeJump]
  | skpEql sr dr | skpGeq sr dr | skpGre sr dr | skpMgre sr dr | skpUeq sr dr | skpLss sr dr | skpLst sr dr
  | skpMlst sr dr =>
    simp (disch := decide) only [encodeNat, decodeNat, registerFields, decodeExtended, decodeSkp, if_true]
  | addd | subd | comd | tset | pack | upack | shde | rdus | init | entr | leave | eleav | setpt | clept | clnreent
  | chreentpages | clepu =>
    obtain rfl : hasCx = true := by simpa [Instr.wellFormed, Instr.isCx] using hwf
    rfl
  | bfill | movb | movbf | lbyt | sbyt | mix3 | lwcs | identPl10 | identPl11 | identPl12 | identPl13
  | exit | opcom | iof | ion | pof | piof | sex | rex | pon | pion | ioxt | exam | depo => rfl
  | cust1 v | cust3 v | cust4 v | cust5 v | cust6 v | cust7 v | cust10 v | cust11 v | cust12 v | cust13 v =>
    simp (disch := decide) only [encodeNat, decodeNat, operandField, decodeExtended]
  | cust2 v =>
    obtain rfl : hasCx = false := by simpa [Instr.wellFormed] using hwf
    simp (disch := decide) only [encodeNat, decodeNat, operandField, decodeExtended, decode1403]
  | movew v =>
    obtain rfl : hasCx = true := by simpa [Instr.wellFormed, Instr.isCx] using hwf
    simp (disch := decide) only [encodeNat, decodeNat, operandField, decodeExtended, if_true]
  | exr sr =>
    simp (disch := decide) only [encodeNat, decodeNat, sourceField, decodeExtended, onlyZero, if_true]
  | rmpy sr dr =>
    simp (disch := decide) only [encodeNat, decodeNat, registerFields, decodeExtended]
  | rdiv sr v =>
    simp (disch := decide) only [encodeNat, decodeNat, sourceFields, decodeExtended]
  | ldatx v | ldxtx v | lddtx v | ldbtx v | statx v | stztx v | stdtx v =>
    simp (disch := decide) only [encodeNat, decodeNat, deltaField, decodeExtended, decodePhysical]
  | swap cm1 cld sr dr | rand cm1 cld sr dr | rexo cm1 cld sr dr | rora cm1 cld sr dr =>
    simp (disch := decide) only [encodeNat, decodeNat, modifierFields, decodeRop]
  | rsub sr dr | copyCm2 sr dr =>
    simp (disch := decide) only [encodeNat, decodeNat, registerFields, decodeRop, decodeRadd]
  | rclr dr | rinc dr | rdcr dr =>
    simp (disch := decide) only [encodeNat, decodeNat, destinationField, decodeRop, decodeRadd]
  | tra v | trr v | mcl v | mst v =>
    simp (disch := decide) only [encodeNat, decodeNat, operandField, decodeSystem, decodeTransfer]
  | wait v | nlz v | dnz v | mon v =>
    simp (disch := decide) only [encodeNat, decodeNat, operandField, decodeSystem]
  | srb v | lrb v =>
    simp (disch := decide) only [encodeNat, decodeNat, levelField, decodeSystem, decodeBlock]
  | irw v dr | irr v dr =>
    simp (disch := decide) only [encodeNat, decodeNat, nibbleFields, decodeSystem, decBit]
    rfl
  | sht type ignored v | shd type ignored v | sha type ignored v | sad type ignored v =>
    simp (disch := decide) only [encodeNat, decodeNat, shiftFields, decodeShift]
  | iox v =>
    simp (disch := decide) only [encodeNat, decodeNat, operandField]
  | sab v | saa v | sat v | sax v | aab v | aaa v | aat v | aax v =>
    simp (disch := decide) only [encodeNat, decodeNat, operandField, decodeArgument]
  | bsetZro v dr | bsetOne v dr | bsetBcm v dr | bsetBac v dr | bskpZro v dr | bskpOne v dr | bskpBcm v dr
  | bskpBac v dr | bstc v dr | bsta v dr | bldc v dr | blda v dr | banc v dr | band v dr | borc v dr | bora v dr =>
    simp (disch := decide) only [encodeNat, decodeNat, nibbleFields, decodeBop]
  | radd adc ad1 cm1 cld sr dr =>
    have hname : raddHasName adc ad1 cm1 cld sr = false := by simpa [Instr.wellFormed] using hwf
    obtain ⟨hcode, h9, h8, h7, h6, hsr, hdr⟩ := additionFields (by decide) adc ad1 cm1 cld sr dr
      (n := encodeNat (.radd adc ad1 cm1 cld sr dr)) rfl
    have hmajor : encodeNat (.radd adc ad1 cm1 cld sr dr) / 2048 % 32 = 25 := by omega
    simp only [decodeNat, hmajor]
    rw [decodeRop_of_addition (by omega), decodeRadd_of_unnamed (by rwa [h9, h8, h7, h6, hsr]), h9, h8, h7, h6, hsr,
      hdr]
  | copy sr dr =>
    have hname : copyHasName sr dr = false := by simpa [Instr.wellFormed] using hwf
    obtain ⟨hdiv, hsr, hdr⟩ := registerFields (base := 0o146100) (by decide) sr dr
    simp (disch := decide) only [encodeNat, decodeNat, hdiv, decodeRop]
    rw [decodeRadd_copy (by rw [hdiv _ dvd_rfl]) (by rwa [hsr, hdr]), hsr, hdr]

/-- An instruction's value is that of a word. -/
theorem encodeNat_lt (i : Instr) : encodeNat i < 65536 := by
  cases i with
  | stz m | sta m | stt m | stx m | std m | ldd m | stf m | ldf m | min m | lda m | ldt m | ldx m | add m | sub m
  | and m | ora m | fad m | fsb m | fmu m | fdv m | mpy m | jmp m | jpl m =>
    have := encMem_lt m
    simp only [encodeNat]; omega
  | skpEql sr dr | skpGeq sr dr | skpGre sr dr | skpMgre sr dr | skpUeq sr dr | skpLss sr dr | skpLst sr dr
  | skpMlst sr dr | rmpy sr dr | rsub sr dr | copy sr dr | copyCm2 sr dr =>
    have := encSrDr_lt sr dr
    simp only [encodeNat]; omega
  | swap cm1 cld sr dr | rand cm1 cld sr dr | rexo cm1 cld sr dr | rora cm1 cld sr dr =>
    have := cm1.toNat_lt
    have := cld.toNat_lt
    have := encSrDr_lt sr dr
    simp only [encodeNat, encBit_eq]; omega
  | radd adc ad1 cm1 cld sr dr =>
    have := adc.toNat_lt
    have := ad1.toNat_lt
    have := cm1.toNat_lt
    have := cld.toNat_lt
    have := encSrDr_lt sr dr
    simp only [encodeNat, encBit_eq]; omega
  | exr r | rdiv r _ | rclr r | rinc r | rdcr r | irw _ r | irr _ r | bsetZro _ r | bsetOne _ r | bsetBcm _ r
  | bsetBac _ r | bskpZro _ r | bskpOne _ r | bskpBcm _ r | bskpBac _ r | bstc _ r | bsta _ r | bldc _ r | blda _ r
  | banc _ r | band _ r | borc _ r | bora _ r =>
    have := r.toNat_lt
    simp only [encodeNat]; omega
  | sht type ignored v | shd type ignored v | sha type ignored v | sad type ignored v =>
    have := type.toNat_lt
    have := ignored.toNat_lt
    simp only [encodeNat, encBit_eq]; omega
  | _ => simp only [encodeNat]; omega

/-- Settles O1: the fields of the encoder's word are the instruction's. -/
theorem decodeOfEncode : Obligations.DecodeOfEncode := by
  unfold Obligations.DecodeOfEncode
  intro hasCx i hwf
  have hword : (encodeWord i).toNat = encodeNat i := Nat.mod_eq_of_lt (encodeNat_lt i)
  rw [decodeWord, hword, decodeNat_encodeNat hwf]

end Sys2Proof
end

section
/-! A word that decodes is the word of its instruction (`spec/30_encoding.md` R200 to R226): one lemma for each part of the
decoder, about the words that reach it. -/

namespace Sys2Proof

/-- The value `n` is that of the instruction's word, and the installation has the instruction. -/
def WordOf (hasCx : Bool) (n : Nat) (i : Instr) : Prop := encodeNat i = n ∧ i.wellFormed hasCx = true

section
variable {hasCx : Bool} {n : Nat}

theorem wordOf_decodeJump (h : n / 2048 = 22) : WordOf hasCx n (decodeJump n) := by
  have hlt : n / 256 % 8 < 8 := Nat.mod_lt _ (by decide)
  unfold decodeJump
  interval_cases hk : n / 256 % 8 <;>
    exact ⟨by simp only [encodeNat, BitVec.toNat_ofNat]; omega, Bool.or_true _⟩

theorem wordOf_decodeArgument (h : n / 2048 = 30) : WordOf hasCx n (decodeArgument n) := by
  have hlt : n / 256 % 8 < 8 := Nat.mod_lt _ (by decide)
  unfold decodeArgument
  interval_cases hk : n / 256 % 8 <;>
    exact ⟨by simp only [encodeNat, BitVec.toNat_ofNat]; omega, Bool.or_true _⟩

theorem wordOf_decodeSkp (h : n / 2048 = 24) (hz : n / 64 % 4 = 0) : WordOf hasCx n (decodeSkp n) := by
  have hlt : n / 256 % 8 < 8 := Nat.mod_lt _ (by decide)
  unfold decodeSkp
  interval_cases hk : n / 256 % 8 <;>
    exact ⟨by simp only [encodeNat, encSrDr_decSr_decDr]; omega, Bool.or_true _⟩

theorem wordOf_decodeShift (h : n / 2048 = 27) : WordOf hasCx n (decodeShift n) := by
  have hlt : n / 128 % 4 < 4 := Nat.mod_lt _ (by decide)
  unfold decodeShift
  interval_cases hk : n / 128 % 4 <;>
    exact ⟨by simp only [encodeNat, ShiftType.toNat_fromBits, encBit_decBit, BitVec.toNat_ofNat]; omega, Bool.or_true _⟩

theorem wordOf_decodeBop (h : n / 2048 = 31) : WordOf hasCx n (decodeBop n) := by
  have hlt : n / 128 % 16 < 16 := Nat.mod_lt _ (by decide)
  unfold decodeBop
  interval_cases hk : n / 128 % 16 <;>
    exact ⟨by simp only [encodeNat, decNibble3_toNat, decDr_toNat]; omega, Bool.or_true _⟩

theorem wordOf_decode1401 {i : Instr} (h : n / 64 = 0o1401) (hi : decode1401 hasCx n = .ok i) : WordOf hasCx n i := by
  unfold decode1401 at hi
  split at hi <;> cases hi <;>
    exact ⟨by simp only [encodeNat]; omega, by simp [Instr.wellFormed, Instr.isCx]⟩

theorem wordOf_decode1403 {i : Instr} (h : n / 64 = 0o1403) (hi : decode1403 hasCx n = .ok i) : WordOf hasCx n i := by
  unfold decode1403 at hi
  split at hi <;> cases hi <;>
    exact ⟨by simp only [encodeNat, BitVec.toNat_ofNat]; omega, by simp [Instr.wellFormed, Instr.isCx]⟩

theorem wordOf_decodePhysical {i : Instr} (h : n / 64 = 0o1433) (hi : decodePhysical n = .ok i) : WordOf hasCx n i := by
  unfold decodePhysical at hi
  split at hi <;> cases hi <;>
    exact ⟨by simp only [encodeNat, BitVec.toNat_ofNat]; omega, Bool.or_true _⟩

theorem wordOf_decodeIdent {i : Instr} (h : n / 64 = 0o1436) (hi : decodeIdent n = .ok i) : WordOf hasCx n i := by
  unfold decodeIdent at hi
  split at hi <;> cases hi <;>
    exact ⟨by simp only [encodeNat]; omega, Bool.or_true _⟩

theorem onlyZero_eq_ok_iff {m : Nat} {i j : Instr} : onlyZero n m i = .ok j ↔ n % m = 0 ∧ i = j := by
  unfold onlyZero
  split <;> simp [*]

theorem wordOf_decodeTransfer {i : Instr} (h : n / 256 = 0o320) (hi : decodeTransfer n = .ok i) : WordOf hasCx n i := by
  unfold decodeTransfer at hi
  split at hi <;> cases hi <;>
    exact ⟨by simp only [encodeNat, BitVec.toNat_ofNat]; omega, Bool.or_true _⟩

theorem wordOf_decodeSingle {i : Instr} (h : n / 256 = 0o321) (hi : decodeSingle n = .ok i) : WordOf hasCx n i := by
  unfold decodeSingle at hi
  split at hi <;> cases hi <;>
    exact ⟨by simp only [encodeNat]; omega, Bool.or_true _⟩

theorem wordOf_decodeBlock {i : Instr} (h : n / 256 = 0o325) (hi : decodeBlock n = .ok i) : WordOf hasCx n i := by
  unfold decodeBlock at hi
  split at hi <;> cases hi <;>
    exact ⟨by simp only [encodeNat, decNibble3_toNat]; omega, Bool.or_true _⟩

theorem wordOf_decodeSystem {i : Instr} (h : n / 2048 = 26) (hi : decodeSystem n = .ok i) : WordOf hasCx n i := by
  unfold decodeSystem at hi
  split at hi
  case h_1 hk => exact wordOf_decodeTransfer (by omega) hi
  case h_2 hk => exact wordOf_decodeSingle (by omega) hi
  case h_6 hk => exact wordOf_decodeBlock (by omega) hi
  -- IRR and IRW
  case h_8 =>
    have hk : n / 256 = 0o327 := by simp only [imp_false] at *; omega
    have hbit := decBit_toNat n 7
    cases hvalue : decBit n 7
    all_goals
      rw [hvalue] at hi hbit
      simp only [Bool.toNat_false, Bool.toNat_true] at hbit
      cases hi
      exact ⟨by simp only [encodeNat, decNibble3_toNat, decDr_toNat]; omega, Bool.or_true _⟩
  all_goals
    cases hi
    exact ⟨by simp only [encodeNat, BitVec.toNat_ofNat]; omega, Bool.or_true _⟩

theorem wordOf_decodeExtended {i : Instr} (h : n / 2048 = 24) (hi : decodeExtended hasCx n = .ok i) : WordOf hasCx n i := by
  unfold decodeExtended at hi
  split at hi
  -- the parts of the group with a decoder of their own
  case h_1 hk => exact wordOf_decode1401 (by omega) hi
  case h_12 hk => exact wordOf_decode1403 (by omega) hi
  case h_20 hk => exact wordOf_decodePhysical (by omega) hi
  case h_22 hk => exact wordOf_decodeIdent (by omega) hi
  -- EXR, LBYT, SBYT, MIX3, LWCS
  case h_13 hk | h_16 hk | h_17 hk | h_19 hk | h_21 hk =>
    obtain ⟨hzero, rfl⟩ := onlyZero_eq_ok_iff.1 hi
    exact ⟨by simp only [encodeNat, decSr_toNat]; omega, Bool.or_true _⟩
  -- MOVEW
  case h_18 hk =>
    split at hi <;> cases hi
    rename_i hcx
    exact ⟨by simp only [encodeNat, BitVec.toNat_ofNat]; omega, by simp [Instr.wellFormed, hcx]⟩
  -- SKP
  case h_23 =>
    split at hi <;> cases hi
    exact wordOf_decodeSkp h (by omega)
  all_goals
    cases hi
    exact ⟨by simp only [encodeNat, BitVec.toNat_ofNat, encSrDr_decSr_decDr, decSr_toNat]; omega, Bool.or_true _⟩

/-- A COPY whose source is not number 0, and that is not COPY of L to P, has no other name (R209, log 7). -/
theorem copyHasName_of_ne (hzero : n / 8 % 8 ≠ 0) (hexit : n / 8 % 8 ≠ 4 ∨ n % 8 ≠ 2) :
    copyHasName (decSr n) (decDr n) = false := by
  have hlp : (decSr n == .l && decDr n == .p) = false := by
    rcases hexit with hl | hp
    · rw [decSr_beq_false (r := .l) hl, Bool.false_and]
    · rw [decDr_beq_false (r := .p) hp, Bool.and_false]
  rw [copyHasName, decSr_beq_false (r := .zero) hzero, hlp, Bool.or_false]

theorem wordOf_copy (h : n / 64 = 0o1461) (hname : copyHasName (decSr n) (decDr n) = false) :
    WordOf hasCx n (.copy (decSr n) (decDr n)) :=
  ⟨by simp only [encodeNat, encSrDr_decSr_decDr]; omega, by simp only [Instr.wellFormed, hname, Bool.not_false]⟩

theorem wordOf_radd (h : n / 1024 = 0o63)
    (hname : raddHasName (decBit n 9) (decBit n 8) (decBit n 7) (decBit n 6) (decSr n) = false) :
    WordOf hasCx n (.radd (decBit n 9) (decBit n 8) (decBit n 7) (decBit n 6) (decSr n) (decDr n)) :=
  ⟨by simp only [encodeNat, encBit_decBit, encSrDr_decSr_decDr]; omega,
    by simp only [Instr.wellFormed, hname, Bool.not_false]⟩

theorem wordOf_decodeRadd_copy (h : n / 64 = 0o1461) : WordOf hasCx n (decodeRadd n) := by
  have hcode : n / 64 % 16 = 1 := by omega
  simp only [decodeRadd, hcode]
  split
  case h_1 hs => exact ⟨by simp only [encodeNat, decDr_toNat]; omega, Bool.or_true _⟩
  case h_2 hs =>
    split
    case isTrue hd => exact ⟨by simp only [encodeNat]; omega, Bool.or_true _⟩
    case isFalse hd => exact wordOf_copy h (copyHasName_of_ne (by omega) (.inr hd))
  case h_3 hzero hl => exact wordOf_copy h (copyHasName_of_ne hzero (.inl hl))

theorem wordOf_decodeRadd (h : n / 1024 = 0o63) : WordOf hasCx n (decodeRadd n) := by
  cases hname : raddHasName (decBit n 9) (decBit n 8) (decBit n 7) (decBit n 6) (decSr n) with
  | false =>
    rw [decodeRadd_of_unnamed hname]
    exact wordOf_radd h hname
  | true =>
    rcases (raddHasName_iff n).1 hname with hcode | hcode | hcode | ⟨hcode | hcode, hs⟩
    · exact wordOf_decodeRadd_copy (by omega)
    all_goals
      simp only [decodeRadd, *]
      exact ⟨by simp only [encodeNat, encSrDr_decSr_decDr, decDr_toNat]; omega, Bool.or_true _⟩

theorem wordOf_decodeRop (h : n / 2048 = 25) : WordOf hasCx n (decodeRop n) := by
  by_cases hadd : n / 1024 % 2 = 1
  · rw [decodeRop_of_addition hadd]
    exact wordOf_decodeRadd (by omega)
  · have hlt : n / 256 % 8 < 4 := by omega
    unfold decodeRop
    interval_cases hk : n / 256 % 8 <;>
      exact ⟨by simp only [encodeNat, encBit_decBit, encSrDr_decSr_decDr]; omega, Bool.or_true _⟩

theorem wordOf_decodeNat {i : Instr} (h : n < 65536) (hi : decodeNat hasCx n = .ok i) : WordOf hasCx n i := by
  unfold decodeNat at hi
  split at hi
  -- the groups whose words may be unassigned
  case h_25 hk => exact wordOf_decodeExtended (by omega) hi
  case h_27 hk => exact wordOf_decodeSystem (by omega) hi
  case h_29 => cases hi
  all_goals cases hi
  -- the groups in which every word is an instruction, the bit operations last
  case h_23 hk => exact wordOf_decodeJump (by omega)
  case h_26 hk => exact wordOf_decodeRop (by omega)
  case h_28 hk => exact wordOf_decodeShift (by omega)
  case h_30 hk => exact ⟨by simp only [encodeNat, BitVec.toNat_ofNat]; omega, Bool.or_true _⟩
  case h_31 hk => exact wordOf_decodeArgument (by omega)
  case h_32 => exact wordOf_decodeBop (by simp only [imp_false] at *; omega)
  -- the memory reference format
  all_goals exact ⟨by simp only [encodeNat, encMem_decMem]; omega, Bool.or_true _⟩

end

/-- Settles O2: the instruction's value is that of the word, part by part of the decoder. -/
theorem encodeOfDecode : Obligations.EncodeOfDecode := by
  unfold Obligations.EncodeOfDecode
  intro hasCx w i hi
  obtain ⟨hword, hwf⟩ := wordOf_decodeNat w.isLt hi
  exact ⟨BitVec.eq_of_toNat_eq ((Nat.mod_eq_of_lt (hword ▸ w.isLt)).trans hword), hwf⟩

/-- Settles O3: the decoder evaluated at the eleven words. -/
theorem printedWordsDecode : Obligations.PrintedWordsDecode := by
  unfold Obligations.PrintedWordsDecode
  exact ⟨rfl, rfl, rfl, rfl, rfl, rfl, rfl, rfl, rfl, rfl, rfl⟩

end Sys2Proof
end

section
/-! The fetch that gives no instruction to execute: a word that is none, and a fetch that the page tables refuse
(`spec/60_exceptions.md` R676, R684). -/

namespace Sys2Proof.Machine

/-- A word that is no instruction: II after the prefetch, and P at the next word (R225). -/
theorem State.instruction_of_unassigned {s s' : State} {w : Word} {e : DecodeError}
    (hfetch : s.memRead .fetch .prel s.p = .done w s') (hdecode : decodeWord s'.cfg.hasCx w = .error e) :
    s.instruction = .next (s'.prefetch.raise .ii).advance.atBoundary := by
  simp only [State.instruction, hfetch, State.runWord, State.executeFetched, State.prefetch_cfg, hdecode, State.illegal,
    andThen]

/-- A refused fetch ends the unit, P at the instruction (R676). -/
theorem State.instruction_of_refused {s s' : State} (hfetch : s.memRead .fetch .prel s.p = .aborted s') :
    s.instruction = .next s'.atBoundary := by
  simp only [State.instruction, hfetch]

/-- II leaves the registers but P, memory, and marks its bit of IID (R684). -/
theorem illegal_effect {s t : State} (hframe : t = { s with prot := t.prot, watch := t.watch }) :
    ((t.raise .ii).advance.atBoundary).p = s.p + 1 ∧ ((t.raise .ii).advance.atBoundary).iid.getLsbD 4 = true ∧
    keepsRegisters s (t.raise .ii).advance.atBoundary [] [] ∧ keepsMemory s (t.raise .ii).advance.atBoundary := by
  have hregs : (t.raise .ii).regs = s.regs := by rw [hframe]; rfl
  have hpil : (t.raise .ii).pil = s.pil := by rw [hframe]; rfl
  have hbecome := registersBecome_advance hregs hpil
  refine ⟨hbecome.next, ?_, hbecome.rest, ?_, ?_⟩
  · exact (getLsbD_setBit t.iid 4 4 true (by decide)).trans (if_pos rfl)
  · rw [hframe]; rfl
  · rw [hframe]; rfl

/-- Bit 15 of the paging status says that a fetch was refused (R137). -/
theorem pagingStatus_fetch (r : PageRefusal) (e : BitVec 8) : (pagingStatus .fetch r e).getLsbD 15 = true := by
  have hlow := e.isLt
  have hvalue := pagingStatus_toNat .fetch r e
  have hbit : (pagingStatus .fetch r e).toNat / 2 ^ 15 % 2 = 1 := by
    rw [hvalue, if_pos rfl]
    split_ifs <;> omega
  rw [BitVec.getLsbD, Nat.testBit_eq_decide_div_mod_eq, hbit]
  rfl

/-- A refused access leaves the registers and memory. -/
theorem State.refuseAccess_keeps (s : State) (kind : Kind) (r : PageRefusal) (e : BitVec 8) :
    (s.refuseAccess kind r e).p = s.p ∧ (s.refuseAccess kind r e).regs = s.regs ∧
      (s.refuseAccess kind r e).mem = s.mem := by
  rw [State.refuseAccess_frame]
  exact ⟨rfl, rfl, rfl⟩

/-- Settles O9: the unit is the instruction at P, which is `illegal` behind the prefetch, or the refusal of the fetch. -/
theorem fetchFailures : Obligations.FetchFailures := by
  unfold Obligations.FetchFailures
  constructor
  · intro s s2 w hevents hrun hsemi hdone hfetch hdecode
    obtain ⟨hp, hiid, hregs, hmem⟩ := illegal_effect s2.prefetch_frame
    refine ⟨_, ?_, hp, hiid, hregs, hmem⟩
    rw [step_eq_unit hevents hrun hsemi, State.unit_of_boundaryDone hdone, State.afterTest_of_noSemi hsemi,
      State.instruction_of_unassigned hfetch hdecode]
  · intro s s1 hevents hrun hsemi hdone hfetch
    obtain ⟨_, htranslate⟩ := State.memRead_aborted hfetch
    obtain ⟨_, r, _, rfl⟩ := State.translate_aborted htranslate
    obtain ⟨hp, hregs, hmem⟩ := s.refuseAccess_keeps .fetch r (s.entryFor .prel s.p)
    refine ⟨(s.refuseAccess .fetch r (s.entryFor .prel s.p)).atBoundary, ?_, hp, hregs, hmem, ?_, ?_, ?_⟩
    · rw [step_eq_unit hevents hrun hsemi, State.unit_of_boundaryDone hdone, State.afterTest_of_noSemi hsemi,
        State.instruction_of_refused hfetch]
    · intro hlock
      obtain ⟨hpsr, hlocked⟩ := State.refuseAccess_of_unlocked hlock .fetch r (s.entryFor .prel s.p)
      exact ⟨(congrArg (·.getLsbD 15) hpsr).trans (pagingStatus_fetch r _), hlocked⟩
    · exact fun hlock => (State.refuseAccess_of_locked hlock ..).1
    · cases r
      case pageFault => exact .inr (s.refuseAccess_iid ..)
      all_goals exact .inl (s.refuseAccess_iid ..)

end Sys2Proof.Machine
end

section
/-! The ends of the instructions that read or store a data word: they write registers of the current level, each one of a list,
its flags, each one of a list, and P, and draw free values. -/

namespace Sys2Proof.Machine

/-- From `s` to `t` nothing is written but the registers `rs`, the flags `fs` and P of the current level, and the count of draws. -/
structure WritesOnly (rs : List RField) (fs : List Flag) (s t : State) : Prop where
  only : onlyRegisters s t
  kept : keepsRegisters s t rs fs

theorem WritesOnly.refl (rs : List RField) (fs : List Flag) (s : State) : WritesOnly rs fs s s :=
  ⟨rfl, fun _ _ _ _ => rfl, fun _ _ => rfl, fun _ _ => rfl⟩

namespace WritesOnly

variable {rs : List RField} {fs : List Flag} {s t : State} (h : WritesOnly rs fs s t)
include h

theorem pil : t.pil = s.pil := by rw [h.only]

/-- A register set that differs from the current one in those registers and flags alone is put in its place. -/
theorem setCur {q : RegSet} (hregs : ∀ r : RField, r ≠ .zero → r ≠ .p → r ∉ rs → q.get r = t.cur.get r)
    (hflags : ∀ f : Flag, f ∉ fs → q.sts.getLsbD f.bit = t.flag f) : WritesOnly rs fs s (t.setCur q) := by
  obtain ⟨honly, hr, hf, hl⟩ := h
  have hpil : t.pil = s.pil := by rw [honly]
  refine ⟨?_, fun r hz hp hn => ?_, fun f hn => ?_, fun l hne => ?_⟩
  · rw [onlyRegisters, honly]; rfl
  · rw [State.cur_setCur, hregs r hz hp hn, hr r hz hp hn]
  · rw [State.flag, State.sts, State.cur_setCur, hflags f hn, hf f hn]
  · rw [State.reg_setCur_ne _ _ (hpil ▸ hne), hl l hne]

/-- One of the registers, or P, is written. -/
theorem put {r : RField} (hzero : r ≠ .zero) (hr : r ∈ rs ∨ r = .p) (v : Word) :
    WritesOnly rs fs s (t.setCur (t.cur.put r v)) := by
  refine h.setCur (fun q _ hp hn => RegSet.get_put_ne _ _ ?_) fun f _ => ?_
  · rintro rfl
    exact hr.elim hn hp
  · cases r with
    | zero => exact absurd rfl hzero
    | _ => rfl

theorem setP (v : Word) : WritesOnly rs fs s (t.setP v) := h.put (r := .p) nofun (.inr rfl) v
theorem setA (hr : .a ∈ rs) (v : Word) : WritesOnly rs fs s (t.setA v) := h.put (r := .a) nofun (.inl hr) v
theorem setD (hr : .d ∈ rs) (v : Word) : WritesOnly rs fs s (t.setD v) := h.put (r := .d) nofun (.inl hr) v
theorem setT (hr : .t ∈ rs) (v : Word) : WritesOnly rs fs s (t.setT v) := h.put (r := .t) nofun (.inl hr) v
theorem setX (hr : .x ∈ rs) (v : Word) : WritesOnly rs fs s (t.setX v) := h.put (r := .x) nofun (.inl hr) v
theorem setB (hr : .b ∈ rs) (v : Word) : WritesOnly rs fs s (t.setB v) := h.put (r := .b) nofun (.inl hr) v
theorem setL (hr : .l ∈ rs) (v : Word) : WritesOnly rs fs s (t.setL v) := h.put (r := .l) nofun (.inl hr) v

theorem advance : WritesOnly rs fs s t.advance := h.setP _
theorem skip : WritesOnly rs fs s t.skip := h.setP _
theorem skipIf (c : Bool) : WritesOnly rs fs s (t.skipIf c) := ite_keeps h.skip h.advance

/-- One of the flags is written. -/
theorem setFlag {f : Flag} (hf : f ∈ fs) (b : Bool) : WritesOnly rs fs s (t.setFlag f b) := by
  refine h.setCur (fun r hz _ _ => ?_) fun g hg => ?_
  · cases r with
    | zero => exact absurd rfl hz
    | _ => rfl
  · have hne : g ≠ f := fun e => hg (e ▸ hf)
    have hflag := t.flag_setFlag_ne b hne
    rwa [State.flag, State.sts, State.setFlag, State.cur_setSts] at hflag

theorem setOverflow (hq : .q ∈ fs) (ho : .o ∈ fs) (ovf : Bool) : WritesOnly rs fs s (t.setOverflow ovf) :=
  ite_keeps ((h.setFlag hq _).setFlag ho _) (h.setFlag hq _)

theorem setAddFlags (hc : .c ∈ fs) (hq : .q ∈ fs) (ho : .o ∈ fs) (r : Sum16) : WritesOnly rs fs s (t.setAddFlags r) :=
  (h.setFlag hc _).setOverflow hq ho _

/-- The count of draws is no register. -/
theorem drawBit : WritesOnly rs fs s t.drawBit.2 := by
  refine ⟨?_, h.kept⟩
  rw [onlyRegisters, h.only]
  rfl

theorem drawWord : WritesOnly rs fs s t.drawWord.2 := h.drawBit

end WritesOnly

end Sys2Proof.Machine
end

section
/-! The accesses to data of an instruction and what they leave as it was: reads and stores change no register and, with no other
agent on the bus, none of the control state but the map halves; reads change no map half and no memory
(`spec/20_memory.md` R130, R135, R136, R182). -/

namespace Sys2Proof.Machine

/-! ### Frames in sequence -/

theorem keepsControl.trans {s t u : State} (hst : keepsControl s t) (htu : keepsControl t u) : keepsControl s u := by
  simp only [keepsControl] at htu ⊢
  simp only [htu]
  exact hst

/-- The control state but the map halves, which a store into the page tables writes. -/
def keepsControlButMap (s t : State) : Prop := keepsControl s { t with map := s.map }

theorem keepsControlButMap.trans {s t u : State} (hst : keepsControlButMap s t) (htu : keepsControlButMap t u) :
    keepsControlButMap s u := by
  simp only [keepsControlButMap, keepsControl] at hst htu ⊢
  simp only [htu]
  exact hst

theorem keepsControl.butMap {s t : State} (h : keepsControl s t) : keepsControlButMap s t := by
  simp only [keepsControlButMap, keepsControl] at h ⊢
  simp only [h, and_self]

theorem keepsControl.steals {s t : State} (h : keepsControl s t) : t.steals = s.steals := by
  simp only [keepsControl] at h
  simp only [h]

theorem keepsControlButMap.steals {s t : State} (h : keepsControlButMap s t) : t.steals = s.steals :=
  keepsControl.steals (t := { t with map := s.map }) h

theorem keepsControl_of_onlyRegisters {s t : State} (h : onlyRegisters s t) : keepsControl s t := by
  rw [h]
  simp only [keepsControl, and_self]

theorem keepsMemory_of_onlyRegisters {s t : State} (h : onlyRegisters s t) : keepsMemory s t := by
  rw [h]
  exact ⟨rfl, rfl⟩

/-- Where an access leaves the register file and the level, the registers that an instruction keeps behind it it keeps. -/
theorem keepsRegisters_of_regs {s u t : State} {rs : List RField} {fs : List Flag} (hregs : u.regs = s.regs)
    (hpil : u.pil = s.pil) (h : keepsRegisters u t rs fs) : keepsRegisters s t rs fs := by
  obtain ⟨hr, hf, hl⟩ := h
  have hcur := State.cur_of_regs hregs hpil
  refine ⟨fun r hz hp hn => ?_, fun f hn => ?_, fun l hne => ?_⟩
  · rw [hr r hz hp hn, hcur]
  · rw [hf f hn, State.flag, State.flag, State.sts, State.sts, hcur]
  · rw [hl l (hpil ▸ hne), State.reg_of_regs hregs]

/-! ### Accesses to data -/

theorem Access.All.of_eq_done {α : Type} {P : State → Prop} {x : Access α} {v : α} {t : State} (hx : x.All P)
    (e : x = .done v t) : P t := by
  rw [e] at hx
  exact hx

theorem Access.All.mono {α : Type} {P Q : State → Prop} {x : Access α} (hx : x.All P) (h : ∀ s, P s → Q s) : x.All Q := by
  cases x with
  | done v s => exact h s hx
  | aborted s => exact h s hx

/-- Only a fetch lowers the ring (R135). -/
theorem State.translate_data_frame {s t : State} {kind : Kind} {rel : Rel} {va : Word} {pa : PhysAddr}
    (hkind : kind ≠ .fetch) (h : s.translate kind rel va = .done pa t) : t = { s with prot := t.prot, watch := t.watch } := by
  rcases State.translate_done h with ⟨_, _, rfl⟩ | ⟨_, _, _, rfl⟩
  · rfl
  · rw [State.degrade, if_neg (by simp [hkind])]; rfl

/-- What an access to data leaves of `s`: the registers and, with no other agent on the bus, the control state but the map
halves. -/
structure DataAccess (s t : State) : Prop where
  regs : t.regs = s.regs
  pil : t.pil = s.pil
  control : s.steals = [] → keepsControlButMap s t

theorem DataAccess.refl (s : State) : DataAccess s s :=
  ⟨rfl, rfl, fun _ => keepsControl.butMap (keepsControl_of_onlyRegisters rfl)⟩

theorem DataAccess.trans {s t u : State} (hst : DataAccess s t) (htu : DataAccess t u) : DataAccess s u :=
  ⟨htu.regs.trans hst.regs, htu.pil.trans hst.pil, fun hq =>
    (hst.control hq).trans (htu.control ((hst.control hq).steals.trans hq))⟩

/-- What reads of data leave of `s`: the registers and, with no other agent on the bus, the control state and memory. -/
structure OnlyRead (s t : State) : Prop where
  regs : t.regs = s.regs
  pil : t.pil = s.pil
  quiet : s.steals = [] → keepsControl s t ∧ keepsMemory s t

theorem OnlyRead.refl (s : State) : OnlyRead s s :=
  ⟨rfl, rfl, fun _ => ⟨keepsControl_of_onlyRegisters rfl, rfl, rfl⟩⟩

theorem OnlyRead.trans {s t u : State} (hst : OnlyRead s t) (htu : OnlyRead t u) : OnlyRead s u := by
  refine ⟨htu.regs.trans hst.regs, htu.pil.trans hst.pil, fun hq => ?_⟩
  obtain ⟨hcontrol, hmem, hecc⟩ := hst.quiet hq
  obtain ⟨hcontrol', hmem', hecc'⟩ := htu.quiet (hcontrol.steals.trans hq)
  exact ⟨hcontrol.trans hcontrol', hmem'.trans hmem, hecc'.trans hecc⟩

theorem OnlyRead.dataAccess {s t : State} (h : OnlyRead s t) : DataAccess s t :=
  ⟨h.regs, h.pil, fun hq => (h.quiet hq).1.butMap⟩

theorem OnlyRead.cur {s t : State} (h : OnlyRead s t) : t.cur = s.cur := State.cur_of_regs h.regs h.pil

/-- A refused access leaves its mark in PSR and IID alone (R137). -/
theorem onlyRead_of_refused {s t : State} {kind : Kind} {rel : Rel} {va : Word}
    (h : s.translate kind rel va = .aborted t) : OnlyRead s t := by
  rw [State.translate_aborted_frame h]
  exact ⟨rfl, rfl, fun _ => ⟨by simp only [keepsControl, and_self], rfl, rfl⟩⟩

theorem onlyRead_of_memRead {s t : State} {kind : Kind} {rel : Rel} {va w : Word} (hkind : kind ≠ .fetch)
    (h : s.memRead kind rel va = .done w t) : OnlyRead s t := by
  rcases State.memRead_done h with ⟨_, _, rfl⟩ | ⟨_, pa, u, htranslate, hread⟩
  · exact .refl _
  · obtain rfl : t = (u.busRead kind.source pa).2 := by rw [← hread]
    have hframe := State.translate_data_frame hkind htranslate
    rw [State.busRead_frame]
    refine ⟨by rw [hframe], by rw [hframe], fun hq => ?_⟩
    rw [State.yieldBus_quiet (by rw [hframe]; exact hq), hframe]
    exact ⟨by simp only [keepsControl, and_self], rfl, rfl⟩

theorem dataAccess_of_memWrite {s t : State} {rel : Rel} {va w : Word} {u : Unit} (h : s.memWrite rel va w = .done u t) :
    DataAccess s t := by
  rcases State.memWrite_done h with ⟨_, rfl⟩ | ⟨_, pa, u, htranslate, rfl⟩
  · rw [State.shadowWrite_frame]
    exact ⟨rfl, rfl, fun _ => by simp only [keepsControlButMap, keepsControl, and_self]⟩
  · have hframe := State.translate_data_frame (by decide) htranslate
    rw [State.busWrite_frame]
    refine ⟨by rw [hframe], by rw [hframe], fun hq => ?_⟩
    rw [State.yieldBus_quiet (by rw [hframe]; exact hq), hframe]
    simp only [keepsControlButMap, keepsControl, and_self]

/-! ### Reads in sequence -/

namespace OnlyRead

variable {s u : State} (h : OnlyRead s u)
include h

theorem memRead {kind : Kind} (hkind : kind ≠ .fetch) (rel : Rel) (va : Word) :
    (u.memRead kind rel va).All (OnlyRead s) := by
  cases e : u.memRead kind rel va with
  | done w t => exact h.trans (onlyRead_of_memRead hkind e)
  | aborted t => exact h.trans (onlyRead_of_refused (State.memRead_aborted e).2)

theorem effLoc (m : MemRef) : (u.effLoc m).All (OnlyRead s) := by
  unfold State.effLoc
  dsimp only
  split
  · exact (h.memRead (by decide) _ _).bind fun _ _ h => h
  · split <;> exact h

theorem readOperand (m : MemRef) : (u.readOperand m).All (OnlyRead s) :=
  (h.effLoc m).bind fun _ _ h => h.memRead (by decide) _ _

theorem readDouble (rel : Rel) (va : Word) : (u.readDouble .rop rel va).All (OnlyRead s) :=
  (h.memRead (by decide) _ _).bind fun _ _ h => (h.memRead (by decide) _ _).bind fun _ _ h => h

theorem readTriple (rel : Rel) (va : Word) : (u.readTriple .rop rel va).All (OnlyRead s) :=
  (h.memRead (by decide) _ _).bind fun _ _ h => (h.memRead (by decide) _ _).bind fun _ _ h =>
    (h.memRead (by decide) _ _).bind fun _ _ h => h

theorem loadByte (rel : Rel) (a : ByteAddr) : (u.loadByte rel a).All (OnlyRead s) :=
  (h.memRead (by decide) _ _).bind fun _ _ h => h

theorem readBytes (rel : Rel) (n : Nat) (a : ByteAddr) : (readBytes rel n a u).All (OnlyRead s) := by
  induction n generalizing u a with
  | zero => exact h
  | succ n ih => exact (h.loadByte _ _).bind fun _ _ h => (ih h _).bind fun _ _ h => h

theorem readPacked (d1 d2 : Word) : (u.readPacked d1 d2).All (OnlyRead s) :=
  (h.readBytes _ _ _).bind fun _ _ h => h

theorem readBoth : u.readBoth.All (OnlyRead s) :=
  (h.readPacked _ _).bind fun _ _ h => (h.readPacked _ _).bind fun _ _ h => h

/-- An internal interrupt is raised in IID, which no frame of the statements holds. -/
theorem raise (x : Source) : OnlyRead s (u.raise x) :=
  h.trans ⟨rfl, rfl, fun _ => ⟨by simp only [keepsControl, State.raise, and_self], rfl, rfl⟩⟩

end OnlyRead

end Sys2Proof.Machine
end

section
/-! Instructions that read memory and store nothing: their destinations, and no memory (`spec/40_memory_reference.md` R259 to R268;
`spec/41_sequencing.md` R300, R301; `spec/42_byte.md` R322; `spec/43_floating.md` R343, R345; `spec/52_ce_decimal.md` R587;
`spec/53_ce_stack_misc.md` R614). -/

namespace Sys2Proof.Machine

/-- The frame of a reading instruction, with the destinations `rs` and the flags `fs`. -/
def ReadsInto (rs : List RField) (fs : List Flag) (s t : State) : Prop :=
  keepsRegisters s t rs fs ∧ (s.steals = [] → keepsControl s t ∧ keepsMemory s t)

variable {rs : List RField} {fs : List Flag} {s u t : State}

theorem readsInto_of_writesOnly (hread : OnlyRead s u) (hend : WritesOnly rs fs u t) : ReadsInto rs fs s t := by
  refine ⟨keepsRegisters_of_regs hread.regs hread.pil hend.kept, fun hq => ?_⟩
  obtain ⟨hcontrol, hmem, hecc⟩ := hread.quiet hq
  obtain ⟨hmem', hecc'⟩ := keepsMemory_of_onlyRegisters hend.only
  exact ⟨hcontrol.trans (keepsControl_of_onlyRegisters hend.only), hmem'.trans hmem, hecc'.trans hecc⟩

/-- Reads, and then the end of the instruction: with their value, or at the next word where one was refused. -/
theorem readsInto_complete {α : Type} {x : Access α} {k : α → State → Result} (hx : x.All (OnlyRead s))
    (hk : ∀ v u, NextAll (WritesOnly rs fs u) (k v u)) : NextAll (ReadsInto rs fs s) (x.complete k) := by
  cases x with
  | aborted u => exact readsInto_of_writesOnly hx (WritesOnly.refl rs fs u).advance
  | done v u =>
    rw [Access.complete_done]
    cases e : k v u with
    | next t => exact readsInto_of_writesOnly hx ((hk v u).of_eq_next e)
    | _ => trivial

theorem readsInto_withOperand (m : MemRef) {f : Word → State → State} (hf : ∀ w u, WritesOnly rs fs u (f w u)) :
    NextAll (ReadsInto rs fs s) (withOperand m s f) :=
  readsInto_complete ((OnlyRead.refl s).readOperand m) fun w u => (hf w u).advance

theorem WritesOnly.setFa48 (h : WritesOnly [.t, .a, .d] fs s t) (v : BitVec 48) :
    WritesOnly [.t, .a, .d] fs s (t.setFa48 v) :=
  ((h.setT (by decide) _).setA (by decide) _).setD (by decide) _

theorem WritesOnly.setFa32 (h : WritesOnly [.t, .a, .d] fs s t) (v : BitVec 32) :
    WritesOnly [.t, .a, .d] fs s (t.setFa32 v) :=
  (h.setA (by decide) _).setD (by decide) _

section Floating

variable {op : FpOp} (hflags : [.tg, .c] ⊆ fs) (hzero : op = .fdv → .z ∈ fs)
include hflags hzero

/-- TG and C take open values, and of the operations only a division writes Z (R345, R347). -/
theorem WritesOnly.floating48 (h : WritesOnly [.t, .a, .d] fs s t) (y : BitVec 48) :
    WritesOnly [.t, .a, .d] fs s (t.floating48 op y) := by
  have drawn := h.drawBit.drawBit
  unfold State.floating48
  refine (WritesOnly.setFlag ?_ (hflags (by simp)) _).setFlag (hflags (by simp)) _
  split
  · rename_i hdivision
    obtain ⟨hop, _⟩ := hdivision
    exact (drawn.setFlag (hzero hop) _).setFa48 _
  · exact drawn.setFa48 _

theorem WritesOnly.floating32 (h : WritesOnly [.t, .a, .d] fs s t) (y : BitVec 32) :
    WritesOnly [.t, .a, .d] fs s (t.floating32 op y) := by
  have drawn := h.drawBit.drawBit
  unfold State.floating32
  refine (WritesOnly.setFlag ?_ (hflags (by simp)) _).setFlag (hflags (by simp)) _
  split
  · rename_i hdivision
    obtain ⟨hop, _⟩ := hdivision
    exact (drawn.setFlag (hzero hop) _).setFa32 _
  · exact drawn.setFa32 _

theorem readsInto_floatingOp (m : MemRef) : NextAll (ReadsInto [.t, .a, .d] fs s) (floatingOp op m s) :=
  have location := (OnlyRead.refl s).effLoc m
  NextAll.ite
    (readsInto_complete (location.bind fun _ _ h => h.readDouble _ _) fun _ u =>
      ((WritesOnly.refl _ fs u).floating32 hflags hzero _).advance)
    (readsInto_complete (location.bind fun _ _ h => h.readTriple _ _) fun _ u =>
      ((WritesOnly.refl _ fs u).floating48 hflags hzero _).advance)

end Floating

/-- COMD skips; without the option it is not implemented, which IID alone records (R226, R584, R587). -/
theorem readsInto_execComd (s : State) : NextAll (ReadsInto [.a] [] s) (execComd s) :=
  NextAll.ite
    (readsInto_complete (OnlyRead.refl s).readBoth fun _ u =>
      have kept := WritesOnly.refl [.a] [] u
      NextAll.ite (kept.drawWord.setA (by decide) _).skip (kept.setA (by decide) _).skip)
    (readsInto_of_writesOnly ((OnlyRead.refl s).raise .ii) (WritesOnly.refl _ _ _).advance)

/-- One arm for each instruction that `readFrame` lists. -/
theorem readsInto_exec {i : Instr} (hframe : readFrame i = some (rs, fs)) : NextAll (ReadsInto rs fs s) (exec i s) := by
  have location (m : MemRef) := (OnlyRead.refl s).effLoc m
  cases i with
  | lda m => cases hframe; exact readsInto_withOperand m fun _ u => (WritesOnly.refl _ _ u).setA (by decide) _
  | ldt m => cases hframe; exact readsInto_withOperand m fun _ u => (WritesOnly.refl _ _ u).setT (by decide) _
  | ldx m => cases hframe; exact readsInto_withOperand m fun _ u => (WritesOnly.refl _ _ u).setX (by decide) _
  | ldd m =>
    cases hframe
    exact readsInto_complete ((location m).bind fun _ _ h => h.readDouble _ _) fun _ u =>
      (((WritesOnly.refl _ _ u).setA (by decide) _).setD (by decide) _).advance
  | ldf m =>
    cases hframe
    exact readsInto_complete ((location m).bind fun _ _ h => h.readTriple _ _) fun _ u =>
      ((WritesOnly.refl _ _ u).setFa48 _).advance
  | add m | sub m =>
    cases hframe
    exact readsInto_withOperand m fun _ u =>
      ((WritesOnly.refl _ _ u).setA (by decide) _).setAddFlags (by decide) (by decide) (by decide) _
  | and m | ora m =>
    cases hframe
    exact readsInto_withOperand m fun _ u => (WritesOnly.refl _ _ u).setA (by decide) _
  | mpy m =>
    cases hframe
    exact readsInto_withOperand m fun _ u =>
      ((WritesOnly.refl _ _ u).setA (by decide) _).setOverflow (by decide) (by decide) _
  | fad m | fsb m | fmu m => cases hframe; exact readsInto_floatingOp (by simp) (by nofun) m
  | fdv m => cases hframe; exact readsInto_floatingOp (by simp) (fun _ => by decide) m
  | jmp m => cases hframe; exact readsInto_complete (location m) fun _ u => (WritesOnly.refl _ _ u).setP _
  | jpl m =>
    cases hframe
    exact readsInto_complete (location m) fun _ u => ((WritesOnly.refl _ _ u).setL (by decide) _).setP _
  | lbyt =>
    cases hframe
    exact readsInto_complete ((OnlyRead.refl s).loadByte _ _) fun _ u =>
      ((WritesOnly.refl _ _ u).setA (by decide) _).advance
  | comd => cases hframe; exact readsInto_execComd s
  | leave =>
    cases hframe
    exact readsInto_complete ((OnlyRead.refl s).readDouble _ _) fun _ u =>
      ((WritesOnly.refl _ _ u).setP _).setB (by decide) _
  | _ => cases hframe

/-- Settles O23: every instruction that `readFrame` lists reads, and then writes registers. -/
theorem memoryReadFrame : Obligations.MemoryReadFrame := by
  unfold Obligations.MemoryReadFrame
  intro i rs fs s t hframe hexec
  exact (readsInto_exec hframe).of_eq_next hexec

end Sys2Proof.Machine
end

section
/-! Instructions that store: the words that they store, one after another, and P; no other byte of memory
(`spec/40_memory_reference.md` R253 to R258; `spec/42_byte.md` R323; `spec/43_floating.md` R344;
`spec/50_internal_register_instr.md` R540). -/

namespace Sys2Proof.Machine

/-! ### Stores in ascending order -/

@[simp] theorem Access.bind_unit (x : Access Unit) : (x.bind fun _ s => .done () s) = x := by
  cases x <;> rfl

/-- Store words in ascending order, as `State.storeWords` does but in either way of access. -/
def State.storeList (rel : Rel) (s : State) : Word → List Word → Access Unit
  | _, [] => .done () s
  | va, w :: r => (s.memWrite rel va w).bind fun _ s => s.storeList rel (va + 1) r

theorem State.storeWords_eq_storeList (ws : List Word) (s : State) (va : Word) :
    s.storeWords va ws = s.storeList .nonprel va ws := by
  induction ws generalizing s va with
  | nil => rfl
  | cons w r ih => simp only [State.storeWords, State.storeList, ih]

theorem State.storeList_eq_done {rel : Rel} {t : State} (ws : List Word) (s : State) (va : Word) :
    s.storeList rel va ws = .done () t ↔ storesInOrder rel s va ws t := by
  induction ws generalizing s va with
  | nil => simp [State.storeList, storesInOrder, eq_comm]
  | cons w r ih =>
    simp only [State.storeList, storesInOrder, Access.bind_eq_done, ih]
    exact ⟨fun ⟨_, h⟩ => h, fun h => ⟨(), h⟩⟩

theorem State.memWrite_eq_storeList (s : State) (rel : Rel) (va w : Word) :
    s.memWrite rel va w = s.storeList rel va [w] := by
  simp [State.storeList]

theorem State.writeDouble_eq_storeList (s : State) (rel : Rel) (va w0 w1 : Word) :
    s.writeDouble rel va w0 w1 = s.storeList rel va [w0, w1] := by
  simp [State.writeDouble, State.storeList]

theorem State.writeTriple_eq_storeList (s : State) (rel : Rel) (va w0 w1 w2 : Word) :
    s.writeTriple rel va w0 w1 w2 = s.storeList rel va [w0, w1, w2] := by
  simp [State.writeTriple, State.storeList, BitVec.add_assoc]

/-! ### What the stores leave -/

theorem DataAccess.memWrite {s u : State} (h : DataAccess s u) (rel : Rel) (va w : Word) :
    (u.memWrite rel va w).All (DataAccess s) := by
  cases e : u.memWrite rel va w with
  | done _ t => exact h.trans (dataAccess_of_memWrite e)
  | aborted t => exact h.trans (onlyRead_of_refused (State.memWrite_aborted e).2).dataAccess

theorem DataAccess.storeList {s u : State} (h : DataAccess s u) (rel : Rel) (va : Word) (ws : List Word) :
    (u.storeList rel va ws).All (DataAccess s) := by
  induction ws generalizing u va with
  | nil => exact h
  | cons w r ih => exact (h.memWrite rel va w).bind fun _ _ h => ih h _

/-- A memory cycle of the CPU that writes leaves the bytes of the other words. -/
theorem State.read_physWrite_ne (s : State) (src : MemSource) {pa : PhysAddr} (w : Word) {a : Nat}
    (ha : a / 2 ≠ pa.toNat) : (s.physWrite src pa w).mem.read a = s.mem.read a := by
  cases hpresent : s.memPresent pa with
  | true => rw [State.physWrite_of_present hpresent]; exact Memory.read_writeWord_ne _ _ _ ha
  | false =>
    rw [State.physWrite_of_absent hpresent, State.outOfRange]
    dsimp only
    rw [State.latchMemError_frame, State.strobe_frame]
    rfl

theorem State.read_busWrite_ne {s : State} (hq : s.steals = []) (src : MemSource) {pa : PhysAddr} (w : Word) {a : Nat}
    (ha : a / 2 ≠ pa.toNat) : (s.busWrite src pa w).mem.read a = s.mem.read a := by
  rw [← s.read_physWrite_ne src w ha, ← State.busWrite_restore hq]

/-- A store that goes to memory by way of a translation reaches the first of the targets. -/
theorem mem_storeTargets_of_translate {s t u : State} {rel : Rel} {va w : Word} {pa : PhysAddr} (r : List Word)
    (hshadow : s.shadowReached va = false) (htranslate : s.translate .sto rel va = .done pa u)
    (h : s.memWrite rel va w = .done () t) : pa ∈ storeTargets rel s va (w :: r) := by
  simp [storeTargets, hshadow, htranslate, h]

/-- The targets of the later stores are targets. -/
theorem mem_storeTargets_of_tail {s t : State} {rel : Rel} {va w : Word} {pa : PhysAddr} {r : List Word}
    (h : s.memWrite rel va w = .done () t) (hpa : pa ∈ storeTargets rel t (va + 1) r) :
    pa ∈ storeTargets rel s va (w :: r) := by
  simp only [storeTargets, h]
  exact List.mem_append_right _ hpa

/-- With no other agent on the bus one store leaves every byte that is not of its target. -/
theorem read_memWrite_outside {s t : State} {rel : Rel} {va w : Word} (r : List Word) (hq : s.steals = [])
    (h : s.memWrite rel va w = .done () t) {a : Nat} (ha : ¬ inWords (storeTargets rel s va (w :: r)) a) :
    t.mem.read a = s.mem.read a := by
  rcases State.memWrite_done h with ⟨_, rfl⟩ | ⟨hshadow, pa, u, htranslate, rfl⟩
  · rw [State.shadowWrite_frame]
  · have hframe := State.translate_done_frame htranslate
    have hne : a / 2 ≠ pa.toNat := fun e =>
      ha ⟨pa, mem_storeTargets_of_translate r hshadow htranslate h, by omega⟩
    rw [State.read_busWrite_ne (by rw [hframe]; exact hq) _ _ hne, hframe]

/-- With no other agent on the bus the stores leave every byte that is not of a target. -/
theorem read_storeList_outside (rel : Rel) (ws : List Word) {s : State} (hq : s.steals = []) (va : Word) :
    (s.storeList rel va ws).All fun t =>
      ∀ a, ¬ inWords (storeTargets rel s va ws) a → t.mem.read a = s.mem.read a := by
  induction ws generalizing s va with
  | nil => exact fun _ _ => rfl
  | cons w r ih =>
    unfold State.storeList
    cases h : s.memWrite rel va w with
    | aborted t =>
      intro a _
      rw [State.translate_aborted_frame (State.memWrite_aborted h).2]
    | done _ t =>
      have hq' : t.steals = [] := ((dataAccess_of_memWrite h).control hq).steals.trans hq
      refine (ih hq' (va + 1)).mono fun u hu a ha => ?_
      rw [hu a fun ⟨pa, hpa, hin⟩ => ha ⟨pa, mem_storeTargets_of_tail h hpa, hin⟩]
      exact read_memWrite_outside r hq h ha

/-! ### The instructions -/

/-- Of the storing instructions MIN skips, where the word that it stores is zero (R258). -/
def storeSkips (i : Instr) (ws : List Word) : Bool :=
  match i with
  | .min _ => decide (ws = [0])
  | _ => false

/-- A single word stored at the effective location. -/
theorem storeWord_eq {s s1 : State} {m : MemRef} {el : Word} {rel : Rel} (hloc : s.effLoc m = .done (el, rel) s1)
    (w : Word) : storeWord m w s = (s1.storeList rel el [w]).complete fun _ u => .next u.advance := by
  simp [storeWord, State.writeOperand, hloc, State.memWrite_eq_storeList]

/-- Where the location is computed, the words of an instruction that stores registers there are stored behind it. -/
theorem effLoc_of_storesOf {s s1 : State} {m : MemRef} {rel : Rel} {va : Word} {ws ws' : List Word}
    (h : ((s.effLoc m).bind fun (el, rel) u => .done (rel, el, ws') u) = .done (rel, va, ws) s1) :
    s.effLoc m = .done (va, rel) s1 ∧ ws = ws' := by
  obtain ⟨⟨el, rel'⟩, u, hloc, heq⟩ := Access.bind_eq_done.1 h
  cases heq
  exact ⟨hloc, rfl⟩

/-- A storing instruction stores its words in ascending order and ends at the next word, or behind it where MIN skips. -/
theorem exec_of_storesOf {i : Instr} {s s1 : State} {rel : Rel} {va : Word} {ws : List Word}
    (hsrb : ∀ level, i = .srb level → s.mayRunPrivileged = true) (h : storesOf i s = .done (rel, va, ws) s1) :
    exec i s = (s1.storeList rel va ws).complete fun _ u => .next (u.skipIf (storeSkips i ws)) := by
  cases i with
  | stz m | sta m | stt m | stx m =>
    obtain ⟨hloc, rfl⟩ := effLoc_of_storesOf h
    exact storeWord_eq hloc _
  | std m =>
    obtain ⟨hloc, rfl⟩ := effLoc_of_storesOf h
    show execStd m s = _
    simp only [execStd, hloc, Access.bind_done, State.writeDouble_eq_storeList]
    rfl
  | stf m =>
    obtain ⟨hloc, rfl⟩ := effLoc_of_storesOf h
    show execStf m s = _
    simp only [execStf, hloc, Access.bind_done, State.writeTriple_eq_storeList]
    rfl
  | min m =>
    obtain ⟨⟨el, rel'⟩, u, hloc, hread⟩ := Access.bind_eq_done.1 h
    obtain ⟨v, u', hread, heq⟩ := Access.bind_eq_done.1 hread
    cases heq
    show execMin m s = _
    rw [execMin, hloc, Access.bind_done]
    simp only [hread, Access.bind_done, ← State.memWrite_eq_storeList]
    cases s1.memWrite rel va (v + 1) <;> simp [storeSkips, beq_eq_decide]
  | sbyt =>
    obtain ⟨w, u, hread, heq⟩ := Access.bind_eq_done.1 h
    cases heq
    show execSbyt s = _
    rw [execSbyt, State.storeByte, hread, Access.bind_done, State.memWrite_eq_storeList]
    rfl
  | srb level =>
    cases h
    show execSrb level s = _
    rw [execSrb, State.privileged, if_pos (hsrb level rfl), State.storeWords_eq_storeList]
    rfl
  | _ => cases h

/-- Before its stores an instruction has at most read. -/
theorem onlyRead_storesOf (i : Instr) (s : State) : (storesOf i s).All (OnlyRead s) := by
  have start := OnlyRead.refl s
  have location (m : MemRef) := start.effLoc m
  cases i with
  | stz m | sta m | stt m | stx m | std m | stf m => exact (location m).bind fun _ _ h => h
  | min m => exact (location m).bind fun _ _ h => (h.memRead (by decide) _ _).bind fun _ _ h => h
  | sbyt => exact (start.memRead (by decide) _ _).bind fun _ _ h => h
  | _ => exact start

/-- An instruction that stores ends, whether or not a store was refused, with P as the only register written. -/
theorem storeList_end {s1 t : State} {rel : Rel} {va : Word} {ws : List Word} {c : Bool} {P : State → Prop}
    (hP : (s1.storeList rel va ws).All P)
    (h : ((s1.storeList rel va ws).complete fun _ u => Host.Outcome.next (u.skipIf c)) = .next t) :
    ∃ u, P u ∧ WritesOnly [] [] u t := by
  cases e : s1.storeList rel va ws with
  | done _ u =>
    rw [e] at h hP
    cases h
    exact ⟨u, hP, (WritesOnly.refl _ _ u).skipIf c⟩
  | aborted u =>
    rw [e] at h hP
    cases h
    exact ⟨u, hP, (WritesOnly.refl _ _ u).advance⟩

/-- Settles O24: reads, then the stores of `storesOf` in ascending order, then P. -/
theorem storeFrame : Obligations.StoreFrame := by
  unfold Obligations.StoreFrame
  intro i s s1 t rel va ws hsrb hstores hexec
  rw [exec_of_storesOf hsrb hstores] at hexec
  have hread := (onlyRead_storesOf i s).of_eq_done hstores
  obtain ⟨u, haccess, hend⟩ := storeList_end (hread.dataAccess.storeList rel va ws) hexec
  refine ⟨keepsRegisters_of_regs haccess.regs haccess.pil hend.kept, fun hq => ⟨?_, fun a ha => ?_⟩⟩
  · exact (haccess.control hq).trans (keepsControl_of_onlyRegisters hend.only).butMap
  · obtain ⟨hcontrol, hmem, _⟩ := hread.quiet hq
    have hq' : s1.steals = [] := hcontrol.steals.trans hq
    obtain ⟨u', houtside, hend'⟩ := storeList_end (read_storeList_outside rel ws hq' va) hexec
    obtain ⟨hmem', _⟩ := keepsMemory_of_onlyRegisters hend'.only
    rw [hmem', houtside a ha, hmem]

end Sys2Proof.Machine
end

section
/-! The effective location, and the registers that loads write (`spec/40_memory_reference.md` R250, R251, R259 to R262;
`spec/43_floating.md` R343). -/

namespace Sys2Proof.Machine

/-! ### The effective location -/

/-- The eight modes without and with I (R251). -/
theorem State.effLoc_direct (s : State) (x b : Bool) (disp : BitVec 8) :
    s.effLoc ⟨x, false, b, disp⟩ =
      if !b && x then .done (s.x + sext8 disp, .nonprel) s
      else
        .done ((if b then s.b else s.p) + sext8 disp + (if x then s.x else 0), if b || x then .nonprel else .prel) s :=
  rfl

theorem State.effLoc_indirect (s : State) (x b : Bool) (disp : BitVec 8) :
    s.effLoc ⟨x, true, b, disp⟩ =
      (s.memRead .raddr (if b then .nonprel else .prel) ((if b then s.b else s.p) + sext8 disp)).bind fun iw s' =>
        .done (iw + (if x then s.x else 0), .nonprel) s' :=
  rfl

/-- Settles O25: by `State.effLoc_direct` and `State.effLoc_indirect`, the word read with physical addressing by
`State.Flat.memRead`. -/
theorem effectiveLocation : Obligations.EffectiveLocation := by
  unfold Obligations.EffectiveLocation
  intro s disp p b hp hb
  replace hp : p = s.p + sext8 disp := hp
  replace hb : b = s.b + sext8 disp := hb
  have hprel {iw : Word} {s1 : State} (h : s.memRead .raddr .prel p = .done iw s1) :
      s.effLoc ⟨false, true, false, disp⟩ = .done (iw, .nonprel) s1 ∧
        s.effLoc ⟨true, true, false, disp⟩ = .done (iw + s.x, .nonprel) s1 := by
    simp [State.effLoc_indirect, ← hp, h]
  have hbase {iw : Word} {s1 : State} (h : s.memRead .raddr .nonprel b = .done iw s1) :
      s.effLoc ⟨false, true, true, disp⟩ = .done (iw, .nonprel) s1 ∧
        s.effLoc ⟨true, true, true, disp⟩ = .done (iw + s.x, .nonprel) s1 := by
    simp [State.effLoc_indirect, ← hb, h]
  refine ⟨?_, fun _ _ => hprel, fun _ _ => hbase, fun s1 x h => ?_, fun s1 x h => ?_, fun hflat hshadowP hshadowB => ?_⟩
  · simp only [State.effLoc_direct, hp, hb]
    exact ⟨by simp, by simp, rfl, by simp⟩
  · simp [State.effLoc_indirect, ← hp, h]
  · simp [State.effLoc_indirect, ← hb, h]
  · obtain ⟨hplain, hx⟩ := hprel (hflat.memRead hshadowP .raddr .prel)
    obtain ⟨hplainB, hxB⟩ := hbase (hflat.memRead hshadowB .raddr .nonprel)
    exact ⟨hplain, hplainB, hx, hxB⟩

/-! ### Registers written behind a read -/

/-- Registers and flags written after reads: what they hold then, and the frame. -/
theorem registersBecome_of_writesOnly {s u t : State} {rs : List (RField × Word)} {fs : List (Flag × Bool)} {p : Word}
    (haccess : DataAccess s u) (hend : WritesOnly (rs.map (·.1)) (fs.map (·.1)) u t)
    (hvalues : ∀ e ∈ rs, t.cur.get e.1 = e.2) (hflags : ∀ e ∈ fs, t.flag e.1 = e.2) (hnext : t.p = p) :
    RegistersBecome s t rs fs p :=
  ⟨hend.pil.trans haccess.pil, hvalues, hflags, hnext, keepsRegisters_of_regs haccess.regs haccess.pil hend.kept⟩

theorem OnlyRead.p {s u : State} (h : OnlyRead s u) : u.p = s.p := congrArg RegSet.p h.cur
theorem OnlyRead.a {s u : State} (h : OnlyRead s u) : u.a = s.a := congrArg RegSet.a h.cur

theorem OnlyRead.flag {s u : State} (h : OnlyRead s u) (f : Flag) : u.flag f = s.flag f := by
  rw [State.flag, State.flag, State.sts, State.sts, h.cur]

/-- An instruction with an operand in memory, where the operand is read. -/
theorem withOperand_of_readOperand {s s1 : State} {m : MemRef} {w : Word} (h : s.readOperand m = .done w s1)
    (f : Word → State → State) : withOperand m s f = .next (f w s1).advance := by
  simp [withOperand, h]

theorem onlyRead_of_readOperand {s s1 : State} {m : MemRef} {w : Word} (h : s.readOperand m = .done w s1) :
    OnlyRead s s1 :=
  ((OnlyRead.refl s).readOperand m).of_eq_done h

/-! ### Loads -/

/-- An instruction that puts its operand word into a register. -/
theorem load_result {i : Instr} {s s1 : State} {m : MemRef} {w : Word} {r : RField} (hzero : r ≠ .zero) (hp : r ≠ .p)
    (h : s.readOperand m = .done w s1) (hexec : exec i s = withOperand m s fun w u => u.setCur (u.cur.put r w)) :
    ∃ t, exec i s = .next t ∧ onlyRegisters s1 t ∧ RegistersBecome s t [(r, w)] [] (s.p + 1) := by
  have hread := onlyRead_of_readOperand h
  exact ⟨_, hexec.trans (withOperand_of_readOperand h _), rfl,
    registersBecome_put_advance hread.regs hread.pil hzero hp w⟩

theorem ldd_result {s s1 s2 s3 : State} {m : MemRef} {el w0 w1 : Word} {rel : Rel}
    (hloc : s.effLoc m = .done (el, rel) s1) (h0 : s1.memRead .rop rel el = .done w0 s2)
    (h1 : s2.memRead .rop rel (el + 1) = .done w1 s3) :
    ∃ t, exec (.ldd m) s = .next t ∧ onlyRegisters s3 t ∧ RegistersBecome s t [(.a, w0), (.d, w1)] [] (s.p + 1) := by
  have hdouble : s1.readDouble .rop rel el = .done (w0, w1) s3 := by simp only [State.readDouble, h0, h1, Access.bind_done]
  have hread : OnlyRead s s3 :=
    (((OnlyRead.refl s).effLoc m).of_eq_done hloc).readDouble rel el |>.of_eq_done hdouble
  have hend : WritesOnly [.a, .d] [] s3 ((s3.setA w0).setD w1).advance :=
    (((WritesOnly.refl _ _ s3).setA (by decide) _).setD (by decide) _).advance
  refine ⟨_, ?_, hend.only, registersBecome_of_writesOnly hread.dataAccess hend ?_ nofun ?_⟩
  · show execLdd m s = _
    simp only [execLdd, hloc, Access.bind_done, hdouble, Access.complete_done]
  · simp [RegSet.get, State.advance]
  · simp [hread.p]

/-- Three words as a floating number are T, A and D (R342). -/
theorem State.setFa48_append (s : State) (t a d : Word) : s.setFa48 (t ++ a ++ d) = ((s.setT t).setA a).setD d := by
  have ht : (t ++ a ++ d : BitVec 48).extractLsb' 32 16 = t := by
    rw [BitVec.extractLsb'_append_eq_of_le (by decide)]
    exact BitVec.extractLsb'_append_eq_left
  have ha : (t ++ a ++ d : BitVec 48).extractLsb' 16 16 = a := by
    rw [BitVec.extractLsb'_append_eq_of_le (by decide)]
    exact BitVec.extractLsb'_append_eq_right
  have hd : (t ++ a ++ d : BitVec 48).extractLsb' 0 16 = d := BitVec.extractLsb'_append_eq_right
  rw [State.setFa48, ht, ha, hd]

theorem ldf_result {s s1 s2 s3 s4 : State} {m : MemRef} {el w0 w1 w2 : Word} {rel : Rel}
    (hloc : s.effLoc m = .done (el, rel) s1) (h0 : s1.memRead .rop rel el = .done w0 s2)
    (h1 : s2.memRead .rop rel (el + 1) = .done w1 s3) (h2 : s3.memRead .rop rel (el + 2) = .done w2 s4) :
    ∃ t, exec (.ldf m) s = .next t ∧ onlyRegisters s4 t ∧
      RegistersBecome s t [(.t, w0), (.a, w1), (.d, w2)] [] (s.p + 1) := by
  have htriple : s1.readTriple .rop rel el = .done (w0, w1, w2) s4 := by
    simp only [State.readTriple, h0, h1, h2, Access.bind_done]
  have hread : OnlyRead s s4 :=
    (((OnlyRead.refl s).effLoc m).of_eq_done hloc).readTriple rel el |>.of_eq_done htriple
  have hend : WritesOnly [.t, .a, .d] [] s4 (((s4.setT w0).setA w1).setD w2).advance :=
    ((((WritesOnly.refl _ _ s4).setT (by decide) _).setA (by decide) _).setD (by decide) _).advance
  refine ⟨_, ?_, hend.only, registersBecome_of_writesOnly hread.dataAccess hend ?_ nofun ?_⟩
  · show execLdf m s = _
    simp only [execLdf, hloc, Access.bind_done, htriple, Access.complete_done, State.setFa48_append]
  · simp [RegSet.get, State.advance]
  · simp [hread.p]

/-- Settles O26: the operand is read, and put into the registers. -/
theorem loadResult : Obligations.LoadResult := by
  unfold Obligations.LoadResult
  refine ⟨fun s s1 m w h => ⟨?_, ?_, ?_⟩, fun s s1 s2 s3 m el w0 w1 rel hloc h0 h1 => ⟨?_, fun w2 s4 h2 => ?_⟩⟩
  · exact load_result (r := .a) nofun nofun h rfl
  · exact load_result (r := .t) nofun nofun h rfl
  · exact load_result (r := .x) nofun nofun h rfl
  · exact ldd_result hloc h0 h1
  · exact ldf_result hloc h0 h1 h2

end Sys2Proof.Machine
end

section
/-! The integer and logical instructions: the adder and the product as facts about integers, the flags
(`spec/40_memory_reference.md` R263 to R268; `spec/10_state.md` R40). -/

namespace Sys2Proof.Machine

theorem add16_r (a b : Word) (cin : Bool) : (add16 a b cin).r = a + b + BitVec.ofNat 16 cin.toNat := by
  simp [add16, Word.ofNat, BitVec.ofNat_add]

/-- Overflow of a sum of two signs that agree (R263). -/
theorem add16_ovf (a b : Word) (cin : Bool) :
    (add16 a b cin).ovf = (a.msb == b.msb && (add16 a b cin).r.msb != a.msb) := rfl

theorem add16_carry (a b : Word) : (add16 a b false).carry = decide (65536 ≤ a.toNat + b.toNat) := rfl

theorem add16_r_eq_ofInt (a b : Word) : (add16 a b false).r = BitVec.ofInt 16 (a.toInt + b.toInt) := by
  simp [add16_r, BitVec.ofInt_add]

theorem add16_ovf_eq_decide (a b : Word) :
    (add16 a b false).ovf = decide (a.toInt + b.toInt < -32768 ∨ 32767 < a.toInt + b.toInt) := by
  have hovf : (add16 a b false).ovf = a.saddOverflow b := by
    rw [BitVec.saddOverflow_eq, add16_ovf, add16_r]
    simp [bne]
  rw [hovf, BitVec.saddOverflow, ← Bool.decide_or]
  refine decide_eq_decide.2 ?_
  omega

/-- The sum with the complement and one is the difference (R263, D18). -/
theorem sub16_r (a b : Word) : (sub16 a b).r = a - b := by
  rw [sub16, add16_r, BitVec.add_assoc, BitVec.sub_eq_add_neg, BitVec.neg_eq_not_add]
  rfl

theorem sub16_r_eq_ofInt (a b : Word) : (sub16 a b).r = BitVec.ofInt 16 (a.toInt - b.toInt) := by
  rw [sub16_r, Int.sub_eq_add_neg, BitVec.ofInt_add, BitVec.ofInt_neg, BitVec.ofInt_toInt, BitVec.ofInt_toInt,
    BitVec.sub_eq_add_neg]

/-- The carry of the complement's sum says that nothing is borrowed (D18). -/
theorem sub16_carry (a b : Word) : (sub16 a b).carry = decide (b.toNat ≤ a.toNat) := by
  refine decide_eq_decide.2 ?_
  have := b.isLt
  simp only [BitVec.toNat_not, Bool.toNat_true]
  omega

theorem sub16_ovf_eq_decide (a b : Word) :
    (sub16 a b).ovf = decide (a.toInt - b.toInt < -32768 ∨ 32767 < a.toInt - b.toInt) := by
  have hovf : (sub16 a b).ovf = a.ssubOverflow b := by
    have hadd : (sub16 a b).ovf = (a.msb == (~~~b).msb && (sub16 a b).r.msb != a.msb) := add16_ovf a (~~~b) true
    rw [BitVec.ssubOverflow_eq, hadd, sub16_r, BitVec.msb_not]
    cases a.msb <;> cases b.msb <;> cases (a - b).msb <;> rfl
  rw [hovf, BitVec.ssubOverflow, ← Bool.decide_or]
  refine decide_eq_decide.2 ?_
  omega

@[simp] theorem State.a_setFlag (s : State) (f : Flag) (b : Bool) : (s.setFlag f b).a = s.a := s.a_setSts _
@[simp] theorem State.p_setFlag (s : State) (f : Flag) (b : Bool) : (s.setFlag f b).p = s.p := s.p_setSts _

theorem State.setOverflow_eq (s : State) (ovf : Bool) :
    s.setOverflow ovf = if ovf then (s.setFlag .q ovf).setFlag .o true else s.setFlag .q ovf := rfl

@[simp] theorem State.a_setOverflow (s : State) (ovf : Bool) : (s.setOverflow ovf).a = s.a := by
  cases ovf <;> simp [State.setOverflow_eq]

@[simp] theorem State.p_setOverflow (s : State) (ovf : Bool) : (s.setOverflow ovf).p = s.p := by
  cases ovf <;> simp [State.setOverflow_eq]

/-- Q follows the condition (R40). -/
@[simp] theorem State.flag_q_setOverflow (s : State) (ovf : Bool) : (s.setOverflow ovf).flag .q = ovf := by
  cases ovf <;> simp [State.setOverflow_eq, State.flag_setFlag_ne]

/-- O is only ever set (R40). -/
@[simp] theorem State.flag_o_setOverflow (s : State) (ovf : Bool) : (s.setOverflow ovf).flag .o = (s.flag .o || ovf) := by
  cases ovf <;> simp [State.setOverflow_eq, State.flag_setFlag_ne]

@[simp] theorem State.flag_c_setOverflow (s : State) (ovf : Bool) : (s.setOverflow ovf).flag .c = s.flag .c := by
  cases ovf <;> simp [State.setOverflow_eq, State.flag_setFlag_ne]

@[simp] theorem State.flag_setA (s : State) (v : Word) (f : Flag) : (s.setA v).flag f = s.flag f := by
  simp [State.flag]

theorem State.setAddFlags_eq (s : State) (r : Sum16) :
    s.setAddFlags r = (s.setFlag .c r.carry).setOverflow r.ovf := rfl

section Integers

variable {i : Instr} {s s1 : State} {m : MemRef} {w : Word} {f : Word → State → State}
  (h : s.readOperand m = .done w s1) (hexec : exec i s = withOperand m s f)
include h hexec

/-- An instruction that puts the adder's result into A and its flags into C, Q and O (R263). -/
theorem sum_result {r : Sum16} (hf : f w s1 = (s1.setA r.r).setAddFlags r) :
    ∃ t, exec i s = .next t ∧ onlyRegisters s1 t ∧
      RegistersBecome s t [(.a, r.r)] [(.c, r.carry), (.q, r.ovf), (.o, s.flag .o || r.ovf)] (s.p + 1) := by
  have hread := onlyRead_of_readOperand h
  have hend : WritesOnly [.a] [.c, .q, .o] s1 ((s1.setA r.r).setAddFlags r).advance :=
    (((WritesOnly.refl _ _ s1).setA (by decide) _).setAddFlags (by decide) (by decide) (by decide) _).advance
  refine ⟨_, ?_, hend.only, registersBecome_of_writesOnly hread.dataAccess hend ?_ ?_ ?_⟩
  · rw [hexec, withOperand_of_readOperand h, hf]
  · rw [List.forall_mem_singleton]
    show State.a _ = r.r
    simp [State.setAddFlags_eq]
  · simp [State.setAddFlags_eq, State.flag_setFlag_ne, hread.flag]
  · simp [State.setAddFlags_eq, hread.p]

/-- An instruction that puts a word into A, and whether that is no exact result into Q and O (R268). -/
theorem product_result {v : Word} {ovf : Bool} (hf : f w s1 = (s1.setA v).setOverflow ovf) :
    ∃ t, exec i s = .next t ∧ onlyRegisters s1 t ∧
      RegistersBecome s t [(.a, v)] [(.q, ovf), (.o, s.flag .o || ovf)] (s.p + 1) := by
  have hread := onlyRead_of_readOperand h
  have hend : WritesOnly [.a] [.q, .o] s1 ((s1.setA v).setOverflow ovf).advance :=
    (((WritesOnly.refl _ _ s1).setA (by decide) _).setOverflow (by decide) (by decide) _).advance
  refine ⟨_, ?_, hend.only, registersBecome_of_writesOnly hread.dataAccess hend ?_ ?_ ?_⟩
  · rw [hexec, withOperand_of_readOperand h, hf]
  · rw [List.forall_mem_singleton]
    show State.a _ = v
    simp
  · simp [hread.flag]
  · simp [hread.p]

/-- An instruction that puts a word into A and leaves the flags (R266, R267). -/
theorem logic_result {v : Word} (hf : f w s1 = s1.setA v) :
    ∃ t, exec i s = .next t ∧ onlyRegisters s1 t ∧ RegistersBecome s t [(.a, v)] [] (s.p + 1) := by
  have hread := onlyRead_of_readOperand h
  refine ⟨_, ?_, ?_, registersBecome_put_advance hread.regs hread.pil (r := .a) nofun nofun v⟩
  · rw [hexec, withOperand_of_readOperand h, hf]; rfl
  · rfl

end Integers

/-- MPY overflows where the product exceeds 32767 in absolute value (R268). -/
theorem product_overflow (p : Int) : decide (32767 < p.natAbs) = decide (p < -32767 ∨ 32767 < p) :=
  decide_eq_decide.2 (by omega)

/-- Settles O28: the adder's sum, carry and overflow as facts about integers, and the frame of each instruction. -/
theorem arithmeticResult : Obligations.ArithmeticResult := by
  unfold Obligations.ArithmeticResult
  intro s s1 m w h
  have ha : s1.a = s.a := (onlyRead_of_readOperand h).a
  refine ⟨?_, ?_, ?_, ?_, ?_⟩
  · obtain ⟨t, hexec, honly, hregs⟩ := sum_result (i := .add m) h rfl (r := add16 s.a w false) (by rw [← ha])
    rw [add16_r_eq_ofInt, add16_ovf_eq_decide, add16_carry] at hregs
    exact ⟨t, _, hexec, honly, rfl, hregs⟩
  · obtain ⟨t, hexec, honly, hregs⟩ := sum_result (i := .sub m) h rfl (r := sub16 s.a w) (by rw [← ha])
    rw [sub16_r_eq_ofInt, sub16_ovf_eq_decide, sub16_carry] at hregs
    exact ⟨t, _, hexec, honly, rfl, hregs⟩
  · obtain ⟨t, hexec, honly, hregs⟩ := product_result (i := .mpy m) h rfl
      (v := BitVec.ofInt 16 (s.a.toInt * w.toInt)) (ovf := decide (32767 < (s.a.toInt * w.toInt).natAbs)) (by rw [← ha])
    rw [product_overflow] at hregs
    exact ⟨t, _, hexec, honly, rfl, hregs⟩
  · obtain ⟨t, hexec, honly, hregs⟩ := logic_result (i := .and m) h rfl (v := s.a &&& w) (by rw [← ha])
    exact ⟨t, _, hexec, honly, hregs, fun k => BitVec.getLsbD_and⟩
  · obtain ⟨t, hexec, honly, hregs⟩ := logic_result (i := .ora m) h rfl (v := s.a ||| w) (by rw [← ha])
    exact ⟨t, _, hexec, honly, hregs, fun k => BitVec.getLsbD_or⟩

end Sys2Proof.Machine
end

section
/-! What the stores leave in memory (`spec/40_memory_reference.md` R253 to R258; `spec/43_floating.md` R344). -/

namespace Sys2Proof.Machine

theorem State.skipIf_frame (s : State) (c : Bool) : s.skipIf c = { s with regs := (s.skipIf c).regs } := by
  cases c <;> rfl

@[simp] theorem State.p_skipIf (s : State) (c : Bool) : (s.skipIf c).p = s.p + if c then 2 else 1 := by
  cases c <;> simp [State.skipIf]

/-- Where every word is stored, the instruction ends with P as the only register written. -/
theorem store_result {i : Instr} {s s1 u : State} {rel : Rel} {va : Word} {ws : List Word}
    (hsrb : ∀ level, i ≠ .srb level) (hstores : storesOf i s = .done (rel, va, ws) s1)
    (horder : storesInOrder rel s1 va ws u) :
    exec i s = .next (u.skipIf (storeSkips i ws)) ∧
      RegistersBecome s (u.skipIf (storeSkips i ws)) [] [] (s.p + if storeSkips i ws then 2 else 1) := by
  have hdone := (State.storeList_eq_done ws s1 va).2 horder
  have hread := (onlyRead_storesOf i s).of_eq_done hstores
  have haccess : DataAccess s u := (hread.dataAccess.storeList rel va ws).of_eq_done hdone
  have hp : u.p = s.p := congrArg RegSet.p (State.cur_of_regs haccess.regs haccess.pil)
  refine ⟨?_, registersBecome_of_writesOnly haccess ((WritesOnly.refl [] [] u).skipIf _) nofun nofun ?_⟩
  · rw [exec_of_storesOf (fun level hi => absurd hi (hsrb level)) hstores, hdone, Access.complete_done]
  · rw [State.p_skipIf, hp]

theorem onlyRegisters_skipIf (s : State) (c : Bool) : onlyRegisters s (s.skipIf c) :=
  ((WritesOnly.refl [] [] s).skipIf c).only

/-- The instructions that store registers at the effective location, with their words, neither skip nor need a privilege. -/
theorem storesOf_registers {i : Instr} {s s1 : State} {m : MemRef} {el : Word} {rel : Rel} {ws : List Word}
    (hloc : s.effLoc m = .done (el, rel) s1)
    (hi : (i, ws) ∈ [(Instr.stz m, [0]), (.sta m, [s.a]), (.stt m, [s.t]), (.stx m, [s.x]), (.std m, [s.a, s.d]),
      (.stf m, [s.t, s.a, s.d])]) :
    storesOf i s = .done (rel, el, ws) s1 ∧ storeSkips i ws = false ∧ ∀ level, i ≠ .srb level := by
  simp only [List.mem_cons, List.not_mem_nil, or_false, Prod.mk.injEq] at hi
  rcases hi with ⟨rfl, rfl⟩ | ⟨rfl, rfl⟩ | ⟨rfl, rfl⟩ | ⟨rfl, rfl⟩ | ⟨rfl, rfl⟩ | ⟨rfl, rfl⟩ <;>
    exact ⟨by simp only [storesOf, hloc, Access.bind_done], rfl, nofun⟩

theorem storesOf_min {s s1 s2 : State} {m : MemRef} {el w : Word} {rel : Rel} (hloc : s.effLoc m = .done (el, rel) s1)
    (hread : s1.memRead .rop rel el = .done w s2) : storesOf (.min m) s = .done (rel, el, [w + 1]) s2 := by
  simp only [storesOf, hloc, hread, Access.bind_done]

theorem storeSkips_min (m : MemRef) (w : Word) : storeSkips (.min m) [w] = decide (w = 0) := by
  simp [storeSkips]

/-! ### Stores with physical addressing -/

/-- Physical addressing does not depend on what memory holds. -/
theorem State.Flat.of_mem {s : State} (h : s.Flat) (mem : Memory) : ({ s with mem := mem } : State).Flat :=
  ⟨h.bus, h.paging, h.cache, h.memory, h.checks, h.tests, h.monitor⟩

/-- With physical addressing the effective location changes nothing. -/
theorem State.Flat.eq_of_effLoc {s s1 : State} (h : s.Flat) {m : MemRef} {el : Word} {rel : Rel}
    (hloc : s.effLoc m = .done (el, rel) s1) : s1 = s := by
  rcases State.effLoc_done hloc with ⟨_, rfl⟩ | ⟨_, _, iw, hread, _⟩
  · rfl
  · rcases State.memRead_done hread with ⟨_, _, rfl⟩ | ⟨hshadow, _⟩
    · rfl
    · rw [h.memRead hshadow] at hread
      cases hread
      rfl

theorem word_add_ofNat_succ (va : Word) (k : Nat) : va + Word.ofNat (k + 1) = va + 1 + Word.ofNat k := by
  rw [Word.ofNat, Word.ofNat, Nat.add_comm, BitVec.ofNat_add, ← BitVec.add_assoc]
  rfl

theorem word_add_ofNat_zero (va : Word) : va + Word.ofNat 0 = va := by simp [Word.ofNat]

/-- Fewer than 2^16 words behind a word is another word. -/
theorem word_ne_add_ofNat_succ (va : Word) {k : Nat} (hk : k < 65535) : va ≠ va + Word.ofNat (k + 1) := by
  intro h
  have hzero : Word.ofNat (k + 1) = 0#16 := by simpa using h.symm
  have := congrArg BitVec.toNat hzero
  simp only [Word.ofNat, BitVec.toNat_ofNat] at this
  omega

/-- With physical addressing words stored one after another are there then, as long as they do not wrap into each other, and
every other word is as before. -/
theorem storesInOrder_of_flat (rel : Rel) (ws : List Word) {s : State} (h : s.Flat) (va : Word) (hlen : ws.length ≤ 65536)
    (hordinary : s.ordinary va ws.length) :
    ∃ u, storesInOrder rel s va ws u ∧ u = { s with mem := u.mem } ∧
      (∀ k (hk : k < ws.length), u.wordAt (va + Word.ofNat k) = ws[k]) ∧
      ∀ va', (∀ k, k < ws.length → va' ≠ va + Word.ofNat k) → u.wordAt va' = s.wordAt va' := by
  induction ws generalizing s va with
  | nil => exact ⟨s, rfl, rfl, nofun, fun _ _ => rfl⟩
  | cons w r ih =>
    rw [List.length_cons] at hlen
    have hshadow : s.shadowReached va = false := by
      rw [← word_add_ofNat_zero va]
      exact hordinary 0 (by simp)
    have htail : s.ordinary (va + 1) r.length := fun k hk => by
      rw [← word_add_ofNat_succ]
      exact hordinary (k + 1) (by simpa using hk)
    obtain ⟨_, t, hwrite, ht, hvalue, hother, _⟩ := physicalAccess_of_flat h .sto rel w hshadow
    obtain ⟨u, horder, hu, hvalues, hothers⟩ :=
      ih (s := t) (by rw [ht]; exact h.of_mem _) (va + 1) (by omega) (by rw [ht]; exact htail)
    refine ⟨u, ⟨t, hwrite, horder⟩, by rw [hu, ht], fun k hk => ?_, fun va' hne => ?_⟩
    · cases k with
      | zero =>
        rw [word_add_ofNat_zero, hothers va fun k hk => ?_, hvalue, List.getElem_cons_zero]
        rw [← word_add_ofNat_succ]
        exact word_ne_add_ofNat_succ va (by omega)
      | succ k =>
        rw [word_add_ofNat_succ]
        exact hvalues k (by simpa using hk)
    · rw [hothers va' fun k hk => ?_, hother va' ?_]
      · simpa [word_add_ofNat_zero] using hne 0 (by simp)
      · rw [← word_add_ofNat_succ]
        exact hne (k + 1) (by simpa using hk)

/-- With physical addressing the words of a storing instruction are in memory then, and every other word is as before. -/
theorem store_result_of_flat {i : Instr} {s : State} {rel : Rel} {el : Word} {ws : List Word} (h : s.Flat)
    (hsrb : ∀ level, i ≠ .srb level) (hstores : storesOf i s = .done (rel, el, ws) s) (hlen : ws.length ≤ 65536)
    (hordinary : s.ordinary el ws.length) :
    ∃ t, exec i s = .next t ∧ t = { s with regs := t.regs, mem := t.mem } ∧
      RegistersBecome s t [] [] (s.p + if storeSkips i ws then 2 else 1) ∧
      (∀ k (hk : k < ws.length), t.wordAt (el + Word.ofNat k) = ws[k]) ∧
      ∀ va, (∀ k, k < ws.length → va ≠ el + Word.ofNat k) → t.wordAt va = s.wordAt va := by
  obtain ⟨u, horder, hu, hvalues, hothers⟩ := storesInOrder_of_flat rel ws h el hlen hordinary
  obtain ⟨hexec, hregs⟩ := store_result hsrb hstores horder
  rw [State.skipIf_frame] at hexec hregs
  exact ⟨_, hexec, by rw [hu], hregs, hvalues, hothers⟩

/-- STZ, STA, STT, STX and MIN with physical addressing. -/
theorem store_word_of_flat {i : Instr} {s : State} {m : MemRef} {el v : Word} {rel : Rel} (h : s.Flat)
    (hloc : s.effLoc m = .done (el, rel) s) (hordinary : s.ordinary el 1)
    (hi : (i, v) ∈ [(Instr.stz m, 0), (.sta m, s.a), (.stt m, s.t), (.stx m, s.x), (.min m, s.wordAt el + 1)]) :
    ∃ t, exec i s = .next t ∧ t = { s with regs := t.regs, mem := t.mem } ∧
      RegistersBecome s t [] [] (s.p + (if i = .min m ∧ v = 0 then 2 else 1)) ∧
      t.wordAt el = v ∧ ∀ va, va ≠ el → t.wordAt va = s.wordAt va := by
  have hshadow : s.shadowReached el = false := by
    rw [← word_add_ofNat_zero el]
    exact hordinary 0 (by decide)
  have hstores : storesOf i s = .done (rel, el, [v]) s ∧ (storeSkips i [v] = true ↔ i = .min m ∧ v = 0) ∧
      ∀ level, i ≠ .srb level := by
    simp only [List.mem_cons, List.not_mem_nil, or_false, Prod.mk.injEq] at hi
    rcases hi with ⟨rfl, rfl⟩ | ⟨rfl, rfl⟩ | ⟨rfl, rfl⟩ | ⟨rfl, rfl⟩ | ⟨rfl, rfl⟩
    case inr.inr.inr.inr => exact ⟨storesOf_min hloc (h.memRead hshadow .rop rel), by simp [storeSkips_min], nofun⟩
    all_goals exact ⟨by simp only [storesOf, hloc, Access.bind_done], by simp [storeSkips], nofun⟩
  obtain ⟨hstores, hskips, hsrb⟩ := hstores
  obtain ⟨t, hexec, hframe, hregs, hvalues, hothers⟩ := store_result_of_flat h hsrb hstores (by simp) hordinary
  simp only [hskips] at hregs
  refine ⟨t, hexec, hframe, hregs, ?_, fun va hne => hothers va fun k hk => ?_⟩
  · simpa [word_add_ofNat_zero] using hvalues 0 (by simp)
  · obtain rfl : k = 0 := by simpa using hk
    rwa [word_add_ofNat_zero]

theorem std_of_flat {s : State} {m : MemRef} {el : Word} {rel : Rel} (h : s.Flat)
    (hloc : s.effLoc m = .done (el, rel) s) (hordinary : s.ordinary el 2) :
    ∃ t, exec (.std m) s = .next t ∧ t = { s with regs := t.regs, mem := t.mem } ∧
      RegistersBecome s t [] [] (s.p + 1) ∧ t.wordAt el = s.a ∧ t.wordAt (el + 1) = s.d ∧
      ∀ va, va ≠ el → va ≠ el + 1 → t.wordAt va = s.wordAt va := by
  obtain ⟨hstores, hskips, hsrb⟩ := storesOf_registers (i := .std m) (ws := [s.a, s.d]) hloc (by simp)
  obtain ⟨t, hexec, hframe, hregs, hvalues, hothers⟩ := store_result_of_flat h hsrb hstores (by simp) hordinary
  rw [hskips] at hregs
  refine ⟨t, hexec, hframe, hregs, ?_, hvalues 1 (by simp), fun va hne0 hne1 => hothers va fun k hk => ?_⟩
  · simpa [word_add_ofNat_zero] using hvalues 0 (by simp)
  · have hlt : k < 2 := hk
    obtain rfl | rfl : k = 0 ∨ k = 1 := by omega
    · rwa [word_add_ofNat_zero]
    · exact hne1

theorem stf_of_flat {s : State} {m : MemRef} {el : Word} {rel : Rel} (h : s.Flat)
    (hloc : s.effLoc m = .done (el, rel) s) (hordinary : s.ordinary el 3) :
    ∃ t, exec (.stf m) s = .next t ∧ t = { s with regs := t.regs, mem := t.mem } ∧
      RegistersBecome s t [] [] (s.p + 1) ∧ t.wordAt el = s.t ∧ t.wordAt (el + 1) = s.a ∧ t.wordAt (el + 2) = s.d ∧
      ∀ va, va ≠ el → va ≠ el + 1 → va ≠ el + 2 → t.wordAt va = s.wordAt va := by
  obtain ⟨hstores, hskips, hsrb⟩ := storesOf_registers (i := .stf m) (ws := [s.t, s.a, s.d]) hloc (by simp)
  obtain ⟨t, hexec, hframe, hregs, hvalues, hothers⟩ := store_result_of_flat h hsrb hstores (by simp) hordinary
  rw [hskips] at hregs
  refine ⟨t, hexec, hframe, hregs, ?_, hvalues 1 (by simp), hvalues 2 (by simp),
    fun va hne0 hne1 hne2 => hothers va fun k hk => ?_⟩
  · simpa [word_add_ofNat_zero] using hvalues 0 (by simp)
  · have hlt : k < 3 := hk
    obtain rfl | rfl | rfl : k = 0 ∨ k = 1 ∨ k = 2 := by omega
    · rwa [word_add_ofNat_zero]
    · exact hne1
    · exact hne2

/-- Settles O27: the words of `storesOf` are stored in ascending order, with physical addressing by `storesInOrder_of_flat`. -/
theorem storeResult : Obligations.StoreResult := by
  unfold Obligations.StoreResult
  refine ⟨?_, ?_, fun s s1 m el rel h hloc => ?_⟩
  · intro s s1 s2 m el rel i ws hloc hi horder
    obtain ⟨hstores, hskips, hsrb⟩ := storesOf_registers hloc hi
    obtain ⟨hexec, hregs⟩ := store_result hsrb hstores horder
    rw [hskips] at hexec hregs
    exact ⟨_, hexec, onlyRegisters_skipIf s2 false, hregs⟩
  · intro s s1 s2 s3 m el w rel hloc hread hwrite
    have hsrb (level : BitVec 4) : Instr.min m ≠ .srb level := nofun
    obtain ⟨hexec, hregs⟩ := store_result hsrb (storesOf_min hloc hread) ⟨s3, hwrite, rfl⟩
    have hzero : w + 1 = 0 ↔ w = 0o177777 := by bv_omega
    exact ⟨_, hexec, onlyRegisters_skipIf s3 _, by simpa only [storeSkips_min, decide_eq_true_eq, hzero] using hregs⟩
  · obtain rfl := h.eq_of_effLoc hloc
    exact ⟨fun i v hi hordinary => store_word_of_flat h hloc hordinary hi, std_of_flat h hloc, stf_of_flat h hloc⟩

end Sys2Proof.Machine
end

section
/-! Jumps: the conditions as signed comparisons, P behind a jump, and the registers it leaves
(`spec/41_sequencing.md` R300 to R310). -/

namespace Sys2Proof.Machine

/-! ### Conditions -/

theorem word_msb_iff (w : Word) : w.msb = true ↔ w.toInt < 0 := by
  rw [BitVec.msb_eq_toInt, decide_eq_true_eq]

theorem word_not_msb_iff (w : Word) : (!w.msb) = true ↔ 0 ≤ w.toInt := by
  rw [BitVec.msb_eq_toInt, Bool.not_eq_true', decide_eq_false_iff_not, Int.not_lt]

theorem word_eq_zero_iff (w : Word) : w = 0 ↔ w.toInt = 0 := by
  rw [← BitVec.toInt_inj, BitVec.ofNat_eq_ofNat, BitVec.toInt_zero]

/-! ### Where a jump goes -/

/-- The displacement is a signed number (R302). -/
theorem State.jumpIf_eq (s : State) (c : Bool) (disp : BitVec 8) :
    s.jumpIf c disp = s.setP (if c then s.p + BitVec.ofInt 16 disp.toInt else s.p + 1) := by
  cases c <;> rfl

theorem WritesOnly.jumpIf {rs : List RField} {fs : List Flag} {s t : State} (h : WritesOnly rs fs s t) (c : Bool)
    (disp : BitVec 8) : WritesOnly rs fs s (t.jumpIf c disp) := ite_keeps (h.setP _) h.advance

/-- Where the effective location is found, JMP goes there (R300). -/
theorem jmp_result {s s1 : State} {m : MemRef} {el : Word} {rel : Rel} (hloc : s.effLoc m = .done (el, rel) s1) :
    ∃ t, exec (.jmp m) s = .next t ∧ onlyRegisters s1 t ∧ RegistersBecome s t [] [] el := by
  have hread : OnlyRead s s1 := ((OnlyRead.refl s).effLoc m).of_eq_done hloc
  have hend : WritesOnly [] [] s1 (s1.setP el) := (WritesOnly.refl _ _ s1).setP _
  refine ⟨_, ?_, hend.only, registersBecome_of_writesOnly hread.dataAccess hend nofun nofun (State.p_setP s1 el)⟩
  show execJmp m s = _
  rw [execJmp, hloc, Access.complete_done]

/-- JPL goes there too, and L points behind it (R301). -/
theorem jpl_result {s s1 : State} {m : MemRef} {el : Word} {rel : Rel} (hloc : s.effLoc m = .done (el, rel) s1) :
    ∃ t, exec (.jpl m) s = .next t ∧ onlyRegisters s1 t ∧ RegistersBecome s t [(.l, s.p + 1)] [] el := by
  have hread : OnlyRead s s1 := ((OnlyRead.refl s).effLoc m).of_eq_done hloc
  have hend : WritesOnly [.l] [] s1 ((s1.setL (s.p + 1)).setP el) :=
    ((WritesOnly.refl _ _ s1).setL (by decide) _).setP _
  refine ⟨_, ?_, hend.only, registersBecome_of_writesOnly hread.dataAccess hend ?_ nofun (State.p_setP _ el)⟩
  · show execJpl m s = _
    rw [execJpl, hloc, Access.complete_done, ← hread.p]
  · simp [RegSet.get]

section Conditional

variable {i : Instr} {s : State} {disp : BitVec 8} {b : Bool} {c : Prop} [Decidable c] (hc : b = true ↔ c)
include hc

/-- A jump on a condition alone (R302 to R306, R309, R310). -/
theorem conditional_jump_result (hexec : exec i s = .next (s.jumpIf b disp)) :
    ∃ t, exec i s = .next t ∧ onlyRegisters s t ∧
      RegistersBecome s t [] [] (if c then s.p + BitVec.ofInt 16 disp.toInt else s.p + 1) := by
  have hend : WritesOnly [] [] s (s.jumpIf b disp) := (WritesOnly.refl _ _ s).jumpIf b disp
  refine ⟨_, hexec, hend.only, registersBecome_of_writesOnly (DataAccess.refl s) hend nofun nofun ?_⟩
  simp only [State.jumpIf_eq, State.p_setP, hc]

/-- X is counted up first, whether or not the jump is taken (R307, R308). -/
theorem counting_jump_result (hexec : exec i s = .next ((s.setX (s.x + 1)).jumpIf b disp)) :
    ∃ t, exec i s = .next t ∧ onlyRegisters s t ∧
      RegistersBecome s t [(.x, s.x + 1)] [] (if c then s.p + BitVec.ofInt 16 disp.toInt else s.p + 1) := by
  have hend : WritesOnly [.x] [] s ((s.setX (s.x + 1)).jumpIf b disp) :=
    ((WritesOnly.refl _ _ s).setX (by decide) _).jumpIf b disp
  refine ⟨_, hexec, hend.only, registersBecome_of_writesOnly (DataAccess.refl s) hend ?_ nofun ?_⟩
  · simp [State.jumpIf_eq, RegSet.get]
  · simp only [State.jumpIf_eq, State.p_setP, State.p_setX, hc]

end Conditional

/-- Settles O29: JMP and JPL by way of the effective location, the conditional jumps by their conditions. -/
theorem jumps : Obligations.Jumps := by
  unfold Obligations.Jumps
  refine ⟨fun s s1 m el rel hloc => ⟨jmp_result hloc, jpl_result hloc⟩, fun s disp => ⟨fun i c _ hi => ?_, ?_, ?_⟩⟩
  · rcases hi with ⟨rfl, hc⟩ | ⟨rfl, hc⟩ | ⟨rfl, hc⟩ | ⟨rfl, hc⟩ | ⟨rfl, hc⟩ | ⟨rfl, hc⟩
    · exact conditional_jump_result ((word_not_msb_iff s.a).trans hc.symm) rfl
    · exact conditional_jump_result ((word_msb_iff s.a).trans hc.symm) rfl
    · exact conditional_jump_result (beq_iff_eq.trans ((word_eq_zero_iff s.a).trans hc.symm)) rfl
    · exact conditional_jump_result (bne_iff_ne.trans ((word_eq_zero_iff s.a).not.trans hc.symm)) rfl
    · exact conditional_jump_result (beq_iff_eq.trans ((word_eq_zero_iff s.x).trans hc.symm)) rfl
    · exact conditional_jump_result ((word_msb_iff s.x).trans hc.symm) rfl
  · exact counting_jump_result (word_not_msb_iff _) rfl
  · exact counting_jump_result (word_msb_iff _) rfl

end Sys2Proof.Machine
end

section
/-! Instructions that work on registers alone: they complete, and write their destinations, the flags of their rule and P
(`spec/41_sequencing.md` R302; `spec/43_floating.md` R349 to R353; `spec/44_shift.md` R373; `spec/45_register_ops.md` R391 to
R411, R415; `spec/46_skip.md` R430; `spec/47_argument.md` R446, R447; `spec/48_bit.md` R460 to R477). -/

namespace Sys2Proof.Machine

/-! ### The writes of register instructions -/

theorem State.putReg_of_ne_zero (s : State) {r : RField} (h : r ≠ .zero) (v : Word) :
    s.putReg r v = s.setCur (s.cur.put r v) := by
  cases r with
  | zero => exact absurd rfl h
  | _ => rfl

theorem mem_flagsAt {f : Flag} {n : Nat} : f ∈ flagsAt n ↔ f.bit = n := by
  have hall : f ∈ [Flag.ptm, .tg, .k, .z, .q, .o, .c, .m] := by cases f <;> decide
  rw [flagsAt, List.mem_filter, beq_iff_eq, and_iff_right hall]

namespace WritesOnly

variable {rs : List RField} {fs : List Flag} {s t : State} (h : WritesOnly rs fs s t)
include h

/-- Destination number 0 takes nothing (R392, D29). -/
theorem putReg {r : RField} (hr : r ∈ rs ∨ r = .p) (v : Word) : WritesOnly rs fs s (t.putReg r v) := by
  by_cases hzero : r = .zero
  · rw [hzero]; exact h
  · rw [State.putReg_of_ne_zero t hzero]; exact h.put hzero hr v

theorem endReg {r : RField} (hr : r ∈ rs ∨ r = .p) (v : Word) : WritesOnly rs fs s (t.endReg r v) := by
  cases r with
  | p => exact h.setP v
  | _ => exact (h.putReg hr v).advance

theorem setAD (ha : .a ∈ rs) (hd : .d ∈ rs) (v : BitVec 32) : WritesOnly rs fs s (t.setAD v) :=
  (h.setA ha _).setD hd _

theorem setOpenFlags (hc : .c ∈ fs) (ho : .o ∈ fs) (hq : .q ∈ fs) (v : BitVec 3) :
    WritesOnly rs fs s (t.setOpenFlags v) :=
  ((h.setFlag hc _).setFlag ho _).setFlag hq _

/-- Z is set where A cannot hold the integer (R351). -/
theorem setInteger (ha : .a ∈ rs) (hz : .z ∈ fs) (neg : Bool) (q : Nat) : WritesOnly rs fs s (t.setInteger neg q) :=
  ite_keeps ((h.drawWord.setFlag hz _).setA ha _) (h.setA ha _)

/-- A flag is written by the number of its bit in STS (R460). -/
theorem setStsBit {n : Nat} (hn : flagsAt n ⊆ fs) (b : Bool) : WritesOnly rs fs s (t.setSts (setBit t.sts n b)) := by
  refine h.setCur (fun r hz _ _ => ?_) fun f hf => ?_
  · cases r with
    | zero => exact absurd rfl hz
    | _ => rfl
  · have hne : f.bit ≠ n := fun e => hf (hn (mem_flagsAt.2 e))
    exact (getLsbD_setBit t.sts n f.bit b f.bit_lt).trans (if_neg hne)

/-- A bit of a register, or the flag at its place in STS, whose bits 15-8 take no write (R460, D6). -/
theorem putBit {bn : BitVec 4} {dr : RField} (hregs : (bitFrame bn dr).1 ⊆ rs) (hflags : (bitFrame bn dr).2 ⊆ fs)
    (v : Bool) : WritesOnly rs fs s (t.putBit bn dr v) := by
  cases dr with
  | zero => exact ite_keeps (h.setStsBit hflags v) h
  | _ => exact h.putReg (.inl (hregs List.mem_cons_self)) _

theorem endBit (r : RField) : WritesOnly rs fs s (t.endBit r) := ite_keeps h h.advance

end WritesOnly

/-! ### The families of register instructions -/

/-- The instruction completes, and writes P and only the registers and flags of its frame. -/
def CompletesWriting (frame : List RField × List Flag) (s : State) (r : Result) : Prop :=
  ∃ t, r = .next t ∧ WritesOnly frame.1 frame.2 s t

theorem WritesOnly.completes {frame : List RField × List Flag} {s t : State} (h : WritesOnly frame.1 frame.2 s t) :
    CompletesWriting frame s (.next t) :=
  ⟨t, rfl, h⟩

theorem CompletesWriting.ite {frame : List RField × List Flag} {s : State} {c : Prop} [Decidable c] {a b : Result}
    (ha : CompletesWriting frame s a) (hb : CompletesWriting frame s b) :
    CompletesWriting frame s (if c then a else b) := by
  split <;> assumption

/-- Both registers are written, but with destination 0 nothing is (R393, R396). -/
theorem completes_swap (cm1 cld : Bool) (sr dr : RField) (s : State) :
    CompletesWriting (if dr = .zero then ([], []) else ([sr, dr], [])) s (execSwap cm1 cld sr dr s) := by
  unfold execSwap
  by_cases hzero : dr = .zero
  · simp only [if_pos hzero]
    exact (WritesOnly.refl _ _ s).advance.completes
  · simp only [if_neg hzero]
    have kept : WritesOnly [sr, dr] [] s s := .refl _ _ s
    have hsr : sr ∈ [sr, dr] ∨ sr = .p := by simp
    have hdr : dr ∈ [sr, dr] ∨ dr = .p := by simp
    have same : CompletesWriting ([sr, dr], []) s (swapSame s dr (s.ropSource cm1 sr) (s.ropDest cld dr)) :=
      .ite (kept.endReg hdr _).completes (kept.drawBit.endReg hdr _).completes
    have both := (kept.putReg hdr (s.ropSource cm1 sr)).putReg hsr (s.ropDest cld dr)
    exact .ite same (ite_keeps both both.advance).completes

theorem completes_ropLogic (f : Word → Word → Word) (cm1 cld : Bool) (sr dr : RField) (s : State) :
    CompletesWriting ([dr], []) s (ropLogic f cm1 cld sr dr s) :=
  ((WritesOnly.refl _ _ s).endReg (.inl List.mem_cons_self) _).completes

/-- Destination 0 takes nothing, and C is cleared (R393). -/
theorem completes_ropAdd {rs : List RField} (adc ad1 cm1 cld : Bool) (sr : RField) {dr : RField}
    (hdr : dr ∈ rs ∨ dr = .p) (s : State) :
    CompletesWriting (rs, [.c, .o, .q]) s (ropAdd adc ad1 cm1 cld sr dr s) :=
  have kept := WritesOnly.refl rs [.c, .o, .q] s
  .ite (kept.setFlag (by decide) false).advance.completes
    ((kept.setAddFlags (by decide) (by decide) (by decide) _).endReg hdr _).completes

theorem completes_addArgument (r : RField) (arg : BitVec 8) (s : State) :
    CompletesWriting ([r], [.c, .o, .q]) s (addArgument r arg s) :=
  have written := (WritesOnly.refl [r] [.c, .o, .q] s).putReg (.inl List.mem_cons_self) _
  (written.setAddFlags (by decide) (by decide) (by decide) _).advance.completes

theorem completes_rmpy (sr dr : RField) (s : State) :
    CompletesWriting ([.a, .d], [.c, .o, .q]) s (execRmpy sr dr s) :=
  have product := (WritesOnly.refl [.a, .d] [.c, .o, .q] s).setAD (by decide) (by decide) _
  (product.setOpenFlags (by decide) (by decide) (by decide) _).advance.completes

/-- Z is set where A cannot hold the quotient (R411). -/
theorem completes_rdiv (sr : RField) (ignored : BitVec 3) (s : State) :
    CompletesWriting ([.a, .d], [.z, .c, .o, .q]) s (execRdiv sr ignored s) :=
  have kept := WritesOnly.refl [.a, .d] [.z, .c, .o, .q] s
  have quotient := ite_keeps ((kept.setFlag (by decide) true).setAD (by decide) (by decide) _)
    ((kept.setA (by decide) _).setD (by decide) _)
  (quotient.setOpenFlags (by decide) (by decide) (by decide) _).advance.completes

/-- T is written in the 48-bit format alone (R349, R350). -/
theorem completes_nlz (sc : BitVec 8) (s : State) : CompletesWriting ([.t, .a, .d], []) s (execNlz sc s) :=
  .ite ((WritesOnly.refl _ _ s).setFa32 _).advance.completes ((WritesOnly.refl _ _ s).setFa48 _).advance.completes

/-- T is cleared in the 48-bit format alone (R351, R353). -/
theorem completes_dnz (sc : BitVec 8) (s : State) : CompletesWriting ([.t, .a, .d], [.z]) s (execDnz sc s) :=
  have integer := (WritesOnly.refl [.t, .a, .d] [.z] s).setInteger (by decide) (by decide)
  .ite ((integer _ _).setD (by decide) 0).advance.completes
    (((integer _ _).setD (by decide) 0).setT (by decide) 0).advance.completes

theorem completes_bitSet (v : Bool) (bn : BitVec 4) (dr : RField) (s : State) :
    CompletesWriting (bitFrame bn dr) s (bitSet v bn dr s) :=
  (((WritesOnly.refl _ _ s).putBit (.refl _) (.refl _) v).endBit dr).completes

theorem completes_bitStore (v k : Bool) (bn : BitVec 4) (dr : RField) (s : State) :
    CompletesWriting ((bitFrame bn dr).1, .k :: (bitFrame bn dr).2) s (bitStore v k bn dr s) :=
  have stored := (WritesOnly.refl _ (.k :: (bitFrame bn dr).2) s).putBit (.refl _) (List.subset_cons_self _ _) v
  ((stored.setFlag List.mem_cons_self k).endBit dr).completes

theorem completes_bitLoad (k : Bool) (s : State) : CompletesWriting ([], [.k]) s (bitLoad k s) :=
  ((WritesOnly.refl _ _ s).setFlag (by decide) k).advance.completes

/-! ### Every register instruction -/

/-- One arm for each family of the instructions that `registerFrame` lists. -/
theorem completes_exec {i : Instr} {frame : List RField × List Flag} (hframe : registerFrame i = some frame) (s : State) :
    CompletesWriting frame s (exec i s) := by
  have kept := WritesOnly.refl frame.1 frame.2 s
  cases i with
  | jap disp | jan disp | jaz disp | jaf disp | jxz disp | jxn disp => exact (kept.jumpIf _ disp).completes
  | jpc disp | jnc disp => cases hframe; exact ((kept.setX (by decide) _).jumpIf _ disp).completes
  | skpEql sr dr | skpGeq sr dr | skpGre sr dr | skpMgre sr dr | skpUeq sr dr | skpLss sr dr | skpLst sr dr
  | skpMlst sr dr => exact (kept.skipIf _).completes
  | mix3 => cases hframe; exact (kept.setX (by decide) _).advance.completes
  | rmpy sr dr => cases hframe; exact completes_rmpy sr dr s
  | rdiv sr ignored => cases hframe; exact completes_rdiv sr ignored s
  | swap cm1 cld sr dr => cases hframe; exact completes_swap cm1 cld sr dr s
  | rand cm1 cld sr dr | rexo cm1 cld sr dr | rora cm1 cld sr dr =>
    cases hframe; exact completes_ropLogic _ cm1 cld sr dr s
  | radd _ _ _ _ sr dr | rsub sr dr | copy sr dr | copyCm2 sr dr =>
    cases hframe; exact completes_ropAdd _ _ _ _ sr (.inl List.mem_cons_self) s
  | exit => cases hframe; exact completes_ropAdd _ _ _ _ .l (.inr rfl) s
  | rclr dr | rinc dr | rdcr dr => cases hframe; exact completes_ropAdd _ _ _ _ .zero (.inl List.mem_cons_self) s
  | nlz sc => cases hframe; exact completes_nlz sc s
  | dnz sc => cases hframe; exact completes_dnz sc s
  | sht => cases hframe; exact ((kept.setT (by decide) _).setFlag (by decide) _).advance.completes
  | shd => cases hframe; exact ((kept.setD (by decide) _).setFlag (by decide) _).advance.completes
  | sha => cases hframe; exact ((kept.setA (by decide) _).setFlag (by decide) _).advance.completes
  | sad =>
    cases hframe
    exact (((kept.setA (by decide) _).setD (by decide) _).setFlag (by decide) _).advance.completes
  | sab => cases hframe; exact (kept.setB (by decide) _).advance.completes
  | saa => cases hframe; exact (kept.setA (by decide) _).advance.completes
  | sat => cases hframe; exact (kept.setT (by decide) _).advance.completes
  | sax => cases hframe; exact (kept.setX (by decide) _).advance.completes
  | aab arg | aaa arg | aat arg | aax arg => cases hframe; exact completes_addArgument _ arg s
  | bsetZro bn dr | bsetOne bn dr | bsetBcm bn dr | bsetBac bn dr => cases hframe; exact completes_bitSet _ bn dr s
  | bskpZro | bskpOne | bskpBcm | bskpBac => exact (kept.skipIf _).completes
  | bstc bn dr | bsta bn dr => cases hframe; exact completes_bitStore _ _ bn dr s
  | bldc | blda | banc | band | borc | bora => cases hframe; exact completes_bitLoad _ s
  | _ => cases hframe

/-- Settles O22: every instruction that `registerFrame` lists completes, writing what its frame lists. -/
theorem registerInstructionFrame : Obligations.RegisterInstructionFrame := by
  unfold Obligations.RegisterInstructionFrame
  intro i rs fs s hframe
  obtain ⟨t, hexec, hwrites⟩ := completes_exec hframe s
  exact ⟨t, hexec, hwrites.only, hwrites.kept⟩

end Sys2Proof.Machine
end

section
/-! Byte addresses and descriptors: a byte address by its number, the parts of a descriptor's second word, and the updates of the
registers that hold a descriptor (`spec/42_byte.md` R320, R324, R325). -/

namespace Sys2Proof.Machine

/-! ### Byte addresses -/

theorem bool_eq_of_toNat_eq {a b : Bool} (h : a.toNat = b.toNat) : a = b := by
  rw [← Bool.ofNat_toNat a, h, Bool.ofNat_toNat]

theorem ByteAddr.number_inj {a b : ByteAddr} : a.number = b.number ↔ a = b := by
  constructor
  · intro h
    obtain ⟨wa, ra⟩ := a
    obtain ⟨wb, rb⟩ := b
    have hra := Bool.toNat_lt ra
    have hrb := Bool.toNat_lt rb
    simp only [ByteAddr.number] at h
    have hword : wa = wb := BitVec.eq_of_toNat_eq (by omega)
    have hright : ra = rb := bool_eq_of_toNat_eq (by omega)
    rw [hword, hright]
  · rintro rfl; rfl

/-- Byte numbers go on modulo 2^17 (R320). -/
theorem ByteAddr.number_plus (a : ByteAddr) (n : Nat) : (a.plus n).number = (a.number + n) % 131072 := by
  have hword := a.word.isLt
  have hhalf : ((a.right.toNat + n) % 2 == 1).toNat = (a.right.toNat + n) % 2 := by
    rcases Nat.mod_two_eq_zero_or_one (a.right.toNat + n) with h | h <;> rw [h] <;> rfl
  simp only [ByteAddr.number, ByteAddr.plus, hhalf, BitVec.toNat_add, BitVec.toNat_ofNat]
  omega

theorem ByteAddr.number_lt (a : ByteAddr) : a.number < 131072 := by
  have hword := a.word.isLt
  have hright := Bool.toNat_lt a.right
  rw [ByteAddr.number]
  omega

@[simp] theorem ByteAddr.plus_zero (a : ByteAddr) : a.plus 0 = a :=
  ByteAddr.number_inj.1 (by rw [ByteAddr.number_plus, Nat.add_zero, Nat.mod_eq_of_lt a.number_lt])

theorem ByteAddr.plus_plus (a : ByteAddr) (m n : Nat) : (a.plus m).plus n = a.plus (m + n) :=
  ByteAddr.number_inj.1 (by
    rw [ByteAddr.number_plus, ByteAddr.number_plus, ByteAddr.number_plus, Nat.mod_add_mod, Nat.add_assoc])

theorem ByteAddr.next_eq_plus (a : ByteAddr) : a.next = a.plus 1 := by
  obtain ⟨w, r⟩ := a
  cases r <;> simp [ByteAddr.next, ByteAddr.plus]

@[simp] theorem ByteAddr.next_plus (a : ByteAddr) (n : Nat) : a.next.plus n = a.plus (n + 1) := by
  rw [ByteAddr.next_eq_plus, ByteAddr.plus_plus, Nat.add_comm]

/-- The bytes of a field that does not wrap around onto itself are different ones. -/
theorem ByteAddr.plus_inj {a : ByteAddr} {j k : Nat} (hj : j < 131072) (hk : k < 131072) (h : a.plus j = a.plus k) : j = k := by
  have hnumber := congrArg ByteAddr.number h
  rw [ByteAddr.number_plus, ByteAddr.number_plus] at hnumber
  omega

/-! ### Descriptors -/

theorem descRight_toNat (w : Word) : (descRight w).toNat = w.toNat / 32768 := by
  have hw := w.isLt
  rw [descRight, BitVec.getLsbD, Nat.toNat_testBit]
  omega

theorem descMid_toNat (w : Word) : (descMid w).toNat = w.toNat / 4096 % 8 := by
  rw [descMid, BitVec.extractLsb'_toNat, Nat.shiftRight_eq_div_pow]

theorem descLength_toNat (w : Word) : (descLength w).toNat = w.toNat % 4096 := by
  rw [descLength, BitVec.extractLsb'_toNat, Nat.shiftRight_zero]

theorem descWord_toNat (right : Bool) (mid : BitVec 3) (length : BitVec 12) :
    (descWord right mid length).toNat = right.toNat * 32768 + mid.toNat * 4096 + length.toNat := by
  have hmid := mid.isLt
  rw [descWord, BitVec.toNat_append, ← Nat.shiftLeft_add_eq_or_of_lt length.isLt, Nat.shiftLeft_eq, BitVec.toNat_append,
    ← Nat.shiftLeft_add_eq_or_of_lt hmid, Nat.shiftLeft_eq, BitVec.toNat_ofBool]
  omega

@[simp] theorem descRight_descWord (right : Bool) (mid : BitVec 3) (length : BitVec 12) :
    descRight (descWord right mid length) = right := by
  have hmid := mid.isLt
  have hlength := length.isLt
  refine bool_eq_of_toNat_eq ?_
  rw [descRight_toNat, descWord_toNat]
  omega

@[simp] theorem descMid_descWord (right : Bool) (mid : BitVec 3) (length : BitVec 12) :
    descMid (descWord right mid length) = mid := by
  have hmid := mid.isLt
  have hlength := length.isLt
  refine BitVec.eq_of_toNat_eq ?_
  rw [descMid_toNat, descWord_toNat]
  omega

@[simp] theorem descLength_descWord (right : Bool) (mid : BitVec 3) (length : BitVec 12) :
    descLength (descWord right mid length) = length := by
  have hlength := length.isLt
  refine BitVec.eq_of_toNat_eq ?_
  rw [descLength_toNat, descWord_toNat]
  omega

/-- A descriptor's second word is put together from its parts (R324). -/
theorem descWord_parts (w : Word) : descWord (descRight w) (descMid w) (descLength w) = w := by
  have hw := w.isLt
  refine BitVec.eq_of_toNat_eq ?_
  rw [descWord_toNat, descRight_toNat, descMid_toNat, descLength_toNat]
  omega

@[simp] theorem descAddr_descWord (a : ByteAddr) (mid : BitVec 3) (length : BitVec 12) :
    descAddr a.word (descWord a.right mid length) = a := by
  rw [descAddr, descRight_descWord]

theorem descAddr_number (d1 d2 : Word) : (descAddr d1 d2).number = 2 * d1.toNat + d2.toNat / 32768 := by
  rw [ByteAddr.number, descAddr, descRight_toNat]

/-- Bit 14 is one of the middle bits. -/
theorem descRel_eq_descMid (w : Word) : descRel w = if (descMid w).getLsbD 2 then .nonprel else .prel := by
  rw [descRel, descMid, BitVec.getLsbD_extractLsb']
  rfl

@[simp] theorem descRel_descWord (right : Bool) (w : Word) (length : BitVec 12) :
    descRel (descWord right (descMid w) length) = descRel w := by
  rw [descRel_eq_descMid, descMid_descWord, ← descRel_eq_descMid]

/-- The way of access by bit 14 is that of the statements (R325). -/
theorem fieldRel_eq_descRel (w : Word) : fieldRel w = descRel w := by
  have hbit : w.getLsbD 14 = true ↔ 16384 ≤ w.toNat % 32768 := by
    rw [BitVec.getLsbD, Nat.testBit_eq_decide_div_mod_eq, decide_eq_true_iff]
    omega
  simp only [fieldRel, descRel, hbit]

theorem State.moveLength_toNat (s : State) : s.moveLength.toNat = min (s.d.toNat % 4096) (s.t.toNat % 4096) := by
  simp only [State.moveLength, shorter, BitVec.le_def, ← descLength_toNat]
  split <;> omega

/-! ### The registers that hold a descriptor -/

@[simp] theorem State.x_setDest (s : State) (a : ByteAddr) (mid : BitVec 3) (length : BitVec 12) :
    (s.setDest a mid length).x = a.word := by simp [State.setDest]
@[simp] theorem State.t_setDest (s : State) (a : ByteAddr) (mid : BitVec 3) (length : BitVec 12) :
    (s.setDest a mid length).t = descWord a.right mid length := by simp [State.setDest]
@[simp] theorem State.a_setDest (s : State) (a : ByteAddr) (mid : BitVec 3) (length : BitVec 12) :
    (s.setDest a mid length).a = s.a := by simp [State.setDest]
@[simp] theorem State.d_setDest (s : State) (a : ByteAddr) (mid : BitVec 3) (length : BitVec 12) :
    (s.setDest a mid length).d = s.d := by simp [State.setDest]
@[simp] theorem State.p_setDest (s : State) (a : ByteAddr) (mid : BitVec 3) (length : BitVec 12) :
    (s.setDest a mid length).p = s.p := by simp [State.setDest]
@[simp] theorem State.sts_setDest (s : State) (a : ByteAddr) (mid : BitVec 3) (length : BitVec 12) :
    (s.setDest a mid length).sts = s.sts := by simp [State.setDest]

@[simp] theorem State.a_setSource (s : State) (a : ByteAddr) (mid : BitVec 3) (length : BitVec 12) :
    (s.setSource a mid length).a = a.word := by simp [State.setSource]
@[simp] theorem State.d_setSource (s : State) (a : ByteAddr) (mid : BitVec 3) (length : BitVec 12) :
    (s.setSource a mid length).d = descWord a.right mid length := by simp [State.setSource]
@[simp] theorem State.p_setSource (s : State) (a : ByteAddr) (mid : BitVec 3) (length : BitVec 12) :
    (s.setSource a mid length).p = s.p := by simp [State.setSource]
@[simp] theorem State.sts_setSource (s : State) (a : ByteAddr) (mid : BitVec 3) (length : BitVec 12) :
    (s.setSource a mid length).sts = s.sts := by simp [State.setSource]

theorem State.setCur_self (s : State) : s.setCur s.cur = s := by
  simp [State.setCur, State.setReg, State.cur, State.reg]

/-- Both descriptors, the registers of MOVB and MOVBF. -/
def State.setFields (s : State) (src : ByteAddr) (smid : BitVec 3) (slength : BitVec 12) (dst : ByteAddr) (dmid : BitVec 3)
    (dlength : BitVec 12) : State :=
  (s.setSource src smid slength).setDest dst dmid dlength

theorem State.setFields_eq (s : State) (src : ByteAddr) (smid : BitVec 3) (slength : BitVec 12) (dst : ByteAddr)
    (dmid : BitVec 3) (dlength : BitVec 12) :
    s.setFields src smid slength dst dmid dlength = (s.setSource src smid slength).setDest dst dmid dlength := rfl

theorem State.setDest_eq_setCur (s : State) (a : ByteAddr) (mid : BitVec 3) (length : BitVec 12) :
    s.setDest a mid length = s.setCur { s.cur with x := a.word, t := descWord a.right mid length } := by
  simp [State.setDest, State.setT, State.setX]

theorem State.setFields_eq_setCur (s : State) (src : ByteAddr) (smid : BitVec 3) (slength : BitVec 12) (dst : ByteAddr)
    (dmid : BitVec 3) (dlength : BitVec 12) :
    s.setFields src smid slength dst dmid dlength =
      s.setCur { s.cur with
        a := src.word, d := descWord src.right smid slength, x := dst.word, t := descWord dst.right dmid dlength } := by
  simp [State.setFields, State.setSource, State.setA, State.setD, State.setDest_eq_setCur]

theorem State.setDest_self (s : State) : s.setDest (descAddr s.x s.t) (descMid s.t) (descLength s.t) = s := by
  rw [State.setDest_eq_setCur, descAddr, descWord_parts]
  exact s.setCur_self

theorem State.setFields_self (s : State) :
    s.setFields (descAddr s.a s.d) (descMid s.d) (descLength s.d) (descAddr s.x s.t) (descMid s.t) (descLength s.t) = s := by
  rw [State.setFields_eq_setCur, descAddr, descAddr, descWord_parts, descWord_parts]
  exact s.setCur_self

@[simp] theorem State.setDest_setDest (s : State) (a a' : ByteAddr) (mid mid' : BitVec 3) (length length' : BitVec 12) :
    (s.setDest a mid length).setDest a' mid' length' = s.setDest a' mid' length' := by
  simp [State.setDest_eq_setCur]

@[simp] theorem State.setFields_setFields (s : State) (src src' dst dst' : ByteAddr) (sm sm' dm dm' : BitVec 3)
    (sl sl' dl dl' : BitVec 12) :
    (s.setFields src sm sl dst dm dl).setFields src' sm' sl' dst' dm' dl' = s.setFields src' sm' sl' dst' dm' dl' := by
  simp [State.setFields_eq_setCur]

@[simp] theorem State.a_setFields (s : State) (src : ByteAddr) (smid : BitVec 3) (slength : BitVec 12) (dst : ByteAddr)
    (dmid : BitVec 3) (dlength : BitVec 12) : (s.setFields src smid slength dst dmid dlength).a = src.word := by
  simp [State.setFields]
@[simp] theorem State.d_setFields (s : State) (src : ByteAddr) (smid : BitVec 3) (slength : BitVec 12) (dst : ByteAddr)
    (dmid : BitVec 3) (dlength : BitVec 12) :
    (s.setFields src smid slength dst dmid dlength).d = descWord src.right smid slength := by simp [State.setFields]
@[simp] theorem State.x_setFields (s : State) (src : ByteAddr) (smid : BitVec 3) (slength : BitVec 12) (dst : ByteAddr)
    (dmid : BitVec 3) (dlength : BitVec 12) : (s.setFields src smid slength dst dmid dlength).x = dst.word := by
  simp [State.setFields]
@[simp] theorem State.t_setFields (s : State) (src : ByteAddr) (smid : BitVec 3) (slength : BitVec 12) (dst : ByteAddr)
    (dmid : BitVec 3) (dlength : BitVec 12) :
    (s.setFields src smid slength dst dmid dlength).t = descWord dst.right dmid dlength := by simp [State.setFields]
@[simp] theorem State.p_setFields (s : State) (src : ByteAddr) (smid : BitVec 3) (slength : BitVec 12) (dst : ByteAddr)
    (dmid : BitVec 3) (dlength : BitVec 12) : (s.setFields src smid slength dst dmid dlength).p = s.p := by
  simp [State.setFields]
@[simp] theorem State.sts_setFields (s : State) (src : ByteAddr) (smid : BitVec 3) (slength : BitVec 12) (dst : ByteAddr)
    (dmid : BitVec 3) (dlength : BitVec 12) : (s.setFields src smid slength dst dmid dlength).sts = s.sts := by
  simp [State.setFields]

/-- The same registers put into two states with one register file. -/
theorem State.withRegs_setCur {s t : State} (hregs : t.regs = s.regs) (hpil : t.pil = s.pil) (q : RegSet) :
    t.withRegs (s.setCur q).regs = t.setCur q := by
  simp only [State.withRegs, State.setCur, State.setReg, hregs, hpil]

theorem State.withRegs_setDest {s t : State} (hregs : t.regs = s.regs) (hpil : t.pil = s.pil) (a : ByteAddr) (mid : BitVec 3)
    (length : BitVec 12) : t.withRegs (s.setDest a mid length).regs = t.setDest a mid length := by
  rw [State.setDest_eq_setCur, State.setDest_eq_setCur, State.withRegs_setCur hregs hpil, State.cur_of_regs hregs hpil]

theorem State.withRegs_setFields {s t : State} (hregs : t.regs = s.regs) (hpil : t.pil = s.pil) (src dst : ByteAddr)
    (smid dmid : BitVec 3) (slength dlength : BitVec 12) :
    t.withRegs (s.setFields src smid slength dst dmid dlength).regs = t.setFields src smid slength dst dmid dlength := by
  rw [State.setFields_eq_setCur, State.setFields_eq_setCur, State.withRegs_setCur hregs hpil, State.cur_of_regs hregs hpil]

end Sys2Proof.Machine
end

section
/-! Bytes read and stored one after another: what the accesses leave, that they depend on no register but PTM, and what is in
memory then with physical addressing (`spec/42_byte.md` R320, R325, R327 to R329). -/

namespace Sys2Proof.Machine

/-! ### What the accesses leave -/

theorem dataAccess_of_readsByte {rel : Rel} {s t : State} {a : ByteAddr} {b : Byte} (h : readsByte rel s a b t) :
    DataAccess s t := by
  obtain ⟨w, hread, _⟩ := h
  exact (onlyRead_of_memRead (by decide) hread).dataAccess

theorem dataAccess_of_storesByte {rel : Rel} {s t : State} {a : ByteAddr} {b : Byte} (h : storesByte rel s a b t) :
    DataAccess s t := by
  obtain ⟨w, w', u, hread, _, hwrite⟩ := h
  exact (onlyRead_of_memRead (by decide) hread).dataAccess.trans (dataAccess_of_memWrite hwrite)

theorem dataAccess_of_readsBytes {rel : Rel} {s t : State} {a : ByteAddr} {bytes : List Byte}
    (h : readsBytes rel s a bytes t) : DataAccess s t := by
  induction bytes generalizing s a with
  | nil => obtain rfl : t = s := h; exact .refl _
  | cons b r ih =>
    obtain ⟨u, hread, hrest⟩ := h
    exact (dataAccess_of_readsByte hread).trans (ih hrest)

theorem dataAccess_of_storesBytes {rel : Rel} {s t : State} {a : ByteAddr} {bytes : List Byte}
    (h : storesBytes rel s a bytes t) : DataAccess s t := by
  induction bytes generalizing s a with
  | nil => obtain rfl : t = s := h; exact .refl _
  | cons b r ih =>
    obtain ⟨u, hstore, hrest⟩ := h
    exact (dataAccess_of_storesByte hstore).trans (ih hrest)

theorem dataAccess_of_movesBytes {srel drel : Rel} {n : Nat} {s t : State} {src dst : ByteAddr}
    (h : movesBytes srel drel n s src dst t) : DataAccess s t := by
  induction n generalizing s src dst with
  | zero => obtain rfl : t = s := h; exact .refl _
  | succ n ih =>
    obtain ⟨b, u, v, hread, hstore, hrest⟩ := h
    exact ((dataAccess_of_readsByte hread).trans (dataAccess_of_storesByte hstore)).trans (ih hrest)

namespace DataAccess

variable {s u : State} (h : DataAccess s u)
include h

theorem cur : u.cur = s.cur := State.cur_of_regs h.regs h.pil
theorem sts : u.sts = s.sts := congrArg RegSet.sts h.cur
theorem a : u.a = s.a := congrArg RegSet.a h.cur
theorem d : u.d = s.d := congrArg RegSet.d h.cur
theorem x : u.x = s.x := congrArg RegSet.x h.cur
theorem t : u.t = s.t := congrArg RegSet.t h.cur
theorem p : u.p = s.p := congrArg RegSet.p h.cur

/-- A register file that leaves PTM before the accesses leaves it behind them. -/
theorem sts_withRegs {r : Vector RegSet 16} (hsts : (s.withRegs r).sts = s.sts) : (u.withRegs r).sts = u.sts := by
  rw [h.sts, ← hsts]
  exact congrArg RegSet.sts (State.cur_of_regs (s := s.withRegs r) (t := u.withRegs r) rfl h.pil)

end DataAccess

/-! ### Accesses with other registers -/

section Registers

variable {rel srel drel : Rel} {s t : State} {r : Vector RegSet 16} (hsts : (s.withRegs r).sts = s.sts)
include hsts

theorem readsByte_withRegs {a : ByteAddr} {b : Byte} (h : readsByte rel s a b t) :
    readsByte rel (s.withRegs r) a b (t.withRegs r) := by
  obtain ⟨w, hread, hb⟩ := h
  exact ⟨w, by rw [State.memRead_withRegs hsts, hread]; rfl, hb⟩

theorem storesByte_withRegs {a : ByteAddr} {b : Byte} (h : storesByte rel s a b t) :
    storesByte rel (s.withRegs r) a b (t.withRegs r) := by
  obtain ⟨w, w', u, hread, hw, hwrite⟩ := h
  have hu := (onlyRead_of_memRead (by decide) hread).dataAccess.sts_withRegs hsts
  refine ⟨w, w', u.withRegs r, ?_, hw, ?_⟩
  · rw [State.memRead_withRegs hsts, hread]; rfl
  · rw [State.memWrite_withRegs hu, hwrite]; rfl

theorem storesBytes_withRegs {a : ByteAddr} {bytes : List Byte} (h : storesBytes rel s a bytes t) :
    storesBytes rel (s.withRegs r) a bytes (t.withRegs r) := by
  induction bytes generalizing s a with
  | nil => obtain rfl : t = s := h; rfl
  | cons b l ih =>
    obtain ⟨u, hstore, hrest⟩ := h
    exact ⟨_, storesByte_withRegs hsts hstore, ih ((dataAccess_of_storesByte hstore).sts_withRegs hsts) hrest⟩

theorem movesBytes_withRegs {n : Nat} {src dst : ByteAddr} (h : movesBytes srel drel n s src dst t) :
    movesBytes srel drel n (s.withRegs r) src dst (t.withRegs r) := by
  induction n generalizing s src dst with
  | zero => obtain rfl : t = s := h; rfl
  | succ n ih =>
    obtain ⟨b, u, v, hread, hstore, hrest⟩ := h
    have hu := (dataAccess_of_readsByte hread).sts_withRegs hsts
    have hv := (dataAccess_of_storesByte hstore).sts_withRegs hu
    exact ⟨b, _, _, readsByte_withRegs hsts hread, storesByte_withRegs hu hstore, ih hv hrest⟩

end Registers

/-! ### The bytes of a word -/

/-- A half of a word that is written is read as a byte of memory. -/
theorem Memory.read_writeWord_half (m : Memory) (pa : PhysAddr) (w : Word) (right : Bool) :
    (m.writeWord pa w).read (2 * pa.toNat + right.toNat) = halfOf w right := by
  cases right with
  | false =>
    rw [Memory.writeWord, Memory.read_write_ne _ _ (by simp)]
    exact Memory.read_write_self _ _ _
  | true => exact Memory.read_write_self _ _ _

theorem halfOf_withHalf_self (w : Word) (right : Bool) (b : Byte) : halfOf (withHalf w right b) right = b := by
  cases right with
  | false => exact BitVec.extractLsb'_append_eq_left
  | true => exact BitVec.extractLsb'_append_eq_right

theorem halfOf_withHalf_other (w : Word) (right : Bool) (b : Byte) :
    halfOf (withHalf w right b) (!right) = halfOf w (!right) := by
  cases right with
  | false => exact BitVec.extractLsb'_append_eq_right
  | true => exact BitVec.extractLsb'_append_eq_left

/-- The word at an address holds the byte there in its half (R102). -/
theorem State.halfOf_wordAt (s : State) (a : ByteAddr) : halfOf (s.wordAt a.word) a.right = s.byteAt a := by
  obtain ⟨w, right⟩ := a
  rw [State.wordAt, Memory.readWord, zeroExtend_toNat]
  cases right with
  | false => exact BitVec.extractLsb'_append_eq_left
  | true => exact BitVec.extractLsb'_append_eq_right

/-! ### Physical addressing -/

/-- The first `n` bytes from a byte address on lie in no page table. -/
def State.ordinaryBytes (s : State) (a : ByteAddr) (n : Nat) : Prop :=
  ∀ k, k < n → s.shadowReached (a.plus k).word = false

/-- A field of `n` bytes begins in one of its words and ends in the last of them. -/
theorem State.ordinaryBytes_of_ordinary {s : State} {a : ByteAddr} {n : Nat} (h : s.ordinary a.word (n / 2 + 1)) :
    s.ordinaryBytes a n := by
  intro k hk
  have hright := Bool.toNat_lt a.right
  exact h _ (by omega)

theorem State.ordinaryBytes.head {s : State} {a : ByteAddr} {n : Nat} (h : s.ordinaryBytes a (n + 1)) :
    s.shadowReached a.word = false := by
  have := h 0 (Nat.succ_pos n)
  rwa [ByteAddr.plus_zero] at this

theorem State.ordinaryBytes.tail {s : State} {a : ByteAddr} {n : Nat} (h : s.ordinaryBytes a (n + 1)) :
    s.ordinaryBytes a.next n := by
  intro k hk
  rw [ByteAddr.next_plus]
  exact h (k + 1) (by omega)

/-- What memory holds has no part in where the page tables lie. -/
theorem State.ordinaryBytes.of_mem {s : State} {a : ByteAddr} {n : Nat} (h : s.ordinaryBytes a n) (mem : Memory) :
    ({ s with mem := mem } : State).ordinaryBytes a n := h

theorem readsByte_of_flat (rel : Rel) {s : State} (h : s.Flat) {a : ByteAddr} (hshadow : s.shadowReached a.word = false) :
    readsByte rel s a (s.byteAt a) s :=
  ⟨s.wordAt a.word, h.memRead hshadow .rop rel, (halfOf_eq_iff _ _ _).1 (s.halfOf_wordAt a)⟩

/-- With physical addressing a byte stored is in memory then, and every other byte is as before. -/
theorem storesByte_of_flat (rel : Rel) {s : State} (h : s.Flat) {a : ByteAddr} (hshadow : s.shadowReached a.word = false)
    (b : Byte) :
    ∃ u, storesByte rel s a b u ∧ u = { s with mem := u.mem } ∧ u.byteAt a = b ∧ ∀ c, c ≠ a → u.byteAt c = s.byteAt c := by
  refine ⟨{ s with mem := s.mem.writeWord (a.word.zeroExtend 24) (withHalf (s.wordAt a.word) a.right b) },
    ⟨_, _, s, h.memRead hshadow .rop rel, (withHalf_eq_iff ..).1 rfl, h.memWrite hshadow rel _⟩, rfl, ?_, ?_⟩
  · have hself := Memory.read_writeWord_half s.mem (a.word.zeroExtend 24) (withHalf (s.wordAt a.word) a.right b) a.right
    rwa [zeroExtend_toNat, halfOf_withHalf_self] at hself
  · rintro ⟨w, right⟩ hne
    by_cases hword : w = a.word
    · have hright : right = !a.right := by
        rw [Bool.eq_not]
        rintro rfl
        exact hne (by rw [hword])
      have hother := Memory.read_writeWord_half s.mem (a.word.zeroExtend 24) (withHalf (s.wordAt a.word) a.right b) (!a.right)
      rw [zeroExtend_toNat, halfOf_withHalf_other, s.halfOf_wordAt ⟨a.word, !a.right⟩] at hother
      rw [hword, hright]
      exact hother
    · refine Memory.read_writeWord_ne _ _ _ ?_
      have hright := Bool.toNat_lt right
      rw [zeroExtend_toNat]
      exact fun heq => hword (BitVec.eq_of_toNat_eq (by simp only at heq; omega))

/-- With physical addressing reading bytes changes nothing. -/
theorem readsBytes_of_flat (rel : Rel) (n : Nat) {s : State} (h : s.Flat) {a : ByteAddr} (hordinary : s.ordinaryBytes a n) :
    readsBytes rel s a (s.bytesAt a n) s := by
  induction n generalizing a with
  | zero => rfl
  | succ n ih =>
    have hbytes : s.bytesAt a (n + 1) = s.byteAt a :: s.bytesAt a.next n := by
      simp [State.bytesAt, List.range_succ_eq_map]
    rw [hbytes]
    exact ⟨s, readsByte_of_flat rel h hordinary.head, ih hordinary.tail⟩

/-- A byte outside a field is outside its first byte and outside the rest. -/
theorem outside_tail {a b : ByteAddr} {n : Nat} (h : ∀ k, k < n + 1 → b ≠ a.plus k) : ∀ k, k < n → b ≠ a.next.plus k := by
  intro k hk
  rw [ByteAddr.next_plus]
  exact h (k + 1) (by omega)

theorem outside_head {a b : ByteAddr} {n : Nat} (h : ∀ k, k < n + 1 → b ≠ a.plus k) : b ≠ a := by
  have := h 0 (Nat.succ_pos n)
  rwa [ByteAddr.plus_zero] at this

/-- The first byte of a field that does not wrap around onto itself is outside the rest. -/
theorem head_outside_tail (a : ByteAddr) {n : Nat} (hn : n < 131072) : ∀ k, k < n → a ≠ a.next.plus k := by
  intro k hk heq
  rw [ByteAddr.next_plus, ← ByteAddr.plus_zero a, ByteAddr.plus_plus] at heq
  have := ByteAddr.plus_inj (by omega) (by omega) heq
  omega

/-- With physical addressing bytes stored one after another are in memory then, and every other byte is as before. -/
theorem storesBytes_of_flat (rel : Rel) (bytes : List Byte) {s : State} (h : s.Flat) {a : ByteAddr}
    (hlen : bytes.length ≤ 131072) (hordinary : s.ordinaryBytes a bytes.length) :
    ∃ u, storesBytes rel s a bytes u ∧ u = { s with mem := u.mem } ∧
      (∀ k (hk : k < bytes.length), u.byteAt (a.plus k) = bytes[k]) ∧ sameBytesOutside s u a bytes.length := by
  induction bytes generalizing s a with
  | nil => exact ⟨s, rfl, rfl, nofun, fun _ _ => rfl⟩
  | cons b r ih =>
    rw [List.length_cons] at hlen
    obtain ⟨t, hstore, ht, hvalue, hother⟩ := storesByte_of_flat rel h hordinary.head b
    obtain ⟨u, hrest, hu, hvalues, hothers⟩ := ih (s := t) (a := a.next) (by rw [ht]; exact h.of_mem _) (by omega)
      (by rw [ht]; exact hordinary.tail.of_mem _)
    refine ⟨u, ⟨t, hstore, hrest⟩, by rw [hu, ht], fun k hk => ?_, fun c hc => ?_⟩
    · cases k with
      | zero => rw [ByteAddr.plus_zero, hothers a (head_outside_tail a (by omega)), hvalue, List.getElem_cons_zero]
      | succ k =>
        rw [← ByteAddr.next_plus]
        exact hvalues k (by simpa using hk)
    · rw [hothers c (outside_tail hc), hother c (outside_head hc)]

/-- With physical addressing bytes moved one after another are in memory then as the source held them, where no byte of it is
stored to before it is read, and every other byte is as before. -/
theorem movesBytes_of_flat (srel drel : Rel) (n : Nat) {s : State} (h : s.Flat) {src dst : ByteAddr} (hn : n ≤ 131072)
    (hsrc : s.ordinaryBytes src n) (hdst : s.ordinaryBytes dst n)
    (hread : ∀ j k, k < j → j < n → dst.plus k ≠ src.plus j) :
    ∃ u, movesBytes srel drel n s src dst u ∧ u = { s with mem := u.mem } ∧
      (∀ k, k < n → u.byteAt (dst.plus k) = s.byteAt (src.plus k)) ∧ sameBytesOutside s u dst n := by
  induction n generalizing s src dst with
  | zero => exact ⟨s, rfl, rfl, nofun, fun _ _ => rfl⟩
  | succ n ih =>
    obtain ⟨t, hstore, ht, hvalue, hother⟩ := storesByte_of_flat drel h hdst.head (s.byteAt src)
    obtain ⟨u, hrest, hu, hvalues, hothers⟩ := ih (s := t) (src := src.next) (dst := dst.next) (by rw [ht]; exact h.of_mem _)
      (by omega) (by rw [ht]; exact hsrc.tail.of_mem _) (by rw [ht]; exact hdst.tail.of_mem _) fun j k hk hj => by
        simpa only [ByteAddr.next_plus] using hread (j + 1) (k + 1) (by omega) (by omega)
    refine ⟨u, ⟨_, s, t, readsByte_of_flat srel h hsrc.head, hstore, hrest⟩, by rw [hu, ht], fun k hk => ?_, fun c hc => ?_⟩
    · cases k with
      | zero =>
        rw [ByteAddr.plus_zero, ByteAddr.plus_zero, hothers dst (head_outside_tail dst (by omega)), hvalue]
      | succ k =>
        have hnew : src.plus (k + 1) ≠ dst := by
          have := hread (k + 1) 0 (Nat.succ_pos k) hk
          rw [ByteAddr.plus_zero] at this
          exact this.symm
        rw [← ByteAddr.next_plus, hvalues k (by omega), ByteAddr.next_plus, hother _ hnew]
    · rw [hothers c (outside_tail hc), hother c (outside_head hc)]

end Sys2Proof.Machine
end

section
/-! LBYT, SBYT, BFILL, MOVB and MOVBF: the loops as sequences of accesses, and the registers behind them
(`spec/42_byte.md` R321 to R329). -/

namespace Sys2Proof.Machine

/-! ### LBYT and SBYT -/

theorem setWidth_byte_eq_ofNat (w : Word) : w.setWidth 8 = BitVec.ofNat 8 w.toNat :=
  BitVec.eq_of_toNat_eq (by simp)

/-- The byte of LBYT and SBYT is byte X of the string at T, X without a sign (R321, D22). -/
theorem State.stringByte_eq (s : State) :
    s.stringByte = ⟨s.t + BitVec.ofNat 16 (s.x.toNat / 2), decide (s.x.toNat % 2 = 1)⟩ := by
  have hhalf : s.x.ushiftRight 1 = BitVec.ofNat 16 (s.x.toNat / 2) := by
    refine BitVec.eq_of_toNat_eq ?_
    rw [BitVec.ushiftRight_eq, BitVec.toNat_ushiftRight, Nat.shiftRight_eq_div_pow, BitVec.toNat_ofNat]
    omega
  have hright : s.x.getLsbD 0 = decide (s.x.toNat % 2 = 1) := by
    rw [BitVec.getLsbD, Nat.testBit_eq_decide_div_mod_eq, Nat.pow_zero, Nat.div_one]
  rw [State.stringByte, hhalf, hright]

/-- A byte with zeros above it, as a number. -/
theorem zeroExtend_halfOf (w : Word) (right : Bool) :
    (halfOf w right).zeroExtend 16 = BitVec.ofNat 16 (if right then w.toNat % 256 else w.toNat / 256) := by
  have hhalf := (halfOf_eq_iff w right _).1 rfl
  refine BitVec.eq_of_toNat_eq ?_
  rw [BitVec.toNat_setWidth, hhalf, BitVec.toNat_ofNat]

section StringByte

variable {s s1 : State} {va w : Word} (hva : va = s.t + BitVec.ofNat 16 (s.x.toNat / 2))
  (hread : s.memRead .rop .nonprel va = .done w s1)
include hva hread

theorem lbyt_result :
    ∃ t, exec .lbyt s = .next t ∧ onlyRegisters s1 t ∧
      RegistersBecome s t
        [(.a, BitVec.ofNat 16 (if s.x.toNat % 2 = 0 then w.toNat / 256 else w.toNat % 256))] [] (s.p + 1) := by
  have hread1 := onlyRead_of_memRead (by decide) hread
  have hvalue : (halfOf w (decide (s.x.toNat % 2 = 1))).zeroExtend 16 =
      BitVec.ofNat 16 (if s.x.toNat % 2 = 0 then w.toNat / 256 else w.toNat % 256) := by
    rw [zeroExtend_halfOf]
    rcases Nat.mod_two_eq_zero_or_one s.x.toNat with h | h <;> simp [h]
  have hexec : exec .lbyt s = .next (s1.setA ((halfOf w (decide (s.x.toNat % 2 = 1))).zeroExtend 16)).advance := by
    show execLbyt s = _
    simp only [execLbyt, State.loadByte, State.stringByte_eq, ← hva, hread, Access.bind_done, Access.complete_done]
  rw [hvalue] at hexec
  exact ⟨_, hexec, rfl, registersBecome_put_advance hread1.regs hread1.pil (r := .a) nofun nofun _⟩

/-- SBYT stores one word, that of the byte with the byte replaced. -/
theorem storesOf_sbyt {w' : Word}
    (hw : halfReplaced w (decide (s.x.toNat % 2 = 1)) (BitVec.ofNat 8 s.a.toNat) w') :
    storesOf .sbyt s = .done (.nonprel, va, [w']) s1 := by
  rw [← withHalf_eq_iff] at hw
  simp only [storesOf, State.stringByte_eq, ← hva, hread, Access.bind_done, setWidth_byte_eq_ofNat, ← hw]

theorem sbyt_result {w' : Word} {s2 : State}
    (hw : halfReplaced w (decide (s.x.toNat % 2 = 1)) (BitVec.ofNat 8 s.a.toNat) w')
    (hwrite : s1.memWrite .nonprel va w' = .done () s2) :
    exec .sbyt s = .next s2.advance ∧ RegistersBecome s s2.advance [] [] (s.p + 1) :=
  store_result nofun (storesOf_sbyt hva hread hw) ⟨s2, hwrite, rfl⟩

theorem sbyt_result_of_flat (h : s.Flat) (hshadow : s.shadowReached va = false) :
    ∃ t, exec .sbyt s = .next t ∧ t = { s with regs := t.regs, mem := t.mem } ∧ RegistersBecome s t [] [] (s.p + 1) ∧
      (t.wordAt va).toNat =
        (if s.x.toNat % 2 = 0 then s.a.toNat % 256 * 256 + w.toNat % 256 else w.toNat / 256 * 256 + s.a.toNat % 256) ∧
      ∀ a, a / 2 ≠ va.toNat → t.mem.read a = s.mem.read a := by
  have hs1 : s1 = s := by
    rw [h.memRead hshadow] at hread
    cases hread
    rfl
  have hw := (withHalf_eq_iff w (decide (s.x.toNat % 2 = 1)) (BitVec.ofNat 8 s.a.toNat) _).1 rfl
  obtain ⟨_, u, hwrite, hframe, hword, _, hothers⟩ := physicalAccess_of_flat h .sto .nonprel _ hshadow
  obtain ⟨hexec, hregs⟩ := sbyt_result hva hread hw (by rw [hs1]; exact hwrite)
  refine ⟨_, hexec, ?_, hregs, ?_, hothers⟩
  · rw [hframe]; rfl
  · refine (congrArg BitVec.toNat hword).trans (hw.trans ?_)
    rw [BitVec.toNat_ofNat]
    rcases Nat.mod_two_eq_zero_or_one s.x.toNat with hx | hx <;> simp [hx]

end StringByte

/-- Settles O31: byte X by `State.stringByte_eq`, the halves of its word by `halfOf` and `withHalf`. -/
theorem byteLoadStore : Obligations.ByteLoadStore := by
  unfold Obligations.ByteLoadStore
  intro s s1 va w hva hread
  refine ⟨lbyt_result hva hread, fun w' s2 hw hwrite => ?_, sbyt_result_of_flat hva hread⟩
  obtain ⟨hexec, hregs⟩ := sbyt_result hva hread hw hwrite
  exact ⟨_, hexec, rfl, hregs⟩

/-! ### Registers behind a field -/

namespace WritesOnly

variable {rs : List RField} {fs : List Flag} {s t : State} (h : WritesOnly rs fs s t)
include h

theorem setDest (hx : .x ∈ rs) (ht : .t ∈ rs) (a : ByteAddr) (mid : BitVec 3) (length : BitVec 12) :
    WritesOnly rs fs s (t.setDest a mid length) := (h.setX hx _).setT ht _

theorem setSource (ha : .a ∈ rs) (hd : .d ∈ rs) (a : ByteAddr) (mid : BitVec 3) (length : BitVec 12) :
    WritesOnly rs fs s (t.setSource a mid length) := (h.setA ha _).setD hd _

end WritesOnly

/-- The end of BFILL, behind its stores. -/
theorem fillEnds_of_dataAccess {s u : State} (h : DataAccess s u) :
    fillEnds s (u.setDest ((descAddr s.x s.t).plus (descLength s.t).toNat) (descMid s.t) 0).skip := by
  refine ⟨by simp, by simp, by simp, by simp [h.p], keepsRegisters_of_regs h.regs h.pil ?_⟩
  exact ((WritesOnly.refl [.x, .t] [] u).setDest (by decide) (by decide) _ _ _).skip.kept

/-- The registers of a byte move at its end: both descriptors behind the bytes moved, the working bits cleared. -/
def State.endMove (s u : State) (sourceLength destLength : BitVec 12) : State :=
  (u.setFields ((descAddr s.a s.d).plus s.moveLength.toNat) (descMid s.d &&& 6) sourceLength
    ((descAddr s.x s.t).plus s.moveLength.toNat) (descMid s.t &&& 4) destLength).skip

theorem State.endMove_frame (s u : State) (sourceLength destLength : BitVec 12) :
    s.endMove u sourceLength destLength = { u with regs := (s.endMove u sourceLength destLength).regs } := rfl

/-- The end of MOVB and MOVBF, behind their stores. -/
theorem moveEnds_of_dataAccess {s u : State} (h : DataAccess s u) (sourceLength destLength : BitVec 12) :
    moveEnds s (s.endMove u sourceLength destLength) sourceLength destLength := by
  have hend : WritesOnly [.a, .d, .x, .t] [] u (s.endMove u sourceLength destLength) :=
    (((WritesOnly.refl _ [] u).setSource (by decide) (by decide) _ _ _).setDest (by decide) (by decide) _ _ _).skip
  unfold State.endMove at hend ⊢
  exact ⟨by simp, by simp, by simp, by simp, by simp, by simp, by simp [h.p], keepsRegisters_of_regs h.regs h.pil hend.kept⟩

/-! ### BFILL -/

/-- X and T have no part in the stores. -/
theorem storesBytes_setDest {rel : Rel} {s t : State} {a : ByteAddr} {bytes : List Byte} (h : storesBytes rel s a bytes t)
    (dst : ByteAddr) (mid : BitVec 3) (length : BitVec 12) :
    storesBytes rel (s.setDest dst mid length) a bytes (t.setDest dst mid length) := by
  have haccess := dataAccess_of_storesBytes h
  rw [← State.withRegs_setDest haccess.regs haccess.pil]
  exact storesBytes_withRegs (s := s) (r := (s.setDest dst mid length).regs) (s.sts_setDest dst mid length) h

/-- Where the stores complete, the loop of BFILL makes them, and X and T then name the rest of the field (R327). -/
theorem fillBytes_of_storesBytes (n : Nat) {s u : State}
    (h : storesBytes (descRel s.t) s (descAddr s.x s.t) (List.replicate n (s.a.setWidth 8)) u) :
    fillBytes n s =
      .done () (u.setDest ((descAddr s.x s.t).plus n) (descMid s.t) (descLength s.t - BitVec.ofNat 12 n)) := by
  induction n generalizing s u with
  | zero =>
    obtain rfl : u = s := h
    simp [fillBytes, State.setDest_self]
  | succ n ih =>
    obtain ⟨v, hstore, hrest⟩ := h
    have hv := dataAccess_of_storesByte hstore
    have hrest' := storesBytes_setDest hrest (descAddr s.x s.t).next (descMid s.t) (descLength s.t - 1)
    have hloop := ih (s := v.setDest (descAddr s.x s.t).next (descMid s.t) (descLength s.t - 1)) (by simpa [hv.a] using hrest')
    rw [fillBytes, storeByte_eq_done.2 hstore, Access.bind_done, hv.x, hv.t, hloop]
    simp [BitVec.sub_sub, BitVec.ofNat_add, BitVec.add_comm]

theorem bfill_result {s u : State}
    (h : storesBytes (fieldRel s.t) s (descAddr s.x s.t)
      (List.replicate (descLength s.t).toNat (BitVec.ofNat 8 s.a.toNat)) u) :
    exec .bfill s = .next (u.setDest ((descAddr s.x s.t).plus (descLength s.t).toNat) (descMid s.t) 0).skip := by
  rw [fieldRel_eq_descRel, ← setWidth_byte_eq_ofNat] at h
  show execBfill s = _
  rw [execBfill, fillBytes_of_storesBytes _ h, Access.complete_done, BitVec.ofNat_toNat, BitVec.setWidth_eq, BitVec.sub_self]
  rfl

/-- An access of an instruction that is refused ends it, and raises PF or MPV (R137, R672). -/
theorem abandoned_of_refused {i : Instr} {s s1 : State} {rel : Rel} {va : Word}
    (hread : s.memRead .rop rel va = .aborted s1) (hexec : exec i s = .next s1.advance) : abandoned i s s1 := by
  obtain ⟨_, htranslate⟩ := State.memRead_aborted hread
  have hkept := onlyRead_of_refused htranslate
  obtain ⟨_, r, _, rfl⟩ := State.translate_aborted htranslate
  refine ⟨hexec, registersBecome_advance hkept.regs hkept.pil, ?_⟩
  rw [State.refuseAccess_iid]
  cases r
  case pageFault => exact .inr (by rw [getLsbD_setBit _ _ _ _ (by decide)]; rfl)
  all_goals exact .inl (by rw [getLsbD_setBit _ _ _ _ (by decide)]; rfl)

theorem bfill_abandoned {s s1 : State} (hlength : descLength s.t ≠ 0)
    (hread : s.memRead .rop (fieldRel s.t) s.x = .aborted s1) : abandoned .bfill s s1 := by
  refine abandoned_of_refused hread ?_
  obtain ⟨n, hn⟩ := Nat.exists_eq_succ_of_ne_zero fun h => hlength (BitVec.eq_of_toNat_eq h)
  have hstore (b : Byte) : s.storeByte (descRel s.t) (descAddr s.x s.t) b = .aborted s1 := by
    rw [State.storeByte, ← fieldRel_eq_descRel, descAddr, hread, Access.bind_aborted]
  show execBfill s = _
  rw [execBfill, hn, fillBytes, hstore, Access.bind_aborted, Access.complete_aborted]

theorem bfill_result_of_flat {s : State} (h : s.Flat) (hordinary : s.ordinary s.x ((descLength s.t).toNat / 2 + 1)) :
    ∃ t, exec .bfill s = .next t ∧ t = { s with regs := t.regs, mem := t.mem } ∧
      (∀ k, k < (descLength s.t).toNat → t.byteAt ((descAddr s.x s.t).plus k) = s.a.setWidth 8) ∧
      sameBytesOutside s t (descAddr s.x s.t) (descLength s.t).toNat ∧ fillEnds s t := by
  have hlength := (descLength s.t).isLt
  obtain ⟨u, hstores, hframe, hvalues, hothers⟩ := storesBytes_of_flat (fieldRel s.t)
    (List.replicate (descLength s.t).toNat (BitVec.ofNat 8 s.a.toNat)) (a := descAddr s.x s.t) h
    (by rw [List.length_replicate]; omega)
    (by rw [List.length_replicate]; exact State.ordinaryBytes_of_ordinary hordinary)
  rw [List.length_replicate] at hothers
  refine ⟨_, bfill_result hstores, ?_, fun k hk => ?_, hothers, fillEnds_of_dataAccess (dataAccess_of_storesBytes hstores)⟩
  · rw [hframe]; rfl
  · refine (hvalues k (by rwa [List.length_replicate])).trans ?_
    rw [List.getElem_replicate, setWidth_byte_eq_ofNat]

/-- Settles O32: the loop makes the stores of the field, with physical addressing by `storesBytes_of_flat`. -/
theorem byteFill : Obligations.ByteFill := by
  unfold Obligations.ByteFill
  refine ⟨fun s s1 hstores => ?_, fun s s1 => bfill_abandoned, fun s => bfill_result_of_flat⟩
  exact ⟨_, bfill_result hstores, rfl, fillEnds_of_dataAccess (dataAccess_of_storesBytes hstores)⟩

/-! ### MOVB -/

/-- Where its reads and stores complete, MOVB makes them all, the reads first (R328). -/
theorem movb_result {s s1 s2 : State} {bytes : List Byte} (hlength : bytes.length = s.moveLength.toNat)
    (hreads : readsBytes (fieldRel s.d) s (descAddr s.a s.d) bytes s1)
    (hstores : storesBytes (fieldRel s.t) s1 (descAddr s.x s.t) bytes s2) :
    exec .movb s = .next (s.endMove s2 0 s.moveLength) := by
  have ht := (dataAccess_of_readsBytes hreads).t
  rw [fieldRel_eq_descRel] at hreads hstores
  have hread := (readBytes_eq_done s.moveLength.toNat s _ bytes).2 ⟨hlength, hreads⟩
  have hmoved : s1.storeMoved (descAddr s.a s.d) (descAddr s.x s.t) bytes = .done () s2 :=
    State.storeMoved_done.2 ((writeBytes_eq_done ..).2 (by rw [ht]; exact hstores))
  show execMovb s = _
  simp only [execMovb, hread, Access.bind_done, hmoved]
  rfl

theorem movb_ends {s s1 s2 : State} {bytes : List Byte}
    (hreads : readsBytes (fieldRel s.d) s (descAddr s.a s.d) bytes s1)
    (hstores : storesBytes (fieldRel s.t) s1 (descAddr s.x s.t) bytes s2) :
    moveEnds s (s.endMove s2 0 s.moveLength) 0 s.moveLength :=
  moveEnds_of_dataAccess ((dataAccess_of_readsBytes hreads).trans (dataAccess_of_storesBytes hstores)) _ _

theorem State.length_bytesAt (s : State) (a : ByteAddr) (n : Nat) : (s.bytesAt a n).length = n := by
  simp [State.bytesAt]

theorem State.getElem_bytesAt (s : State) (a : ByteAddr) (n : Nat) {k : Nat} (hk : k < (s.bytesAt a n).length) :
    (s.bytesAt a n)[k] = s.byteAt (a.plus k) := by
  simp [State.bytesAt]

theorem movb_result_of_flat {s : State} (h : s.Flat) (hsrc : s.ordinary s.a (s.moveLength.toNat / 2 + 1))
    (hdst : s.ordinary s.x (s.moveLength.toNat / 2 + 1)) :
    ∃ t, exec .movb s = .next t ∧ t = { s with regs := t.regs, mem := t.mem } ∧
      (∀ k, k < s.moveLength.toNat →
        t.byteAt ((descAddr s.x s.t).plus k) = s.byteAt ((descAddr s.a s.d).plus k)) ∧
      sameBytesOutside s t (descAddr s.x s.t) s.moveLength.toNat ∧ moveEnds s t 0 s.moveLength := by
  have hlength := s.moveLength.isLt
  have hcount := s.length_bytesAt (descAddr s.a s.d) s.moveLength.toNat
  have hreads := readsBytes_of_flat (fieldRel s.d) s.moveLength.toNat h (a := descAddr s.a s.d)
    (State.ordinaryBytes_of_ordinary hsrc)
  obtain ⟨u, hstores, hframe, hvalues, hothers⟩ := storesBytes_of_flat (fieldRel s.t)
    (s.bytesAt (descAddr s.a s.d) s.moveLength.toNat) (a := descAddr s.x s.t) h (by omega)
    (by rw [hcount]; exact State.ordinaryBytes_of_ordinary hdst)
  rw [hcount] at hothers
  refine ⟨_, movb_result hcount hreads hstores, ?_, fun k hk => ?_, hothers, movb_ends hreads hstores⟩
  · rw [State.endMove_frame, hframe]
  · exact (hvalues k (by omega)).trans (s.getElem_bytesAt _ _ _)

/-- Settles O33: the reads and then the stores, with physical addressing by `readsBytes_of_flat` and `storesBytes_of_flat`. -/
theorem byteMove : Obligations.ByteMove := by
  unfold Obligations.ByteMove
  refine ⟨fun s s1 s2 bytes hlength hreads hstores => ?_, fun s => movb_result_of_flat⟩
  rw [← s.moveLength_toNat] at hlength
  exact ⟨_, movb_result hlength hreads hstores, rfl, movb_ends hreads hstores⟩

/-! ### MOVBF -/

/-- A, D, X and T have no part in the moves. -/
theorem movesBytes_setFields {srel drel : Rel} {n : Nat} {s t : State} {src dst : ByteAddr}
    (h : movesBytes srel drel n s src dst t) (src' dst' : ByteAddr) (smid dmid : BitVec 3) (slength dlength : BitVec 12) :
    movesBytes srel drel n (s.setFields src' smid slength dst' dmid dlength) src dst
      (t.setFields src' smid slength dst' dmid dlength) := by
  have haccess := dataAccess_of_movesBytes h
  rw [← State.withRegs_setFields haccess.regs haccess.pil]
  exact movesBytes_withRegs (s := s) (r := (s.setFields src' smid slength dst' dmid dlength).regs)
    (s.sts_setFields src' smid slength dst' dmid dlength) h

/-- One byte moved, both descriptors name the rest of their fields. -/
theorem moveForward_succ {n : Nat} {s r v : State} {b : Byte} (hread : readsByte (descRel s.d) s (descAddr s.a s.d) b r)
    (hstore : storesByte (descRel s.t) r (descAddr s.x s.t) b v) :
    moveForward (n + 1) s =
      moveForward n (v.setFields (descAddr s.a s.d).next (descMid s.d) (descLength s.d - 1) (descAddr s.x s.t).next
        (descMid s.t) (descLength s.t - 1)) := by
  have hr := dataAccess_of_readsByte hread
  have hv := hr.trans (dataAccess_of_storesByte hstore)
  rw [← hr.t, ← hr.x] at hstore
  rw [moveForward, loadByte_eq_done.2 hread, Access.bind_done, storeByte_eq_done.2 hstore, Access.bind_done, hv.a, hv.d, hv.x,
    hv.t]
  rfl

/-- Where the moves complete, the loop of MOVBF makes them, and both descriptors then name the rest of their fields (R329). -/
theorem moveForward_of_movesBytes (n : Nat) {s u : State}
    (h : movesBytes (descRel s.d) (descRel s.t) n s (descAddr s.a s.d) (descAddr s.x s.t) u) :
    moveForward n s =
      .done () (u.setFields ((descAddr s.a s.d).plus n) (descMid s.d) (descLength s.d - BitVec.ofNat 12 n)
        ((descAddr s.x s.t).plus n) (descMid s.t) (descLength s.t - BitVec.ofNat 12 n)) := by
  induction n generalizing s u with
  | zero =>
    obtain rfl : u = s := h
    simp [moveForward, State.setFields_self]
  | succ n ih =>
    obtain ⟨b, r, v, hread, hstore, hrest⟩ := h
    have hrest' := movesBytes_setFields hrest (descAddr s.a s.d).next (descAddr s.x s.t).next (descMid s.d) (descMid s.t)
      (descLength s.d - 1) (descLength s.t - 1)
    rw [moveForward_succ hread hstore, ih (by simpa using hrest')]
    simp [BitVec.sub_sub, BitVec.ofNat_add, BitVec.add_comm]

theorem forbiddenOverlap_iff (s : State) (n : Nat) :
    forbiddenOverlap (descAddr s.a s.d) (descAddr s.x s.t) n = true ↔
      0 < n ∧ 2 * s.a.toNat + s.d.toNat / 32768 < 2 * s.x.toNat + s.t.toNat / 32768 ∧
        2 * s.x.toNat + s.t.toNat / 32768 < 2 * s.a.toNat + s.d.toNat / 32768 + n := by
  rw [forbiddenOverlap, decide_eq_true_iff, descAddr_number, descAddr_number]

/-- A forbidden overlap ends MOVBF with the next word (R329, D25). -/
theorem movbf_of_overlap {s : State}
    (h : forbiddenOverlap (descAddr s.a s.d) (descAddr s.x s.t) s.moveLength.toNat = true) :
    exec .movbf s = .next s.advance := by
  show execMovbf s = _
  exact if_pos h

/-- The loop of MOVBF has moved both descriptors, and its end clears the working bits. -/
theorem movbf_result {s u : State}
    (hallowed : ¬ forbiddenOverlap (descAddr s.a s.d) (descAddr s.x s.t) s.moveLength.toNat = true)
    (h : movesBytes (fieldRel s.d) (fieldRel s.t) s.moveLength.toNat s (descAddr s.a s.d) (descAddr s.x s.t) u) :
    exec .movbf s = .next (s.endMove u (descLength s.d - s.moveLength) (descLength s.t - s.moveLength)) := by
  rw [fieldRel_eq_descRel, fieldRel_eq_descRel] at h
  show execMovbf s = _
  unfold execMovbf
  rw [if_neg hallowed, moveForward_of_movesBytes _ h, Access.complete_done]
  simp [← State.setFields_eq, State.endMove]

/-- Where neither field wraps and the overlap is allowed, no byte of the source is stored to before it is read. -/
theorem read_before_store {src dst : ByteAddr} {n : Nat} (hallowed : ¬ forbiddenOverlap src dst n = true)
    (hsrc : src.number + n ≤ 131072) (hdst : dst.number + n ≤ 131072) :
    ∀ j k, k < j → j < n → dst.plus k ≠ src.plus j := by
  intro j k hk hj heq
  have hnumber := congrArg ByteAddr.number heq
  rw [ByteAddr.number_plus, ByteAddr.number_plus, Nat.mod_eq_of_lt (by omega), Nat.mod_eq_of_lt (by omega)] at hnumber
  rw [forbiddenOverlap, decide_eq_true_iff] at hallowed
  omega

theorem movbf_result_of_flat {s : State} (h : s.Flat)
    (hallowed : ¬ forbiddenOverlap (descAddr s.a s.d) (descAddr s.x s.t) s.moveLength.toNat = true)
    (hsrc : s.ordinary s.a (s.moveLength.toNat / 2 + 1)) (hdst : s.ordinary s.x (s.moveLength.toNat / 2 + 1))
    (hread : ∀ j k, k < j → j < s.moveLength.toNat → (descAddr s.x s.t).plus k ≠ (descAddr s.a s.d).plus j) :
    ∃ t, exec .movbf s = .next t ∧ t = { s with regs := t.regs, mem := t.mem } ∧
      (∀ k, k < s.moveLength.toNat →
        t.byteAt ((descAddr s.x s.t).plus k) = s.byteAt ((descAddr s.a s.d).plus k)) ∧
      sameBytesOutside s t (descAddr s.x s.t) s.moveLength.toNat ∧
      moveEnds s t (descLength s.d - s.moveLength) (descLength s.t - s.moveLength) := by
  have hlength := s.moveLength.isLt
  obtain ⟨u, hmoves, hframe, hvalues, hothers⟩ := movesBytes_of_flat (fieldRel s.d) (fieldRel s.t) s.moveLength.toNat h
    (src := descAddr s.a s.d) (dst := descAddr s.x s.t) (by omega) (State.ordinaryBytes_of_ordinary hsrc)
    (State.ordinaryBytes_of_ordinary hdst) hread
  refine ⟨_, movbf_result hallowed hmoves, ?_, hvalues, hothers, moveEnds_of_dataAccess (dataAccess_of_movesBytes hmoves) _ _⟩
  rw [State.endMove_frame, hframe]

/-- Settles O34: the test of the overlap by byte numbers, else the moves of the loop, with physical addressing by
`movesBytes_of_flat`. -/
theorem byteMoveForward : Obligations.ByteMoveForward := by
  unfold Obligations.ByteMoveForward
  rintro s n sb db rfl rfl rfl
  rw [← forbiddenOverlap_iff]
  refine ⟨s.moveLength_toNat, fun hoverlap => ?_, fun s1 hallowed hmoves => ?_, fun hallowed hflat hsrc hdst hread => ?_⟩
  · exact ⟨s.advance, movbf_of_overlap hoverlap, rfl, registersBecome_advance rfl rfl⟩
  · exact ⟨_, movbf_result hallowed hmoves, rfl, moveEnds_of_dataAccess (dataAccess_of_movesBytes hmoves) _ _⟩
  · refine movbf_result_of_flat hflat hallowed hsrc hdst ?_
    rcases hread with ⟨hs, hd⟩ | hread
    · rw [← descAddr_number] at hs hd
      exact read_before_store hallowed hs hd
    · exact hread

end Sys2Proof.Machine
end

section
/-! The numbers of floating words and the exact results as rationals (`spec/43_floating.md` R340, R341, R346). -/

namespace Sys2Proof.Machine

/-! ### Signs and magnitudes -/

/-- The factor that a sign bit stands for. -/
def signFactor (neg : Bool) : ℚ := if neg then -1 else 1

theorem signFactor_not (b : Bool) : signFactor (!b) = -signFactor b := by cases b <;> simp [signFactor]

theorem signFactor_bne (a b : Bool) : signFactor (a != b) = signFactor a * signFactor b := by
  cases a <;> cases b <;> simp [signFactor]

@[simp] theorem signFactor_inv (b : Bool) : (signFactor b)⁻¹ = signFactor b := by cases b <;> norm_num [signFactor]

@[simp] theorem abs_signFactor (b : Bool) : |signFactor b| = 1 := by cases b <;> simp [signFactor]

@[simp] theorem signFactor_ne_zero (b : Bool) : signFactor b ≠ 0 := by cases b <;> simp [signFactor]

theorem signFactor_mul_natAbs (v : Int) : signFactor (decide (v < 0)) * (v.natAbs : ℚ) = v := by
  rw [Nat.cast_natAbs]
  by_cases h : v < 0
  · simp [signFactor, h, abs_of_neg h]
  · simp [signFactor, h, abs_of_nonneg (not_lt.1 h)]

theorem signed_cast (neg : Bool) (m : Nat) : (signed neg m : ℚ) = signFactor neg * m := by
  cases neg <;> simp [signed, signFactor]

theorem signFactor_inj {a b : Bool} : signFactor a = signFactor b ↔ a = b := by
  cases a <;> cases b <;> norm_num [signFactor]

/-- Sign and magnitude of a number that is not zero. -/
theorem signFactor_mul_inj {a b : Bool} {x y : ℚ} (hx : 0 < x) (hy : 0 < y) (h : signFactor a * x = signFactor b * y) :
    a = b ∧ x = y := by
  have hxy : x = y := by simpa [abs_mul, abs_of_pos hx, abs_of_pos hy] using congrArg abs h
  rw [hxy] at h
  exact ⟨signFactor_inj.1 (mul_right_cancel₀ hy.ne' h), hxy⟩

/-! ### Numbers -/

theorem FpNum.value_eq (c : FpNum) : c.value = signFactor c.neg * c.mant * 2 ^ c.exp := rfl

theorem FpNum.value_eq_zero {c : FpNum} : c.value = 0 ↔ c.mant = 0 := by simp [FpNum.value_eq, zpow_ne_zero]

theorem FpNum.abs_value (c : FpNum) : |c.value| = c.mant * 2 ^ c.exp := by
  simp [FpNum.value_eq, abs_mul, abs_zpow]

theorem FpNum.value_not (c : FpNum) : FpNum.value { c with neg := !c.neg } = -c.value := by
  simp [FpNum.value_eq, signFactor_not]

theorem FpNum.value_lt_zero {c : FpNum} (h : c.mant ≠ 0) : c.value < 0 ↔ c.neg = true := by
  have hm : (0 : ℚ) < c.mant * 2 ^ c.exp := by positivity
  rw [FpNum.value_eq, mul_assoc]
  cases c.neg
  · simpa [signFactor] using hm.le
  · simpa [signFactor] using hm

/-- A shift to the left is exact. -/
theorem shiftNat_cast (m : Nat) {k : Int} (h : 0 ≤ k) : (shiftNat m k : ℚ) = m * 2 ^ k := by
  lift k to ℕ using h
  simp [shiftNat]

/-- A shift is the integer part of a product. -/
theorem floor_mul_zpow (m : Nat) (k : Int) : ⌊(m : ℚ) * 2 ^ k⌋₊ = shiftNat m k := by
  by_cases h : 0 ≤ k
  · rw [← shiftNat_cast m h, Nat.floor_natCast]
  · obtain ⟨n, rfl⟩ : ∃ n : ℕ, k = -n := ⟨(-k).toNat, by omega⟩
    have hdiv : (m : ℚ) * 2 ^ (-(n : ℤ)) = m / ((2 ^ n : ℕ) : ℚ) := by simp [zpow_neg, div_eq_mul_inv]
    rw [hdiv, Nat.floor_div_natCast, Nat.floor_natCast, shiftNat, if_neg h, neg_neg, Int.toNat_natCast]

/-! ### Exact results -/

/-- The rational number of an exact result. -/
def Exact.value (r : Exact) : ℚ := signFactor r.neg * (r.num / r.den) * 2 ^ r.exp

theorem signed_shiftNat_mul (c : FpNum) {e : Int} (h : e ≤ c.exp) :
    (signed c.neg (shiftNat c.mant (c.exp - e)) : ℚ) * 2 ^ e = c.value := by
  rw [signed_cast, shiftNat_cast _ (by omega), FpNum.value_eq, mul_assoc, mul_assoc, ← zpow_add₀ two_ne_zero, mul_assoc,
    sub_add_cancel]

theorem exactAdd_value (x y : FpNum) : (exactAdd x y).value = x.value + y.value := by
  rw [← signed_shiftNat_mul x (min_le_left x.exp y.exp), ← signed_shiftNat_mul y (min_le_right x.exp y.exp), ← add_mul,
    ← Int.cast_add, Exact.value]
  simp only [exactAdd, Nat.cast_one, div_one, signFactor_mul_natAbs]

theorem exactMul_value (x y : FpNum) : (exactMul x y).value = x.value * y.value := by
  simp only [Exact.value, exactMul, FpNum.value_eq, signFactor_bne, zpow_add₀ (two_ne_zero (α := ℚ)), Nat.cast_mul,
    Nat.cast_one, div_one]
  ring

theorem exactDiv_value (x y : FpNum) : (exactDiv x y).value = x.value / y.value := by
  simp only [Exact.value, exactDiv, FpNum.value_eq, signFactor_bne, zpow_sub₀ (two_ne_zero (α := ℚ)), div_eq_mul_inv,
    mul_inv, signFactor_inv]
  ring

/-- The operations on rationals (R345). -/
def FpOp.apply (op : FpOp) (x y : ℚ) : ℚ :=
  match op with
  | .fad => x + y
  | .fsb => x - y
  | .fmu => x * y
  | .fdv => x / y

theorem FpOp.exact_value (op : FpOp) (x y : FpNum) : (op.exact x y).value = op.apply x.value y.value := by
  cases op with
  | fad => exact exactAdd_value x y
  | fsb => exact (exactAdd_value x _).trans (by rw [FpNum.value_not, ← sub_eq_add_neg]; rfl)
  | fmu => exact exactMul_value x y
  | fdv => exact exactDiv_value x y

/-- Only a quotient has a denominator, the mantissa of the divisor. -/
theorem FpOp.exact_den (op : FpOp) (x y : FpNum) : (op.exact x y).den = if op = .fdv then y.mant else 1 := by
  cases op <;> rfl

end Sys2Proof.Machine
end

section
/-! The words of normalized numbers, and that such a word is the result where its number is the exact result
(`spec/43_floating.md` R340, R341, P1 of R346). -/

namespace Sys2Proof.Machine

/-! ### Normalized numbers -/

/-- The mantissa of a number has its highest bit at a format's highest place (R340). -/
structure FpNum.Normalized (digits : Nat) (c : FpNum) : Prop where
  mant_ge : 2 ^ (digits - 1) ≤ c.mant
  mant_lt : c.mant < 2 ^ digits

variable {digits : Nat} {c c' : FpNum}

theorem FpNum.Normalized.mant_pos (h : c.Normalized digits) : 0 < c.mant := (Nat.two_pow_pos _).trans_le h.mant_ge

/-- A number lies between the powers of two that its exponent gives. -/
theorem FpNum.Normalized.exp_le (h : c.Normalized digits) (h' : c'.Normalized digits)
    (hvalue : (c.mant : ℚ) * 2 ^ c.exp = c'.mant * 2 ^ c'.exp) : c'.exp ≤ c.exp := by
  have hge : (2 : ℚ) ^ (digits - 1) ≤ c'.mant := by exact_mod_cast h'.mant_ge
  have hlt : (c.mant : ℚ) < 2 ^ digits := by exact_mod_cast h.mant_lt
  have hpow : (2 : ℚ) ^ (((digits - 1 : ℕ) : ℤ) + c'.exp) < 2 ^ ((digits : ℤ) + c.exp) :=
    calc (2 : ℚ) ^ (((digits - 1 : ℕ) : ℤ) + c'.exp)
      _ = 2 ^ (digits - 1) * 2 ^ c'.exp := by rw [zpow_add₀ two_ne_zero, zpow_natCast]
      _ ≤ c'.mant * 2 ^ c'.exp := by gcongr
      _ = c.mant * 2 ^ c.exp := hvalue.symm
      _ < 2 ^ digits * 2 ^ c.exp := by gcongr
      _ = 2 ^ ((digits : ℤ) + c.exp) := by rw [zpow_add₀ two_ne_zero, zpow_natCast]
  have hexp := (zpow_lt_zpow_iff_right₀ one_lt_two).1 hpow
  omega

/-- A rational number has one normalized form. -/
theorem FpNum.Normalized.eq_of_value (h : c.Normalized digits) (h' : c'.Normalized digits) (hvalue : c.value = c'.value) :
    c = c' := by
  have hm : (0 : ℚ) < c.mant := by exact_mod_cast h.mant_pos
  have hm' : (0 : ℚ) < c'.mant := by exact_mod_cast h'.mant_pos
  rw [value_eq, value_eq, mul_assoc, mul_assoc] at hvalue
  obtain ⟨hneg, habs⟩ := signFactor_mul_inj (by positivity) (by positivity) hvalue
  have hexp : c.exp = c'.exp := le_antisymm (h'.exp_le h habs.symm) (h.exp_le h' habs)
  have hmant : c.mant = c'.mant := by
    rw [hexp] at habs
    exact_mod_cast mul_right_cancel₀ (zpow_ne_zero _ two_ne_zero) habs
  obtain ⟨neg, mant, exp⟩ := c
  obtain ⟨neg', mant', exp'⟩ := c'
  exact congr (congr (congrArg FpNum.mk hneg) hmant) hexp

/-! ### Words of a format -/

/-- The biased exponent of a number in a format (R340, R341). -/
def FpFormat.biased {w : Nat} (f : FpFormat w) (c : FpNum) : Int := c.exp + f.digits + f.bias

/-- The word of a normalized number (R340, R341). -/
def FpFormat.word {w : Nat} (f : FpFormat w) (c : FpNum) : BitVec w := f.encode c.neg c.mant (f.biased c).toNat

/-- A word of a format stands for a number: zero, or a normalized one with its exponent in the range (R346). -/
def FpFormat.StandsFor {w : Nat} (f : FpFormat w) (v : BitVec w) (c : FpNum) : Prop :=
  (v = 0 ∧ c = ⟨false, 0, 0⟩) ∨
  (v ≠ 0 ∧ c.Normalized f.digits ∧ 0 ≤ f.biased c ∧ f.biased c ≤ f.maxExp ∧ f.word c = v)

theorem decode48_cases {v : BitVec 48} {c : FpNum} (h : decode48 v = some c) :
    (v = 0 ∧ c = ⟨false, 0, 0⟩) ∨
    (v ≠ 0 ∧ v.getLsbD 31 = true ∧ c = ⟨v.msb, (v.extractLsb' 0 32).toNat, (v.extractLsb' 32 15).toNat - 16416⟩) := by
  unfold decode48 at h
  split at h
  · exact .inl ⟨‹_›, (Option.some.inj h).symm⟩
  · split at h
    · exact .inr ⟨‹_›, ‹_›, (Option.some.inj h).symm⟩
    · cases h

theorem value32_zero : value32 0 = ⟨false, 0, 0⟩ := rfl

theorem value32_of_ne_zero {v : BitVec 32} (h : v ≠ 0) :
    value32 v = ⟨v.msb, 2 ^ 22 + (v.extractLsb' 0 22).toNat, (v.extractLsb' 22 9).toNat - 279⟩ := if_neg h

/-- A standard word is zero or has an exponent that is not 0 (R348). -/
theorem decode32_eq_some {v : BitVec 32} {c : FpNum} :
    decode32 v = some c ↔ (v ≠ 0 → v.extractLsb' 22 9 ≠ 0) ∧ value32 v = c := by
  by_cases h : v ≠ 0 ∧ v.extractLsb' 22 9 = 0 <;> simp [decode32, h]

/-- Sign, exponent and mantissa put together again. -/
theorem ofBool_msb_append_extractLsb' {m n : Nat} (v : BitVec (1 + m + n)) :
    BitVec.ofBool v.msb ++ v.extractLsb' n m ++ v.extractLsb' 0 n = v := by
  have hsign : BitVec.ofBool v.msb = v.extractLsb' (n + m) 1 := by
    ext i hi
    obtain rfl : i = 0 := by omega
    simp [BitVec.msb_eq_getLsbD_last, show 1 + m + n - 1 = n + m by omega]
  rw [hsign, BitVec.extractLsb'_append_extractLsb'_eq_extractLsb' rfl,
    BitVec.extractLsb'_append_extractLsb'_eq_extractLsb' (by omega), BitVec.extractLsb'_eq_self]

theorem encode48_parts (v : BitVec 48) :
    encode48 v.msb (v.extractLsb' 0 32).toNat (v.extractLsb' 32 15).toNat = v := by
  rw [encode48, BitVec.ofNat_toNat, BitVec.ofNat_toNat, BitVec.setWidth_eq, BitVec.setWidth_eq]
  exact ofBool_msb_append_extractLsb' (m := 15) (n := 32) v

/-- The first bit of the mantissa is not stored (R341). -/
theorem encode32_parts (v : BitVec 32) :
    encode32 v.msb (2 ^ 22 + (v.extractLsb' 0 22).toNat) (v.extractLsb' 22 9).toNat = v := by
  have hmant : BitVec.ofNat 22 (2 ^ 22 + (v.extractLsb' 0 22).toNat) = v.extractLsb' 0 22 := by
    rw [BitVec.ofNat_add, BitVec.ofNat_toNat, BitVec.setWidth_eq]
    exact BitVec.zero_add _
  rw [encode32, hmant, BitVec.ofNat_toNat, BitVec.setWidth_eq]
  exact ofBool_msb_append_extractLsb' (m := 9) (n := 22) v

theorem standsFor_of_decode48 {v : BitVec 48} (h : decode48 v = some c) : format48.StandsFor v c := by
  obtain hzero | ⟨hv, hbit, rfl⟩ := decode48_cases h
  · exact .inl hzero
  · have he := (v.extractLsb' 32 15).isLt
    have hbiased : format48.biased ⟨v.msb, (v.extractLsb' 0 32).toNat, (v.extractLsb' 32 15).toNat - 16416⟩ =
        (v.extractLsb' 32 15).toNat := by simp [FpFormat.biased, format48]; omega
    refine .inr ⟨hv, ⟨?_, (v.extractLsb' 0 32).isLt⟩, ?_, ?_, ?_⟩
    · have hbit' : (v.extractLsb' 0 32).getLsbD 31 = true := by simpa using hbit
      exact Nat.ge_two_pow_of_testBit hbit'
    · rw [hbiased]; omega
    · rw [hbiased]; simp only [format48]; omega
    · rw [FpFormat.word, hbiased, Int.toNat_natCast]
      exact encode48_parts v

theorem standsFor_value32 (v : BitVec 32) : format32.StandsFor v (value32 v) := by
  by_cases hv : v = 0
  · exact .inl ⟨hv, by rw [hv, value32_zero]⟩
  · have he := (v.extractLsb' 22 9).isLt
    have hm := (v.extractLsb' 0 22).isLt
    have hbiased : format32.biased (value32 v) = (v.extractLsb' 22 9).toNat := by
      simp [FpFormat.biased, format32, value32_of_ne_zero hv]; omega
    refine .inr ⟨hv, ⟨?_, ?_⟩, ?_, ?_, ?_⟩
    · simp [value32_of_ne_zero hv, format32]
    · simp only [value32_of_ne_zero hv, format32]; omega
    · rw [hbiased]; omega
    · rw [hbiased]; simp only [format32]; omega
    · rw [FpFormat.word, hbiased, Int.toNat_natCast, value32_of_ne_zero hv]
      exact encode32_parts v

/-! ### Rounding -/

theorem Exact.value_eq_zero {r : Exact} (hden : r.den ≠ 0) : r.value = 0 ↔ r.num = 0 := by
  simp [Exact.value, hden, zpow_ne_zero]

/-- An exact result that is a number that is not zero: its sign, and its numerator with 64 places put behind it. -/
theorem Exact.num_of_value {r : Exact} (hden : 0 < r.den) (hnum : r.num ≠ 0) (hvalue : r.value = c.value) :
    r.neg = c.neg ∧ (r.num : ℚ) * 2 ^ (64 : ℤ) = c.mant * 2 ^ (c.exp - r.exp + 64) * r.den := by
  have hc : c.mant ≠ 0 := by
    rwa [ne_eq, ← FpNum.value_eq_zero, ← hvalue, Exact.value_eq_zero hden.ne']
  have hdenQ : (0 : ℚ) < r.den := by exact_mod_cast hden
  have hnumQ : (0 : ℚ) < r.num := by exact_mod_cast Nat.pos_of_ne_zero hnum
  have hmantQ : (0 : ℚ) < c.mant := by exact_mod_cast Nat.pos_of_ne_zero hc
  rw [Exact.value, FpNum.value_eq, mul_assoc, mul_assoc] at hvalue
  obtain ⟨hneg, habs⟩ := signFactor_mul_inj (by positivity) (by positivity) hvalue
  refine ⟨hneg, ?_⟩
  rw [zpow_add₀ two_ne_zero, zpow_sub₀ two_ne_zero]
  field_simp at habs ⊢
  linear_combination habs

/-- Where mantissa and denominator have at most 32 digits, the 64 places suffice. -/
theorem Exact.exp_nonneg {r : Exact} (hden : 0 < r.den) (hden32 : r.den ≤ 2 ^ 32) (hnum : r.num ≠ 0)
    (hmant : c.mant < 2 ^ 32)
    (hscaled : (r.num : ℚ) * 2 ^ (64 : ℤ) = c.mant * 2 ^ (c.exp - r.exp + 64) * r.den) :
    0 ≤ c.exp - r.exp + 64 := by
  by_contra hlt
  have hpow : (2 : ℚ) ^ (c.exp - r.exp + 64) ≤ 1 := zpow_le_one_of_nonpos₀ one_le_two (by omega)
  have hnumQ : (1 : ℚ) ≤ r.num := by exact_mod_cast Nat.pos_of_ne_zero hnum
  have hdenQ : (0 : ℚ) < r.den := by exact_mod_cast hden
  have hmantQ : (c.mant : ℚ) < 2 ^ 32 := by exact_mod_cast hmant
  have hden32Q : (r.den : ℚ) ≤ 2 ^ 32 := by exact_mod_cast hden32
  have hsmall : (r.num : ℚ) * 2 ^ (64 : ℤ) < 1 * 2 ^ (64 : ℤ) :=
    calc (r.num : ℚ) * 2 ^ (64 : ℤ)
      _ = c.mant * 2 ^ (c.exp - r.exp + 64) * r.den := hscaled
      _ ≤ c.mant * 1 * r.den := by gcongr
      _ < 2 ^ 32 * 1 * r.den := by gcongr
      _ ≤ 2 ^ 32 * 1 * 2 ^ 32 := by gcongr
      _ = 1 * 2 ^ (64 : ℤ) := by norm_num
  exact hnumQ.not_gt (lt_of_mul_lt_mul_right hsmall (by positivity))

/-- The dividend of a rounding is the divisor times the mantissa and a power of two. -/
theorem Exact.num_shifted {r : Exact} (hden : 0 < r.den) (hden32 : r.den ≤ 2 ^ 32) (hnum : r.num ≠ 0)
    (hmant : c.mant < 2 ^ 32) (hvalue : r.value = c.value) :
    ∃ j : ℕ, (j : ℤ) = c.exp - r.exp + 64 ∧ r.neg = c.neg ∧ r.num * 2 ^ 64 = c.mant * 2 ^ j * r.den := by
  obtain ⟨hneg, hscaled⟩ := Exact.num_of_value hden hnum hvalue
  obtain ⟨j, hj⟩ := Int.eq_ofNat_of_zero_le (Exact.exp_nonneg hden hden32 hnum hmant hscaled)
  refine ⟨j, hj.symm, hneg, ?_⟩
  rw [hj, zpow_natCast] at hscaled
  exact_mod_cast hscaled

theorem FpNum.Normalized.log2 (h : c.Normalized digits) (hdigits : 0 < digits) (j : Nat) :
    Nat.log2 (c.mant * 2 ^ j) + 1 = digits + j := by
  have hpos := h.mant_pos
  have hlog : Nat.log2 (c.mant * 2 ^ j) = digits - 1 + j := by
    rw [Nat.log2_eq_iff (by positivity)]
    refine ⟨?_, ?_⟩
    · rw [pow_add]
      exact Nat.mul_le_mul_right _ h.mant_ge
    · rw [show digits - 1 + j + 1 = digits + j by omega, pow_add]
      exact Nat.mul_lt_mul_of_pos_right h.mant_lt (by positivity)
  omega

section Rounding

variable {w : Nat} {f : FpFormat w} {r : Exact} {v open_ : BitVec w}

/-- P1 of R346. -/
theorem fpRound_of_value (hf : 0 < f.digits ∧ f.digits ≤ 32) (hden : 0 < r.den) (hden32 : r.den ≤ 2 ^ 32)
    (hv : f.StandsFor v c) (hvalue : r.value = c.value) : fpRound f r open_ = v := by
  obtain ⟨rfl, rfl⟩ | ⟨hv, hnorm, hlow, hhigh, hword⟩ := hv
  · have hnum : r.num = 0 := (Exact.value_eq_zero hden.ne').1 (by rw [hvalue]; simp [FpNum.value])
    exact if_pos hnum
  · have hnum : r.num ≠ 0 := by
      rw [ne_eq, ← Exact.value_eq_zero hden.ne', hvalue, FpNum.value_eq_zero]
      exact hnorm.mant_pos.ne'
    obtain ⟨j, hj, hneg, hwide⟩ := Exact.num_shifted hden hden32 hnum
      (hnorm.mant_lt.trans_le (Nat.pow_le_pow_right two_pos hf.2)) hvalue
    have hexp : r.exp - 64 + ((f.digits + j : ℕ) : ℤ) + f.bias = f.biased c := by rw [FpFormat.biased]; omega
    rw [FpFormat.word] at hword
    have hrange : ¬ (f.biased c < 0 ∨ f.maxExp < f.biased c) := by omega
    simp only [fpRound, if_neg hnum, hwide, Nat.mul_div_cancel _ hden, hnorm.log2 hf.1, Nat.add_sub_cancel_left, hexp,
      if_neg hrange, Nat.mul_mod_left, Nat.mul_div_cancel _ (Nat.two_pow_pos j), hneg, hword, if_neg hv, and_self, if_true]

/-- An operation on standard words whose exact result is the number of a word (P1 of R346). -/
theorem fpResult_of_value {x y : BitVec w} {op : FpOp} {a b : FpNum} (hf : 0 < f.digits ∧ f.digits ≤ 32)
    (ha : f.decode x = some a) (hb : f.decode y = some b) (hmant : b.mant < 2 ^ 32) (hdiv : op = .fdv → b.value ≠ 0)
    (hv : f.StandsFor v c) (hc : c.value = op.apply a.value b.value) : fpResult f op x y open_ = v := by
  have hden : 0 < (op.exact a b).den ∧ (op.exact a b).den ≤ 2 ^ 32 := by
    rw [FpOp.exact_den]
    split
    · exact ⟨Nat.pos_of_ne_zero fun h => hdiv ‹_› (FpNum.value_eq_zero.2 h), hmant.le⟩
    · decide
  simp only [fpResult, ha, hb]
  exact fpRound_of_value hf hden.1 hden.2 hv ((op.exact_value a b).trans hc.symm)

end Rounding

end Sys2Proof.Machine
end

section
/-! The floating operations on operands that have been read: the accumulator and the flags (`spec/43_floating.md` R342, R345,
R347). -/

namespace Sys2Proof.Machine

/-! ### The accumulator -/

theorem State.fa48_setFa48 (s : State) (v : BitVec 48) : (s.setFa48 v).fa48 = v := by
  simp only [State.fa48, State.setFa48, State.t_setD, State.t_setA, State.t_setT, State.a_setD, State.a_setA, State.d_setD]
  rw [BitVec.extractLsb'_append_extractLsb'_eq_extractLsb' (start₂ := 32) (start₁ := 16) rfl,
    BitVec.extractLsb'_append_extractLsb'_eq_extractLsb' (start₂ := 16) (start₁ := 0) rfl, BitVec.extractLsb'_eq_self]

theorem State.fa32_setFa32 (s : State) (v : BitVec 32) : (s.setFa32 v).fa32 = v := by
  simp only [State.fa32, State.setFa32, State.a_setD, State.a_setA, State.d_setD]
  rw [BitVec.extractLsb'_append_extractLsb'_eq_extractLsb' (start₂ := 16) (start₁ := 0) rfl, BitVec.extractLsb'_eq_self]

@[simp] theorem State.p_setFa48 (s : State) (v : BitVec 48) : (s.setFa48 v).p = s.p := by simp [State.setFa48]
@[simp] theorem State.p_setFa32 (s : State) (v : BitVec 32) : (s.setFa32 v).p = s.p := by simp [State.setFa32]
@[simp] theorem State.fa48_advance (s : State) : s.advance.fa48 = s.fa48 := by simp [State.fa48]
@[simp] theorem State.fa32_advance (s : State) : s.advance.fa32 = s.fa32 := by simp [State.fa32]

@[simp] theorem State.flag_setD (s : State) (v : Word) (f : Flag) : (s.setD v).flag f = s.flag f := by simp [State.flag]
@[simp] theorem State.flag_setT (s : State) (v : Word) (f : Flag) : (s.setT v).flag f = s.flag f := by simp [State.flag]

@[simp] theorem State.flag_setFa48 (s : State) (v : BitVec 48) (f : Flag) : (s.setFa48 v).flag f = s.flag f := by
  simp [State.setFa48]

@[simp] theorem State.flag_setFa32 (s : State) (v : BitVec 32) (f : Flag) : (s.setFa32 v).flag f = s.flag f := by
  simp [State.setFa32]

theorem OnlyRead.fa48 {s u : State} (h : OnlyRead s u) : u.fa48 = s.fa48 :=
  congrArg (fun r : RegSet => r.t ++ r.a ++ r.d) h.cur

theorem OnlyRead.fa32 {s u : State} (h : OnlyRead s u) : u.fa32 = s.fa32 :=
  congrArg (fun r : RegSet => r.a ++ r.d) h.cur

theorem WritesOnly.setAccumulator32 {fs : List Flag} {s t : State} (h : WritesOnly [.a, .d] fs s t) (v : BitVec 32) :
    WritesOnly [.a, .d] fs s (t.setFa32 v) :=
  (h.setA (by decide) _).setD (by decide) _

/-! ### The end of an operation -/

/-- TG and C after a floating operation: an open function of the operands, and a free bit (R347). -/
def State.setRounding (s : State) (tg c : Bool) : State := (s.setFlag .tg tg).setFlag .c c

@[simp] theorem State.p_setRounding (s : State) (tg c : Bool) : (s.setRounding tg c).p = s.p := by
  simp [State.setRounding, State.setFlag]

@[simp] theorem State.fa48_setRounding (s : State) (tg c : Bool) : (s.setRounding tg c).fa48 = s.fa48 := by
  simp [State.setRounding, State.setFlag, State.fa48]

@[simp] theorem State.fa32_setRounding (s : State) (tg c : Bool) : (s.setRounding tg c).fa32 = s.fa32 := by
  simp [State.setRounding, State.setFlag, State.fa32]

@[simp] theorem State.flag_z_setRounding (s : State) (tg c : Bool) : (s.setRounding tg c).flag .z = s.flag .z := by
  simp [State.setRounding, State.flag_setFlag_ne]

theorem WritesOnly.setRounding {rs : List RField} {fs : List Flag} {s t : State} (h : WritesOnly rs fs s t)
    (hflags : [.tg, .c] ⊆ fs) (tg c : Bool) : WritesOnly rs fs s (t.setRounding tg c) :=
  (h.setFlag (hflags (by simp)) _).setFlag (hflags (by simp)) _

/-- The state after the two draws of an operation: whether a divisor that is open counts as zero, and C. -/
def State.drawFloating (s : State) : State := s.drawBit.2.drawBit.2

@[simp] theorem State.p_drawFloating (s : State) : s.drawFloating.p = s.p := rfl

theorem WritesOnly.drawFloating {rs : List RField} {fs : List Flag} {s t : State} (h : WritesOnly rs fs s t) :
    WritesOnly rs fs s t.drawFloating := h.drawBit.drawBit

section Operation

variable (s : State) {op : FpOp}

theorem State.floating48_of_nonzero {y : BitVec 48} (h : op = .fdv → ∀ guess, divisorZero48 y guess = false) :
    ∃ tg c, s.floating48 op y =
      (s.drawFloating.setFa48 (fpResult format48 op s.fa48 y (Config.fpResult48 op.code s.fa48 y))).setRounding tg c := by
  refine ⟨_, _, congrArg (State.setRounding · _ _) (if_neg ?_)⟩
  rintro ⟨hop, hzero⟩
  rw [h hop] at hzero
  cases hzero

theorem State.floating32_of_nonzero {y : BitVec 32} (h : op = .fdv → ∀ guess, divisorZero32 y guess = false) :
    ∃ tg c, s.floating32 op y =
      (s.drawFloating.setFa32 (fpResult format32 op s.fa32 y (Config.fpResult32 op.code s.fa32 y))).setRounding tg c := by
  refine ⟨_, _, congrArg (State.setRounding · _ _) (if_neg ?_)⟩
  rintro ⟨hop, hzero⟩
  rw [h hop] at hzero
  cases hzero

theorem State.floating48_of_zero :
    ∃ tg c, s.floating48 .fdv 0 =
      ((s.drawFloating.setFlag .z true).setFa48 (Config.fdvByZero48 s.fa48 0)).setRounding tg c :=
  ⟨_, _, rfl⟩

theorem State.floating32_of_zero :
    ∃ tg c, s.floating32 .fdv 0 =
      ((s.drawFloating.setFlag .z true).setFa32 (Config.fdvByZero32 s.fa32 0)).setRounding tg c :=
  ⟨_, _, rfl⟩

end Operation

/-- A standard word that is no zero is no zero divisor (R345). -/
theorem divisorZero48_of_decode {y : BitVec 48} {b : FpNum} (hy : decode48 y = some b) (hb : b.value ≠ 0) (guess : Bool) :
    divisorZero48 y guess = false := by
  obtain ⟨_, rfl⟩ | ⟨hv, _, rfl⟩ := decode48_cases hy
  · exact absurd (FpNum.value_eq_zero.2 rfl) hb
  · have hmant : y.extractLsb' 0 32 ≠ 0 := fun h => hb (FpNum.value_eq_zero.2 (congrArg BitVec.toNat h))
    rw [divisorZero48, if_neg hv, if_neg hmant]

theorem divisorZero32_of_decode {y : BitVec 32} {b : FpNum} (hy : decode32 y = some b) (hb : b.value ≠ 0) (guess : Bool) :
    divisorZero32 y guess = false := by
  obtain ⟨hexp, rfl⟩ := decode32_eq_some.1 hy
  have hv : y ≠ 0 := by
    rintro rfl
    exact hb (FpNum.value_eq_zero.2 rfl)
  rw [divisorZero32, if_neg hv, if_neg (hexp hv)]

/-! ### The instructions with an operand in memory -/

section Instruction

variable {s s1 s2 s3 s4 : State} {m : MemRef} {el w0 w1 w2 : Word} {rel : Rel}
  (hloc : s.effLoc m = .done (el, rel) s1) (h0 : s1.memRead .rop rel el = .done w0 s2)
  (h1 : s2.memRead .rop rel (el + 1) = .done w1 s3)
include hloc h0 h1

theorem onlyRead_of_two_words : OnlyRead s s3 :=
  have first := (((OnlyRead.refl s).effLoc m).of_eq_done hloc).memRead (kind := .rop) (by decide) rel el |>.of_eq_done h0
  first.memRead (by decide) rel (el + 1) |>.of_eq_done h1

theorem onlyRead_of_three_words (h2 : s3.memRead .rop rel (el + 2) = .done w2 s4) : OnlyRead s s4 :=
  (onlyRead_of_two_words hloc h0 h1).memRead (by decide) rel (el + 2) |>.of_eq_done h2

theorem floatingOp_of_fp32 (hfp : s.cfg.fp32 = true) (op : FpOp) :
    floatingOp op m s = .next (s3.floating32 op (w0 ++ w1)).advance := by
  simp only [floatingOp, hfp, if_true, hloc, Access.bind_done, State.readDouble, h0, h1, Access.complete_done]

theorem floatingOp_of_fp48 (hfp : s.cfg.fp32 = false) (h2 : s3.memRead .rop rel (el + 2) = .done w2 s4) (op : FpOp) :
    floatingOp op m s = .next (s4.floating48 op (w0 ++ w1 ++ w2)).advance := by
  simp only [floatingOp, hfp, Bool.false_eq_true, if_false, hloc, Access.bind_done, State.readTriple, h0, h1, h2,
    Access.complete_done]

end Instruction

/-- The frame of an instruction that ends at the next word behind its reads. -/
theorem frame_of_reads {rs : List RField} {fs : List Flag} {s u t : State} (hread : OnlyRead s u)
    (hend : WritesOnly rs fs u t) (hp : t.p = u.p) :
    onlyRegisters u t.advance ∧ t.advance.p = s.p + 1 ∧ keepsRegisters s t.advance rs fs :=
  ⟨hend.advance.only, by rw [State.p_advance, hp, hread.p], keepsRegisters_of_regs hread.regs hread.pil hend.advance.kept⟩

/-! ### Exact results -/

/-- What the four instructions have in common: the operation, its exact result, and no division by zero (R345). -/
theorem exists_operation {i : Instr} {m : MemRef} {z a b : ℚ}
    (h : (i = .fad m ∧ z = a + b) ∨ (i = .fsb m ∧ z = a - b) ∨ (i = .fmu m ∧ z = a * b) ∨
      (i = .fdv m ∧ b ≠ 0 ∧ z = a / b)) :
    ∃ op : FpOp, exec i = floatingOp op m ∧ (op = .fdv → b ≠ 0) ∧ z = op.apply a b := by
  obtain ⟨rfl, hz⟩ | ⟨rfl, hz⟩ | ⟨rfl, hz⟩ | ⟨rfl, hb, hz⟩ := h
  · exact ⟨.fad, rfl, nofun, hz⟩
  · exact ⟨.fsb, rfl, nofun, hz⟩
  · exact ⟨.fmu, rfl, nofun, hz⟩
  · exact ⟨.fdv, rfl, fun _ => hb, hz⟩

section Exact

variable {s : State} {op : FpOp} {a b c : FpNum}

theorem State.floating48_of_exact {y v : BitVec 48} (ha : decode48 s.fa48 = some a) (hb : decode48 y = some b)
    (hv : decode48 v = some c) (hdiv : op = .fdv → b.value ≠ 0) (hc : c.value = op.apply a.value b.value) :
    (s.floating48 op y).fa48 = v ∧ (s.floating48 op y).p = s.p ∧ WritesOnly [.t, .a, .d] [.tg, .c] s (s.floating48 op y) := by
  obtain ⟨tg, carry, heq⟩ := s.floating48_of_nonzero fun hop => divisorZero48_of_decode hb (hdiv hop)
  have hmant : b.mant < 2 ^ 32 := by
    obtain ⟨_, rfl⟩ | ⟨_, _, rfl⟩ := decode48_cases hb
    · decide
    · exact (y.extractLsb' 0 32).isLt
  rw [heq, fpResult_of_value (by decide) ha hb hmant hdiv (standsFor_of_decode48 hv) hc]
  refine ⟨?_, by simp, ?_⟩
  · rw [State.fa48_setRounding, State.fa48_setFa48]
  · exact ((WritesOnly.refl _ _ s).drawFloating.setFa48 v).setRounding (List.Subset.refl _) tg carry

theorem State.floating32_of_exact {y v : BitVec 32} (ha : decode32 s.fa32 = some a) (hb : decode32 y = some b)
    (hdiv : op = .fdv → b.value ≠ 0) (hc : (value32 v).value = op.apply a.value b.value) :
    (s.floating32 op y).fa32 = v ∧ (s.floating32 op y).p = s.p ∧ WritesOnly [.a, .d] [.tg, .c] s (s.floating32 op y) := by
  obtain ⟨tg, carry, heq⟩ := s.floating32_of_nonzero fun hop => divisorZero32_of_decode hb (hdiv hop)
  have hmant : b.mant < 2 ^ 32 := by
    obtain ⟨_, rfl⟩ := decode32_eq_some.1 hb
    by_cases hy : y = 0
    · rw [hy, value32_zero]; decide
    · rw [value32_of_ne_zero hy]
      have := (y.extractLsb' 0 22).isLt
      show 2 ^ 22 + (y.extractLsb' 0 22).toNat < 2 ^ 32
      omega
  rw [heq, fpResult_of_value (by decide) ha hb hmant hdiv (standsFor_value32 v) hc]
  refine ⟨?_, by simp, ?_⟩
  · rw [State.fa32_setRounding, State.fa32_setFa32]
  · exact ((WritesOnly.refl _ _ s).drawFloating.setAccumulator32 v).setRounding (List.Subset.refl _) tg carry

end Exact

/-- Settles O35: the exact result of the operation is a rational number, and `fpRound` finds the word that stands for it. -/
theorem floatingExactResult : Obligations.FloatingExactResult := by
  unfold Obligations.FloatingExactResult
  constructor
  · intro s s1 s2 s3 s4 m el w0 w1 w2 rel a b c v i hfp hloc h0 h1 h2 ha hb hv hi
    obtain ⟨op, hexec, hdiv, hc⟩ := exists_operation hi
    have hread := onlyRead_of_three_words hloc h0 h1 h2
    have ha' : decode48 s4.fa48 = some a := by rw [hread.fa48]; exact ha
    obtain ⟨hfa, hp, hend⟩ := State.floating48_of_exact ha' hb hv hdiv hc
    obtain ⟨honly, hnext, hkeeps⟩ := frame_of_reads hread hend hp
    refine ⟨_, ?_, honly, ?_, hnext, hkeeps⟩
    · rw [hexec, floatingOp_of_fp48 hloc h0 h1 hfp h2]
    · exact (State.fa48_advance _).trans hfa
  · intro s s1 s2 s3 m el w0 w1 rel a b v i hfp hloc h0 h1 ha hb hi
    obtain ⟨op, hexec, hdiv, hc⟩ := exists_operation hi
    have hread := onlyRead_of_two_words hloc h0 h1
    have ha' : decode32 s3.fa32 = some a := by rw [hread.fa32]; exact ha
    obtain ⟨hfa, hp, hend⟩ := State.floating32_of_exact ha' hb hdiv hc
    obtain ⟨honly, hnext, hkeeps⟩ := frame_of_reads hread hend hp
    refine ⟨_, ?_, honly, ?_, hnext, hkeeps⟩
    · rw [hexec, floatingOp_of_fp32 hloc h0 h1 hfp]
    · exact (State.fa32_advance _).trans hfa

/-! ### Division by zero -/

theorem State.floating48_fdv_zero (s : State) :
    (s.floating48 .fdv 0).flag .z = true ∧ (s.floating48 .fdv 0).p = s.p ∧
      WritesOnly [.t, .a, .d] [.tg, .c, .z] s (s.floating48 .fdv 0) := by
  obtain ⟨tg, c, heq⟩ := s.floating48_of_zero
  refine ⟨by rw [heq]; simp, by rw [heq]; simp [State.setFlag], ?_⟩
  exact (WritesOnly.refl _ _ s).floating48 (by decide) (by decide) 0

theorem State.floating32_fdv_zero (s : State) :
    (s.floating32 .fdv 0).flag .z = true ∧ (s.floating32 .fdv 0).p = s.p ∧
      WritesOnly [.a, .d] [.tg, .c, .z] s (s.floating32 .fdv 0) := by
  obtain ⟨tg, c, heq⟩ := s.floating32_of_zero
  rw [heq]
  refine ⟨by simp, by simp [State.setFlag], ?_⟩
  exact (((WritesOnly.refl _ _ s).drawFloating.setFlag (by decide) true).setAccumulator32 _).setRounding (by decide) tg c

/-- Settles O36: the words read make the zero word, whose division sets Z. -/
theorem floatingDivisionByZero : Obligations.FloatingDivisionByZero := by
  unfold Obligations.FloatingDivisionByZero
  refine fun s s1 s2 s3 m el rel hloc h0 h1 => ⟨fun hfp => ?_, fun s4 hfp h2 => ?_⟩
  · obtain ⟨hz, hp, hend⟩ := s3.floating32_fdv_zero
    obtain ⟨honly, hnext, hkeeps⟩ := frame_of_reads (onlyRead_of_two_words hloc h0 h1) hend hp
    exact ⟨_, floatingOp_of_fp32 hloc h0 h1 hfp .fdv, honly, (State.flag_advance _ _).trans hz, hnext, hkeeps⟩
  · obtain ⟨hz, hp, hend⟩ := s4.floating48_fdv_zero
    obtain ⟨honly, hnext, hkeeps⟩ := frame_of_reads (onlyRead_of_three_words hloc h0 h1 h2) hend hp
    exact ⟨_, floatingOp_of_fp48 hloc h0 h1 hfp h2 .fdv, honly, (State.flag_advance _ _).trans hz, hnext, hkeeps⟩

end Sys2Proof.Machine
end

section
/-! NLZ and DNZ: integers and floating numbers (`spec/43_floating.md` R349 to R353). -/

namespace Sys2Proof.Machine

variable {digits : Nat} {c : FpNum} {s : State} {sc : BitVec 8}

/-! ### Integers as normalized numbers -/

/-- An integer times a power of two, the highest bit of its magnitude at the highest place of the mantissa (R349). -/
def integerNumber (a : Word) (scale : Int) (digits : Nat) : FpNum :=
  let shift := digits - 1 - Nat.log2 a.toInt.natAbs
  ⟨a.msb, a.toInt.natAbs * 2 ^ shift, scale - shift⟩

theorem integerNumber_value (a : Word) (scale : Int) (digits : Nat) :
    (integerNumber a scale digits).value = a.toInt * 2 ^ scale := by
  rw [FpNum.value_eq, ← signFactor_mul_natAbs a.toInt, ← BitVec.msb_eq_toInt]
  simp only [integerNumber, Nat.cast_mul, Nat.cast_pow, Nat.cast_ofNat, zpow_sub₀ (two_ne_zero (α := ℚ)), zpow_natCast]
  field_simp

/-- The magnitude of a word that is not zero has at most 16 bits. -/
theorem log2_natAbs_lt {a : Word} (ha : a ≠ 0) : a.toInt.natAbs ≠ 0 ∧ Nat.log2 a.toInt.natAbs < 16 := by
  have hne : a.toInt.natAbs ≠ 0 := by
    rw [Int.natAbs_ne_zero]
    exact fun h => ha (BitVec.eq_of_toInt_eq h)
  have hlow := BitVec.le_toInt a
  have hhigh := BitVec.toInt_lt (x := a)
  exact ⟨hne, (Nat.log2_lt hne).2 (by omega)⟩

theorem integerNumber_normalized {a : Word} (ha : a ≠ 0) (scale : Int) (h : 16 ≤ digits) :
    (integerNumber a scale digits).Normalized digits := by
  obtain ⟨hne, hlog⟩ := log2_natAbs_lt ha
  constructor
  · calc 2 ^ (digits - 1)
      _ = 2 ^ Nat.log2 a.toInt.natAbs * 2 ^ (digits - 1 - Nat.log2 a.toInt.natAbs) := by rw [← pow_add]; congr 1; omega
      _ ≤ a.toInt.natAbs * 2 ^ (digits - 1 - Nat.log2 a.toInt.natAbs) := Nat.mul_le_mul_right _ (Nat.log2_self_le hne)
  · calc a.toInt.natAbs * 2 ^ (digits - 1 - Nat.log2 a.toInt.natAbs)
      _ < 2 ^ (Nat.log2 a.toInt.natAbs + 1) * 2 ^ (digits - 1 - Nat.log2 a.toInt.natAbs) :=
        Nat.mul_lt_mul_of_pos_right Nat.lt_log2_self (Nat.two_pow_pos _)
      _ = 2 ^ digits := by rw [← pow_add]; congr 1; omega

/-! ### NLZ -/

theorem decode48_word (hnorm : c.Normalized 32) (hlow : 0 ≤ format48.biased c) (hhigh : format48.biased c ≤ 32767) :
    decode48 (format48.word c) = some c := by
  obtain ⟨neg, mant, exp⟩ := c
  obtain ⟨e, he⟩ := Int.eq_ofNat_of_zero_le hlow
  have hword : format48.word ⟨neg, mant, exp⟩ = encode48 neg mant e := by rw [FpFormat.word, he]; rfl
  have hexp : exp = e - 16416 := by simp only [FpFormat.biased, format48] at he; omega
  have hmant : (encode48 neg mant e).extractLsb' 0 32 = BitVec.ofNat 32 mant := BitVec.extractLsb'_append_eq_right
  have hfield : (encode48 neg mant e).extractLsb' 32 15 = BitVec.ofNat 15 e := by
    rw [encode48, BitVec.extractLsb'_append_eq_of_le (by decide)]
    exact BitVec.extractLsb'_append_eq_right
  have hsign : (encode48 neg mant e).msb = neg := by
    refine (BitVec.msb_append (x := BitVec.ofBool neg ++ BitVec.ofNat 15 e)).trans ?_
    rw [if_neg (by decide), BitVec.msb_append, if_neg (by decide), BitVec.msb_ofBool]
  have hmantNat : (BitVec.ofNat 32 mant).toNat = mant := Nat.mod_eq_of_lt hnorm.mant_lt
  have hbit : (encode48 neg mant e).getLsbD 31 = true :=
    calc (encode48 neg mant e).getLsbD 31
      _ = ((encode48 neg mant e).extractLsb' 0 32).msb := by simp [BitVec.msb_eq_getLsbD_last]
      _ = true := by rw [hmant, BitVec.msb_eq_decide, hmantNat]; exact decide_eq_true hnorm.mant_ge
  have hne : encode48 neg mant e ≠ 0 := by
    intro h0
    rw [h0] at hbit
    exact absurd hbit (by decide)
  rw [hword, decode48, if_neg hne, if_pos hbit, hmant, hfield, hsign, hmantNat, BitVec.toNat_ofNat,
    Nat.mod_eq_of_lt (by omega), hexp]

theorem normalize48_of_ne_zero {a : Word} (ha : a ≠ 0) (sc : BitVec 8) :
    format48.biased (integerNumber a (sc.toInt - 16) 32) = 16384 + sc.toInt - (15 - Nat.log2 a.toInt.natAbs) ∧
      normalize48 a sc = format48.word (integerNumber a (sc.toInt - 16) 32) := by
  obtain ⟨_, hlog⟩ := log2_natAbs_lt ha
  have hbiased : format48.biased (integerNumber a (sc.toInt - 16) 32) =
      16384 + sc.toInt - (15 - Nat.log2 a.toInt.natAbs) := by
    simp only [FpFormat.biased, format48, integerNumber]; omega
  refine ⟨hbiased, ?_⟩
  rw [normalize48, if_neg ha, FpFormat.word, hbiased]
  rfl

theorem normalize32_of_ne_zero {a : Word} (ha : a ≠ 0) {sc : BitVec 8}
    (hlow : 0 ≤ format32.biased (integerNumber a (sc.toInt - 16) 23))
    (hhigh : format32.biased (integerNumber a (sc.toInt - 16) 23) ≤ 511) :
    normalize32 a sc = format32.word (integerNumber a (sc.toInt - 16) 23) := by
  obtain ⟨_, hlog⟩ := log2_natAbs_lt ha
  have hbiased : format32.biased (integerNumber a (sc.toInt - 16) 23) =
      256 + sc.toInt - (15 - Nat.log2 a.toInt.natAbs) := by
    simp only [FpFormat.biased, format32, integerNumber]; omega
  rw [hbiased] at hlow hhigh
  rw [normalize32, if_neg ha, FpFormat.word, hbiased]
  exact if_neg (by omega)

/-- The exponents of the scaled integers lie in the range (R349). -/
theorem normalize48_value (a : Word) (sc : BitVec 8) :
    ∃ c, decode48 (normalize48 a sc) = some c ∧ c.value = a.toInt * 2 ^ (sc.toInt - 16) := by
  by_cases ha : a = 0
  · exact ⟨⟨false, 0, 0⟩, by rw [ha]; rfl, by simp [ha, FpNum.value]⟩
  · obtain ⟨_, hlog⟩ := log2_natAbs_lt ha
    obtain ⟨hbiased, hword⟩ := normalize48_of_ne_zero ha sc
    have hlow := BitVec.le_toInt sc
    have hhigh := BitVec.toInt_lt (x := sc)
    refine ⟨integerNumber a (sc.toInt - 16) 32, ?_, integerNumber_value ..⟩
    rw [hword]
    exact decode48_word (integerNumber_normalized ha _ (by decide)) (by omega) (by omega)

/-- Where the scaled integer is the number of a standard word, this is the word of its normalized form (R350). -/
theorem normalize32_of_value {a : Word} {v : BitVec 32} (hv : decode32 v = some c)
    (hc : c.value = a.toInt * 2 ^ (sc.toInt - 16)) : normalize32 a sc = v := by
  obtain ⟨_, rfl⟩ := decode32_eq_some.1 hv
  rw [← integerNumber_value a _ 23] at hc
  obtain ⟨hzero, hnumber⟩ | ⟨_, hnorm, hlow, hhigh, hword⟩ := standsFor_value32 v
  · have ha : a = 0 := by
      by_contra ha
      have hpos := (integerNumber_normalized ha (sc.toInt - 16) (digits := 23) (by decide)).mant_pos
      rw [hnumber] at hc
      exact hpos.ne' (FpNum.value_eq_zero.1 (hc.symm.trans (FpNum.value_eq_zero.2 rfl)))
    rw [ha, hzero]
    rfl
  · have ha : a ≠ 0 := by
      rintro rfl
      exact hnorm.mant_pos.ne' (FpNum.value_eq_zero.1 (hc.trans (by simp [FpNum.value, integerNumber])))
    have hnumber : value32 v = integerNumber a (sc.toInt - 16) 23 :=
      hnorm.eq_of_value (integerNumber_normalized ha _ (by decide)) hc
    rw [hnumber] at hlow hhigh hword
    rw [normalize32_of_ne_zero ha hlow hhigh, hword]

theorem exec_nlz_of_fp48 (h : s.cfg.fp32 = false) (sc : BitVec 8) :
    exec (.nlz sc) s = .next (s.setFa48 (normalize48 s.a sc)).advance := if_neg (by simp [h])

theorem exec_nlz_of_fp32 (h : s.cfg.fp32 = true) (sc : BitVec 8) :
    exec (.nlz sc) s = .next (s.setFa32 (normalize32 s.a sc)).advance := if_pos h

/-! ### DNZ -/

theorem FpNum.floor_abs_value_mul (c : FpNum) (k : Int) : ⌊|c.value| * 2 ^ k⌋₊ = shiftNat c.mant (c.exp + k) := by
  rw [c.abs_value, mul_assoc, ← zpow_add₀ two_ne_zero, floor_mul_zpow]

@[simp] theorem shiftNat_zero (k : Int) : shiftNat 0 k = 0 := by simp [shiftNat]

/-- The magnitude is the integer part of the scaled absolute value (R351, D27). -/
theorem denormalize48_of_decode {v : BitVec 48} (hv : decode48 v = some c) (sc : BitVec 8) :
    denormalize48 v sc = ⌊|c.value| * 2 ^ (sc.toInt + 16)⌋₊ := by
  rw [c.floor_abs_value_mul]
  obtain ⟨rfl, rfl⟩ | ⟨hne, _, rfl⟩ := decode48_cases hv
  · rw [denormalize48, if_pos rfl, shiftNat_zero]
  · rw [denormalize48, if_neg hne]
    congr 1
    dsimp only
    omega

/-- The magnitude is the integer part of the absolute value (R353, D27). -/
theorem denormalize32_of_decode {v : BitVec 32} (hv : decode32 v = some c) : denormalize32 v = ⌊|c.value|⌋₊ := by
  obtain ⟨_, rfl⟩ := decode32_eq_some.1 hv
  rw [FpNum.abs_value, floor_mul_zpow]
  by_cases hne : v = 0
  · rw [denormalize32, if_pos hne, hne, value32_zero, shiftNat_zero]
  · rw [denormalize32, if_neg hne, value32_of_ne_zero hne]
    congr 1
    dsimp only
    omega

theorem value_lt_zero_of_decode48 {v : BitVec 48} (hv : decode48 v = some c) : c.value < 0 ↔ v.msb = true := by
  obtain ⟨rfl, rfl⟩ | ⟨_, hbit, rfl⟩ := decode48_cases hv
  · simp [FpNum.value]
  · refine FpNum.value_lt_zero fun hmant : (v.extractLsb' 0 32).toNat = 0 => ?_
    have hbit' : (v.extractLsb' 0 32).getLsbD 31 = true := by simpa using hbit
    rw [BitVec.eq_of_toNat_eq (y := 0) hmant] at hbit'
    exact absurd hbit' (by decide)

theorem value_lt_zero_of_decode32 {v : BitVec 32} (hv : decode32 v = some c) : c.value < 0 ↔ v.msb = true := by
  obtain ⟨_, rfl⟩ := decode32_eq_some.1 hv
  by_cases hne : v = 0
  · rw [hne, value32_zero]
    simp [FpNum.value]
  · rw [value32_of_ne_zero hne]
    exact FpNum.value_lt_zero (Nat.add_pos_left (Nat.two_pow_pos 22) _).ne'

theorem State.flag_z_setInteger (s : State) (neg : Bool) (q : Nat) :
    (s.setInteger neg q).flag .z = (s.flag .z || decide (32767 < q)) := by
  by_cases h : 32767 < q <;> simp [State.setInteger, h]

theorem State.p_setInteger (s : State) (neg : Bool) (q : Nat) : (s.setInteger neg q).p = s.p := by
  by_cases h : 32767 < q
  · simp only [State.setInteger, if_pos h, State.p_setA, State.setFlag, State.p_setSts]
    rfl
  · simp only [State.setInteger, if_neg h, State.p_setA]

theorem State.toInt_a_setInteger (s : State) (neg : Bool) {q : Nat} (h : q ≤ 32767) :
    (s.setInteger neg q).a.toInt = signed neg q := by
  rw [State.setInteger, if_neg (by omega), State.a_setA]
  have hsigned : signed neg q = q ∨ signed neg q = -q := by cases neg <;> simp [signed]
  exact BitVec.toInt_ofInt_eq_self (by decide) (by omega) (by omega)

theorem exec_dnz_of_fp48 (h : s.cfg.fp32 = false) (sc : BitVec 8) :
    exec (.dnz sc) s = .next (((s.setInteger s.t.msb (denormalize48 s.fa48 sc)).setD 0).setT 0).advance :=
  if_neg (by simp [h])

theorem exec_dnz_of_fp32 (h : s.cfg.fp32 = true) (sc : BitVec 8) :
    exec (.dnz sc) s = .next ((s.setInteger s.a.msb (denormalize32 s.fa32)).setD 0).advance := if_pos h

/-- The sign is the first bit of T (R340). -/
theorem msb_fa48 (s : State) : s.fa48.msb = s.t.msb := by
  refine (BitVec.msb_append (x := s.t ++ s.a)).trans ?_
  rw [if_neg (by decide), BitVec.msb_append, if_neg (by decide)]

/-- The sign is the first bit of A (R341). -/
theorem msb_fa32 (s : State) : s.fa32.msb = s.a.msb := BitVec.msb_append.trans (if_neg (by decide))

/-- The integer that A then holds has the sign of the number. -/
theorem State.toInt_a_setInteger_of_sign {neg : Bool} {q : Nat} {z : ℚ} (hneg : z < 0 ↔ neg = true) (h : q ≤ 32767) :
    (s.setInteger neg q).a.toInt = if z < 0 then -(q : Int) else q := by
  rw [s.toInt_a_setInteger neg h, signed]
  exact if_congr hneg.symm rfl rfl

/-- Settles O37: the scaled integer has one normalized form, and the magnitude of the integer is a floor. -/
theorem normalizeDenormalize : Obligations.NormalizeDenormalize := by
  unfold Obligations.NormalizeDenormalize
  refine ⟨fun s sc => ⟨fun hfp => ?_, fun hfp => ?_⟩, fun s sc c q => ⟨fun hfp hc hq => ?_, fun hfp hc hq => ?_⟩⟩
  · obtain ⟨c, hdecode, hvalue⟩ := normalize48_value s.a sc
    obtain ⟨honly, hp, hkeeps⟩ := frame_of_reads (.refl s) ((WritesOnly.refl _ [] s).setFa48 (normalize48 s.a sc)) (by simp)
    refine ⟨_, c, exec_nlz_of_fp48 hfp sc, honly, hp, hkeeps, ?_, hvalue⟩
    exact (congrArg decode48 ((State.fa48_advance _).trans (State.fa48_setFa48 s _))).trans hdecode
  · obtain ⟨honly, hp, hkeeps⟩ :=
      frame_of_reads (.refl s) ((WritesOnly.refl _ [] s).setAccumulator32 (normalize32 s.a sc)) (by simp)
    refine ⟨_, exec_nlz_of_fp32 hfp sc, honly, hp, hkeeps, fun v c hv hc => ?_⟩
    exact ((State.fa32_advance _).trans (State.fa32_setFa32 s _)).trans (normalize32_of_value hv hc)
  · have hmagnitude : denormalize48 s.fa48 sc = q := (denormalize48_of_decode hc sc).trans hq.symm
    have hsign : c.value < 0 ↔ s.t.msb = true := by rw [← msb_fa48]; exact value_lt_zero_of_decode48 hc
    have hend := (((WritesOnly.refl [.t, .a, .d] [.z] s).setInteger (by decide) (by decide) s.t.msb q).setD (by decide)
      0).setT (by decide) 0
    obtain ⟨honly, hp, hkeeps⟩ := frame_of_reads (.refl s) hend (by simp [State.p_setInteger])
    refine ⟨_, ?_, honly, hp, by simp, by simp, hkeeps, by simp [State.flag_z_setInteger], fun hle => ?_⟩
    · rw [exec_dnz_of_fp48 hfp, hmagnitude]
    · simpa using State.toInt_a_setInteger_of_sign hsign hle
  · have hmagnitude : denormalize32 s.fa32 = q := (denormalize32_of_decode hc).trans hq.symm
    have hsign : c.value < 0 ↔ s.a.msb = true := by rw [← msb_fa32]; exact value_lt_zero_of_decode32 hc
    have hend := ((WritesOnly.refl [.a, .d] [.z] s).setInteger (by decide) (by decide) s.a.msb q).setD (by decide) 0
    obtain ⟨honly, hp, hkeeps⟩ := frame_of_reads (.refl s) hend (by simp [State.p_setInteger])
    refine ⟨_, ?_, honly, hp, by simp, hkeeps, by simp [State.flag_z_setInteger], fun hle => ?_⟩
    · rw [exec_dnz_of_fp32 hfp, hmagnitude]
    · simpa using State.toInt_a_setInteger_of_sign hsign hle

end Sys2Proof.Machine
end

section
/-! The shifts in closed form: steps of one place are together a shift at once, with `linkEnd` a turn of the ring of M and the
operand; M takes the bit that leaves last (`spec/44_shift.md` R370 to R374). -/

namespace Sys2Proof.Machine

/-! ### Place by place -/

theorem repeatStep_eq_iterate {α : Type} (f : α → α) (c : Nat) (x : α) : repeatStep f c x = f^[c] x := by
  induction c generalizing x with
  | zero => rfl
  | succ c ih => exact ih (f x)

/-- An operation by a number of places that is done one place after the other. -/
def ByPlaces {w : Nat} (op : BitVec w → Nat → BitVec w) : Prop :=
  ∀ v, op v 0 = v ∧ ∀ c, op v (c + 1) = op (op v c) 1

theorem ByPlaces.iterate {w : Nat} {op : BitVec w → Nat → BitVec w} (h : ByPlaces op) (c : Nat) (v : BitVec w) :
    (op · 1)^[c] v = op v c := by
  induction c with
  | zero => exact (h v).1.symm
  | succ c ih => rw [Function.iterate_succ_apply', ih, (h v).2]

/-- Steps that work on a part of the state as one place of `op` does are together so many places of `op`. -/
theorem ByPlaces.iterate_of_step {w : Nat} {op : BitVec w → Nat → BitVec w} (hop : ByPlaces op) {α : Type}
    {f : α → α} {part : α → BitVec w} (hstep : ∀ x, part (f x) = op (part x) 1) (c : Nat) (x : α) :
    part (f^[c] x) = op (part x) c :=
  (Function.Semiconj.iterate_right (gb := (op · 1)) hstep c x).trans (hop.iterate c (part x))

theorem byPlaces_shiftLeft {w : Nat} : ByPlaces (fun (v : BitVec w) (c : Nat) => v <<< c) :=
  fun v => ⟨BitVec.shiftLeft_zero v, fun c => BitVec.shiftLeft_add v c 1⟩

theorem byPlaces_ushiftRight {w : Nat} : ByPlaces (BitVec.ushiftRight (n := w)) :=
  fun v => ⟨BitVec.ushiftRight_zero v, fun c => BitVec.shiftRight_add v c 1⟩

theorem byPlaces_sshiftRight {w : Nat} : ByPlaces (BitVec.sshiftRight (n := w)) :=
  fun _ => ⟨BitVec.sshiftRight_zero, fun _ => BitVec.sshiftRight_add⟩

/-! ### Rotations -/

/-- One place further a ring of `w` places is turned one more, or is back where it began. -/
theorem succ_mod_cases (c : Nat) {w : Nat} (hw : 0 < w) :
    c % w + 1 < w ∧ (c + 1) % w = c % w + 1 ∨ c % w + 1 = w ∧ (c + 1) % w = 0 := by
  have hle : c % w + 1 ≤ w := Nat.mod_lt c hw
  rw [← Nat.mod_add_mod]
  rcases hle.lt_or_eq with h | h
  · exact .inl ⟨h, Nat.mod_eq_of_lt h⟩
  · exact .inr ⟨h, by rw [h, Nat.mod_self]⟩

theorem one_mod_cases {w : Nat} (hw : 0 < w) : 1 < w ∧ 1 % w = 1 ∨ 1 = w ∧ 1 % w = 0 := by
  simpa using succ_mod_cases 0 hw

/-- The place of the bit that a turn to the left brings to place `i`. -/
theorem getLsbD_rotateLeft_ring {w : Nat} (v : BitVec w) (c : Nat) {i : Nat} (hi : i < w) :
    (v.rotateLeft c).getLsbD i = v.getLsbD (if i < c % w then w - c % w + i else i - c % w) := by
  rw [BitVec.getLsbD_rotateLeft, Bool.cond_decide, decide_eq_true hi, Bool.true_and, apply_ite v.getLsbD]

/-- The place of the bit that a turn to the right brings to place `i`. -/
theorem getLsbD_rotateRight_ring {w : Nat} (v : BitVec w) (c : Nat) {i : Nat} (hi : i < w) :
    (v.rotateRight c).getLsbD i = v.getLsbD (if i < w - c % w then c % w + i else i - (w - c % w)) := by
  rw [BitVec.getLsbD_rotateRight, Bool.cond_decide, decide_eq_true hi, Bool.true_and, apply_ite v.getLsbD]

theorem getLsbD_rotateLeft_one {w : Nat} (v : BitVec w) {i : Nat} (hi : i < w) :
    (v.rotateLeft 1).getLsbD i = if i = 0 then v.msb else v.getLsbD (i - 1) := by
  rw [getLsbD_rotateLeft_ring v 1 hi, BitVec.msb_eq_getLsbD_last, ← apply_ite v.getLsbD]
  have hone := one_mod_cases (Nat.zero_lt_of_lt hi)
  congr 1
  generalize 1 % w = k at *
  split_ifs <;> omega

theorem getLsbD_rotateRight_one {w : Nat} (v : BitVec w) {i : Nat} (hi : i < w) :
    (v.rotateRight 1).getLsbD i = if i = w - 1 then v.getLsbD 0 else v.getLsbD (i + 1) := by
  rw [getLsbD_rotateRight_ring v 1 hi, ← apply_ite v.getLsbD]
  have hone := one_mod_cases (Nat.zero_lt_of_lt hi)
  congr 1
  generalize 1 % w = k at *
  split_ifs <;> omega

theorem byPlaces_rotateLeft {w : Nat} : ByPlaces (BitVec.rotateLeft (w := w)) := by
  refine fun v => ⟨BitVec.eq_of_getLsbD_eq fun i hi => ?_, fun c => BitVec.eq_of_getLsbD_eq fun i hi => ?_⟩
  · rw [getLsbD_rotateLeft_ring v 0 hi, Nat.zero_mod, if_neg i.not_lt_zero, Nat.sub_zero]
  · have hturn := succ_mod_cases c (Nat.zero_lt_of_lt hi)
    rw [getLsbD_rotateLeft_one _ hi, BitVec.msb_eq_getLsbD_last, ← apply_ite (v.rotateLeft c).getLsbD,
      getLsbD_rotateLeft_ring v c (by split <;> omega), getLsbD_rotateLeft_ring v (c + 1) hi]
    congr 1
    generalize c % w = k at *
    generalize (c + 1) % w = k' at *
    split_ifs <;> omega

theorem byPlaces_rotateRight {w : Nat} : ByPlaces (BitVec.rotateRight (w := w)) := by
  refine fun v => ⟨BitVec.eq_of_getLsbD_eq fun i hi => ?_, fun c => BitVec.eq_of_getLsbD_eq fun i hi => ?_⟩
  · rw [getLsbD_rotateRight_ring v 0 hi, Nat.zero_mod, if_pos (show i < w - 0 from hi), Nat.zero_add]
  · have hturn := succ_mod_cases c (Nat.zero_lt_of_lt hi)
    rw [getLsbD_rotateRight_one _ hi, ← apply_ite (v.rotateRight c).getLsbD,
      getLsbD_rotateRight_ring v c (by split <;> omega), getLsbD_rotateRight_ring v (c + 1) hi]
    congr 1
    generalize c % w = k at *
    generalize (c + 1) % w = k' at *
    split_ifs <;> omega

/-! ### One step -/

section Steps

variable {w : Nat} {type : ShiftType}

theorem getLsbD_shiftLeftStep (x : Shifted w) {i : Nat} (hi : i < w) :
    (shiftLeftStep type x).v.getLsbD i =
      if i = 0 then shiftIn type x.v.msb false x.m else x.v.getLsbD (i - 1) := by
  refine (getLsbD_setBit _ _ _ _ hi).trans (if_ctx_congr .rfl (fun _ => rfl) fun h => ?_)
  rw [BitVec.getLsbD_shiftLeft, decide_eq_true hi, decide_eq_false (by omega)]; rfl

theorem getLsbD_shiftRightStep (x : Shifted w) {i : Nat} (hi : i < w) :
    (shiftRightStep type x).v.getLsbD i =
      if i = w - 1 then shiftIn type (x.v.getLsbD 0) x.v.msb x.m else x.v.getLsbD (i + 1) := by
  refine (getLsbD_setBit _ _ _ _ hi).trans (if_ctx_congr .rfl (fun _ => rfl) fun _ => ?_)
  rw [BitVec.ushiftRight_eq, BitVec.getLsbD_ushiftRight, Nat.add_comm]

/-- The bit that leaves last is the one that the other steps have brought to the end (R373). -/
theorem iterate_shiftLeftStep_m (c : Nat) (x : Shifted w) :
    ((shiftLeftStep type)^[c + 1] x).m = ((shiftLeftStep type)^[c] x).v.msb := by
  rw [Function.iterate_succ_apply']; rfl

theorem iterate_shiftRightStep_m (c : Nat) (x : Shifted w) :
    ((shiftRightStep type)^[c + 1] x).m = ((shiftRightStep type)^[c] x).v.getLsbD 0 := by
  rw [Function.iterate_succ_apply']; rfl

/-! ### Steps to the left -/

/-- The types that feed zeros in. -/
theorem iterate_shiftLeftStep_zeroFed (h : ∀ out m, shiftIn type out false m = false) (c : Nat) (x : Shifted w) :
    ((shiftLeftStep type)^[c] x).v = x.v <<< c := by
  refine byPlaces_shiftLeft.iterate_of_step (part := Shifted.v) (fun x => BitVec.eq_of_getLsbD_eq fun i hi => ?_) c x
  rw [getLsbD_shiftLeftStep x hi, h, BitVec.getLsbD_shiftLeft, decide_eq_true hi]
  by_cases hzero : i = 0
  · rw [if_pos hzero, hzero]; rfl
  · rw [if_neg hzero, decide_eq_false (by omega)]; rfl

theorem iterate_shiftLeftStep_rotational (c : Nat) (x : Shifted w) :
    ((shiftLeftStep .rotational)^[c] x).v = x.v.rotateLeft c := by
  refine byPlaces_rotateLeft.iterate_of_step (part := Shifted.v) (fun x => BitVec.eq_of_getLsbD_eq fun i hi => ?_) c x
  rw [getLsbD_shiftLeftStep x hi, getLsbD_rotateLeft_one x.v hi]
  rfl

/-- The operand turns with M above it (D28). -/
theorem iterate_shiftLeftStep_linkEnd (hw : 0 < w) (c : Nat) (x : Shifted w) :
    BitVec.cons ((shiftLeftStep .linkEnd)^[c] x).m ((shiftLeftStep .linkEnd)^[c] x).v =
      (BitVec.cons x.m x.v).rotateLeft c := by
  refine byPlaces_rotateLeft.iterate_of_step (part := fun x : Shifted w => BitVec.cons x.m x.v)
    (fun x => BitVec.eq_of_getLsbD_eq fun i hi => ?_) c x
  rw [getLsbD_rotateLeft_one _ hi, BitVec.msb_cons, BitVec.getLsbD_cons, BitVec.getLsbD_cons]
  by_cases htop : i = w
  · rw [if_pos htop, if_neg (by omega), if_neg (by omega), htop]
    exact BitVec.msb_eq_getLsbD_last x.v
  · rw [if_neg htop, if_neg (by omega : ¬i - 1 = w), getLsbD_shiftLeftStep x (by omega)]
    rfl

/-! ### Steps to the right -/

theorem iterate_shiftRightStep_zeroEnd (c : Nat) (x : Shifted w) :
    ((shiftRightStep .zeroEnd)^[c] x).v = x.v.ushiftRight c := by
  refine byPlaces_ushiftRight.iterate_of_step (part := Shifted.v) (fun x => BitVec.eq_of_getLsbD_eq fun i hi => ?_) c x
  rw [getLsbD_shiftRightStep x hi, BitVec.ushiftRight_eq, BitVec.getLsbD_ushiftRight, Nat.add_comm]
  by_cases htop : i = w - 1
  · rw [if_pos htop, BitVec.getLsbD_of_ge x.v (1 + i) (by omega)]; rfl
  · rw [if_neg htop]

theorem iterate_shiftRightStep_arithmetic (c : Nat) (x : Shifted w) :
    ((shiftRightStep .arithmetic)^[c] x).v = x.v.sshiftRight c := by
  refine byPlaces_sshiftRight.iterate_of_step (part := Shifted.v) (fun x => BitVec.eq_of_getLsbD_eq fun i hi => ?_) c x
  rw [getLsbD_shiftRightStep x hi, BitVec.getLsbD_sshiftRight, Nat.add_comm 1 i, decide_eq_false (by omega)]
  by_cases htop : i = w - 1
  · rw [if_pos htop, if_neg (by omega)]; rfl
  · rw [if_neg htop, if_pos (by omega)]; rfl

theorem iterate_shiftRightStep_rotational (c : Nat) (x : Shifted w) :
    ((shiftRightStep .rotational)^[c] x).v = x.v.rotateRight c := by
  refine byPlaces_rotateRight.iterate_of_step (part := Shifted.v) (fun x => BitVec.eq_of_getLsbD_eq fun i hi => ?_) c x
  rw [getLsbD_shiftRightStep x hi, getLsbD_rotateRight_one x.v hi]
  rfl

/-- The operand turns with M below it (D28). -/
theorem iterate_shiftRightStep_linkEnd (hw : 0 < w) (c : Nat) (x : Shifted w) :
    ((shiftRightStep .linkEnd)^[c] x).v.concat ((shiftRightStep .linkEnd)^[c] x).m =
      (x.v.concat x.m).rotateRight c := by
  refine byPlaces_rotateRight.iterate_of_step (part := fun x : Shifted w => x.v.concat x.m)
    (fun x => BitVec.eq_of_getLsbD_eq fun i hi => ?_) c x
  rw [getLsbD_rotateRight_one _ hi, BitVec.getLsbD_concat, BitVec.getLsbD_concat, BitVec.getLsbD_concat,
    Nat.add_sub_cancel]
  by_cases hlow : i = 0
  · rw [if_pos hlow, if_neg (by omega), if_neg (by omega), hlow]
    rfl
  · rw [if_neg hlow, getLsbD_shiftRightStep x (by omega), Nat.sub_add_cancel (by omega), if_pos rfl]
    by_cases htop : i = w
    · rw [if_pos (by omega), if_pos htop]; rfl
    · rw [if_neg (by omega), if_neg htop, if_neg (by omega)]; rfl

/-! ### The bit that leaves last -/

theorem msb_shiftLeft_places (v : BitVec w) (c : Nat) :
    (v <<< c).msb = (decide (c + 1 ≤ w) && v.getLsbD (w - (c + 1))) := by
  rw [BitVec.msb_shiftLeft, BitVec.getMsbD, Nat.sub_sub, Nat.add_comm 1 c]; rfl

theorem getLsbD_zero_ushiftRight (v : BitVec w) (c : Nat) :
    (v.ushiftRight c).getLsbD 0 = (decide (c + 1 ≤ w) && v.getLsbD c) := by
  rw [BitVec.ushiftRight_eq, BitVec.getLsbD_ushiftRight, Nat.add_zero]
  by_cases h : c + 1 ≤ w
  · rw [decide_eq_true h, Bool.true_and]
  · rw [decide_eq_false h, Bool.false_and, BitVec.getLsbD_of_ge _ _ (by omega)]

theorem getLsbD_zero_sshiftRight (hw : 0 < w) (v : BitVec w) (c : Nat) :
    (v.sshiftRight c).getLsbD 0 = if c + 1 ≤ w then v.getLsbD c else v.msb := by
  rw [BitVec.getLsbD_sshiftRight, decide_eq_false (by omega), Nat.add_zero]; rfl

/-- In a rotation the bit that leaves comes in at the other end (R372). -/
theorem getLsbD_zero_rotateLeft_succ (hw : 0 < w) (v : BitVec w) (c : Nat) :
    (v.rotateLeft (c + 1)).getLsbD 0 = (v.rotateLeft c).msb := by
  rw [(byPlaces_rotateLeft v).2, getLsbD_rotateLeft_one _ hw, if_pos rfl]

theorem msb_rotateRight_succ (hw : 0 < w) (v : BitVec w) (c : Nat) :
    (v.rotateRight (c + 1)).msb = (v.rotateRight c).getLsbD 0 := by
  rw [BitVec.msb_eq_getLsbD_last, (byPlaces_rotateRight v).2, getLsbD_rotateRight_one _ (by omega), if_pos rfl]

theorem extractLsb'_one_concat (v : BitVec w) (b : Bool) : (v.concat b).extractLsb' 1 w = v := by
  refine BitVec.eq_of_getLsbD_eq fun i hi => ?_
  rw [BitVec.getLsbD_extractLsb', BitVec.getLsbD_concat, decide_eq_true hi, if_neg (by omega), Nat.add_sub_cancel_left,
    Bool.true_and]

/-! ### The closed forms -/

/-- The operand and M, in the order in which the closed forms give them. -/
def Shifted.pair (x : Shifted w) : BitVec w × Bool := (x.v, x.m)

theorem iterate_shiftLeftStep_zeroFed_pair (h : ∀ out m, shiftIn type out false m = false) (c : Nat) (x : Shifted w) :
    ((shiftLeftStep type)^[c + 1] x).pair =
      (x.v <<< (c + 1), decide (c + 1 ≤ w) && x.v.getLsbD (w - (c + 1))) := by
  rw [Shifted.pair, iterate_shiftLeftStep_m, iterate_shiftLeftStep_zeroFed h, iterate_shiftLeftStep_zeroFed h,
    msb_shiftLeft_places]

theorem shiftClosed_left (hw : 0 < w) {n : BitVec 6} {c : Nat} (hn : n.toNat = c + 1) (hc : c + 1 < 32) (x : Shifted w) :
    shiftClosed type n x.v x.m = ((shiftLeftStep type)^[c + 1] x).pair := by
  have hne : n ≠ 0 := by rintro rfl; cases hn
  cases type <;> simp only [shiftClosed, shiftCount, hn, if_neg hne, if_pos hc]
  case arithmetic | zeroEnd => exact (iterate_shiftLeftStep_zeroFed_pair (fun _ _ => rfl) c x).symm
  case rotational =>
    rw [Shifted.pair, iterate_shiftLeftStep_m, iterate_shiftLeftStep_rotational, iterate_shiftLeftStep_rotational,
      getLsbD_zero_rotateLeft_succ hw]
  case linkEnd =>
    rw [← iterate_shiftLeftStep_linkEnd hw, BitVec.setWidth_cons, BitVec.msb_cons, Shifted.pair]

theorem shiftClosed_right (hw : 0 < w) {n : BitVec 6} {c : Nat} (hn : 32 ≤ n.toNat) (hc : 64 - n.toNat = c + 1)
    (x : Shifted w) : shiftClosed type n x.v x.m = ((shiftRightStep type)^[c + 1] x).pair := by
  have hne : n ≠ 0 := by rintro rfl; cases hn
  cases type <;> simp only [shiftClosed, shiftCount, if_neg hne, if_neg (Nat.not_lt.2 hn), hc, Nat.add_sub_cancel]
  case arithmetic =>
    rw [Shifted.pair, iterate_shiftRightStep_m, iterate_shiftRightStep_arithmetic, iterate_shiftRightStep_arithmetic,
      getLsbD_zero_sshiftRight hw]
  case rotational =>
    rw [Shifted.pair, iterate_shiftRightStep_m, iterate_shiftRightStep_rotational, iterate_shiftRightStep_rotational,
      msb_rotateRight_succ hw]
  case zeroEnd =>
    rw [Shifted.pair, iterate_shiftRightStep_m, iterate_shiftRightStep_zeroEnd, iterate_shiftRightStep_zeroEnd,
      getLsbD_zero_ushiftRight]
  case linkEnd =>
    rw [← iterate_shiftRightStep_linkEnd hw, extractLsb'_one_concat, BitVec.getLsbD_concat_zero, Shifted.pair]

/-- The steps of R373 and the closed forms of R374 are one shift. -/
theorem shiftClosed_eq_shiftBy (hw : 0 < w) (n : BitVec 6) (v : BitVec w) (m : Bool) :
    shiftClosed type n v m = (shiftBy type n ⟨v, m⟩).pair := by
  rw [shiftBy, BitVec.msb_eq_decide]
  by_cases hright : 32 ≤ n.toNat
  · obtain ⟨c, hc⟩ : ∃ c, 64 - n.toNat = c + 1 := ⟨63 - n.toNat, by omega⟩
    rw [if_pos (decide_eq_true hright), hc, repeatStep_eq_iterate]
    exact shiftClosed_right hw hright hc ⟨v, m⟩
  · rw [if_neg (by simpa using hright), repeatStep_eq_iterate]
    cases hn : n.toNat with
    | zero =>
      obtain rfl : n = 0 := BitVec.eq_of_toNat_eq hn
      rfl
    | succ c => exact shiftClosed_left hw hn (by omega) ⟨v, m⟩

end Steps

/-! ### The instructions -/

/-- An instruction that writes registers, then M, and goes on with the next word. -/
theorem shift_result {s u : State} {i : Instr} {rs : List (RField × Word)} {m : Bool}
    (hexec : exec i s = .next (u.setFlag .m m).advance) (hwrites : WritesOnly (rs.map (·.1)) [.m] s u) (hp : u.p = s.p)
    (hvalues : ∀ e ∈ rs, e.1 ≠ .zero ∧ e.1 ≠ .p ∧ u.cur.get e.1 = e.2) :
    ∃ t, exec i s = .next t ∧ onlyRegisters s t ∧ RegistersBecome s t rs [(.m, m)] (s.p + 1) := by
  have hend : WritesOnly (rs.map (·.1)) [.m] s (u.setFlag .m m).advance := (hwrites.setFlag List.mem_cons_self m).advance
  have hlast : WritesOnly [] [.m] u (u.setFlag .m m).advance :=
    ((WritesOnly.refl _ _ u).setFlag List.mem_cons_self m).advance
  refine ⟨_, hexec, hend.only, registersBecome_of_writesOnly (.refl s) hend (fun e he => ?_) (by simp) (by simp [hp])⟩
  obtain ⟨hzero, hpc, hvalue⟩ := hvalues e he
  obtain ⟨hregs, -, -⟩ := hlast.kept
  exact (hregs e.1 hzero hpc nofun).trans hvalue

/-- Settles O38: the steps of a shift are its closed form, and the shifted operand is put back. -/
theorem shiftResult : Obligations.ShiftResult := by
  unfold Obligations.ShiftResult
  intro s type ig n
  have kept (rs : List RField) : WritesOnly rs [.m] s s := .refl rs [.m] s
  simp only [shiftClosed_eq_shiftBy (show 0 < 16 by decide), shiftClosed_eq_shiftBy (show 0 < 32 by decide)]
  refine ⟨?_, ?_, ?_, ?_⟩
  · exact shift_result rfl ((kept [.t]).setT (by decide) _) (by simp) (by simp [RegSet.get, Shifted.pair])
  · exact shift_result rfl ((kept [.d]).setD (by decide) _) (by simp) (by simp [RegSet.get, Shifted.pair])
  · exact shift_result rfl ((kept [.a]).setA (by decide) _) (by simp) (by simp [RegSet.get, Shifted.pair])
  · exact shift_result rfl (((kept [.a, .d]).setA (by decide) _).setD (by decide) _) (by simp)
      (by simp [RegSet.get, Shifted.pair])

end Sys2Proof.Machine
end

section
/-! The register operations: registers written by way of a register field, the sum of two words and a carry, product and
quotient of signed words, and EXR by way of the word it executes (`spec/45_register_ops.md` R390 to R415). -/

namespace Sys2Proof.Machine

/-! ### Registers written by way of a register field -/

theorem State.get_putReg_self (s : State) {r : RField} (h : r ≠ .zero) (v : Word) : (s.putReg r v).cur.get r = v := by
  rw [State.putReg_of_ne_zero s h, State.cur_setCur, RegSet.get_put_self, if_neg h]

theorem State.get_putReg_ne (s : State) {q r : RField} (h : q ≠ r) (v : Word) :
    (s.putReg r v).cur.get q = s.cur.get q := by
  by_cases hzero : r = .zero
  · rw [hzero]; rfl
  · rw [State.putReg_of_ne_zero s hzero, State.cur_setCur, RegSet.get_put_ne _ _ h]

theorem State.p_putReg (s : State) (r : RField) (v : Word) : (s.putReg r v).p = if r = .p then v else s.p := by
  split
  case isTrue h => rw [h]; exact s.get_putReg_self (r := .p) nofun v
  case isFalse h => exact s.get_putReg_ne (Ne.symm h) v

theorem State.get_advance (s : State) {r : RField} (h : r ≠ .p) : s.advance.cur.get r = s.cur.get r :=
  s.get_putReg_ne (r := .p) h _

/-- A write to P is the end of the instruction, behind any other the next word follows (R392). -/
theorem State.endReg_eq (s : State) (r : RField) (v : Word) :
    s.endReg r v = if r = .p then s.putReg r v else (s.putReg r v).advance := by
  cases r <;> rfl

theorem State.p_endReg (s : State) (r : RField) (v : Word) : (s.endReg r v).p = nextAfter s r v := by
  rw [State.endReg_eq, nextAfter]
  split
  case isTrue h => rw [State.p_putReg, if_pos h]
  case isFalse h => rw [State.p_advance, State.p_putReg, if_neg h]

theorem mem_written {e : RField × Word} {r : RField} {v : Word} :
    e ∈ written r v ↔ r ≠ .zero ∧ r ≠ .p ∧ e = (r, v) := by
  rw [written]
  split
  case isTrue h => simpa using fun hz hp => absurd h (not_or.2 ⟨hz, hp⟩)
  case isFalse h => simp [not_or.1 h]

theorem State.get_endReg_of_mem_written (s : State) {e : RField × Word} {r : RField} {v : Word} (he : e ∈ written r v) :
    (s.endReg r v).cur.get e.1 = e.2 := by
  obtain ⟨hzero, hp, rfl⟩ := mem_written.1 he
  rw [State.endReg_eq, if_neg hp, State.get_advance _ hp, State.get_putReg_self _ hzero]

theorem State.flag_putReg (s : State) (r : RField) (v : Word) (f : Flag) : (s.putReg r v).flag f = s.flag f :=
  have ⟨_, hflags, _⟩ := ((WritesOnly.refl [r] [] s).putReg (.inl List.mem_cons_self) v).kept
  hflags f nofun

theorem State.flag_endReg (s : State) (r : RField) (v : Word) (f : Flag) : (s.endReg r v).flag f = s.flag f :=
  have ⟨_, hflags, _⟩ := ((WritesOnly.refl [r] [] s).endReg (.inl List.mem_cons_self) v).kept
  hflags f nofun

/-- The frame of a write by way of a register field is what `written` lists. -/
theorem WritesOnly.putReg_written {rs : List RField} {fs : List Flag} {s t : State} {r : RField} {v : Word}
    (h : WritesOnly rs fs s t) (hrs : (written r v).map (·.1) ⊆ rs) : WritesOnly rs fs s (t.putReg r v) := by
  by_cases hzero : r = .zero
  · rw [hzero]; exact h
  · refine h.putReg (or_iff_not_imp_right.2 fun hp => hrs ?_) v
    exact List.mem_map.2 ⟨(r, v), mem_written.2 ⟨hzero, hp, rfl⟩, rfl⟩

theorem WritesOnly.endReg_written {rs : List RField} {fs : List Flag} {s t : State} {r : RField} {v : Word}
    (h : WritesOnly rs fs s t) (hrs : (written r v).map (·.1) ⊆ rs) : WritesOnly rs fs s (t.endReg r v) := by
  rw [State.endReg_eq]
  exact ite_keeps (h.putReg_written hrs) (h.putReg_written hrs).advance

/-- An instruction that ends with a write by way of a register field, behind a state `u` in which flags have been written. -/
theorem endReg_result {i : Instr} {s u : State} {r : RField} {v : Word} {fs : List (Flag × Bool)}
    (hexec : exec i s = .next (u.endReg r v)) (hu : WritesOnly ((written r v).map (·.1)) (fs.map (·.1)) s u)
    (hp : u.p = s.p) (hflags : ∀ e ∈ fs, u.flag e.1 = e.2) :
    ∃ t, exec i s = .next t ∧ onlyRegisters s t ∧ RegistersBecome s t (written r v) fs (nextAfter s r v) := by
  have hend := hu.endReg_written (.refl _)
  refine ⟨_, hexec, hend.only, registersBecome_of_writesOnly (.refl s) hend (fun e he => ?_) (fun e he => ?_) ?_⟩
  · exact u.get_endReg_of_mem_written he
  · exact (u.flag_endReg r v e.1).trans (hflags e he)
  · rw [State.p_endReg, nextAfter, hp, nextAfter]

/-! ### SWAP -/

/-- The state that SWAP of two different registers leaves: a write to P is the end of the instruction (R392, R396). -/
def State.endSwap (s : State) (sr dr : RField) (v d : Word) : State :=
  if dr = .p ∨ sr = .p then (s.putReg dr v).putReg sr d else ((s.putReg dr v).putReg sr d).advance

theorem exec_swap_of_ne {cm1 cld : Bool} {sr dr : RField} (hzero : dr ≠ .zero) (hne : sr ≠ dr) (s : State) :
    exec (.swap cm1 cld sr dr) s = .next (s.endSwap sr dr (sourceOperand s cm1 sr) (destOperand s cld dr)) :=
  (if_neg hzero).trans (if_neg hne)

theorem State.get_endSwap (s : State) {sr dr r : RField} (hr : r ≠ .p) (v d : Word) :
    (s.endSwap sr dr v d).cur.get r = ((s.putReg dr v).putReg sr d).cur.get r :=
  ite_keeps (P := fun t => t.cur.get r = ((s.putReg dr v).putReg sr d).cur.get r) rfl (State.get_advance _ hr)

theorem State.p_endSwap (s : State) {sr dr : RField} (hne : sr ≠ dr) (v d : Word) :
    (s.endSwap sr dr v d).p = if dr = .p then v else if sr = .p then d else s.p + 1 := by
  unfold State.endSwap
  by_cases hdr : dr = .p
  · have hsr : sr ≠ .p := hdr ▸ hne
    simp [State.p_putReg, hdr, hsr]
  · by_cases hsr : sr = .p <;> simp [State.p_putReg, hdr, hsr]

/-- Two registers written, P among them or not: what they hold at the end. -/
theorem swap_both_result {cm1 cld : Bool} {sr dr : RField} (hzero : dr ≠ .zero) (hne : sr ≠ dr) (s : State) :
    ∃ t, exec (.swap cm1 cld sr dr) s = .next t ∧ onlyRegisters s t ∧
      RegistersBecome s t (written dr (sourceOperand s cm1 sr) ++ written sr (destOperand s cld dr)) []
        (if dr = .p then sourceOperand s cm1 sr else if sr = .p then destOperand s cld dr else s.p + 1) := by
  have hexec := exec_swap_of_ne (cm1 := cm1) (cld := cld) hzero hne s
  generalize sourceOperand s cm1 sr = v, destOperand s cld dr = d at hexec ⊢
  have hputs : WritesOnly ((written dr v ++ written sr d).map (·.1)) [] s ((s.putReg dr v).putReg sr d) :=
    ((WritesOnly.refl _ _ s).putReg_written (by simp)).putReg_written (by simp)
  have hend : WritesOnly ((written dr v ++ written sr d).map (·.1)) [] s (s.endSwap sr dr v d) :=
    ite_keeps hputs hputs.advance
  refine ⟨_, hexec, hend.only, registersBecome_of_writesOnly (.refl s) hend (fun e he => ?_) nofun (s.p_endSwap hne v d)⟩
  obtain he | he := List.mem_append.1 he
  · obtain ⟨_, hp, rfl⟩ := mem_written.1 he
    rw [s.get_endSwap hp, State.get_putReg_ne _ hne.symm, State.get_putReg_self _ hzero]
  · obtain ⟨hsr, hp, rfl⟩ := mem_written.1 he
    rw [s.get_endSwap hp, State.get_putReg_self _ hsr]

/-- A register swapped with itself holds one of the two values (R396). -/
theorem swap_same_result {cm1 cld : Bool} {r : RField} (hzero : r ≠ .zero) (s : State) :
    ∃ t w, (w = sourceOperand s cm1 r ∨ w = destOperand s cld r) ∧ exec (.swap cm1 cld r r) s = .next t ∧
      onlyRegisters s t ∧ RegistersBecome s t (written r w) [] (nextAfter s r w) := by
  have hexec : exec (.swap cm1 cld r r) s = swapSame s r (sourceOperand s cm1 r) (destOperand s cld r) :=
    (if_neg hzero).trans (if_pos rfl)
  by_cases heq : sourceOperand s cm1 r = destOperand s cld r
  · obtain ⟨t, ht⟩ := endReg_result (fs := []) (hexec.trans (if_pos heq)) (.refl _ _ s) rfl nofun
    exact ⟨t, _, .inl rfl, ht⟩
  · obtain ⟨t, ht⟩ := endReg_result (fs := []) (hexec.trans (if_neg heq)) (WritesOnly.refl _ _ s).drawBit rfl nofun
    exact ⟨t, _, ite_eq_or_eq .., ht⟩

/-- Settles O39: a logical operation ends with one write by way of its register field, SWAP with two. -/
theorem registerLogicAndSwap : Obligations.RegisterLogicAndSwap := by
  unfold Obligations.RegisterLogicAndSwap
  constructor
  · rintro s cm1 cld sr dr i w (⟨rfl, rfl⟩ | ⟨rfl, rfl⟩ | ⟨rfl, rfl⟩) <;>
      exact endReg_result (fs := []) rfl (.refl _ _ s) rfl nofun
  · rintro s cm1 cld sr dr v d rfl rfl
    by_cases hzero : dr = .zero
    · exact ⟨s.advance, if_pos hzero, rfl, fun _ => registersBecome_advance rfl rfl, fun h => absurd hzero h,
        fun h => absurd hzero h⟩
    by_cases hsame : sr = dr
    · subst hsame
      obtain ⟨t, w, hw, hexec, honly, hregs⟩ := swap_same_result hzero s
      refine ⟨t, hexec, honly, fun h => absurd h hzero, fun _ hne => absurd rfl hne, fun _ _ => ?_⟩
      rcases hw with rfl | rfl
      · exact .inl hregs
      · exact .inr hregs
    · obtain ⟨t, hexec, honly, hregs⟩ := swap_both_result hzero hsame s
      exact ⟨t, hexec, honly, fun h => absurd h hzero, fun _ _ => hregs, fun _ h => absurd h hsame⟩

/-! ### RADD and its named forms -/

theorem add16_carry_eq_decide (a b : Word) (cin : Bool) :
    (add16 a b cin).carry = decide (65536 ≤ a.toNat + b.toNat + cin.toNat) := rfl

theorem add16_r_eq_ofInt_carryIn (a b : Word) (cin : Bool) :
    (add16 a b cin).r = BitVec.ofInt 16 (a.toInt + b.toInt + cin.toNat) := by
  simp [add16_r, BitVec.ofInt_add]

theorem toInt_not_word (b : Word) : (~~~b).toInt = -b.toInt - 1 := by
  rw [BitVec.toInt_eq_toNat_cond, BitVec.toInt_eq_toNat_cond, BitVec.toNat_not]
  have := b.isLt
  split_ifs <;> omega

/-- With a carry in, the sum is the difference from the complement (R263, D18). -/
theorem add16_ovf_carryIn (a b : Word) (cin : Bool) :
    (add16 a b cin).ovf =
      decide (a.toInt + b.toInt + cin.toNat < -32768 ∨ 32767 < a.toInt + b.toInt + cin.toNat) := by
  cases cin with
  | false => simpa using add16_ovf_eq_decide a b
  | true =>
    have hsub := sub16_ovf_eq_decide a (~~~b)
    rw [sub16, BitVec.not_not, toInt_not_word] at hsub
    rw [hsub]
    exact decide_eq_decide.2 (by simp only [Bool.toNat_true]; omega)

theorem State.toNat_ropCarryIn (s : State) (adc ad1 : Bool) :
    (s.ropCarryIn adc ad1).toNat = if ad1 ∨ (adc ∧ s.flag .c) then 1 else 0 := by
  rw [State.ropCarryIn, Bool.toNat, Bool.cond_eq_ite]
  simp

/-- The eight constructors of addition are one operation (R400 to R408). -/
theorem exec_of_additionOf {i : Instr} {adc ad1 cm1 cld : Bool} {sr dr : RField}
    (h : additionOf i = some (adc, ad1, cm1, cld, sr, dr)) (s : State) :
    exec i s = ropAdd adc ad1 cm1 cld sr dr s := by
  cases i with
  | radd | rsub | copy | copyCm2 | exit | rclr | rinc | rdcr => cases h; rfl
  | _ => cases h

/-- An instruction that ends with the adder's result in its destination, and its flags in C, Q and O (R400). -/
theorem addition_result {i : Instr} {s : State} {dr : RField} {r : Sum16}
    (hexec : exec i s = .next ((s.setAddFlags r).endReg dr r.r)) :
    ∃ t, exec i s = .next t ∧ onlyRegisters s t ∧
      RegistersBecome s t (written dr r.r) [(.c, r.carry), (.q, r.ovf), (.o, s.flag .o || r.ovf)]
        (nextAfter s dr r.r) := by
  refine endReg_result hexec ((WritesOnly.refl _ _ s).setAddFlags ?_ ?_ ?_ r) ?_ ?_
  · exact .head _
  · exact .tail _ (.head _)
  · exact .tail _ (.tail _ (.head _))
  · simp [State.setAddFlags_eq]
  · simp [State.setAddFlags_eq, State.flag_setFlag_ne]

/-- Settles O40: destination 0 clears C, any other takes the sum, with the adder's flags as facts about integers. -/
theorem registerAddition : Obligations.RegisterAddition := by
  unfold Obligations.RegisterAddition
  rintro s i adc ad1 cm1 cld sr dr x y cin sum ovf hi rfl rfl hcin rfl rfl
  rw [← State.toNat_ropCarryIn] at hcin
  subst hcin
  have hexec := exec_of_additionOf hi s
  by_cases hzero : dr = .zero
  · have hflag : WritesOnly [] [.c] s (s.setFlag .c false) := (WritesOnly.refl _ _ s).setFlag (by decide) false
    obtain ⟨t, hnext, honly, hregs⟩ := endReg_result (r := .zero) (v := 0) (fs := [(.c, false)])
      (hexec.trans (if_pos hzero)) hflag (s.p_setFlag ..) (List.forall_mem_singleton.2 (s.flag_setFlag_self ..))
    exact ⟨t, hnext, honly, fun _ => hregs, fun h => absurd hzero h⟩
  · obtain ⟨t, hnext, honly, hregs⟩ := addition_result (hexec.trans (if_neg hzero))
    rw [add16_r_eq_ofInt_carryIn, add16_carry_eq_decide, add16_ovf_carryIn] at hregs
    exact ⟨t, hnext, honly, fun h => absurd h hzero, fun _ => hregs⟩

/-! ### EXR -/

/-- EXR of a word that is an instruction (R413). -/
theorem exec_exr_of_decode {s : State} {sr : RField} {i : Instr}
    (hdecode : decodeWord s.cfg.hasCx (s.regValue sr) = .ok i) : exec (.exr sr) s = execInner i s := by
  show executeWord _ s = _
  rw [executeWord, hdecode]

/-- EXR of a word that is none (R413, R225). -/
theorem exec_exr_of_refused {s : State} {sr : RField} {e : DecodeError}
    (hdecode : decodeWord s.cfg.hasCx (s.regValue sr) = .error e) : exec (.exr sr) s = s.illegal := by
  show executeWord _ s = _
  rw [executeWord, hdecode]

/-- EXR of an instruction other than EXR is that instruction (R413, R414). -/
theorem exec_exr_eq_exec {s : State} {sr : RField} {i : Instr}
    (hdecode : decodeWord s.cfg.hasCx (s.regValue sr) = .ok i) (hi : ∀ r, i ≠ .exr r) :
    exec (.exr sr) s = exec i s := by
  rw [exec_exr_of_decode hdecode, exec_eq_execInner hi]

/-- Settles O41: by what the register's contents decode to. -/
theorem executeRegister : Obligations.ExecuteRegister := by
  unfold Obligations.ExecuteRegister
  intro s sr i
  refine ⟨exec_exr_eq_exec, fun rs fs hdecode hframe => ?_, fun r hdecode => ?_, fun e hdecode => ?_⟩
  · have hi (r : RField) : i ≠ .exr r := by rintro rfl; cases hframe
    obtain ⟨t, hexec, hwrites⟩ := completes_exec hframe s
    exact ⟨t, (exec_exr_eq_exec hdecode hi).trans hexec, hexec, hwrites.only, hwrites.kept⟩
  · have hflag : WritesOnly [] [.z] s (s.setFlag .z true) := (WritesOnly.refl _ _ s).setFlag (by decide) true
    exact endReg_result (r := .zero) (v := 0) (fs := [(.z, true)]) (exec_exr_of_decode hdecode) hflag (s.p_setFlag ..)
      (List.forall_mem_singleton.2 (s.flag_setFlag_self ..))
  · exact ⟨_, exec_exr_of_refused hdecode, rfl, registersBecome_advance rfl rfl⟩

/-! ### RMPY, RDIV and MIX3 -/

theorem CompletesWriting.writes {frame : List RField × List Flag} {s t : State} (h : CompletesWriting frame s (.next t)) :
    WritesOnly frame.1 frame.2 s t := by
  obtain ⟨_, ⟨⟩, hwrites⟩ := h
  exact hwrites

@[simp] theorem State.d_setFlag (s : State) (f : Flag) (b : Bool) : (s.setFlag f b).d = s.d := s.d_setSts _

@[simp] theorem State.a_setOpenFlags (s : State) (f : BitVec 3) : (s.setOpenFlags f).a = s.a := by
  simp [State.setOpenFlags]

@[simp] theorem State.d_setOpenFlags (s : State) (f : BitVec 3) : (s.setOpenFlags f).d = s.d := by
  simp [State.setOpenFlags]

@[simp] theorem State.p_setOpenFlags (s : State) (f : BitVec 3) : (s.setOpenFlags f).p = s.p := by
  simp [State.setOpenFlags]

@[simp] theorem State.flag_z_setOpenFlags (s : State) (f : BitVec 3) : (s.setOpenFlags f).flag .z = s.flag .z := by
  simp [State.setOpenFlags, State.flag_setFlag_ne]

/-- A and D as a double word are the floating accumulator of the 32-bit format. -/
theorem State.setAD_eq_setFa32 (s : State) (v : BitVec 32) : s.setAD v = s.setFa32 v := rfl

theorem toInt_ofInt_product (v d : Word) : (BitVec.ofInt 32 (v.toInt * d.toInt)).toInt = v.toInt * d.toInt := by
  have hlow : -(2 ^ 30) ≤ v.toInt * d.toInt := BitVec.le_toInt_mul_toInt
  have hhigh : v.toInt * d.toInt ≤ 2 ^ 30 := BitVec.toInt_mul_toInt_le
  exact BitVec.toInt_ofInt_eq_self (by decide) (by omega) (by omega)

theorem rmpy_result (sr dr : RField) (s : State) :
    ∃ t, exec (.rmpy sr dr) s = .next t ∧ onlyRegisters s t ∧ t.p = s.p + 1 ∧ keepsRegisters s t [.a, .d] [.c, .o, .q] ∧
      (t.a ++ t.d).toInt = (s.regValue sr).toInt * (s.regValue dr).toInt := by
  obtain ⟨honly, hkeeps⟩ := (completes_rmpy sr dr s).writes
  refine ⟨_, rfl, honly, by simp [State.setAD_eq_setFa32], hkeeps, ?_⟩
  simp only [State.a_advance, State.d_advance, State.a_setOpenFlags, State.d_setOpenFlags]
  exact (congrArg BitVec.toInt (State.fa32_setFa32 s _)).trans (toInt_ofInt_product ..)

/-- The remainder is smaller than the divisor and has the sign of the dividend. -/
theorem tmod_natAbs_lt_and_sign {n v : Int} (hv : v ≠ 0) :
    (n.tmod v).natAbs < v.natAbs ∧ (n.tmod v ≠ 0 → (n.tmod v < 0 ↔ n < 0)) := by
  constructor
  · rw [Int.natAbs_tmod]
    exact Nat.mod_lt _ (Int.natAbs_pos.2 hv)
  · intro hne
    have hdvd : ¬ v ∣ n := fun h => hne (Int.tmod_eq_zero_of_dvd h)
    have hsign := Int.sign_tmod n v
    rw [if_neg hdvd] at hsign
    rw [← Int.sign_eq_neg_one_iff_neg, hsign, Int.sign_eq_neg_one_iff_neg]

/-- RDIV has no result where the divisor is zero or the quotient no word (R411, D30). -/
def rdivOverflows (n v : Int) : Prop := v = 0 ∨ n.tdiv v < -32768 ∨ 32767 < n.tdiv v

theorem not_rdivOverflows {n v : Int} : ¬ rdivOverflows n v ↔ v ≠ 0 ∧ -32768 ≤ n.tdiv v ∧ n.tdiv v ≤ 32767 := by
  simp [rdivOverflows]

/-- A remainder by a word is a word. -/
theorem toInt_ofInt_tmod {n : Int} {v : Word} (hv : v.toInt ≠ 0) :
    (BitVec.ofInt 16 (n.tmod v.toInt)).toInt = n.tmod v.toInt := by
  obtain ⟨hsmall, -⟩ := tmod_natAbs_lt_and_sign (n := n) hv
  have hlow : -(2 ^ 15) ≤ v.toInt := v.le_toInt
  have hhigh : v.toInt < 2 ^ 15 := v.toInt_lt
  exact BitVec.toInt_ofInt_eq_self (by decide) (by omega) (by omega)

theorem exec_rdiv_of_overflow {s : State} {sr : RField} (ig : BitVec 3)
    (h : rdivOverflows (s.a ++ s.d).toInt (s.regValue sr).toInt) :
    exec (.rdiv sr ig) s =
      .next ((((s.setFlag .z true).setAD (Config.rdivOverflow (s.a ++ s.d) (s.regValue sr))).setOpenFlags
        (Config.rdivFlags (s.a ++ s.d) (s.regValue sr))).advance) := by
  rw [rdivOverflows, ← word_eq_zero_iff] at h
  show execRdiv sr ig s = _
  simp only [execRdiv, if_pos h]

theorem exec_rdiv_of_not_overflow {s : State} {sr : RField} (ig : BitVec 3)
    (h : ¬ rdivOverflows (s.a ++ s.d).toInt (s.regValue sr).toInt) :
    exec (.rdiv sr ig) s =
      .next ((((s.setA (BitVec.ofInt 16 ((s.a ++ s.d).toInt.tdiv (s.regValue sr).toInt))).setD
        (BitVec.ofInt 16 ((s.a ++ s.d).toInt.tmod (s.regValue sr).toInt))).setOpenFlags
        (Config.rdivFlags (s.a ++ s.d) (s.regValue sr))).advance) := by
  rw [rdivOverflows, ← word_eq_zero_iff] at h
  show execRdiv sr ig s = _
  simp only [execRdiv, if_neg h]

theorem rdiv_result (sr : RField) (ig : BitVec 3) (s : State) {n v : Int} (hn : n = (s.a ++ s.d).toInt)
    (hv : v = (s.regValue sr).toInt) :
    ∃ t, exec (.rdiv sr ig) s = .next t ∧ onlyRegisters s t ∧ t.p = s.p + 1 ∧
      keepsRegisters s t [.a, .d] [.z, .c, .o, .q] ∧
      (¬ rdivOverflows n v → t.a.toInt = n.tdiv v ∧ t.d.toInt = n.tmod v ∧ t.flag .z = s.flag .z) ∧
      (rdivOverflows n v → t.flag .z = true) := by
  have hcompletes : CompletesWriting ([.a, .d], [.z, .c, .o, .q]) s (exec (.rdiv sr ig) s) := completes_rdiv sr ig s
  rw [hn, hv]
  by_cases h : rdivOverflows (s.a ++ s.d).toInt (s.regValue sr).toInt
  · have hexec := exec_rdiv_of_overflow ig h
    obtain ⟨honly, hkeeps⟩ := (hexec ▸ hcompletes).writes
    exact ⟨_, hexec, honly, by simp [State.setAD_eq_setFa32], hkeeps, absurd h, by simp [State.setAD_eq_setFa32]⟩
  · have hexec := exec_rdiv_of_not_overflow ig h
    obtain ⟨honly, hkeeps⟩ := (hexec ▸ hcompletes).writes
    obtain ⟨hv0, hlow, hhigh⟩ := not_rdivOverflows.1 h
    refine ⟨_, hexec, honly, by simp, hkeeps, fun _ => ⟨?_, ?_, by simp⟩, fun h' => absurd h' h⟩
    · simpa using BitVec.toInt_ofInt_eq_self (w := 16) (by decide) hlow (Int.lt_add_one_of_le hhigh)
    · simpa using toInt_ofInt_tmod hv0

theorem mix3_word (a : Word) : (a - 1) * 3 = BitVec.ofInt 16 ((a.toInt - 1) * 3) := by
  rw [BitVec.ofInt_mul, Int.sub_eq_add_neg, BitVec.ofInt_add, BitVec.ofInt_toInt, BitVec.sub_eq_add_neg]
  rfl

/-- Settles O42: the product fits A and D; quotient and remainder are those of `Int.tdiv` and `Int.tmod`, and fit A and D
where the quotient does. -/
theorem multiplyDivideResult : Obligations.MultiplyDivideResult := by
  unfold Obligations.MultiplyDivideResult
  refine ⟨fun s sr dr ig n v => ⟨rmpy_result sr dr s, fun hn hv => ?_⟩, fun s => ?_⟩
  · obtain ⟨t, hexec, honly, hp, hkeeps, hquotient, hoverflow⟩ := rdiv_result sr ig s hn hv
    refine ⟨t, hexec, honly, hp, hkeeps, fun hne hlow hhigh => ?_, hoverflow⟩
    obtain ⟨ha, hd, hz⟩ := hquotient (not_rdivOverflows.2 ⟨hne, hlow, hhigh⟩)
    obtain ⟨hsmall, hsign⟩ := tmod_natAbs_lt_and_sign (n := n) hne
    rw [ha, hd]
    exact ⟨(Int.tdiv_mul_add_tmod n v).symm, hsmall, hsign, hz⟩
  · rw [← mix3_word]
    exact ⟨_, rfl, rfl, registersBecome_put_advance rfl rfl (r := .x) nofun nofun _⟩

end Sys2Proof.Machine
end

section
/-! The skips of SKP: the difference of two registers as a comparison, and P as the only register written
(`spec/46_skip.md` R430 to R438). -/

namespace Sys2Proof.Machine

theorem sub16_r_eq_zero_iff (a b : Word) : (sub16 a b).r = 0 ↔ a = b := by
  rw [sub16_r]
  exact sub_eq_zero

/-- An overflow complements the sign: the two agree where the difference as an integer is not negative (R433, R437). -/
theorem sub16_msb_eq_ovf_iff (a b : Word) : (sub16 a b).r.msb = (sub16 a b).ovf ↔ b.toInt ≤ a.toInt := by
  have hlowA : -(2 ^ 15) ≤ a.toInt := a.le_toInt
  have hhighA : a.toInt < 2 ^ 15 := a.toInt_lt
  have hlowB : -(2 ^ 15) ≤ b.toInt := b.le_toInt
  have hhighB : b.toInt < 2 ^ 15 := b.toInt_lt
  have hr : (sub16 a b).r.toInt = (a.toInt - b.toInt).bmod (2 ^ 16) := by rw [sub16_r, BitVec.toInt_sub]
  rw [sub16_ovf_eq_decide, BitVec.msb_eq_toInt, hr, decide_eq_decide, Int.bmod_def]
  omega

theorem sub16_carry_iff (a b : Word) : (sub16 a b).carry = true ↔ b.toNat ≤ a.toNat := by
  rw [sub16_carry, decide_eq_true_eq]

theorem sub16_not_carry_iff (a b : Word) : (!(sub16 a b).carry) = true ↔ a.toNat < b.toNat := by
  rw [Bool.not_eq_true', ← Bool.not_eq_true, sub16_carry_iff, Nat.not_le]

/-- An instruction that skips on a condition alone writes P alone (R34, R430). -/
theorem skipIf_result {i : Instr} {s : State} {b : Bool} {c : Prop} [Decidable c] (hc : b = true ↔ c)
    (hexec : exec i s = .next (s.skipIf b)) :
    ∃ t, exec i s = .next t ∧ onlyRegisters s t ∧ RegistersBecome s t [] [] (if c then s.p + 2 else s.p + 1) := by
  have hend : WritesOnly [] [] s (s.skipIf b) := (WritesOnly.refl _ _ s).skipIf b
  refine ⟨_, hexec, hend.only, registersBecome_of_writesOnly (DataAccess.refl s) hend nofun nofun ?_⟩
  simp only [State.p_skipIf, apply_ite (s.p + ·), hc]

/-- Settles O30: each condition on the difference by the comparison that it makes. -/
theorem skipConditions : Obligations.SkipConditions := by
  unfold Obligations.SkipConditions
  intro s sr dr i c _ hi
  rcases hi with ⟨rfl, hc⟩ | ⟨rfl, hc⟩ | ⟨rfl, hc⟩ | ⟨rfl, hc⟩ | ⟨rfl, hc⟩ | ⟨rfl, hc⟩ | ⟨rfl, hc⟩ | ⟨rfl, hc⟩
  · exact skipIf_result (beq_iff_eq.trans ((sub16_r_eq_zero_iff _ _).trans hc.symm)) rfl
  · exact skipIf_result (bne_iff_ne.trans ((sub16_r_eq_zero_iff _ _).not.trans hc.symm)) rfl
  · exact skipIf_result (beq_iff_eq.trans ((sub16_msb_eq_ovf_iff _ _).trans hc.symm)) rfl
  · exact skipIf_result (bne_iff_ne.trans ((sub16_msb_eq_ovf_iff _ _).not.trans (Int.not_le.trans hc.symm))) rfl
  · exact skipIf_result ((sub16_carry_iff _ _).trans hc.symm) rfl
  · exact skipIf_result ((sub16_not_carry_iff _ _).trans hc.symm) rfl
  · rw [← sub16_r] at hc
    exact skipIf_result ((word_not_msb_iff _).trans hc.symm) rfl
  · rw [← sub16_r] at hc
    exact skipIf_result ((word_msb_iff _).trans hc.symm) rfl

end Sys2Proof.Machine
end

section
/-! The argument and the bit instructions: a register, a flag or P written by way of the adder or bit by bit
(`spec/47_argument.md` R445 to R455; `spec/48_bit.md` R460 to R477). -/

namespace Sys2Proof.Machine

/-! ### Argument instructions -/

theorem State.regValue_eq_get (s : State) {r : RField} (hzero : r ≠ .zero) (hp : r ≠ .p) : s.regValue r = s.cur.get r := by
  cases r with
  | zero => exact absurd rfl hzero
  | p => exact absurd rfl hp
  | _ => rfl

/-- The register of an argument instruction is neither number 0 nor P, and the instruction sets it or adds to it (R445). -/
theorem exec_of_argumentOf {i : Instr} {r : RField} {arg : BitVec 8} {adds : Bool}
    (h : argumentOf i = some (r, arg, adds)) (s : State) :
    r ≠ .zero ∧ r ≠ .p ∧
      exec i s = if adds then addArgument r arg s else .next (s.setCur (s.cur.put r (sext8 arg))).advance := by
  cases i with
  | sab | saa | sat | sax | aab | aaa | aat | aax => cases h; exact ⟨nofun, nofun, rfl⟩
  | _ => cases h

theorem State.get_setAddFlags (s : State) {r : RField} (hzero : r ≠ .zero) (hp : r ≠ .p) (sum : Sum16) :
    (s.setAddFlags sum).cur.get r = s.cur.get r :=
  have ⟨hregs, _, _⟩ :=
    ((WritesOnly.refl [] [.c, .q, .o] s).setAddFlags (by decide) (by decide) (by decide) sum).kept
  hregs r hzero hp nofun

/-- The argument is added as ADD adds its operand (R447). -/
theorem addArgument_result {i : Instr} {s : State} {r : RField} {arg : BitVec 8} {sum : Sum16} (hzero : r ≠ .zero)
    (hp : r ≠ .p) (hsum : sum = add16 (s.cur.get r) (sext8 arg) false) (hexec : exec i s = addArgument r arg s) :
    ∃ t, exec i s = .next t ∧ onlyRegisters s t ∧
      RegistersBecome s t [(r, sum.r)] [(.c, sum.carry), (.q, sum.ovf), (.o, s.flag .o || sum.ovf)] (s.p + 1) := by
  rw [← State.regValue_eq_get s hzero hp] at hsum
  subst hsum
  have hput := (WritesOnly.refl [r] [.c, .q, .o] s).putReg (.inl List.mem_cons_self)
    (add16 (s.regValue r) (sext8 arg) false).r
  have hend := (hput.setAddFlags (by decide) (by decide) (by decide) (add16 (s.regValue r) (sext8 arg) false)).advance
  refine ⟨_, hexec, hend.only, registersBecome_of_writesOnly (.refl s) hend ?_ ?_ ?_⟩
  · rw [List.forall_mem_singleton, State.get_advance _ hp, State.get_setAddFlags _ hzero hp, State.get_putReg_self _ hzero]
  · simp [State.setAddFlags_eq, State.flag_setFlag_ne, State.flag_putReg]
  · simp [State.setAddFlags_eq, State.p_putReg, hp]

/-- Settles O43: one register written, or the adder's result and flags as facts about integers. -/
theorem argumentResult : Obligations.ArgumentResult := by
  unfold Obligations.ArgumentResult
  rintro s i r arg adds sum ovf hi rfl rfl
  obtain ⟨hzero, hp, hexec⟩ := exec_of_argumentOf hi s
  have hset : BitVec.ofInt 16 arg.toInt = sext8 arg := rfl
  have hvalue : (sext8 arg).toInt = arg.toInt := BitVec.toInt_signExtend_of_le (by decide)
  rw [hset, ← hvalue]
  cases adds with
  | false => exact ⟨_, hexec, rfl, fun _ => registersBecome_put_advance rfl rfl hzero hp _, nofun⟩
  | true =>
    obtain ⟨t, hnext, honly, hregs⟩ := addArgument_result hzero hp rfl hexec
    rw [add16_r_eq_ofInt, add16_ovf_eq_decide, add16_carry] at hregs
    exact ⟨t, hnext, honly, nofun, fun _ => hregs⟩

/-! ### Bit instructions -/

/-- The bit operand: bits 15-8 of number 0 read as 0 (R460, D6). -/
theorem State.getBit_eq (s : State) (bn : BitVec 4) (dr : RField) :
    s.getBit bn dr =
      if dr = .zero then decide (bn.toNat < 8) && s.sts.getLsbD bn.toNat else (s.regValue dr).getLsbD bn.toNat := by
  cases dr with
  | zero =>
    by_cases h : bn.toNat < 8
    · simp [State.getBit, h]
    · simp [State.getBit, h, BitVec.getLsbD_of_ge _ _ (Nat.le_of_not_lt h)]
  | _ => rfl

/-- A bit instruction that gives K a value (R471 to R476). -/
theorem bitLoad_result {i : Instr} {s : State} {k : Bool} (hexec : exec i s = bitLoad k s) :
    ∃ t, exec i s = .next t ∧ onlyRegisters s t ∧ RegistersBecome s t [] [(.k, k)] (s.p + 1) :=
  have hflag : WritesOnly [] [.k] s (s.setFlag .k k) := (WritesOnly.refl _ _ s).setFlag (by decide) k
  endReg_result (r := .zero) (v := 0) (fs := [(.k, k)]) hexec hflag (s.p_setFlag ..)
    (List.forall_mem_singleton.2 (s.flag_setFlag_self ..))

/-- Flags given values one after another. -/
def State.setFlags (s : State) (fs : List (Flag × Bool)) : State := fs.foldl (fun s e => s.setFlag e.1 e.2) s

/-- BSET, BSTC and BSTA write a bit, and then K where they are stores (R461 to R464, R469, R470, R477). -/
theorem exec_of_bitWrite {s : State} {bn : BitVec 4} {dr : RField} {i : Instr} {v : Bool} {kAfter : List (Flag × Bool)}
    (hi : (i, v, kAfter) ∈ [(Instr.bsetZro bn dr, false, []), (.bsetOne bn dr, true, []),
      (.bsetBcm bn dr, !s.getBit bn dr, []), (.bsetBac bn dr, s.flag .k, []), (.bstc bn dr, !s.flag .k, [(.k, true)]),
      (.bsta bn dr, s.flag .k, [(.k, false)])]) :
    exec i s = .next (((s.putBit bn dr v).setFlags kAfter).endBit dr) ∧ (kAfter = [] ∨ ∃ k, kAfter = [(.k, k)]) := by
  simp only [List.mem_cons, List.not_mem_nil, or_false, Prod.mk.injEq] at hi
  rcases hi with ⟨rfl, rfl, rfl⟩ | ⟨rfl, rfl, rfl⟩ | ⟨rfl, rfl, rfl⟩ | ⟨rfl, rfl, rfl⟩ | ⟨rfl, rfl, rfl⟩ | ⟨rfl, rfl, rfl⟩
  case inr.inr.inr.inr.inl => exact ⟨rfl, .inr ⟨_, rfl⟩⟩
  case inr.inr.inr.inr.inr => exact ⟨rfl, .inr ⟨_, rfl⟩⟩
  all_goals exact ⟨rfl, .inl rfl⟩

section KAfter

variable {kAfter : List (Flag × Bool)} (hk : kAfter = [] ∨ ∃ k, kAfter = [(.k, k)])
include hk

theorem WritesOnly.setFlags {rs : List RField} {fs : List Flag} {s t : State} (h : WritesOnly rs fs s t)
    (hfs : kAfter.map (·.1) ⊆ fs) : WritesOnly rs fs s (t.setFlags kAfter) := by
  rcases hk with rfl | ⟨k, rfl⟩
  · exact h
  · exact h.setFlag (hfs (by simp)) k

theorem State.flag_setFlags {s : State} {e : Flag × Bool} (he : e ∈ kAfter) : (s.setFlags kAfter).flag e.1 = e.2 := by
  rcases hk with rfl | ⟨k, rfl⟩
  · cases he
  · obtain rfl := List.mem_singleton.1 he
    exact s.flag_setFlag_self ..

theorem State.flag_setFlags_ne {s : State} {f : Flag} (hf : kAfter.any (fun e => e.1 == f) = false) :
    (s.setFlags kAfter).flag f = s.flag f := by
  rcases hk with rfl | ⟨k, rfl⟩
  · rfl
  · refine s.flag_setFlag_ne k fun h => ?_
    simp [h] at hf

theorem State.p_setFlags (s : State) : (s.setFlags kAfter).p = s.p := by
  rcases hk with rfl | ⟨k, rfl⟩
  · rfl
  · exact s.p_setFlag ..

/-- A bit of a register, or of P by a jump, is written (R460). -/
theorem bitWrite_register {i : Instr} {s : State} {dr : RField} {w : Word} (hzero : dr ≠ .zero)
    (hexec : exec i s = .next (((s.putReg dr w).setFlags kAfter).endBit dr)) :
    ∃ t, exec i s = .next t ∧ onlyRegisters s t ∧ RegistersBecome s t (written dr w) kAfter (nextAfter s dr w) := by
  have hput := (WritesOnly.refl ((written dr w).map (·.1)) (kAfter.map (·.1)) s).putReg_written (.refl _)
  have hu := hput.setFlags hk (.refl _)
  have hflags (e : Flag × Bool) (he : e ∈ kAfter) : ((s.putReg dr w).setFlags kAfter).flag e.1 = e.2 :=
    State.flag_setFlags hk he
  by_cases hp : dr = .p
  · subst hp
    rw [State.endBit, if_pos rfl] at hexec
    refine ⟨_, hexec, hu.only, registersBecome_of_writesOnly (.refl s) hu nofun hflags ?_⟩
    rw [State.p_setFlags hk, State.p_putReg]
    rfl
  · rw [State.endBit, if_neg hp] at hexec
    refine ⟨_, hexec, hu.advance.only, registersBecome_of_writesOnly (.refl s) hu.advance (fun e he => ?_) ?_ ?_⟩
    · obtain ⟨_, _, rfl⟩ := mem_written.1 he
      obtain ⟨hregs, _, _⟩ := ((WritesOnly.refl [] (kAfter.map (·.1)) (s.putReg dr w)).setFlags hk (.refl _)).kept
      rw [State.get_advance _ hp, hregs dr hzero hp nofun, State.get_putReg_self _ hzero]
    · simpa using hflags
    · rw [State.p_advance, State.p_setFlags hk, State.p_putReg, if_neg hp, nextAfter, if_neg hp]

/-- A flag is written by the number of its bit; bits 15-8 of number 0 take no write (R460, D6). -/
theorem bitWrite_status {i : Instr} {s : State} {bn : BitVec 4} {v : Bool}
    (hexec : exec i s = .next (((s.putBit bn .zero v).setFlags kAfter).endBit .zero)) :
    ∃ t, exec i s = .next t ∧ onlyRegisters s t ∧
      RegistersBecome s t []
        (kAfter ++ ((flagsAt bn.toNat).filter fun f => !(kAfter.any fun e => e.1 == f)).map fun f => (f, v)) (s.p + 1) := by
  set fs := kAfter ++ ((flagsAt bn.toNat).filter fun f => !(kAfter.any fun e => e.1 == f)).map fun f => (f, v) with hfs
  have hkeys : kAfter.map (·.1) ⊆ fs.map (·.1) := by simp [hfs]
  have hflags : flagsAt bn.toNat ⊆ fs.map (·.1) := by
    intro f hf
    cases hany : kAfter.any fun e => e.1 == f with
    | true =>
      obtain ⟨e, he, heq⟩ := List.any_eq_true.1 hany
      exact hkeys (List.mem_map.2 ⟨e, he, by simpa using heq⟩)
    | false =>
      refine List.mem_map.2 ⟨(f, v), List.mem_append_right _ (List.mem_map.2 ⟨f, ?_, rfl⟩), rfl⟩
      simpa [hf] using hany
  have hput : WritesOnly [] (fs.map (·.1)) s (s.putBit bn .zero v) :=
    (WritesOnly.refl _ _ s).putBit (List.nil_subset _) hflags v
  have hu := hput.setFlags hk hkeys
  rw [State.endBit, if_neg (by decide)] at hexec
  refine ⟨_, hexec, hu.advance.only, registersBecome_of_writesOnly (.refl s) hu.advance nofun (fun e he => ?_) ?_⟩
  · rw [State.flag_advance]
    obtain he | he := List.mem_append.1 he
    · exact State.flag_setFlags hk he
    · obtain ⟨f, hf, rfl⟩ := List.mem_map.1 he
      obtain ⟨hbit, hnot⟩ := List.mem_filter.1 hf
      have hbn : f.bit = bn.toNat := mem_flagsAt.1 hbit
      have hlt : bn.toNat < 8 := hbn ▸ f.bit_lt
      rw [State.flag_setFlags_ne hk (by simpa using hnot)]
      simp only [State.putBit, if_pos hlt, State.flag, hbn, State.sts_setSts, getLsbD_setBit _ _ _ _ hlt, if_true]
  · rw [State.p_advance, State.p_setFlags hk]
    simp only [State.putBit]
    split <;> simp

end KAfter

theorem State.putBit_of_ne_zero (s : State) {dr : RField} (h : dr ≠ .zero) (bn : BitVec 4) (v : Bool) :
    s.putBit bn dr v = s.putReg dr (setBit (s.regValue dr) bn.toNat v) := by
  cases dr with
  | zero => exact absurd rfl h
  | _ => rfl

/-- Settles O44: the operand by `State.getBit_eq`; a bit written is a register or P written, or a flag. -/
theorem bitInstructions : Obligations.BitInstructions := by
  unfold Obligations.BitInstructions
  constructor
  · intro s bn dr bit k hbit hk
    rw [← State.getBit_eq] at hbit
    subst hbit hk
    constructor
    · intro i c hi
      simp only [List.mem_cons, List.not_mem_nil, or_false, Prod.mk.injEq] at hi
      rcases hi with ⟨rfl, rfl⟩ | ⟨rfl, rfl⟩ | ⟨rfl, rfl⟩ | ⟨rfl, rfl⟩ <;> exact skipIf_result Iff.rfl rfl
    · intro i c hi
      simp only [List.mem_cons, List.not_mem_nil, or_false, Prod.mk.injEq] at hi
      rcases hi with ⟨rfl, rfl⟩ | ⟨rfl, rfl⟩ | ⟨rfl, rfl⟩ | ⟨rfl, rfl⟩ | ⟨rfl, rfl⟩ | ⟨rfl, rfl⟩ <;>
        exact bitLoad_result rfl
  · intro s bn dr bit k i v kAfter hbit hk hi
    rw [← State.getBit_eq] at hbit
    subst hbit hk
    obtain ⟨hexec, hkAfter⟩ := exec_of_bitWrite hi
    have hbits (n : Nat) (hn : n < 16) := getLsbD_setBit (s.regValue dr) bn.toNat n v hn
    by_cases hzero : dr = .zero
    · subst hzero
      obtain ⟨t, hnext, honly, hregs⟩ := bitWrite_status hkAfter hexec
      exact ⟨t, _, hnext, honly, hbits, fun h => absurd rfl h, fun _ => hregs⟩
    · rw [s.putBit_of_ne_zero hzero] at hexec
      obtain ⟨t, hnext, honly, hregs⟩ := bitWrite_register hkAfter hzero hexec
      exact ⟨t, _, hnext, honly, hbits, fun _ => hregs, fun h => absurd h hzero⟩

end Sys2Proof.Machine
end

section
/-! System control: the monitor call, the switches of the status word, the control store and the codes without a meaning
(`spec/49_system_control.md` R481 to R491, R520 to R522; `spec/53_ce_stack_misc.md` R620). -/

namespace Sys2Proof.Machine

/-! ### MON -/

/-- The end of an instruction writes no register but P of the current level. -/
theorem State.get_reg_advance (s : State) {l : BitVec 4} {r : RField} (h : (l, r) ≠ (s.pil, .p)) :
    (s.advance.reg l).get r = (s.reg l).get r := by
  by_cases hl : l = s.pil
  · subst hl
    have hr : r ≠ .p := fun e => h (by rw [e])
    exact s.get_advance hr
  · rw [State.advance, State.setP, State.reg_setCur_ne _ _ hl]

/-- A write to one register of one level leaves every other register of every level. -/
theorem State.get_reg_setReg_put (s : State) {k l : BitVec 4} {r q : RField} (v : Word) (h : (l, q) ≠ (k, r)) :
    ((s.setReg k ((s.reg k).put r v)).reg l).get q = (s.reg l).get q := by
  by_cases hl : l = k
  · subst hl
    have hq : q ≠ r := fun e => h (by rw [e])
    rw [State.reg_setReg_self, RegSet.get_put_ne _ _ hq]
  · rw [State.reg_setReg_ne _ _ hl]

/-- Settles O49: T of level 14 is written before the end of the instruction writes P of the current level. -/
theorem monitorCall : Obligations.MonitorCall := by
  unfold Obligations.MonitorCall
  intro s n
  set u := s.setReg 14 ((s.reg 14).put .t (sext8 n)) with hu
  refine ⟨(u.raise .mc).advance, rfl, rfl, ?_, rfl, ?_, fun l r ht hp => ?_⟩
  · calc (((u.raise .mc).advance.reg 14).get .t) = (u.reg 14).get .t := (u.raise .mc).get_reg_advance (by simp)
      _ = sext8 n := by rw [hu, State.reg_setReg_self]; rfl
  · rw [State.p_advance]
    exact congrArg (· + 1) (s.get_reg_setReg_put (l := s.pil) (q := .p) _ (by simp))
  · calc (((u.raise .mc).advance.reg l).get r) = (u.reg l).get r := (u.raise .mc).get_reg_advance hp
      _ = (s.reg l).get r := s.get_reg_setReg_put _ ht

/-! ### WAIT and the switches of the status word -/

section Allowed

variable {s : State} (hallowed : s.mayRunPrivileged = true)
include hallowed

theorem exec_wait_of_off (n : BitVec 8) (hoff : s.ioni = false) : exec (.wait n) s = .next s.enterStop.advance := by
  refine (State.privileged_of_allowed hallowed _).trans ?_
  simp only [State.advance_ioni, hoff]
  rfl

theorem exec_wait_of_level_zero (n : BitVec 8) (hon : s.ioni = true) (hzero : s.pil = 0) :
    exec (.wait n) s = .next s.advance := by
  refine (State.privileged_of_allowed hallowed _).trans ?_
  simp [hon, hzero]

theorem exec_wait_of_level (n : BitVec 8) (hon : s.ioni = true) (hlevel : s.pil ≠ 0) :
    exec (.wait n) s = .next s.giveUpLevel.advance := by
  refine (State.privileged_of_allowed hallowed _).trans ?_
  simp only [State.advance_ioni, hon, State.advance_pil, hlevel]
  rfl

/-- WAIT: stop, nothing, or the level's own request dropped (R482). -/
theorem wait_result (n : BitVec 8) :
    ∃ t, exec (.wait n) s = .next t ∧ RegistersBecome s t [] [] (s.p + 1) ∧
      (s.ioni = false →
        t = { s with
          regs := t.regs, runState := .stop, opcomActive := true
          mopc := { s.mopc with semi := .none, lineStart := true } }) ∧
      (s.ioni = true →
        t = { s with regs := t.regs, pid := t.pid } ∧
        ∀ k, k < 16 → t.pid.getLsbD k = (s.pid.getLsbD k && !(decide (k = s.pil.toNat) && decide (s.pil ≠ 0)))) := by
  rcases Bool.eq_false_or_eq_true s.ioni with hon | hoff
  · by_cases hlevel : s.pil = 0
    · exact ⟨_, exec_wait_of_level_zero hallowed n hon hlevel, registersBecome_advance rfl rfl,
        fun hoff => absurd hon (by simp [hoff]), fun _ => ⟨rfl, fun k _ => by simp [hlevel]⟩⟩
    · refine ⟨_, exec_wait_of_level hallowed n hon hlevel, registersBecome_advance rfl rfl,
        fun hoff => absurd hon (by simp [hoff]), fun _ => ⟨rfl, fun k hk => ?_⟩⟩
      calc (setBit s.pid s.pil.toNat false).getLsbD k = if k = s.pil.toNat then false else s.pid.getLsbD k :=
            getLsbD_setBit _ _ _ _ hk
        _ = (s.pid.getLsbD k && !(decide (k = s.pil.toNat) && decide (s.pil ≠ 0))) := by
            rw [decide_eq_true hlevel]
            by_cases hkl : k = s.pil.toNat <;> simp [hkl]
  · exact ⟨_, exec_wait_of_off hallowed n hoff, registersBecome_advance rfl rfl, fun _ => rfl,
      fun hon => absurd hon (by simp [hoff])⟩

/-- A switch of the status word, or OPCOM, changes what it names and then P (R483 to R491). -/
theorem exec_statusSwitch {i : Instr} {t : State}
    (hi : (i, t) ∈ [(Instr.ion, { s with ioni := true }), (.iof, { s with ioni := false }),
      (.pon, if s.cfg.hasMms then { s with poni := true } else s), (.pof, { s with poni := false }),
      (.pion, if s.cfg.hasMms then { s with poni := true, ioni := true } else { s with ioni := true }),
      (.piof, { s with poni := false, ioni := false }), (.sex, if s.cfg.hasMms then { s with sexi := true } else s),
      (.rex, { s with sexi := false }),
      (.opcom, { s with
        opcomActive := true
        mopc := { s.mopc with lineStart := if s.opcomActive then s.mopc.lineStart else true } })]) :
    exec i s = .next (t.setP (s.p + 1)) := by
  simp only [List.mem_cons, List.not_mem_nil, or_false, Prod.mk.injEq] at hi
  rcases hi with ⟨rfl, rfl⟩ | ⟨rfl, rfl⟩ | ⟨rfl, rfl⟩ | ⟨rfl, rfl⟩ | ⟨rfl, rfl⟩ | ⟨rfl, rfl⟩ | ⟨rfl, rfl⟩ |
    ⟨rfl, rfl⟩ | ⟨rfl, rfl⟩ <;> refine (State.privileged_of_allowed hallowed _).trans ?_
  case inr.inr.inl | inr.inr.inr.inr.inl | inr.inr.inr.inr.inr.inr.inl =>
    cases hmms : s.cfg.hasMms
    · simp only [Bool.or_false]; rfl
    · simp only [Bool.or_true]; rfl
  case inr.inr.inr.inr.inr.inr.inr.inr =>
    cases hactive : s.opcomActive
    · simp only [State.enterOpcom, hactive, Bool.not_false, Bool.or_true]; rfl
    · simp only [State.enterOpcom, hactive, Bool.not_true, Bool.or_false]; rfl
  all_goals rfl

end Allowed

/-- Settles O50: WAIT by its three cases, the switches one by one. -/
theorem statusControl : Obligations.StatusControl := by
  unfold Obligations.StatusControl
  exact ⟨fun s n hallowed => wait_result hallowed n, fun s i t hallowed hi => exec_statusSwitch hallowed hi⟩

/-! ### LWCS and the codes without a meaning -/

/-- A block of good words is read word by word, and nothing changes (R520). -/
theorem State.readBlock_of_good {s : State} (hbus : s.steals = []) (hmonitor : s.mopc.bus &&& 3 = 0) (n : Nat)
    (pa : PhysAddr)
    (hgood : ∀ k, k < n → s.memPresent (pa + BitVec.ofNat 24 k) = true ∧ s.syndrome (pa + BitVec.ofNat 24 k) = 0) :
    s.readBlock .data n pa = ((List.range n).map fun k => s.mem.readWord (pa + BitVec.ofNat 24 k), s) := by
  induction n generalizing pa with
  | zero => rfl
  | succ n ih =>
    have hsucc (k : Nat) : pa + 1 + BitVec.ofNat 24 k = pa + BitVec.ofNat 24 (k + 1) := by
      rw [BitVec.ofNat_add, BitVec.add_comm (BitVec.ofNat 24 k), ← BitVec.add_assoc]
      rfl
    have hzero : pa + BitVec.ofNat 24 0 = pa := by simp
    obtain ⟨hpresent, hsyndrome⟩ := hgood 0 (Nat.succ_pos n)
    rw [hzero] at hpresent hsyndrome
    have hread : s.yieldBus.physRead .data pa = (s.mem.readWord pa, s) := by
      rw [State.yieldBus_quiet hbus, State.physRead_of_good hpresent hsyndrome, State.strobe_quiet hmonitor]
    have htail := ih (pa + 1) fun k hk => by rw [hsucc]; exact hgood (k + 1) (Nat.succ_lt_succ hk)
    simp only [hsucc] at htail
    rw [State.readBlock, hread]
    simp only [htail, List.range_succ_eq_map, List.map_cons, List.map_map, hzero]
    rfl

/-- With physical addressing the block lies in the words that a program addresses (R520). -/
theorem State.readBlock_of_flat {s : State} (h : s.Flat) {n base : Nat} (hfits : base + n ≤ 65536) :
    ∃ ws, s.readBlock .data n (BitVec.ofNat 24 base) = (ws, s) ∧ ws.length = n ∧
      ∀ k, k < n → ws[k]? = some (s.wordAt (BitVec.ofNat 16 (base + k))) := by
  have haddr (k : Nat) (hk : k < n) :
      BitVec.ofNat 24 base + BitVec.ofNat 24 k = (BitVec.ofNat 16 (base + k)).zeroExtend 24 :=
    BitVec.eq_of_toNat_eq (by simp; omega)
  have hread := State.readBlock_of_good h.bus h.monitor n (BitVec.ofNat 24 base) fun k hk => by
    rw [haddr k hk]
    exact ⟨h.memPresent _, h.syndrome _⟩
  refine ⟨_, hread, by simp, fun k hk => ?_⟩
  rw [List.getElem?_map, List.getElem?_range hk, Option.map_some, haddr k hk]
  rfl

/-- LWCS with the option loads the block from 36000 octal on (R520). -/
theorem exec_lwcs_of_block {s : State} {ws : List Word} (hallowed : s.mayRunPrivileged = true)
    (hwcs : s.cfg.hasWcs = true) (hread : s.readBlock .data 1024 0o36000 = (ws, s)) :
    exec .lwcs s = .next ({ s with wcs := ws, wcsLoaded := true } : State).advance := by
  refine (State.privileged_of_allowed hallowed _).trans ?_
  rw [if_pos hwcs, hread]

/-- II, and P at the next word (R672, R676, R684). -/
theorem illegal_result {i : Instr} {s : State} (hexec : exec i s = s.illegal) :
    ∃ t, exec i s = .next t ∧ t.iid = setBit s.iid 4 true ∧ RegistersBecome s t [] [] (s.p + 1) ∧
      t = { s with regs := t.regs, iid := t.iid } :=
  ⟨_, hexec, rfl, registersBecome_advance rfl rfl, rfl⟩

/-- An instruction known by name only is refused with the option and illegal without it (R620). -/
theorem exec_of_nameOnlyMnemonic {i : Instr} {name : String} (h : nameOnlyMnemonic i = some name) (s : State) :
    exec i s = if s.cfg.hasCx then .refused (.nameOnly name) else s.illegal := by
  cases i with
  | setpt | clept | clnreent | chreentpages | clepu | movew | tset | rdus => cases h; rfl
  | _ => cases h

/-- A customer code is refused with a loaded control store and illegal without one (R522). -/
theorem exec_of_customerEntry {i : Instr} {entry : Word} (h : customerEntry i = some entry) (s : State) :
    exec i s = customer entry s := by
  cases i with
  | cust1 | cust2 | cust3 | cust4 | cust5 | cust6 | cust7 | cust10 | cust11 | cust12 | cust13 => cases h; rfl
  | _ => cases h

/-- Settles O53: LWCS by the block that it reads, the codes without a meaning by the option that decides them. -/
theorem controlStoreAndStops : Obligations.ControlStoreAndStops := by
  unfold Obligations.ControlStoreAndStops
  refine ⟨fun s hallowed => ⟨fun hwcs => ?_, fun hwcs hflat => ?_⟩, fun s i => ⟨?_, ?_, ?_, ?_⟩⟩
  · have hexec : exec .lwcs s = .next s.advance :=
      (State.privileged_of_allowed hallowed _).trans (if_neg (by rw [hwcs]; exact Bool.false_ne_true))
    exact ⟨_, hexec, rfl, registersBecome_advance rfl rfl⟩
  · obtain ⟨ws, hread, hlength, hwords⟩ := State.readBlock_of_flat hflat (n := 1024) (base := 0o36000) (by decide)
    exact ⟨_, exec_lwcs_of_block hallowed hwcs hread, rfl, registersBecome_advance rfl rfl, hlength, hwords⟩
  · intro name hname hcx
    rw [exec_of_nameOnlyMnemonic hname, if_pos hcx]
  · rintro ⟨name, hname⟩ hcx
    exact illegal_result ((exec_of_nameOnlyMnemonic hname s).trans (if_neg (by rw [hcx]; exact Bool.false_ne_true)))
  · intro entry hentry hwcs hloaded
    rw [exec_of_customerEntry hentry, customer, hwcs, hloaded]
    rfl
  · rintro entry hentry hunloaded
    refine illegal_result ((exec_of_customerEntry hentry s).trans (if_neg ?_))
    rcases hunloaded with h | h <;> simp [h]

end Sys2Proof.Machine
end

section
/-! Input and output: the search of IDENT along the bus, the transfer of IOX and IOXT, and the registers of the clock and
the console (`spec/49_system_control.md` R492 to R495; `spec/61_io_devices.md` R740 to R760). -/

namespace Sys2Proof.Machine

/-! ### Other agents first -/

theorem State.yieldBus_regs (s : State) : s.yieldBus.regs = s.regs := by rw [State.yieldBus_frame]

theorem State.yieldBus_pil (s : State) : s.yieldBus.pil = s.pil := by rw [State.yieldBus_frame]

/-! ### IDENT -/

/-- The interface that drives a level answers with its code for this level (R746). -/
theorem Device.identified_code (d : Device) {n : Nat} (hn : n ∈ [10, 11, 12, 13]) :
    (d.identified n).1 = identCodeOf n d := by
  cases d with
  | external e =>
    simp only [List.mem_cons, List.not_mem_nil, or_false] at hn
    rcases hn with rfl | rfl | rfl | rfl <;> rfl
  | _ => rfl

/-- An answer drops the request of the interface on the level (R746). -/
theorem Device.drives_identified_self {d : Device} {n : Nat} (hn : n ∈ [10, 11, 12, 13]) (h : d.drives n = true) :
    (d.identified n).2.drives n = false := by
  simp only [List.mem_cons, List.not_mem_nil, or_false] at hn
  cases d with
  | external e => rcases hn with rfl | rfl | rfl | rfl <;> rfl
  | terminal e =>
    rcases hn with rfl | rfl | rfl | rfl
    · rfl
    · cases h
    · rfl
    · cases h
  | _ => exact Bool.and_false _

/-- An answer leaves the requests on the other levels (R746). -/
theorem Device.drives_identified_ne {d : Device} {n k : Nat} (hn : n ∈ [10, 11, 12, 13]) (h : d.drives n = true)
    (hk : k ≠ n) : (d.identified n).2.drives k = d.drives k := by
  simp only [List.mem_cons, List.not_mem_nil, or_false] at hn
  cases d with
  | external e =>
    rcases hn with rfl | rfl | rfl | rfl
    all_goals
      simp only [Device.identified, Device.drives, Lines.clear]
      split <;> simp_all
  | terminal e =>
    rcases hn with rfl | rfl | rfl | rfl
    · simp [Device.identified, Device.drives, hk]
    · cases h
    · simp [Device.identified, Device.drives, hk]
    · cases h
  | reader e | punch e | dma e =>
    obtain ⟨hlevel, _⟩ := (Bool.and_eq_true _ _).mp h
    rw [beq_iff_eq] at hlevel
    subst hlevel
    simp [Device.identified, Device.drives, hk]

/-- The search goes past the interfaces that do not drive the level (R746). -/
theorem identDevices_append {n : Nat} {before : List Device} (h : ∀ e ∈ before, e.drives n = false) {d : Device}
    (hd : d.drives n = true) (behind : List Device) :
    identDevices n (before ++ d :: behind) = some ((d.identified n).1, before ++ (d.identified n).2 :: behind) := by
  induction before with
  | nil => simp [identDevices, hd]
  | cons e before ih =>
    obtain ⟨he, hbefore⟩ := List.forall_mem_cons.1 h
    simp [identDevices, he, ih hbefore]

theorem identDevices_eq_none {n : Nat} {ds : List Device} (h : ∀ d ∈ ds, d.drives n = false) : identDevices n ds = none := by
  induction ds with
  | nil => rfl
  | cons d ds ih =>
    obtain ⟨hd, hds⟩ := List.forall_mem_cons.1 h
    simp [identDevices, hd, ih hds]

/-- With no line of the level driven nobody answers (R745). -/
theorem State.identSearch_eq_none {s : State} {n : Nat} (h : s.line n = false) : s.identSearch n = none := by
  simp only [State.line, Bool.or_eq_false_iff, List.any_eq_false, Bool.not_eq_true] at h
  obtain ⟨⟨⟨hclock, hout⟩, hin⟩, hdevices⟩ := h
  simp [State.identSearch, hclock, hout, hin, identDevices_eq_none hdevices]

/-- Neither the clock nor the console answers a search that finds a plugged-in interface (R746). -/
theorem State.identSearch_devices {s : State} {n : Nat} {code : BitVec 9} {ds : List Device}
    (hclock : ¬ (n = 13 ∧ s.clock.ff = true)) (hout : ¬ (n = 10 ∧ s.console.outFf = true))
    (hin : ¬ (n = 12 ∧ s.console.inFf = true)) (h : identDevices n s.devices = some (code, ds)) :
    s.identSearch n = some (code, { s with devices := ds }) := by
  simp only [State.identSearch, h]
  rw [if_neg (by simpa using hclock), if_neg (by simpa using hout), if_neg (by simpa using hin)]

theorem exec_ident_eq {i : Instr} {n : Nat}
    (hi : (i, n) ∈ [(Instr.identPl10, 10), (.identPl11, 11), (.identPl12, 12), (.identPl13, 13)]) (s : State) :
    exec i s = ident n s ∧ n ∈ [10, 11, 12, 13] := by
  simp only [List.mem_cons, List.not_mem_nil, or_false, Prod.mk.injEq] at hi
  rcases hi with ⟨rfl, rfl⟩ | ⟨rfl, rfl⟩ | ⟨rfl, rfl⟩ | ⟨rfl, rfl⟩ <;> exact ⟨rfl, by decide⟩

/-- IDENT with an answer: the code into A (R492). -/
theorem ident_of_answer {i : Instr} {s v : State} {n : Nat} {code : BitVec 9} (hallowed : s.mayRunPrivileged = true)
    (hexec : exec i s = ident n s) (h : s.yieldBus.identSearch n = some (code, v)) (hregs : v.regs = s.regs)
    (hpil : v.pil = s.pil) :
    ∃ t, exec i s = .next t ∧ t = { v with regs := t.regs } ∧
      RegistersBecome s t [(.a, code.zeroExtend 16)] [] (s.p + 1) := by
  refine ⟨(v.setA (code.zeroExtend 16)).advance, ?_, rfl,
    registersBecome_put_advance (r := .a) hregs hpil nofun nofun _⟩
  rw [hexec, ident, State.privileged_of_allowed hallowed]
  simp only [h]

/-- IDENT without an answer: IOX (R492). -/
theorem ident_of_no_answer {i : Instr} {s : State} {n : Nat} (hallowed : s.mayRunPrivileged = true)
    (hexec : exec i s = ident n s) (h : s.yieldBus.identSearch n = none) :
    exec i s = .next (s.yieldBus.raise .iox).advance := by
  rw [hexec, ident, State.privileged_of_allowed hallowed]
  simp only [h]

/-- Settles O51: what the search finds decides, in the order clock or console, plugged-in interfaces. -/
theorem identResult : Obligations.IdentResult := by
  unfold Obligations.IdentResult
  rintro s u i n hallowed rfl hi
  obtain ⟨hexec, hn⟩ := exec_ident_eq hi s
  have hregs := s.yieldBus_regs
  have hpil := s.yieldBus_pil
  refine ⟨State.yieldBus_quiet, fun hline => ?_, fun v hv => ?_, fun before behind d hclock hout hin hdevices hbefore hd => ?_⟩
  · exact ⟨_, ident_of_no_answer hallowed hexec (State.identSearch_eq_none hline), rfl, rfl,
      registersBecome_advance hregs hpil⟩
  · rcases hv with ⟨rfl, hff, rfl⟩ | ⟨rfl, hff, rfl⟩ | ⟨rfl, hff, rfl⟩
    all_goals exact ident_of_answer (code := 1) hallowed hexec (by simp [State.identSearch, hff]) hregs hpil
  · have hsearch := identDevices_append hbefore hd behind
    rw [← hdevices] at hsearch
    obtain ⟨t, hnext, ht, hbecome⟩ :=
      ident_of_answer hallowed hexec (State.identSearch_devices hclock hout hin hsearch) hregs hpil
    rw [d.identified_code hn] at hbecome
    exact ⟨t, (d.identified n).2, hnext, hbecome, ht, Device.drives_identified_self hn hd,
      fun k hk => Device.drives_identified_ne hn hd hk⟩

/-! ### The transfer of IOX and IOXT -/

/-- A transfer from an interface changes no register and no memory (R495). -/
theorem State.ioRead_frame (s : State) (addr : Word) :
    (s.ioRead addr).2 =
      { s with
        iid := (s.ioRead addr).2.iid, console := (s.ioRead addr).2.console, devices := (s.ioRead addr).2.devices
        freeCount := (s.ioRead addr).2.freeCount } := by
  unfold State.ioRead State.drawWord State.raise
  split
  · rfl
  · split
    · rfl
    · split <;> rfl

/-- A transfer to an interface changes no register and no memory (R495). -/
theorem State.ioWrite_frame (s : State) (addr v : Word) :
    s.ioWrite addr v =
      { s with
        iid := (s.ioWrite addr v).iid, clock := (s.ioWrite addr v).clock, console := (s.ioWrite addr v).console
        devices := (s.ioWrite addr v).devices, eccr := (s.ioWrite addr v).eccr
        freeCount := (s.ioWrite addr v).freeCount } := by
  unfold State.ioWrite
  split
  · rfl
  · split
    · unfold State.consoleWrite State.drawBit
      split
      · rfl
      · split
        · rfl
        · split
          · dsimp only
            split
            · rfl
            · split <;> rfl
          · rfl
    · split
      · rfl
      · split <;> rfl

theorem readDevices_eq_none {addr : Word} {ds : List Device} (h : ∀ d ∈ ds, d.decodes addr = false) :
    readDevices addr ds = none := by
  induction ds with
  | nil => rfl
  | cons d ds ih =>
    obtain ⟨hd, hds⟩ := List.forall_mem_cons.1 h
    simp [readDevices, hd, ih hds]

theorem writeDevices_eq_none {addr v : Word} {ds : List Device} (h : ∀ d ∈ ds, d.decodes addr = false) :
    writeDevices addr v ds = none := by
  induction ds with
  | nil => rfl
  | cons d ds ih =>
    obtain ⟨hd, hds⟩ := List.forall_mem_cons.1 h
    simp [writeDevices, hd, ih hds]

section NoAnswer

variable {s : State} {addr : Word} (hclock : isClock addr = false) (hconsole : isConsole addr = false)
  (hdevices : ∀ d ∈ s.devices, d.decodes addr = false)
include hclock hconsole hdevices

/-- An address that nobody decodes raises IOX and delivers an open value (R495, U4). -/
theorem State.ioRead_of_no_answer : s.ioRead addr = (s.raise .iox).drawWord := by
  simp [State.ioRead, hclock, hconsole, readDevices_eq_none hdevices]

theorem State.ioWrite_of_no_answer (heccr : addr ≠ eccrAddress) (v : Word) : s.ioWrite addr v = s.raise .iox := by
  simp [State.ioWrite, hclock, hconsole, heccr, writeDevices_eq_none hdevices]

end NoAnswer

section Transfer

variable {i : Instr} {s : State} {addr : Word} (hexec : exec i s = .next (s.ioTransfer addr).advance)
include hexec

/-- An even address reads into A (R495). -/
theorem ioTransfer_of_even (heven : addr.getLsbD 0 = false) :
    ∃ t, exec i s = .next t ∧ RegistersBecome s t [(.a, (s.yieldBus.ioRead addr).1)] [] (s.p + 1) ∧
      keepsMemory s.yieldBus t ∧ t = { (s.yieldBus.ioRead addr).2 with regs := t.regs } := by
  have hframe := s.yieldBus.ioRead_frame addr
  have hregs : (s.yieldBus.ioRead addr).2.regs = s.regs := by rw [hframe]; exact s.yieldBus_regs
  have hpil : (s.yieldBus.ioRead addr).2.pil = s.pil := by rw [hframe]; exact s.yieldBus_pil
  have hmem : (s.yieldBus.ioRead addr).2.mem = s.yieldBus.mem := by rw [hframe]
  have hecc : (s.yieldBus.ioRead addr).2.ecc = s.yieldBus.ecc := by rw [hframe]
  rw [State.ioTransfer, if_neg (by rw [heven]; exact Bool.false_ne_true)] at hexec
  refine ⟨_, hexec, registersBecome_put_advance (r := .a) hregs hpil nofun nofun _, ⟨hmem, hecc⟩, rfl⟩

/-- An odd address writes A (R495). -/
theorem ioTransfer_of_odd (hodd : addr.getLsbD 0 = true) :
    exec i s = .next (s.yieldBus.ioWrite addr s.a).advance ∧
      RegistersBecome s (s.yieldBus.ioWrite addr s.a).advance [] [] (s.p + 1) ∧
      keepsMemory s.yieldBus (s.yieldBus.ioWrite addr s.a).advance := by
  have hframe := s.yieldBus.ioWrite_frame addr s.a
  have hregs : (s.yieldBus.ioWrite addr s.a).regs = s.regs := by rw [hframe]; exact s.yieldBus_regs
  have hpil : (s.yieldBus.ioWrite addr s.a).pil = s.pil := by rw [hframe]; exact s.yieldBus_pil
  have hmem : (s.yieldBus.ioWrite addr s.a).mem = s.yieldBus.mem := by rw [hframe]
  have hecc : (s.yieldBus.ioWrite addr s.a).ecc = s.yieldBus.ecc := by rw [hframe]
  have ha : s.yieldBus.a = s.a := congrArg RegSet.a (State.cur_of_regs s.yieldBus_regs s.yieldBus_pil)
  rw [State.ioTransfer, if_pos hodd, ha] at hexec
  exact ⟨hexec, registersBecome_advance hregs hpil, hmem, hecc⟩

/-- An address that no interface decodes raises IOX (R495). -/
theorem ioTransfer_of_no_answer (hclock : isClock addr = false) (hconsole : isConsole addr = false)
    (heccr : addr ≠ eccrAddress) (hdevices : ∀ d ∈ s.yieldBus.devices, d.decodes addr = false) :
    ∃ t, exec i s = .next t ∧ t.iid = setBit s.yieldBus.iid 7 true ∧ t.devices = s.yieldBus.devices ∧
      keepsRegisters s t (if addr.getLsbD 0 then [] else [.a]) [] := by
  cases hbit : addr.getLsbD 0 with
  | false =>
    obtain ⟨t, hnext, hbecome, _, ht⟩ := ioTransfer_of_even hexec hbit
    rw [State.ioRead_of_no_answer hclock hconsole hdevices] at hbecome ht
    refine ⟨t, hnext, ?_, ?_, hbecome.rest⟩
    · rw [ht]; rfl
    · rw [ht]; rfl
  | true =>
    obtain ⟨hnext, hbecome, _⟩ := ioTransfer_of_odd hexec hbit
    rw [State.ioWrite_of_no_answer hclock hconsole hdevices heccr] at hnext hbecome
    exact ⟨_, hnext, rfl, rfl, hbecome.rest⟩

end Transfer

theorem exec_iox_eq {i : Instr} {s : State} {addr : Word} (hallowed : s.mayRunPrivileged = true)
    (hi : (∃ a : BitVec 11, i = .iox a ∧ addr.toNat = a.toNat) ∨ (i = .ioxt ∧ addr = s.t)) :
    exec i s = .next (s.ioTransfer addr).advance := by
  rcases hi with ⟨a, rfl, haddr⟩ | ⟨rfl, rfl⟩
  · have hsame : a.zeroExtend 16 = addr := BitVec.eq_of_toNat_eq (by rw [haddr]; simp; omega)
    exact (State.privileged_of_allowed hallowed _).trans (by rw [hsame])
  · exact State.privileged_of_allowed hallowed _

/-- ECCR is written by IOXT (R494). -/
theorem ioxt_eccr {s : State} (hallowed : s.mayRunPrivileged = true) (ht : s.t = 0o100115) :
    exec .ioxt s = .next (({ s.yieldBus with eccr := BitVec.ofNat 5 s.a.toNat } : State).setP (s.p + 1)) := by
  have hcur := State.cur_of_regs s.yieldBus_regs s.yieldBus_pil
  obtain ⟨hnext, _, _⟩ := ioTransfer_of_odd (exec_iox_eq hallowed (.inr ⟨rfl, ht.symm⟩)) (by decide)
  have hwrite : s.yieldBus.ioWrite 0o100115 s.a = { s.yieldBus with eccr := BitVec.ofNat 5 s.a.toNat } := rfl
  have hp : s.yieldBus.p = s.p := congrArg RegSet.p hcur
  rw [hnext, hwrite, ← hp]
  rfl

/-! ### The registers of the clock and the console -/

/-- The number whose bits 0, 1, 2, … are the given ones. -/
def bitsValue : List Bool → Nat
  | [] => 0
  | b :: r => b.toNat + 2 * bitsValue r

theorem wordOfBits_eq (bits : List Bool) : wordOfBits bits = BitVec.ofNat 16 (bitsValue bits) := by
  induction bits with
  | nil => rfl
  | cons b r ih =>
    refine BitVec.eq_of_toNat_eq ?_
    have hsum : (2 * bitsValue r) % 65536 ||| b.toNat = (2 * bitsValue r) % 65536 + b.toNat := by
      have hor := Nat.two_pow_add_eq_or_of_lt (i := 1) (Bool.toNat_lt b) ((2 * bitsValue r) % 65536 / 2)
      have heven : 2 ^ 1 * ((2 * bitsValue r) % 65536 / 2) = (2 * bitsValue r) % 65536 := by omega
      rw [heven] at hor
      exact hor.symm
    have hbit : (if b then (1 : Word) else 0).toNat = b.toNat := by cases b <;> rfl
    have hb := Bool.toNat_lt b
    rw [wordOfBits, ih, BitVec.toNat_or, hbit, bitsValue]
    simp only [BitVec.toNat_shiftLeft, BitVec.toNat_ofNat, Nat.shiftLeft_eq]
    have hmod : bitsValue r % 2 ^ 16 * 2 ^ 1 % 2 ^ 16 = 2 * bitsValue r % 65536 := by omega
    rw [hmod, hsum]
    omega

/-- A character cut to the length of its code (R757, R758). -/
theorem cutCharacter_eq {len : BitVec 2} {v : Word} {ch : Byte} (h : ch.toNat = v.toNat % 2 ^ (8 - len.toNat)) :
    cutCharacter len (v.setWidth 8) = ch := by
  refine BitVec.eq_of_toNat_eq ?_
  have hmask : ((255 : Byte) >>> len.toNat).toNat = 2 ^ (8 - len.toNat) - 1 := by
    clear h
    revert len
    decide
  have hdvd : 2 ^ (8 - len.toNat) ∣ 2 ^ 8 := Nat.pow_dvd_pow 2 (Nat.sub_le ..)
  rw [h, cutCharacter, BitVec.toNat_and, hmask, Nat.and_two_pow_sub_one_eq_mod, BitVec.toNat_setWidth,
    Nat.mod_mod_of_dvd _ hdvd]

/-- The registers of the clock (R752 to R755, D45). -/
theorem clockRegisters (s : State) (v : Word) {c : Clock} {ready : Bool} (hc : c = s.clock)
    (hready : ready = (c.ready && !v.getLsbD 13)) :
    s.ioRead 0o10 = (0, s) ∧ s.ioWrite 0o11 v = { s with clock := { c with cleared := true } } ∧
      s.ioRead 0o12 = (BitVec.ofNat 16 (c.ie.toNat + 8 * c.ready.toNat), s) ∧
      s.ioWrite 0o13 v =
        { s with
          clock := { c with ie := v.getLsbD 0, ready := ready, ff := c.ff || !c.ie && v.getLsbD 0 && ready } } := by
  subst hc hready
  refine ⟨rfl, rfl, ?_, rfl⟩
  have hread : s.ioRead 0o12 = (wordOfBits [s.clock.ie, false, false, s.clock.ready], s) := rfl
  rw [hread, wordOfBits_eq]
  congr 2
  simp only [bitsValue, Bool.toNat_false]
  omega

/-- A character written to the console (R758; log 43). -/
theorem consoleCharacter (s : State) (v : Word) {c : Console} {ch : Byte} (hc : c = s.console)
    (hch : ch.toNat = v.toNat % 2 ^ (8 - c.len.toNat)) :
    (c.outReady = true → s.ioWrite 0o305 v = { s with console := { c with sending := some ch, outReady := false } }) ∧
    (c.outReady = false →
      ∃ t, s.ioWrite 0o305 v = t ∧ t = { s with console := t.console, freeCount := t.freeCount } ∧
        (t.console = c ∨ t.console = { c with sending := some ch })) := by
  subst hc
  have hwrite : s.ioWrite 0o305 v =
      if s.console.outReady then { s with console := s.console.send (cutCharacter s.console.len (v.setWidth 8)) }
      else if s.drawBit.1 then
        { s.drawBit.2 with console := s.console.send (cutCharacter s.console.len (v.setWidth 8)) }
      else s.drawBit.2 := rfl
  rw [cutCharacter_eq hch] at hwrite
  refine ⟨fun hready => ?_, fun hready => ?_⟩
  · rw [hwrite, if_pos hready]
    rfl
  · have hsend : s.console.send ch = { s.console with sending := some ch } := by rw [Console.send, ← hready]
    rw [if_neg (by rw [hready]; exact Bool.false_ne_true)] at hwrite
    cases hreplaces : s.drawBit.1 with
    | false => exact ⟨_, hwrite.trans (if_neg (by rw [hreplaces]; exact Bool.false_ne_true)), rfl, .inl rfl⟩
    | true => exact ⟨_, hwrite.trans (if_pos hreplaces), rfl, .inr hsend⟩

/-- The registers of the console (R757 to R759, D45, D46). -/
theorem consoleRegisters (s : State) (v : Word) {c : Console} {avail : Bool} (hc : c = s.console)
    (havail : avail = (c.avail && !s.opcomActive)) :
    s.ioRead 0o300 =
      (BitVec.ofNat 16 c.data.toNat,
        { s with console := { c with avail := c.avail && s.opcomActive, fe := false, pe := false, ovr := false } }) ∧
    s.ioRead 0o302 =
      (BitVec.ofNat 16 (c.inIe.toNat + 8 * avail.toNat + 16 * (c.fe || c.pe || c.ovr).toNat + 32 * c.fe.toNat +
        64 * c.pe.toNat + 128 * c.ovr.toNat), s) ∧
    s.ioWrite 0o303 v =
      { s with
        console := { c with
          inIe := v.getLsbD 0, len := BitVec.ofNat 2 (v.toNat / 2048), oneStop := v.getLsbD 13, par := v.getLsbD 14
          inFf := c.inFf || !c.inIe && v.getLsbD 0 && avail } } ∧
    s.ioRead 0o306 = (BitVec.ofNat 16 (c.outIe.toNat + 8 * c.outReady.toNat), s) := by
  subst hc havail
  refine ⟨?_, ?_, ?_, ?_⟩
  · have hdata : s.console.data.zeroExtend 16 = BitVec.ofNat 16 s.console.data.toNat := by simp
    exact congrArg (·, _) hdata
  · have hread : s.ioRead 0o302 = (wordOfBits [s.console.inIe, false, false, s.console.avail && !s.opcomActive,
      s.console.fe || s.console.pe || s.console.ovr, s.console.fe, s.console.pe, s.console.ovr], s) := rfl
    rw [hread, wordOfBits_eq]
    congr 2
    simp only [bitsValue, Bool.toNat_false]
    omega
  · have hlen : v.extractLsb' 11 2 = BitVec.ofNat 2 (v.toNat / 2048) := by
      rw [BitVec.extractLsb', Nat.shiftRight_eq_div_pow]
    rw [← hlen, ← Bool.and_assoc]
    rfl
  · have hread : s.ioRead 0o306 = (wordOfBits [s.console.outIe, false, false, s.console.outReady], s) := rfl
    rw [hread, wordOfBits_eq]
    congr 2
    simp only [bitsValue, Bool.toNat_false]
    omega

/-- Settles O52: the transfer by the parity of the address, the registers of the clock and the console one by one. -/
theorem inputOutputResult : Obligations.InputOutputResult := by
  unfold Obligations.InputOutputResult
  refine ⟨?_, ?_, fun s v c ready hc hready => clockRegisters s v hc hready, ?_⟩
  · rintro s u i addr hallowed rfl hi
    have hexec := exec_iox_eq hallowed hi
    refine ⟨State.yieldBus_quiet, ioTransfer_of_even hexec, fun hodd => ?_, ioTransfer_of_no_answer hexec⟩
    obtain ⟨hnext, hbecome, hmemory⟩ := ioTransfer_of_odd hexec hodd
    exact ⟨_, hnext, hbecome, hmemory, rfl⟩
  · rintro s u hallowed rfl ht
    exact ioxt_eccr hallowed ht
  · intro s v c avail ch hc havail hch
    obtain ⟨hdata, hstatus, hcontrol, hready⟩ := consoleRegisters s v hc havail
    obtain ⟨hsend, hopen⟩ := consoleCharacter s v hc hch
    subst hc
    exact ⟨hdata, rfl, hstatus, hcontrol, rfl, hsend, hopen, hready, rfl⟩

end Sys2Proof.Machine
end

section
/-! The register sets of all levels: one register by IRR and IRW, the block of a level by SRB and LRB
(`spec/50_internal_register_instr.md` R536 to R541). -/

namespace Sys2Proof.Machine

/-! ### IRR and IRW -/

theorem irr_result {s : State} (hallowed : s.mayRunPrivileged = true) (level : BitVec 4) (r : RField) :
    ∃ t, exec (.irr level r) s = .next t ∧ onlyRegisters s t ∧
      RegistersBecome s t [(.a, if r = .p ∧ level = s.pil then s.p + 1 else (s.reg level).get r)] [] (s.p + 1) :=
  ⟨_, State.privileged_of_allowed hallowed _, rfl,
    registersBecome_put_advance (r := .a) rfl rfl nofun nofun (s.levelRegister level r)⟩

/-- A write to P of the current level is a dummy (R538). -/
theorem exec_irw_of_dummy {s : State} (hallowed : s.mayRunPrivileged = true) {level : BitVec 4} {r : RField}
    (hdummy : r = .p ∧ level = s.pil) : exec (.irw level r) s = .next s.advance := by
  refine (State.privileged_of_allowed hallowed _).trans ?_
  rw [if_pos hdummy]

theorem exec_irw_of_write {s : State} (hallowed : s.mayRunPrivileged = true) {level : BitVec 4} {r : RField}
    (hwrite : ¬ (r = .p ∧ level = s.pil)) :
    exec (.irw level r) s = .next (s.setReg level ((s.reg level).put r s.a)).advance := by
  refine (State.privileged_of_allowed hallowed _).trans ?_
  rw [if_neg hwrite]

theorem irw_result {s : State} (hallowed : s.mayRunPrivileged = true) (level : BitVec 4) (r : RField) :
    ∃ t, exec (.irw level r) s = .next t ∧ onlyRegisters s t ∧ t.p = s.p + 1 ∧
      (¬ (r = .p ∧ level = s.pil) → (t.reg level).get r = if r = .zero then s.a &&& 0o377 else s.a) ∧
      ∀ (l : BitVec 4) (q : RField), (l, q) ≠ (level, r) → (l, q) ≠ (s.pil, .p) →
        (t.reg l).get q = (s.reg l).get q := by
  by_cases hdummy : r = .p ∧ level = s.pil
  · exact ⟨_, exec_irw_of_dummy hallowed hdummy, rfl, State.p_advance s, fun hwrite => absurd hdummy hwrite,
      fun l q _ hp => s.get_reg_advance hp⟩
  · set u := s.setReg level ((s.reg level).put r s.a) with hu
    have hother (l : BitVec 4) (q : RField) (h : (l, q) ≠ (level, r)) : (u.reg l).get q = (s.reg l).get q :=
      s.get_reg_setReg_put s.a h
    have hp : (s.pil, RField.p) ≠ (level, r) := fun e => hdummy ⟨(Prod.ext_iff.1 e).2.symm, (Prod.ext_iff.1 e).1.symm⟩
    refine ⟨_, exec_irw_of_write hallowed hdummy, rfl, ?_, fun _ => ?_, fun l q hne hq => ?_⟩
    · rw [State.p_advance]
      exact congrArg (· + 1) (hother s.pil .p hp)
    · rw [u.get_reg_advance hp.symm, hu, State.reg_setReg_self, RegSet.get_put_self]
    · rw [u.get_reg_advance hq, hother l q hne]

/-- Settles O56. -/
theorem interLevelRegisters : Obligations.InterLevelRegisters := by
  unfold Obligations.InterLevelRegisters
  exact fun s level r hallowed => ⟨irr_result hallowed level r, irw_result hallowed level r⟩

/-! ### SRB and LRB -/

/-- The words of a register block, P of the current level as the next address (R539, R540). -/
theorem blockOrder_levelRegister (s : State) (level : BitVec 4) :
    blockOrder.map (s.levelRegister level) =
      [if level = s.pil then s.p + 1 else (s.reg level).p, (s.reg level).x, (s.reg level).t, (s.reg level).a,
        (s.reg level).d, (s.reg level).l, BitVec.ofNat 16 (s.reg level).sts.toNat, (s.reg level).b] := by
  simp [blockOrder, State.levelRegister, RegSet.get]

theorem dataAccess_of_storesInOrder {rel : Rel} (ws : List Word) {s t : State} {va : Word}
    (h : storesInOrder rel s va ws t) : DataAccess s t :=
  ((DataAccess.refl s).storeList rel va ws).of_eq_done ((State.storeList_eq_done ws s va).2 h)

theorem onlyRead_of_readsInOrder {rel : Rel} (ws : List Word) {s t : State} {va : Word}
    (h : readsInOrder rel s va ws t) : OnlyRead s t := by
  induction ws generalizing s va with
  | nil =>
    obtain rfl : t = s := h
    exact .refl t
  | cons w ws ih =>
    obtain ⟨u, hread, hrest⟩ := h
    exact (onlyRead_of_memRead (by decide) hread).trans (ih hrest)

/-- With physical addressing the words are read as memory holds them, and nothing changes. -/
theorem readsInOrder_of_flat (rel : Rel) {s : State} (h : s.Flat) (n : Nat) {va : Word} (hordinary : s.ordinary va n) :
    readsInOrder rel s va ((List.range n).map fun k => s.wordAt (va + Word.ofNat k)) s := by
  induction n generalizing va with
  | zero => rfl
  | succ n ih =>
    have hshadow : s.shadowReached va = false := by
      rw [← word_add_ofNat_zero va]
      exact hordinary 0 (Nat.succ_pos n)
    have htail := ih (va := va + 1) fun k hk => by
      rw [← word_add_ofNat_succ]
      exact hordinary (k + 1) (Nat.succ_lt_succ hk)
    simp only [← word_add_ofNat_succ] at htail
    rw [List.range_succ_eq_map, List.map_cons, List.map_map, word_add_ofNat_zero]
    exact ⟨s, h.memRead hshadow .rop rel, htail⟩

/-- SRB stores the block and writes no register but P (R540). -/
theorem srb_result {s s1 : State} (hallowed : s.mayRunPrivileged = true) {level : BitVec 4}
    (h : storesInOrder .nonprel s s.x (blockOrder.map (s.levelRegister level)) s1) :
    exec (.srb level) s = .next s1.advance ∧ RegistersBecome s s1.advance [] [] (s.p + 1) := by
  have haccess := dataAccess_of_storesInOrder _ h
  refine ⟨?_, registersBecome_advance haccess.regs haccess.pil⟩
  refine (State.privileged_of_allowed hallowed _).trans ?_
  rw [(storeWords_eq_done _ s s.x).2 h, Access.complete_done]

/-- LRB loads the block (R541). -/
theorem exec_lrb {s s1 : State} (hallowed : s.mayRunPrivileged = true) {level : BitVec 4} {ws : List Word}
    (hlen : ws.length = 8) (h : readsInOrder .nonprel s s.x ws s1) :
    exec (.lrb level) s =
      .next (s1.setReg level ((s1.reg level).ofBlock (decide (level = s1.pil)) ws)).advance := by
  refine (State.privileged_of_allowed hallowed _).trans ?_
  rw [(loadWords_eq_done 8 s s.x ws).2 ⟨hlen, h⟩, Access.complete_done]

/-- The register set of a level replaced at the end of an instruction: P of the current level moves on. -/
theorem State.reg_setReg_advance (s : State) (level : BitVec 4) (r : RegSet) (k : BitVec 4) :
    ((s.setReg level r).advance).reg k =
      if k = s.pil then { (if k = level then r else s.reg k) with p := (if k = level then r else s.reg k).p + 1 }
      else if k = level then r else s.reg k := by
  have hset (k : BitVec 4) : (s.setReg level r).reg k = if k = level then r else s.reg k := by
    by_cases h : k = level
    · subst h; rw [State.reg_setReg_self, if_pos rfl]
    · rw [State.reg_setReg_ne _ _ h, if_neg h]
  rw [← hset]
  by_cases hk : k = s.pil
  · subst hk
    rw [if_pos rfl]
    exact State.cur_setCur _ _
  · rw [if_neg hk]
    exact State.reg_setCur_ne _ _ hk

/-- LRB: the registers of the level, P of the current level apart (R541). -/
theorem lrb_result {s s1 : State} (hallowed : s.mayRunPrivileged = true) {level : BitVec 4}
    {p x tt a d l sts b : Word} (h : readsInOrder .nonprel s s.x [p, x, tt, a, d, l, sts, b] s1) :
    ∃ t, exec (.lrb level) s = .next t ∧ onlyRegisters s1 t ∧ (∀ k, k ≠ level → k ≠ s.pil → t.reg k = s.reg k) ∧
      (level ≠ s.pil → t.cur = { s.cur with p := s.p + 1 }) ∧
      t.reg level =
        { p := if level = s.pil then s.p + 1 else p, x := x, t := tt, a := a, d := d, l := l
          sts := BitVec.ofNat 8 sts.toNat, b := b } := by
  have hread := onlyRead_of_readsInOrder _ h
  have hsts : sts.setWidth 8 = BitVec.ofNat 8 sts.toNat := rfl
  have hreg (k : BitVec 4) : s1.reg k = s.reg k := State.reg_of_regs hread.regs k
  refine ⟨_, exec_lrb hallowed rfl h, rfl, fun k hk hpil => ?_, fun hlevel => ?_, ?_⟩
  · rw [State.reg_setReg_advance, hread.pil, if_neg hpil, if_neg hk, hreg]
  · refine (State.reg_setReg_advance s1 level _ s1.pil).trans ?_
    rw [if_pos rfl, if_neg (by rw [hread.pil]; exact hlevel.symm), hread.pil, hreg]
    rfl
  · rw [State.reg_setReg_advance, hread.pil, if_pos rfl, hreg, ← hsts]
    by_cases hlevel : level = s.pil
    · rw [if_pos hlevel, if_pos hlevel, decide_eq_true hlevel, hlevel]
      rfl
    · rw [if_neg hlevel, if_neg hlevel, decide_eq_false hlevel]
      rfl

/-- What it is that only P of the current level is written. -/
theorem registersBecome_of_advance {s u : State} (hpil : u.pil = s.pil) (hcur : u.cur = { s.cur with p := s.p + 1 })
    (hother : ∀ l, l ≠ s.pil → u.reg l = s.reg l) : RegistersBecome s u [] [] (s.p + 1) := by
  refine ⟨hpil, nofun, nofun, congrArg RegSet.p hcur, fun r _ hp _ => ?_, fun f _ => ?_, hother⟩
  · rw [hcur]
    exact RegSet.get_put_ne s.cur (s.p + 1) hp
  · rw [State.flag, State.sts, hcur]
    rfl

section Flat

variable {s : State} (hallowed : s.mayRunPrivileged = true) (hflat : s.Flat) (hordinary : s.ordinary s.x 8)
include hallowed hflat hordinary

theorem srb_of_flat (level : BitVec 4) :
    ∃ t, exec (.srb level) s = .next t ∧ t = { s with regs := t.regs, mem := t.mem } ∧
      RegistersBecome s t [] [] (s.p + 1) ∧
      t.wordAt s.x = (if level = s.pil then s.p + 1 else (s.reg level).p) ∧
      (∀ k r, (k, r) ∈ [(1, RField.x), (2, .t), (3, .a), (4, .d), (5, .l), (6, .zero), (7, .b)] →
        t.wordAt (s.x + BitVec.ofNat 16 k) = (s.reg level).get r) ∧
      ∀ va, (∀ k, k < 8 → va ≠ s.x + BitVec.ofNat 16 k) → t.wordAt va = s.wordAt va := by
  have hlength : (blockOrder.map (s.levelRegister level)).length = 8 := rfl
  obtain ⟨u, horder, hu, hvalues, hothers⟩ :=
    storesInOrder_of_flat .nonprel (blockOrder.map (s.levelRegister level)) hflat s.x (by simp [hlength]) hordinary
  obtain ⟨hexec, hregs⟩ := srb_result hallowed horder
  refine ⟨_, hexec, by rw [hu]; rfl, hregs, ?_, fun k r hkr => ?_, hothers⟩
  · have hvalue := hvalues 0 (by simp [hlength])
    rw [word_add_ofNat_zero] at hvalue
    refine hvalue.trans ?_
    simp [blockOrder, State.levelRegister, RegSet.get]
  · simp only [List.mem_cons, List.not_mem_nil, or_false, Prod.mk.injEq] at hkr
    rcases hkr with ⟨rfl, rfl⟩ | ⟨rfl, rfl⟩ | ⟨rfl, rfl⟩ | ⟨rfl, rfl⟩ | ⟨rfl, rfl⟩ | ⟨rfl, rfl⟩ | ⟨rfl, rfl⟩
    all_goals exact (hvalues _ (by simp [hlength])).trans (by simp [blockOrder, State.levelRegister])

theorem lrb_of_flat (level : BitVec 4) :
    ∃ t, exec (.lrb level) s = .next t ∧ onlyRegisters s t ∧
      (∀ l, l ≠ level → l ≠ s.pil → t.reg l = s.reg l) ∧
      (level ≠ s.pil → RegistersBecome s { t with regs := t.regs.set level.toNat (s.reg level) level.isLt } [] []
        (s.p + 1)) ∧
      (t.reg level).p = (if level = s.pil then s.p + 1 else s.wordAt s.x) ∧
      (t.reg level).sts = BitVec.ofNat 8 (s.wordAt (s.x + 6)).toNat ∧
      ∀ k r, (k, r) ∈ [(1, RField.x), (2, .t), (3, .a), (4, .d), (5, .l), (7, .b)] →
        (t.reg level).get r = s.wordAt (s.x + BitVec.ofNat 16 k) := by
  have hreads := readsInOrder_of_flat .nonprel hflat 8 hordinary
  obtain ⟨t, hexec, honly, hother, hcur, hlevel⟩ := lrb_result (level := level) hallowed hreads
  have hpil : t.pil = s.pil := by rw [honly]
  refine ⟨t, hexec, honly, hother, fun hne => ?_, ?_, ?_, fun k r hkr => ?_⟩
  · refine registersBecome_of_advance (u := t.setReg level (s.reg level)) hpil ?_ fun l hl => ?_
    · exact (t.reg_setReg_ne _ (hpil.trans_ne hne.symm)).trans (hcur hne)
    · by_cases h : l = level
      · subst h; exact t.reg_setReg_self l _
      · exact (t.reg_setReg_ne _ h).trans (hother l h hl)
  · have hfirst := word_add_ofNat_zero s.x
    simp only [hlevel, hfirst]
  · rw [hlevel]
    rfl
  · simp only [List.mem_cons, List.not_mem_nil, or_false, Prod.mk.injEq] at hkr
    rcases hkr with ⟨rfl, rfl⟩ | ⟨rfl, rfl⟩ | ⟨rfl, rfl⟩ | ⟨rfl, rfl⟩ | ⟨rfl, rfl⟩ | ⟨rfl, rfl⟩
    all_goals rw [hlevel]; rfl

end Flat

/-- Settles O57. -/
theorem registerBlocks : Obligations.RegisterBlocks := by
  unfold Obligations.RegisterBlocks
  refine ⟨?_, fun s s1 level p x tt a d l sts b hallowed h => lrb_result hallowed h, fun s level hallowed hflat hordinary =>
    ⟨srb_of_flat hallowed hflat hordinary level, lrb_of_flat hallowed hflat hordinary level⟩⟩
  rintro s s1 level r hallowed rfl h
  rw [← blockOrder_levelRegister] at h
  obtain ⟨hexec, hregs⟩ := srb_result hallowed h
  exact ⟨_, hexec, rfl, hregs⟩

end Sys2Proof.Machine
end

section
/-! The internal registers: what TRA delivers and opens, what TRR, MCL and MST write
(`spec/50_internal_register_instr.md` R532 to R535; `spec/10_state.md` R46 to R71). -/

namespace Sys2Proof.Machine

/-! ### TRA -/

theorem toNat_append_eq {m n : Nat} (a : BitVec m) (b : BitVec n) : (a ++ b).toNat = a.toNat * 2 ^ n + b.toNat := by
  rw [BitVec.toNat_append, ← Nat.shiftLeft_add_eq_or_of_lt b.isLt, Nat.shiftLeft_eq]

/-- The bits of the status word (R36). -/
theorem State.statusWord_toNat (s : State) :
    s.statusWord.toNat =
      s.ioni.toNat * 32768 + s.poni.toNat * 16384 + s.sexi.toNat * 8192 + 4096 + s.pil.toNat * 256 + s.sts.toNat := by
  have hone : (1 : BitVec 1).toNat = 1 := rfl
  simp only [State.statusWord, toNat_append_eq, BitVec.toNat_ofBool, hone]
  omega

theorem State.advance_setA {s t : State} (hcur : t.cur = s.cur) (v : Word) :
    (t.setA v).advance = (t.setA v).setP (s.p + 1) := by
  have hp : (t.setA v).p = s.p := by rw [State.p_setA, State.p, hcur, State.p]
  rw [State.advance, hp]

/-- TRA: the word into A, with the locks that reading opens (R532). -/
theorem exec_tra_of_read {s t : State} (hallowed : s.mayRunPrivileged = true) {n : BitVec 4} {v : Word}
    (hread : s.traRead n = (v, t)) : exec (.tra n) s = .next (t.setA v).advance := by
  have hexec : exec (.tra n) s = s.privileged (.next ((s.traRead n).2.setA (s.traRead n).1).advance) := rfl
  rw [hexec, State.privileged_of_allowed hallowed, hread]

theorem State.pvlWord_eq (s : State) : s.pvlWord = BitVec.ofNat 16 (0o153602 + 8 * s.pvl.toNat) := by
  rw [State.pvlWord]
  generalize s.pvl = l
  revert l
  decide

theorem twoPow_level (l : BitVec 4) : BitVec.twoPow 16 l.toNat = BitVec.ofNat 16 (2 ^ l.toNat) := by
  revert l
  decide

/-- The layout of TRA PGC (R66, D5). -/
theorem Pcr.word_eq (r : Pcr) : r.word = BitVec.ofNat 16 (r.pt.toNat * 512 + r.apt.toNat * 128 + r.ring.toNat) := by
  refine BitVec.eq_of_toNat_eq ?_
  have hzero : (0 : BitVec 5).toNat = 0 := rfl
  simp only [Pcr.word, toNat_append_eq, hzero, BitVec.toNat_ofNat]
  omega

/-- The registers that TRA reads without a word of their own below: which word, and which lock is opened (R532). -/
theorem traRead_eq {s t : State} {n : BitVec 4} {v : Word}
    (h : (n, v, t) ∈ [((1 : BitVec 4), s.statusWord, s), (2, s.opr, s),
       (3, if s.cfg.hasMms then s.psr else 0, if s.cfg.hasMms then { s with psrLock := false } else s),
       (4, BitVec.ofNat 16 (0o153602 + 8 * s.pvl.toNat), s),
       (5, BitVec.ofNat 16 s.iic.toNat, { s with iic := 0, iicLock := false }), (6, s.pid ||| s.lines, s),
       (7, s.pie, s), (9, BitVec.ofNat 16 (2 ^ s.pil.toNat), s), (11, s.pes, s),
       (12, if s.cfg.hasMms then
           BitVec.ofNat 16 ((s.pcrOf (s.a.extractLsb' 3 4)).pt.toNat * 512 +
             (s.pcrOf (s.a.extractLsb' 3 4)).apt.toNat * 128 + (s.pcrOf (s.a.extractLsb' 3 4)).ring.toNat)
         else 0, s),
       (13, s.pea, { s with pesLock := false }), (14, 0, s), (15, 0, s)]) :
    s.traRead n = (v, t) ∧ t.cur = s.cur := by
  simp only [List.mem_cons, List.not_mem_nil, or_false, Prod.mk.injEq] at h
  rcases h with ⟨rfl, rfl, rfl⟩ | ⟨rfl, rfl, rfl⟩ | ⟨rfl, rfl, rfl⟩ | ⟨rfl, rfl, rfl⟩ | ⟨rfl, rfl, rfl⟩ | ⟨rfl, rfl, rfl⟩ |
    ⟨rfl, rfl, rfl⟩ | ⟨rfl, rfl, rfl⟩ | ⟨rfl, rfl, rfl⟩ | ⟨rfl, rfl, rfl⟩ | ⟨rfl, rfl, rfl⟩ | ⟨rfl, rfl, rfl⟩ |
    ⟨rfl, rfl, rfl⟩
  case inr.inr.inl =>
    cases hmms : s.cfg.hasMms
    · exact ⟨if_neg (by rw [hmms]; exact Bool.false_ne_true), rfl⟩
    · exact ⟨if_pos hmms, rfl⟩
  case inr.inr.inr.inl => exact ⟨congrArg (·, _) (State.pvlWord_eq _), rfl⟩
  case inr.inr.inr.inr.inl =>
    exact ⟨congrArg (·, _) (by simp), rfl⟩
  case inr.inr.inr.inr.inr.inr.inr.inl => exact ⟨congrArg (·, _) (twoPow_level _), rfl⟩
  case inr.inr.inr.inr.inr.inr.inr.inr.inr.inl =>
    rw [← Pcr.word_eq]
    exact ⟨rfl, rfl⟩
  all_goals exact ⟨rfl, rfl⟩

/-- The panel status word (R58; log 25). -/
theorem State.pans_toNat (s : State) (bit11 : Bool) :
    (s.pans bit11).toNat =
      32768 + (if s.panel.fifo.length < s.cfg.panelFifoDepth then 16384 else 0) + s.panel.read.toNat * 8192 +
        s.panel.comRdy.toNat * 4096 + bit11.toNat * 2048 + s.panel.pcom.toNat * 256 + s.panel.rpan.toNat := by
  have hroom : (if s.panel.fifo.length < s.cfg.panelFifoDepth then 16384 else 0) =
      (decide (s.panel.fifo.length < s.cfg.panelFifoDepth)).toNat * 16384 := by
    split <;> rename_i h <;> simp [h]
  rw [hroom]
  simp only [State.pans, toNat_append_eq, BitVec.toNat_ofBool, Bool.toNat_true]
  omega

theorem tra_panel {s : State} (hallowed : s.mayRunPrivileged = true) (hpanel : s.panelPresent = true) :
    ∃ (u : State) (v : Word) (b : Bool), exec (.tra 0) s = .next u ∧ RegistersBecome s u [(.a, v)] [] (s.p + 1) ∧
      u = { s with regs := u.regs, freeCount := u.freeCount, panel := { s.panel with comRdy := false } } ∧
      v.toNat =
        32768 + (if s.panel.fifo.length < s.cfg.panelFifoDepth then 16384 else 0) + s.panel.read.toNat * 8192 +
          s.panel.comRdy.toNat * 4096 + b.toNat * 2048 + s.panel.pcom.toNat * 256 + s.panel.rpan.toNat := by
  obtain ⟨u, hread, hu⟩ : ∃ u, s.traRead 0 = (s.pans s.drawBit.1, u) ∧
      u = { s.drawBit.2 with panel := { s.panel with comRdy := false } } := ⟨_, if_pos hpanel, rfl⟩
  have hregs : u.regs = s.regs := by rw [hu]; rfl
  have hpil : u.pil = s.pil := by rw [hu]; rfl
  refine ⟨_, _, s.drawBit.1, exec_tra_of_read hallowed hread,
    registersBecome_put_advance (r := .a) hregs hpil nofun nofun (s.pans s.drawBit.1), ?_, s.pans_toNat _⟩
  subst hu
  rfl

/-- CUP in the words of the statement (R881). -/
theorem State.cacheUpdate_iff {s : State} (hcache : (s.cfg.hasMms && s.cfg.hasCache) = true)
    (hsorted : cacheSorted s.cache = true) :
    s.cacheUpdate = true ↔
      s.cacheClearing = false ∧ s.shadowReached (s.p + 1) = false ∧
        ∃ pa u, s.translate .fetch .prel (s.p + 1) = .done pa u ∧
          ¬ (s.lcil.toNat ≤ pa.toNat / 1024 ∧ pa.toNat / 1024 ≤ s.ucil.toNat) ∧
          ∀ e ∈ s.cache, e.index.toNat = pa.toNat % 1024 → e.cpn.toNat ≠ pa.toNat / 1024 := by
  have hmiss (pa : PhysAddr) : (s.cacheHit pa).isNone = true ↔
      ∀ e ∈ s.cache, e.index.toNat = pa.toNat % 1024 → e.cpn.toNat ≠ pa.toNat / 1024 := by
    constructor
    · intro hnone e he hindex hpage
      rw [State.cacheHit_eq_some hsorted he hindex hpage] at hnone
      cases hnone
    · intro h
      rw [State.cacheHit_eq_none fun e he ⟨hindex, hpage⟩ => h e he hindex hpage]
      rfl
  have hinhibit (pa : PhysAddr) : (!s.cacheInhibited (pageOf pa)) = true ↔
      ¬ (s.lcil.toNat ≤ pa.toNat / 1024 ∧ pa.toNat / 1024 ≤ s.ucil.toNat) := by
    rw [← s.cacheInhibited_pageOf_iff, Bool.not_eq_true', Bool.not_eq_true]
  rw [State.cacheUpdate, State.cacheEnabled, hcache, Bool.true_and, Bool.and_eq_true, Bool.and_eq_true, Bool.not_eq_true',
    Bool.not_eq_true', and_assoc]
  refine and_congr_right fun _ => and_congr_right fun _ => ?_
  cases htranslate : s.translate .fetch .prel (s.p + 1) with
  | aborted u => simp
  | done pa u =>
    rw [Bool.and_eq_true, hinhibit, hmiss]
    constructor
    · exact fun h => ⟨pa, u, rfl, h⟩
    · rintro ⟨pa', u', heq, h⟩
      cases heq
      exact h

/-- Settles O54: each register by `traRead`, ALD by its table, PANS and CSR by their bits. -/
theorem internalRegisterRead : Obligations.InternalRegisterRead := by
  unfold Obligations.InternalRegisterRead
  refine ⟨fun s t n v hallowed h => ?_, fun s w hallowed hald => ?_, fun s hallowed => ⟨fun hpanel => ?_, tra_panel hallowed⟩,
    fun s update hallowed => ⟨fun hnone => ?_, fun hcache hsorted hupdate => ?_⟩⟩
  · obtain ⟨hread, hcur⟩ := traRead_eq h
    exact ⟨by rw [exec_tra_of_read hallowed hread, State.advance_setA hcur], s.statusWord_toNat⟩
  · have hword : aldValue s.cfg.ald = w := by
      generalize s.cfg.ald = switch at hald
      revert w
      cases switch <;> simp [aldValue]
    have hread : s.traRead 10 = (w, s) := congrArg (·, s) hword
    rw [exec_tra_of_read hallowed hread, State.advance_setA rfl]
  · have hread : s.traRead 0 = (0, s) := if_neg (by rw [hpanel]; exact Bool.false_ne_true)
    rw [exec_tra_of_read hallowed hread, State.advance_setA rfl]
  · have hread : s.traRead 8 = (4, s) := congrArg (·, s) (if_neg (by rw [hnone]; exact Bool.false_ne_true))
    rw [exec_tra_of_read hallowed hread, State.advance_setA rfl]
  · have hbit : s.cacheUpdate = update := Bool.eq_iff_iff.2 ((State.cacheUpdate_iff hcache hsorted).trans hupdate.symm)
    have hon : s.cacheEnabled = !s.cacheClearing := by rw [State.cacheEnabled, hcache, Bool.true_and]
    have hcsr : s.csr = BitVec.ofNat 16 (update.toNat + 2 * (!s.cacheClearing).toNat) := by
      rw [State.csr, if_pos hcache, wordOfBits_eq, hbit, hon]
      rfl
    have hread : s.traRead 8 = (s.csr, s) := rfl
    rw [exec_tra_of_read hallowed hread, State.advance_setA rfl, hcsr]

/-! ### TRR, MCL and MST -/

/-- TRR: what is written, and P at the next word (R533). -/
theorem exec_trr_of_write {s t : State} (hallowed : s.mayRunPrivileged = true) {n : BitVec 4}
    (hwrite : s.trrWrite n s.a = some t) : exec (.trr n) s = .next t.advance := by
  refine (State.privileged_of_allowed hallowed _).trans ?_
  rw [hwrite]

theorem exec_trr_of_refused {s : State} (hallowed : s.mayRunPrivileged = true) {n : BitVec 4}
    (hwrite : s.trrWrite n s.a = none) : exec (.trr n) s = .refused .panelFifoFull := by
  refine (State.privileged_of_allowed hallowed _).trans ?_
  rw [hwrite]

/-- The state after each code of TRR but PANC and PCR: the registers written, and the codes that write nothing (R533, D9). -/
def trrWrites (s : State) : List (BitVec 4 × State) :=
  [(1, s.setSts (BitVec.ofNat 8 s.a.toNat)), (2, { s with lmp := s.a }), (4, s), (5, { s with iie := s.a &&& 0o3776 }),
    (6, { s with pid := s.a }), (7, { s with pie := s.a }), (8, { s with cache := [], cacheClearing := true }),
    (9, { s with lcil := BitVec.ofNat 14 s.a.toNat }), (10, { s with ucil := BitVec.ofNat 14 s.a.toNat }), (11, s), (12, s),
    (13, { s.yieldBus with eccr := BitVec.ofNat 5 s.a.toNat }), (14, s), (15, s)]

/-- The state after MCL and MST of the registers that they reach (R534, R535). -/
def maskWrites (s : State) : List (Instr × State) :=
  [(.mcl 6, { s with pid := s.pid &&& ~~~ s.a }), (.mcl 7, { s with pie := s.pie &&& ~~~ s.a }),
    (.mst 6, { s with pid := s.pid ||| s.a }), (.mst 7, { s with pie := s.pie ||| s.a }),
    (.mcl 1, s.setSts (s.sts &&& ~~~ BitVec.ofNat 8 s.a.toNat)),
    (.mst 1, s.setSts (s.sts ||| BitVec.ofNat 8 s.a.toNat))]

theorem trrWrite_eq {s t : State} {n : BitVec 4} (h : (n, t) ∈ trrWrites s) :
    s.trrWrite n s.a = some t ∧ t.p = s.p := by
  simp only [trrWrites, List.mem_cons, List.not_mem_nil, or_false, Prod.mk.injEq] at h
  rcases h with ⟨rfl, rfl⟩ | ⟨rfl, rfl⟩ | ⟨rfl, rfl⟩ | ⟨rfl, rfl⟩ | ⟨rfl, rfl⟩ | ⟨rfl, rfl⟩ | ⟨rfl, rfl⟩ | ⟨rfl, rfl⟩ |
    ⟨rfl, rfl⟩ | ⟨rfl, rfl⟩ | ⟨rfl, rfl⟩ | ⟨rfl, rfl⟩ | ⟨rfl, rfl⟩ | ⟨rfl, rfl⟩
  case inl => exact ⟨rfl, s.p_setSts _⟩
  case inr.inr.inr.inr.inr.inr.inr.inr.inr.inr.inr.inl =>
    exact ⟨rfl, congrArg RegSet.p (State.cur_of_regs s.yieldBus_regs s.yieldBus_pil)⟩
  all_goals exact ⟨rfl, rfl⟩

/-- MCL and MST of registers that neither reaches write nothing (R534, R535, D9). -/
theorem exec_mcl_mst_of_other {s : State} (hallowed : s.mayRunPrivileged = true) {n : BitVec 4}
    (hn : n ∉ [(1 : BitVec 4), 6, 7]) {i : Instr} (hi : i = .mcl n ∨ i = .mst n) : exec i s = .next s.advance := by
  have hcode (k : BitVec 4) (hk : k ∈ [(1 : BitVec 4), 6, 7]) : n.toNat ≠ k.toNat := fun e =>
    hn (BitVec.eq_of_toNat_eq e ▸ hk)
  have h1 : n.toNat ≠ 1 := hcode 1 (by decide)
  have h6 : n.toNat ≠ 6 := hcode 6 (by decide)
  have h7 : n.toNat ≠ 7 := hcode 7 (by decide)
  rcases hi with rfl | rfl <;> refine (State.privileged_of_allowed hallowed _).trans ?_ <;> split <;> simp_all

theorem exec_of_maskWrites {s t : State} (hallowed : s.mayRunPrivileged = true) {i : Instr} (h : (i, t) ∈ maskWrites s) :
    exec i s = .next t.advance ∧ t.p = s.p := by
  simp only [maskWrites, List.mem_cons, List.not_mem_nil, or_false, Prod.mk.injEq] at h
  rcases h with ⟨rfl, rfl⟩ | ⟨rfl, rfl⟩ | ⟨rfl, rfl⟩ | ⟨rfl, rfl⟩ | ⟨rfl, rfl⟩ | ⟨rfl, rfl⟩
  case inr.inr.inr.inr.inl | inr.inr.inr.inr.inr =>
    exact ⟨State.privileged_of_allowed hallowed _, s.p_setSts _⟩
  all_goals exact ⟨State.privileged_of_allowed hallowed _, rfl⟩

theorem State.advance_eq_setP {s t : State} (hp : t.p = s.p) : t.advance = t.setP (s.p + 1) := by
  rw [State.advance, hp]

/-- The fields of a word in the layout of TRA PGC, the other bits 0 (R66, D5). -/
theorem pcrWord_of_fields (v : Word) :
    ({ pt := v.extractLsb' 9 2, apt := v.extractLsb' 7 2, ring := v.extractLsb' 0 2 } : Pcr).word = v &&& 0o003603 := by
  refine BitVec.eq_of_getLsbD_eq fun i hi => ?_
  simp only [Pcr.word, BitVec.getLsbD_append, BitVec.getLsbD_extractLsb', BitVec.getLsbD_and]
  interval_cases i <;> simp

/-- TRR PCR (R533, R66). -/
theorem trr_pcr {s : State} (hallowed : s.mayRunPrivileged = true) :
    ∃ t, exec (.trr 3) s = .next t ∧ RegistersBecome s t [] [] (s.p + 1) ∧ t = { s with regs := t.regs, pcr := t.pcr } ∧
      (s.cfg.hasMms = false → t.pcr = s.pcr) ∧
      (s.cfg.hasMms = true →
        (t.pcrOf (s.a.extractLsb' 3 4)).word = s.a &&& 0o003603 ∧
        ∀ l, l ≠ s.a.extractLsb' 3 4 → t.pcrOf l = s.pcrOf l) := by
  cases hmms : s.cfg.hasMms with
  | false =>
    have hwrite : s.trrWrite 3 s.a = some s := if_neg (by rw [hmms]; exact Bool.false_ne_true)
    exact ⟨_, exec_trr_of_write hallowed hwrite, registersBecome_advance rfl rfl, rfl, fun _ => rfl, nofun⟩
  | true =>
    set r : Pcr := { pt := s.a.extractLsb' 9 2, apt := s.a.extractLsb' 7 2, ring := s.a.extractLsb' 0 2 } with hr
    have hwrite : s.trrWrite 3 s.a = some (s.setPcr (s.a.extractLsb' 3 4) r) := if_pos hmms
    refine ⟨_, exec_trr_of_write hallowed hwrite, registersBecome_advance rfl rfl, rfl, nofun, fun _ => ⟨?_, fun l hl => ?_⟩⟩
    · exact (congrArg Pcr.word (s.pcrOf_setPcr_self _ r)).trans (pcrWord_of_fields s.a)
    · exact s.pcrOf_setPcr_ne r hl

/-- Settles O55. -/
theorem internalRegisterWrite : Obligations.InternalRegisterWrite := by
  unfold Obligations.InternalRegisterWrite
  refine ⟨fun s t i hallowed h => ?_, fun s hallowed hpanel hfull => ?_, fun s hallowed => trr_pcr hallowed⟩
  · have hnext : exec i s = .next t.advance ∧ t.p = s.p := by
      rcases h with h | ⟨rfl, hpanel, rfl⟩ | ⟨rfl, hpanel, hroom, rfl⟩ | ⟨n, hn, hi, rfl⟩
      · have hsplit : (i, t) ∈ (trrWrites s).map (fun e => (Instr.trr e.1, e.2)) ++ maskWrites s := h
        rcases List.mem_append.1 hsplit with htrr | hmask
        · obtain ⟨⟨n, u⟩, hwrites, heq⟩ := List.mem_map.1 htrr
          cases heq
          obtain ⟨hwrite, hp⟩ := trrWrite_eq hwrites
          exact ⟨exec_trr_of_write hallowed hwrite, hp⟩
        · exact exec_of_maskWrites hallowed hmask
      · exact ⟨exec_trr_of_write hallowed (by simp [State.trrWrite, hpanel]), rfl⟩
      · exact ⟨exec_trr_of_write hallowed (by simp [State.trrWrite, hpanel, hroom]), rfl⟩
      · exact ⟨exec_mcl_mst_of_other hallowed hn hi, rfl⟩
    obtain ⟨hexec, hp⟩ := hnext
    rw [hexec, State.advance_eq_setP hp]
  · refine exec_trr_of_refused hallowed ?_
    have hroom : ¬ s.panel.fifo.length < s.cfg.panelFifoDepth := Nat.not_lt.2 hfull
    simp [State.trrWrite, hpanel, hroom]

end Sys2Proof.Machine
end

section
/-! The loads of the physical memory instructions: a word of main memory, through the cache where it is in use, or of the
page tables (`spec/51_physical_memory.md` R561 to R570; `spec/20_memory.md` R156, R161). -/

namespace Sys2Proof.Machine

/-! ### Reads of the bus -/

theorem cacheSorted_cacheFill {s : State} (h : cacheSorted s.cache = true) (pa : PhysAddr) (w : Word) :
    cacheSorted (s.cacheFill pa w).cache = true := by
  unfold State.cacheFill
  split
  · exact h
  · rw [cacheSorted_iff] at h ⊢
    rw [dropLine_eq_filter]
    exact insertLine_pairwise _ _ (fun e he => by simpa using (List.mem_filter.1 he).2) (h.filter _)

/-- What a read of the bus leaves: the registers and, with no other agent on the bus, the control state and memory. -/
theorem onlyRead_of_busRead (s : State) (src : MemSource) (pa : PhysAddr) : OnlyRead s (s.busRead src pa).2 := by
  rw [State.busRead_frame]
  refine ⟨rfl, rfl, fun hq => ?_⟩
  rw [State.yieldBus_quiet hq]
  exact ⟨by simp only [keepsControl, and_self], rfl, rfl⟩

/-- A good word is read past the cache, and nothing changes (R101). -/
theorem State.busRead_of_goodWord {s : State} {pa : PhysAddr} (h : s.goodWord pa) (src : MemSource) :
    s.busRead src pa = (s.mem.readWord pa, s) := by
  obtain ⟨hsteals, hmonitor, hpresent, hoff, hgood⟩ := h
  rw [State.busRead_uncached hsteals hoff, State.physRead_of_good hpresent hgood, State.strobe_quiet hmonitor]

section Cached

variable {s : State} (hsteals : s.steals = []) (hon : s.cacheEnabled = true) (hsorted : cacheSorted s.cache = true)
include hsteals hon hsorted

/-- A read of the bus with the cache in use (R156). -/
theorem readThroughCache_busRead (src : MemSource) (pa : PhysAddr) :
    readThroughCache s src pa (s.busRead src pa).1 (s.busRead src pa).2 := by
  by_cases hheld : ∃ e ∈ s.cache, e.index.toNat = pa.toNat % 1024 ∧ e.cpn.toNat = pa.toNat / 1024
  · obtain ⟨e, he, hindex, hpage⟩ := hheld
    rw [State.busRead_hit hsteals hon (State.cacheHit_eq_some hsorted he hindex hpage)]
    exact .inl ⟨rfl, e, he, hindex, hpage, rfl⟩
  · have hnone (e : CacheLine) (he : e ∈ s.cache) :
        ¬ (e.index.toNat = pa.toNat % 1024 ∧ e.cpn.toNat = pa.toNat / 1024) := fun h => hheld ⟨e, he, h⟩
    have hcache : (s.physRead src pa).2.cache = s.cache := by rw [State.physRead_frame]
    rw [State.busRead_miss hsteals hon (State.cacheHit_eq_none hnone)]
    refine .inr ⟨hnone, Prod.ext rfl (State.cacheFill_restore hcache pa _).symm, cachedAfter_cacheFill hcache ?_ ?_ pa _⟩
    · rw [State.physRead_frame]
    · rw [State.physRead_frame]

/-- The cache stays in use and sorted. -/
theorem cached_of_busRead (src : MemSource) (pa : PhysAddr) :
    (s.busRead src pa).2.steals = [] ∧ (s.busRead src pa).2.cacheEnabled = true ∧
      cacheSorted (s.busRead src pa).2.cache = true := by
  have hframe := s.busRead_frame src pa
  refine ⟨?_, ?_, ?_⟩
  · rw [hframe, State.yieldBus_quiet hsteals]
    exact hsteals
  · rw [hframe]
    exact hon
  · cases hhit : s.cacheHit pa with
    | some w => rwa [State.busRead_hit hsteals hon hhit]
    | none =>
      rw [State.busRead_miss hsteals hon hhit]
      refine cacheSorted_cacheFill ?_ _ _
      rw [State.physRead_frame]
      exact hsorted

end Cached

/-! ### Reads of the xxxTX group -/

theorem State.xRead_of_memory {s : State} {pa : PhysAddr} (h : s.txShadow pa = false) :
    s.xRead pa = s.busRead .data pa := if_neg (by rw [h]; exact Bool.false_ne_true)

/-- What can be read without an error is read, and nothing changes (R566). -/
theorem State.xRead_of_readable {s : State} {pa : PhysAddr} (h : s.physicallyReadable pa) :
    s.xRead pa = (s.physicalWord pa, s) := by
  rw [State.xRead, State.physicalWord]
  by_cases hshadow : s.txShadow pa = true
  · rw [if_pos hshadow, if_pos hshadow, extractLsb'_low_eq_setWidth]
  · rw [if_neg hshadow, if_neg hshadow, State.busRead_of_goodWord (h.resolve_left hshadow)]

section Loads

variable {s u : State} (hallowed : s.mayRunPrivileged = true) {delta : BitVec 3} {v : Word} (hread : OnlyRead s u)
  (hword : s.xRead (txAddressOf s delta 0) = (v, u))
include hallowed hread hword

theorem ldatx_of_read :
    ∃ t, exec (.ldatx delta) s = .next t ∧ onlyRegisters u t ∧ RegistersBecome s t [(.a, v)] [] (s.p + 1) := by
  have hexec : exec (.ldatx delta) s =
      s.privileged (.next ((s.xRead (s.txAddress delta 0)).2.setA (s.xRead (s.txAddress delta 0)).1).advance) := rfl
  rw [State.privileged_of_allowed hallowed, State.txAddress_zero, hword] at hexec
  exact ⟨_, hexec, rfl, registersBecome_put_advance (r := .a) hread.regs hread.pil nofun nofun v⟩

theorem ldxtx_of_read :
    ∃ t, exec (.ldxtx delta) s = .next t ∧ onlyRegisters u t ∧ RegistersBecome s t [(.x, v)] [] (s.p + 1) := by
  have hexec : exec (.ldxtx delta) s =
      s.privileged (.next ((s.xRead (s.txAddress delta 0)).2.setX (s.xRead (s.txAddress delta 0)).1).advance) := rfl
  rw [State.privileged_of_allowed hallowed, State.txAddress_zero, hword] at hexec
  exact ⟨_, hexec, rfl, registersBecome_put_advance (r := .x) hread.regs hread.pil nofun nofun v⟩

/-- The doubled word as an address of the extended shadow range (R570). -/
theorem ldbtx_of_read (hmicroprogram : s.cfg.earlyMicroprogram = false ∨ s.peek (s.p + 1) = 0o177777) :
    ∃ t, exec (.ldbtx delta) s = .next t ∧ onlyRegisters u t ∧
      RegistersBecome s t [(.b, BitVec.ofNat 16 (0o177000 ||| v.toNat * 2 % 65536))] [] (s.p + 1) := by
  have hguard : ¬ (s.cfg.earlyMicroprogram && s.peek (s.p + 1) != 0o177777) = true := by
    rcases hmicroprogram with h | h
    · rw [h]; exact Bool.false_ne_true
    · rw [h, bne_self_eq_false, Bool.and_false]; exact Bool.false_ne_true
  have hvalue : (0o177000 ||| (v + v) : Word) = BitVec.ofNat 16 (0o177000 ||| v.toNat * 2 % 65536) := by
    have hsum : (v + v).toNat = v.toNat * 2 % 65536 := by rw [BitVec.toNat_add]; congr 1; omega
    refine BitVec.eq_of_toNat_eq ?_
    rw [BitVec.toNat_or, hsum, BitVec.toNat_ofNat]
    exact (Nat.mod_eq_of_lt (Nat.or_lt_two_pow (n := 16) (by decide) (Nat.mod_lt _ (by decide)))).symm
  have hexec : exec (.ldbtx delta) s =
      s.privileged (if s.cfg.earlyMicroprogram && s.peek (s.p + 1) != 0o177777 then .refused .earlyLdbtx
        else .next ((s.xRead (s.txAddress delta 0)).2.setB
          (0o177000 ||| ((s.xRead (s.txAddress delta 0)).1 + (s.xRead (s.txAddress delta 0)).1))).advance) := rfl
  rw [State.privileged_of_allowed hallowed, if_neg hguard, State.txAddress_zero, hword, hvalue] at hexec
  exact ⟨_, hexec, rfl, registersBecome_put_advance (r := .b) hread.regs hread.pil nofun nofun _⟩

/-- The two words of LDDTX, the second one read behind the first (R569). -/
theorem lddtx_of_reads {u' : State} {v' : Word} (hread' : OnlyRead u u')
    (hword' : u.xRead (txAddressOf s delta 1) = (v', u')) :
    ∃ t, exec (.lddtx delta) s = .next t ∧ onlyRegisters u' t ∧
      RegistersBecome s t [(.a, v), (.d, v')] [] (s.p + 1) := by
  have haddress : u.txAddress delta 1 = txAddressOf s delta 1 := by
    rw [← State.txAddress_one, State.txAddress, State.txAddress, State.t, State.t, State.x, State.x, hread.cur]
  have hexec : exec (.lddtx delta) s =
      s.privileged (let u := (s.xRead (s.txAddress delta 0)).2
        .next (((u.xRead (u.txAddress delta 1)).2.setA (s.xRead (s.txAddress delta 0)).1).setD
          (u.xRead (u.txAddress delta 1)).1).advance) := rfl
  rw [State.privileged_of_allowed hallowed, State.txAddress_zero, hword] at hexec
  simp only [haddress, hword'] at hexec
  have hboth := hread.trans hread'
  have hend := (((WritesOnly.refl [.a, .d] [] u').setA (by simp) v).setD (by simp) v').advance
  refine ⟨_, hexec, hend.only, registersBecome_of_writesOnly hboth.dataAccess hend ?_ nofun ?_⟩
  · simp [RegSet.get, State.advance]
  · simp [hboth.p]

end Loads

/-! ### The loads with the cache in use, and without it -/

theorem exam_of_read {s u : State} {pa : PhysAddr} {v : Word} (hallowed : s.mayRunPrivileged = true)
    (haddress : pa.toNat = s.a.toNat % 256 * 65536 + s.d.toNat) (hread : OnlyRead s u)
    (hword : s.busRead .examDepo pa = (v, u)) :
    ∃ t, exec .exam s = .next t ∧ onlyRegisters u t ∧ RegistersBecome s t [(.t, v)] [] (s.p + 1) := by
  have hexec := exec_exam_of_allowed hallowed
  rw [← State.eq_adAddress haddress, hword] at hexec
  exact ⟨_, hexec, rfl, registersBecome_put_advance (r := .t) hread.regs hread.pil nofun nofun v⟩

/-- Settles O58: each load by the reads that it makes. -/
theorem physicalLoads : Obligations.PhysicalLoads := by
  unfold Obligations.PhysicalLoads
  refine ⟨fun s pa hallowed haddress hgood => ?_, fun s delta hallowed hfirst => ?_,
    fun s pa delta hallowed hsteals hon hsorted => ⟨fun haddress => ?_, ?_⟩⟩
  · exact exam_of_read hallowed haddress (.refl s) (State.busRead_of_goodWord hgood .examDepo)
  · have hword := State.xRead_of_readable hfirst
    exact ⟨ldatx_of_read hallowed (.refl s) hword, ldxtx_of_read hallowed (.refl s) hword,
      fun hsecond => lddtx_of_reads hallowed (.refl s) hword (.refl s) (State.xRead_of_readable hsecond),
      ldbtx_of_read hallowed (.refl s) hword⟩
  · obtain ⟨t, hexec, honly, hregs⟩ := exam_of_read hallowed haddress (onlyRead_of_busRead s .examDepo pa) rfl
    exact ⟨_, _, t, readThroughCache_busRead hsteals hon hsorted .examDepo pa, hexec, honly, hregs⟩
  · rintro rfl hmemory
    set first := txAddressOf s delta 0 with hfirst
    have hread := onlyRead_of_busRead s .data first
    have hword : s.xRead first = s.busRead .data first := State.xRead_of_memory hmemory
    refine ⟨_, _, readThroughCache_busRead hsteals hon hsorted .data first, ldatx_of_read hallowed hread hword,
      ldxtx_of_read hallowed hread hword, ldbtx_of_read hallowed hread hword, fun hsecond => ?_⟩
    obtain ⟨hsteals', hon', hsorted'⟩ := cached_of_busRead hsteals hon hsorted .data first
    have hmemory' : (s.busRead .data first).2.txShadow (txAddressOf s delta 1) = false := by
      rw [State.busRead_frame]
      exact hsecond
    obtain ⟨t, hexec, honly, hregs⟩ := lddtx_of_reads hallowed hread hword (onlyRead_of_busRead _ .data _)
      (State.xRead_of_memory hmemory')
    exact ⟨_, _, t, readThroughCache_busRead hsteals' hon' hsorted' .data _, hexec, honly, hregs⟩

end Sys2Proof.Machine
end

section
/-! Interrupts and the operator: the source that the test latches, the trap of a privileged instruction, master clear, and the
start by the exclamation mark (`spec/60_exceptions.md` R660, R673, R700; `spec/62_operator.md` R810, R816). -/

namespace Sys2Proof.Machine

/-! ### Internal interrupts -/

/-- The source that the test latches: power fail first, else the highest code (R660, D11). -/
def State.latchedSource (s : State) : Nat :=
  if s.pendingInternal.getLsbD 10 then 10 else highestBit s.pendingInternal 16

theorem State.latchedSource_lt (s : State) : s.latchedSource < 16 := by
  unfold State.latchedSource
  split
  · decide
  · exact highestBit_lt _ 16 (by decide)

theorem State.latchedSource_pending {s : State} (h : s.pendingInternal ≠ 0) :
    s.pendingInternal.getLsbD s.latchedSource = true := by
  unfold State.latchedSource
  split
  · assumption
  · obtain ⟨m, hm, hset⟩ := exists_getLsbD_of_ne_zero h
    exact highestBit_set _ 16 m hm hset

theorem State.latchedSource_above {s : State} (hpow : s.pendingInternal.getLsbD 10 = false) {m : Nat}
    (hm : s.latchedSource < m) : s.pendingInternal.getLsbD m = false := by
  rw [State.latchedSource, if_neg (by rw [hpow]; exact Bool.false_ne_true)] at hm
  by_cases hlt : m < 16
  · exact highestBit_above _ 16 m hm hlt
  · exact BitVec.getLsbD_of_ge _ _ (Nat.le_of_not_lt hlt)

theorem State.latchInternal_of_waiting {s : State} (h : s.iicLock = true ∨ s.pendingInternal = 0) : s.latchInternal = s :=
  if_pos h.symm

theorem State.latchInternal_of_pending {s : State} (hlock : s.iicLock = false) (hpending : s.pendingInternal ≠ 0) :
    s.latchInternal =
      { s with
        iic := BitVec.ofNat 4 s.latchedSource, iicLock := true, iid := setBit s.iid s.latchedSource false
        pid := setBit s.pid 14 true } :=
  if_neg (by rw [hlock]; exact fun h => h.elim hpending Bool.false_ne_true)

/-- Settles O7. -/
theorem internalInterruptLatched : Obligations.InternalInterruptLatched := by
  unfold Obligations.InternalInterruptLatched
  refine fun s => ⟨State.latchInternal_of_waiting, fun hlock _ hpending => ?_⟩
  refine ⟨s.latchedSource, State.latchedSource_pending hpending, fun hpow => if_pos hpow,
    fun hpow m hm => State.latchedSource_above hpow hm, ?_⟩
  rw [State.latchInternal_of_pending hlock hpending]
  refine ⟨?_, rfl, rfl, rfl⟩
  rw [BitVec.toNat_ofNat]
  exact Nat.mod_eq_of_lt s.latchedSource_lt

/-! ### Privilege -/

theorem State.privileged_of_denied {s : State} (h : s.mayRunPrivileged = false) (effect : Result) :
    s.privileged effect = .next (s.raise .pi).advance := if_neg (by rw [h]; exact Bool.false_ne_true)

/-- Every privileged instruction is one behind the privilege check (R700). -/
theorem exec_of_isPrivileged {i : Instr} (h : isPrivileged i = true) (s : State) :
    ∃ effect, exec i s = s.privileged effect := by
  cases i with
  | tra | trr | mcl | mst | irr | irw | srb | lrb => exact ⟨_, rfl⟩
  | opcom | iof | ion | pof | piof | sex | rex | pon | pion | wait => exact ⟨_, rfl⟩
  | iox | ioxt | identPl10 | identPl11 | identPl12 | identPl13 | lwcs => exact ⟨_, rfl⟩
  | exam | depo | ldatx | ldxtx | lddtx | ldbtx | statx | stztx | stdtx => exact ⟨_, rfl⟩
  | _ => cases h

/-- Settles O21. -/
theorem privilegedInstructionTraps : Obligations.PrivilegedInstructionTraps := by
  unfold Obligations.PrivilegedInstructionTraps
  intro i s hi hdenied
  obtain ⟨effect, hexec⟩ := exec_of_isPrivileged hi s
  rw [State.privileged_of_denied hdenied] at hexec
  exact ⟨_, hexec, rfl, registersBecome_advance rfl rfl, rfl⟩

/-! ### Master clear -/

theorem Device.drives_clear (d : Device) (n : Nat) : d.clear.drives n = false := by
  cases d with
  | external e =>
    simp only [Device.clear, Device.drives, Lines.none]
    split <;> rfl
  | terminal e => simp [Device.clear, Device.drives, Terminal.clear, InputChannel.cleared, OutputChannel.cleared]
  | _ => exact Bool.and_false _

theorem State.line_masterClear (s : State) (n : Nat) : s.masterClear.line n = false := by
  have hdevices : s.masterClear.devices.any (fun d => d.drives n) = false := by
    rw [List.any_eq_false]
    intro d hd
    obtain ⟨e, _, rfl⟩ := List.mem_map.1 hd
    rw [e.drives_clear]
    exact Bool.false_ne_true
  rw [State.line, hdevices]
  simp [State.masterClear, Clock.clear, Console.clear]

/-- No interface has a request left (R744, R755, R760). -/
theorem State.lines_masterClear (s : State) : s.masterClear.lines = 0 := by
  simp only [State.lines, State.line_masterClear]
  rfl

/-- Settles O5. -/
theorem masterClearEffect : Obligations.MasterClearEffect := by
  unfold Obligations.MasterClearEffect
  intro s
  have hcache : s.masterClear.cacheEnabled = false := Bool.and_false _
  exact ⟨⟨rfl, rfl, rfl, rfl, rfl, rfl, rfl, rfl, rfl, rfl, hcache, rfl, rfl, rfl, rfl, rfl, rfl, rfl, rfl, rfl, rfl,
    s.lines_masterClear⟩, rfl, rfl, rfl, rfl, rfl, rfl, rfl, rfl, rfl, rfl, rfl, rfl, rfl, rfl, rfl, rfl⟩

/-! ### The exclamation mark -/

/-- The frame of registers looks at the register file and the level alone. -/
theorem RegistersBecome.of_regs {s t u : State} {rs : List (RField × Word)} {fs : List (Flag × Bool)} {p : Word}
    (h : RegistersBecome s t rs fs p) (hregs : u.regs = t.regs) (hpil : u.pil = t.pil) : RegistersBecome s u rs fs p := by
  obtain ⟨hlevel, hvalues, hflags, hnext, hrest, hkeptFlags, hothers⟩ := h
  have hcur := State.cur_of_regs hregs hpil
  have hflag (f : Flag) : u.flag f = t.flag f := by rw [State.flag, State.flag, State.sts, State.sts, hcur]
  refine ⟨hpil.trans hlevel, fun e he => ?_, fun e he => ?_, ?_, fun r hz hp hn => ?_, fun f hf => ?_, fun l hl => ?_⟩
  · rw [hcur, hvalues e he]
  · rw [hflag, hflags e he]
  · rw [State.p, hcur, ← hnext, State.p]
  · rw [hcur, hrest r hz hp hn]
  · rw [hflag, hkeptFlags f hf]
  · rw [State.reg_of_regs hregs, hothers l hl]

theorem registersBecome_setP (s : State) (p : Word) : RegistersBecome s (s.setP p) [] [] p :=
  registersBecome_of_writesOnly (.refl s) ((WritesOnly.refl [] [] s).setP p) nofun nofun (s.p_setP p)

theorem registersBecome_refl (s : State) : RegistersBecome s s [] [] s.p :=
  registersBecome_of_writesOnly (.refl s) (.refl [] [] s) nofun nofun rfl

/-- Where the machine starts: at the typed number, or where it stopped (R816, R817). -/
def State.startPoint (s : State) : State := if s.mopc.haveNum then s.setP s.numWord else s

theorem registersBecome_startPoint (s : State) :
    RegistersBecome s s.startPoint [] [] (if s.mopc.haveNum then BitVec.ofNat 16 s.mopc.num.toNat else s.p) := by
  unfold State.startPoint
  split
  · exact registersBecome_setP s s.numWord
  · exact registersBecome_refl s

theorem State.startPoint_frame (s : State) : s.startPoint = { s with regs := s.startPoint.regs } := by
  unfold State.startPoint
  split <;> rfl

/-- The exclamation mark in STOP, whatever letters stand before it (R816, R817; logs 19, 20). -/
theorem handleCharacter_start {s : State} (hstop : s.runState = .stop) :
    s.handleCharacter 0o41 = .next s.startPoint.continueRun.clearLine := by
  have hended : (if s.mopc.semi ≠ .none ∧ !keepsSemiRun 0o41 then s.stopRun else s) = s := by
    split
    · exact if_pos hstop
    · rfl
  have hcommand : s.command 0o41 =
      if isStopCharacter 0o41 ∧ s.runState = .stop then .next (s.stopCharacter 0o41) else .next s.answerQuestion := rfl
  rw [State.handleCharacter, hended, hcommand, if_pos ⟨by decide, hstop⟩]
  rfl

/-- Settles O60. -/
theorem operatorStart : Obligations.OperatorStart := by
  unfold Obligations.OperatorStart
  intro s hevents hstop hactive havail hchar houtq hdump hline
  set u : State := { s with console := { s.console with avail := false } } with hu
  have hstep : step s = u.handleCharacter 0o41 := by
    have hmopc : step s = s.mopcStep := by simp only [step, State.advanceMachine, hevents, State.machineStep, hstop]
    have htake : s.takeCharacter = (0o41, u) := Prod.ext hchar rfl
    simp only [hmopc, State.mopcStep, houtq, hline, hdump, hactive, havail, htake, Bool.and_self, if_true, if_false,
      Bool.false_eq_true]
  rw [handleCharacter_start (s := u) hstop] at hstep
  have hframe := u.startPoint_frame
  have hregs : RegistersBecome u u.startPoint.continueRun.clearLine [] [] _ := (registersBecome_startPoint u).of_regs rfl rfl
  refine ⟨_, hstep, rfl, rfl, rfl, rfl, ⟨hregs.level, nofun, nofun, hregs.next, hregs.rest⟩, ?_⟩
  rw [hframe]
  exact ⟨rfl, rfl, rfl, rfl, rfl⟩

end Sys2Proof.Machine
end

section
/-! The common part of the status word, the levels and the installation: no shared operation changes them, and of the
instructions only the switches of the status word do (`spec/60_exceptions.md` R660; `spec/49_system_control.md` R483 to R490). -/

namespace Sys2Proof.Machine

/-- The installation, the levels, and the bits of the status word that all levels share. -/
def State.common (s : State) : Installation × BitVec 4 × BitVec 4 × Bool × Bool × Bool :=
  (s.cfg, s.pil, s.pvl, s.ioni, s.poni, s.sexi)

/-- What no shared operation changes of `s`. -/
def SameCommon (s t : State) : Prop := t.common = s.common

theorem SameCommon.refl (s : State) : SameCommon s s := rfl

theorem sameCommon_of_onlyRegisters {s t : State} (h : onlyRegisters s t) : SameCommon s t := by
  rw [SameCommon, h]
  rfl

/-! ### The shared operations -/

namespace SameCommon

variable {s u : State} (h : SameCommon s u)
include h

theorem yieldBus : SameCommon s u.yieldBus := by
  rw [State.yieldBus_frame]
  exact h

theorem physRead (src : MemSource) (pa : PhysAddr) : SameCommon s (u.physRead src pa).2 := by
  rw [State.physRead_frame]
  exact h

theorem busRead (src : MemSource) (pa : PhysAddr) : SameCommon s (u.busRead src pa).2 := by
  rw [State.busRead_frame]
  exact h

theorem busWrite (src : MemSource) (pa : PhysAddr) (w : Word) : SameCommon s (u.busWrite src pa w) := by
  rw [State.busWrite_frame]
  exact h

theorem shadowWrite (va w : Word) : SameCommon s (u.shadowWrite va w) := by
  rw [State.shadowWrite_frame]
  exact h

theorem skipIf (c : Bool) : SameCommon s (u.skipIf c) := ite_keeps h h

theorem illegal : NextAll (SameCommon s) u.illegal := h

theorem privileged {e : Result} (he : NextAll (SameCommon s) e) : NextAll (SameCommon s) (u.privileged e) :=
  NextAll.ite he h

theorem withCx {r : Result} (hr : NextAll (SameCommon s) r) : NextAll (SameCommon s) (withCx u r) := NextAll.ite hr h

omit h in
theorem complete {α : Type} {x : Access α} {k : α → State → Result} (hx : x.All (SameCommon s))
    (hk : ∀ v u, SameCommon s u → NextAll (SameCommon s) (k v u)) : NextAll (SameCommon s) (x.complete k) := by
  cases x with
  | done v u => exact hk v u hx
  | aborted u => exact hx

/-! ### Accesses -/

theorem translate (kind : Kind) (rel : Rel) (va : Word) : (u.translate kind rel va).All (SameCommon s) := by
  cases e : u.translate kind rel va with
  | done pa t => rw [State.translate_done_frame e]; exact h
  | aborted t => rw [State.translate_aborted_frame e]; exact h

theorem memRead (kind : Kind) (rel : Rel) (va : Word) : (u.memRead kind rel va).All (SameCommon s) := by
  unfold State.memRead
  split
  · exact h
  · exact (h.translate kind rel va).bind fun pa _ h => h.busRead _ pa

theorem memWrite (rel : Rel) (va w : Word) : (u.memWrite rel va w).All (SameCommon s) := by
  unfold State.memWrite
  split
  · exact h.shadowWrite va w
  · exact (h.translate _ rel va).bind fun pa _ h => h.busWrite _ pa w

theorem effLoc (m : MemRef) : (u.effLoc m).All (SameCommon s) := by
  unfold State.effLoc
  dsimp only
  split
  · exact (h.memRead _ _ _).bind fun _ _ h => h
  · split <;> exact h

theorem readDouble (kind : Kind) (rel : Rel) (va : Word) : (u.readDouble kind rel va).All (SameCommon s) :=
  (h.memRead _ _ _).bind fun _ _ h => (h.memRead _ _ _).bind fun _ _ h => h

theorem readTriple (kind : Kind) (rel : Rel) (va : Word) : (u.readTriple kind rel va).All (SameCommon s) :=
  (h.memRead _ _ _).bind fun _ _ h => (h.memRead _ _ _).bind fun _ _ h => (h.memRead _ _ _).bind fun _ _ h => h

theorem storeList (rel : Rel) (ws : List Word) (va : Word) : (u.storeList rel va ws).All (SameCommon s) := by
  induction ws generalizing u va with
  | nil => exact h
  | cons w r ih => exact (h.memWrite _ _ _).bind fun _ _ h => ih h _

theorem loadWords (n : Nat) (va : Word) : (u.loadWords n va).All (SameCommon s) := by
  induction n generalizing u va with
  | zero => exact h
  | succ n ih => exact (h.memRead _ _ _).bind fun _ _ h => (ih h _).bind fun _ _ h => h

/-! ### Bytes -/

theorem loadByte (rel : Rel) (a : ByteAddr) : (u.loadByte rel a).All (SameCommon s) :=
  (h.memRead _ _ _).bind fun _ _ h => h

theorem storeByte (rel : Rel) (a : ByteAddr) (b : Byte) : (u.storeByte rel a b).All (SameCommon s) :=
  (h.memRead _ _ _).bind fun _ _ h => h.memWrite _ _ _

theorem fillBytes (n : Nat) : (fillBytes n u).All (SameCommon s) := by
  induction n generalizing u with
  | zero => exact h
  | succ n ih => exact (h.storeByte _ _ _).bind fun _ _ h => ih h

theorem readBytes (rel : Rel) (n : Nat) (a : ByteAddr) : (readBytes rel n a u).All (SameCommon s) := by
  induction n generalizing u a with
  | zero => exact h
  | succ n ih => exact (h.loadByte _ _).bind fun _ _ h => (ih h _).bind fun _ _ h => h

theorem writeBytes (rel : Rel) (bytes : List Byte) (a : ByteAddr) : (writeBytes rel bytes a u).All (SameCommon s) := by
  induction bytes generalizing u a with
  | nil => exact h
  | cons b r ih => exact (h.storeByte _ _ _).bind fun _ _ h => ih h _

theorem firstRefusal {rel : Rel} {bytes : List Byte} {a : ByteAddr} {t : State}
    (e : firstRefusal rel u bytes a = some t) : SameCommon s t := by
  induction bytes generalizing a with
  | nil => cases e
  | cons b r ih =>
    have hb := h.storeByte rel a b
    unfold Machine.firstRefusal at e
    cases hs : u.storeByte rel a b with
    | aborted v =>
      rw [hs] at e hb
      cases e
      exact hb
    | done _ v =>
      rw [hs] at e
      exact ih e

theorem storeMoved (src dst : ByteAddr) (bytes : List Byte) : (u.storeMoved src dst bytes).All (SameCommon s) := by
  have hw := h.writeBytes (descRel u.t) bytes dst
  unfold State.storeMoved
  split
  · rename_i now e
    rw [e] at hw
    split
    · exact hw
    · cases hf : Machine.firstRefusal (descRel u.t) u bytes dst with
      | some t => exact h.firstRefusal hf
      | none => exact hw
  · exact hw

theorem execMovb : NextAll (SameCommon s) (execMovb u) := by
  have hm := (h.readBytes (descRel u.d) u.moveLength.toNat (descAddr u.a u.d)).bind fun bytes _ h =>
    h.storeMoved (descAddr u.a u.d) (descAddr u.x u.t) bytes
  unfold Machine.execMovb
  dsimp only
  split
  · rename_i now e
    rw [e] at hm
    exact ite_keeps (P := SameCommon s) hm hm
  · rename_i t e
    rw [e] at hm
    exact hm

theorem moveForward (n : Nat) : (moveForward n u).All (SameCommon s) := by
  induction n generalizing u with
  | zero => exact h
  | succ n ih => exact (h.loadByte _ _).bind fun _ _ h => (h.storeByte _ _ _).bind fun _ _ h => ih h

/-! ### Decimal fields -/

theorem readPacked (d1 d2 : Word) : (u.readPacked d1 d2).All (SameCommon s) :=
  (h.readBytes _ _ _).bind fun _ _ h => h

theorem readBoth : u.readBoth.All (SameCommon s) :=
  (h.readPacked _ _).bind fun _ _ h => (h.readPacked _ _).bind fun _ _ h => h

theorem readFields (n1 n2 : Nat) : (u.readFields n1 n2).All (SameCommon s) :=
  (h.readBytes _ _ _).bind fun _ _ h => (h.readBytes _ _ _).bind fun _ _ h => h

theorem writeNibbles (half : Bool) (ns : List Nat) (a : ByteAddr) : (writeNibbles half ns a u).All (SameCommon s) := by
  induction half, ns, a, u using writeNibbles.induct with
  | case1 => unfold Machine.writeNibbles; exact h
  | case2 u n r a ih => exact ((h.memRead _ _ _).bind fun _ _ h => h.memWrite _ _ _).bind fun _ _ h => ih _ h
  | case3 => exact (h.memRead _ _ _).bind fun _ _ h => h.memWrite _ _ _
  | case4 u m n r a ih => exact (h.storeByte _ _ _).bind fun _ _ h => ih _ h

theorem writePacked (d1 d2 : Word) (neg : Bool) (mag : Nat) : (u.writePacked d1 d2 neg mag).All (SameCommon s) := by
  unfold State.writePacked
  split
  · exact h
  · exact h.writeNibbles _ _ _

theorem writeAscii (d1 d2 : Word) (neg : Bool) (mag : Nat) : (u.writeAscii d1 d2 neg mag).All (SameCommon s) := by
  unfold State.writeAscii
  split
  · exact h
  · exact h.writeBytes _ _ _

theorem drawNibbles (n : Nat) : SameCommon s (drawNibbles n u).2 := by
  induction n generalizing u with
  | zero => exact h
  | succ n ih => exact ih (u := u.drawWord.2) h

theorem arbitraryField (d1 d2 : Word) : (arbitraryField d1 d2 u).All (SameCommon s) :=
  (writeNibbles (u := (Machine.drawNibbles _ u).2.drawBit.2) (h.drawNibbles _) _ _ _).bind fun _ _ h => h

theorem sumSign (r : Int) (isOpen : Bool) : SameCommon s (sumSign r isOpen u).2 := by
  unfold Machine.sumSign
  split <;> exact h

omit h in
theorem decimalReturn {x : Access Bool} (hx : x.All (SameCommon s)) : NextAll (SameCommon s) (decimalReturn x) :=
  complete hx fun _ _ h => h.skipIf _

omit h in
theorem convertReturn {x : Access Bool} (hx : x.All (SameCommon s)) : NextAll (SameCommon s) (convertReturn x) :=
  complete hx fun _ _ h => ite_keeps (P := SameCommon s) h h

theorem decimalAdd (negate : Bool) : NextAll (SameCommon s) (decimalAdd negate u) := by
  refine decimalReturn (h.readBoth.bind fun (v1, v2) _ h => ?_)
  dsimp only
  split
  · exact h.arbitraryField _ _
  · exact ((h.sumSign _ _).writePacked _ _ _ _).bind fun _ _ h => h

theorem execPack : NextAll (SameCommon s) (execPack u) := by
  refine h.withCx (complete (h.readFields _ _) fun _ _ h => ?_)
  split
  · exact h
  · exact convertReturn ((h.writePacked _ _ _ _).bind fun _ _ h => h)

theorem execUpack : NextAll (SameCommon s) (execUpack u) := by
  refine h.withCx (complete (h.readFields _ _) fun _ _ h => ?_)
  dsimp only
  split
  · exact h
  · exact convertReturn ((h.writeAscii _ _ _ _).bind fun _ _ h => h)

theorem execShde : NextAll (SameCommon s) (execShde u) := by
  refine h.withCx (decimalReturn (h.readBoth.bind fun _ _ h => ?_))
  dsimp only
  split
  · exact h.arbitraryField _ _
  · exact (h.writePacked _ _ _ _).bind fun _ _ h => h

/-! ### Memory reference, floating point and stack instructions -/

theorem storeWord (m : MemRef) (w : Word) : NextAll (SameCommon s) (storeWord m w u) :=
  complete ((h.effLoc m).bind fun _ _ h => h.memWrite _ _ _) fun _ _ h => h

theorem withOperand (m : MemRef) {f : Word → State → State} (hf : ∀ w {u}, SameCommon s u → SameCommon s (f w u)) :
    NextAll (SameCommon s) (withOperand m u f) :=
  complete ((h.effLoc m).bind fun _ _ h => h.memRead _ _ _) fun w _ h => hf w h

theorem setAddFlags (r : Sum16) : SameCommon s (u.setAddFlags r) := ite_keeps (P := SameCommon s) h h

theorem floatingOp (op : FpOp) (m : MemRef) : NextAll (SameCommon s) (floatingOp op m u) :=
  NextAll.ite
    (complete ((h.effLoc m).bind fun _ _ h => h.readDouble _ _ _) fun _ _ h => ite_keeps (P := SameCommon s) h h)
    (complete ((h.effLoc m).bind fun _ _ h => h.readTriple _ _ _) fun _ _ h => ite_keeps (P := SameCommon s) h h)

theorem enterFrame (newB : Word) (f : Frame) (normal : Word) : NextAll (SameCommon s) (enterFrame newB f normal u) := by
  refine complete (Access.All.bind ?_ fun _ _ h => h.memWrite _ _ _) fun _ _ h => h
  rw [State.writeTriple_eq_storeList]
  exact h.storeList _ _ _

/-! ### Input and output, internal registers, physical memory -/

theorem ioTransfer (addr : Word) : SameCommon s (u.ioTransfer addr) := by
  have hread : SameCommon s (u.yieldBus.ioRead addr).2 := by rw [State.ioRead_frame]; exact h.yieldBus
  have hwrite : SameCommon s (u.yieldBus.ioWrite addr u.yieldBus.a) := by rw [State.ioWrite_frame]; exact h.yieldBus
  exact ite_keeps (P := SameCommon s) hwrite hread

theorem identSearch {level : Nat} {code : BitVec 9} {t : State} (e : u.identSearch level = some (code, t)) :
    SameCommon s t := by
  unfold State.identSearch at e
  repeat' split at e
  all_goals cases e
  all_goals exact h

theorem ident (level : Nat) : NextAll (SameCommon s) (ident level u) := by
  refine h.privileged ?_
  dsimp only
  split
  · rename_i e
    have hfound := h.yieldBus.identSearch e
    exact hfound
  · exact h.yieldBus

theorem readBlock (src : MemSource) (n : Nat) (pa : PhysAddr) : SameCommon s (u.readBlock src n pa).2 := by
  induction n generalizing u pa with
  | zero => exact h
  | succ n ih => exact ih (h.yieldBus.physRead _ _) _

theorem execLwcs : NextAll (SameCommon s) (execLwcs u) := by
  have hr := h.readBlock .data 1024 0o36000
  unfold Machine.execLwcs
  cases e : u.readBlock .data 1024 0o36000 with
  | mk ws t =>
    rw [e] at hr
    exact h.privileged (NextAll.ite hr h)

theorem traRead (n : BitVec 4) : SameCommon s (u.traRead n).2 := by
  unfold State.traRead
  split
  case h_1 | h_4 => split <;> exact h
  all_goals exact h

theorem trrWrite {n : BitVec 4} {v : Word} {t : State} (e : u.trrWrite n v = some t) : SameCommon s t := by
  unfold State.trrWrite at e
  repeat' split at e
  all_goals cases e
  case h_11 => exact h.yieldBus
  all_goals exact h

theorem xRead (pa : PhysAddr) : SameCommon s (u.xRead pa).2 := by
  unfold State.xRead
  split
  · exact h
  · exact h.busRead _ _

theorem xWrite (pa : PhysAddr) (w : Word) : SameCommon s (u.xWrite pa w) :=
  ite_keeps (h.shadowWrite _ _) (h.busWrite _ _ _)

end SameCommon

/-! ### Every instruction -/

/-- The switches of IONI, PONI and SEXI (R483 to R490). -/
def isStatusSwitch : Instr → Bool
  | .ion | .iof | .pon | .pof | .pion | .piof | .sex | .rex => true
  | _ => false

/-- One arm for each instruction that `registerFrame` does not list. -/
theorem sameCommon_execInner {i : Instr} (hi : isStatusSwitch i = false) (s : State) :
    NextAll (SameCommon s) (execInner i s) := by
  by_cases hframe : ∃ frame, registerFrame i = some frame
  · obtain ⟨frame, hframe⟩ := hframe
    have hexr (sr : RField) : i ≠ .exr sr := by rintro rfl; cases hframe
    obtain ⟨t, hexec, hwrites⟩ := completes_exec hframe s
    rw [← exec_eq_execInner hexr, hexec]
    exact sameCommon_of_onlyRegisters hwrites.only
  · have h := SameCommon.refl s
    cases i with
    | stz m | sta m | stt m | stx m => exact h.storeWord m _
    | std m =>
      exact SameCommon.complete ((h.effLoc m).bind fun _ _ h => (h.memWrite _ _ _).bind fun _ _ h => h.memWrite _ _ _)
        fun _ _ h => h
    | stf m =>
      exact SameCommon.complete ((h.effLoc m).bind fun _ _ h => (h.memWrite _ _ _).bind fun _ _ h =>
        (h.memWrite _ _ _).bind fun _ _ h => h.memWrite _ _ _) fun _ _ h => h
    | ldd m => exact SameCommon.complete ((h.effLoc m).bind fun _ _ h => h.readDouble _ _ _) fun _ _ h => h
    | ldf m => exact SameCommon.complete ((h.effLoc m).bind fun _ _ h => h.readTriple _ _ _) fun _ _ h => h
    | min m =>
      exact SameCommon.complete ((h.effLoc m).bind fun _ _ h => (h.memRead _ _ _).bind fun _ _ h =>
        (h.memWrite _ _ _).bind fun _ _ h => h) fun _ _ h => h.skipIf _
    | lda m | ldt m | ldx m | and m | ora m => exact h.withOperand m fun _ _ h => h
    | add m | sub m => exact h.withOperand m fun _ _ h => SameCommon.setAddFlags (u := State.setA _ _) h _
    | mpy m => exact h.withOperand m fun _ _ h => ite_keeps (P := SameCommon s) h h
    | fad m | fsb m | fmu m | fdv m => exact h.floatingOp _ m
    | jmp m | jpl m => exact SameCommon.complete (h.effLoc m) fun _ _ h => h
    | addd => exact h.withCx (h.decimalAdd false)
    | subd => exact h.withCx (h.decimalAdd true)
    | comd => exact h.withCx (SameCommon.complete h.readBoth fun _ _ h => NextAll.ite h h)
    | pack => exact h.execPack
    | upack => exact h.execUpack
    | shde => exact h.execShde
    | tset | rdus | setpt | clept | clnreent | chreentpages | clepu | movew => exact NextAll.ite trivial h.illegal
    | bfill => exact SameCommon.complete (h.fillBytes _) fun _ _ h => h
    | movb => exact h.execMovb
    | movbf => exact NextAll.ite h (SameCommon.complete (h.moveForward _) fun _ _ h => h)
    | init =>
      exact SameCommon.complete ((h.readTriple _ _ _).bind fun _ _ h => (h.memRead _ _ _).bind fun _ _ h => h) fun _ _ h =>
        NextAll.ite h (h.enterFrame _ _ _)
    | entr =>
      exact SameCommon.complete ((h.memRead _ _ _).bind fun _ _ h => (h.readDouble _ _ _).bind fun _ _ h => h) fun _ _ h =>
        NextAll.ite h (h.enterFrame _ _ _)
    | leave => exact SameCommon.complete (h.readDouble _ _ _) fun _ _ h => h
    | eleav =>
      exact SameCommon.complete ((h.readDouble _ _ _).bind fun _ _ h => (h.memWrite _ _ _).bind fun _ _ h =>
        (h.memWrite _ _ _).bind fun _ _ h => h) fun _ _ h => h
    | lbyt => exact SameCommon.complete (h.loadByte _ _) fun _ _ h => h
    | sbyt => exact SameCommon.complete (h.storeByte _ _ _) fun _ _ h => h
    | lwcs => exact h.execLwcs
    | identPl10 | identPl11 | identPl12 | identPl13 => exact h.ident _
    | cust1 | cust2 | cust3 | cust4 | cust5 | cust6 | cust7 | cust10 | cust11 | cust12 | cust13 =>
      exact NextAll.ite trivial h.illegal
    | exr | mon => exact h
    | ldatx | ldxtx => exact h.privileged (h.xRead _)
    | lddtx => exact h.privileged ((h.xRead _).xRead _)
    | ldbtx => exact h.privileged (NextAll.ite trivial (h.xRead _))
    | statx | stztx => exact h.privileged (h.xWrite _ _)
    | stdtx => exact h.privileged ((h.xWrite _ _).xWrite _ _)
    | exam => exact h.privileged (h.busRead _ _)
    | depo => exact h.privileged (h.busWrite _ _ _)
    | tra n => exact h.privileged (h.traRead n)
    | trr n =>
      refine h.privileged ?_
      split
      · rename_i e
        have hwritten := h.trrWrite e
        exact hwritten
      · trivial
    | mcl n | mst n =>
      have hwritten {n : BitVec 4} {a b c : State} (ha : SameCommon s a) (hb : SameCommon s b) (hc : SameCommon s c) :
          SameCommon s (match n.toNat with | 1 => a | 6 => b | 7 => c | _ => s) := by
        split
        · exact ha
        · exact hb
        · exact hc
        · exact h
      exact h.privileged (hwritten h h h)
    | opcom => exact h.privileged h
    | wait => exact h.privileged (ite_keeps (P := SameCommon s) h (ite_keeps (P := SameCommon s) h h))
    | iox | ioxt => exact h.privileged (h.ioTransfer _)
    | srb level =>
      refine h.privileged (SameCommon.complete ?_ fun _ _ h => h)
      rw [State.storeWords_eq_storeList]
      exact h.storeList _ _ _
    | lrb level => exact h.privileged (SameCommon.complete (h.loadWords _ _) fun _ _ h => h)
    | irw level dr => exact h.privileged (ite_keeps (P := SameCommon s) h h)
    | irr level dr => exact h.privileged h
    | ion | iof | pon | pof | pion | piof | sex | rex => cases hi
    | _ => exact absurd ⟨_, rfl⟩ hframe

/-- A switch changes its own bits alone (R483 to R490). -/
theorem statusSwitch_execInner {i : Instr} (hi : isStatusSwitch i = true) (s : State) :
    NextAll (fun t => t.pil = s.pil ∧ t.pvl = s.pvl ∧ t.cfg = s.cfg ∧
      (i ∉ [Instr.ion, .iof, .pion, .piof] → t.ioni = s.ioni) ∧
      (i ∉ [Instr.pon, .pof, .pion, .piof] → t.poni = s.poni) ∧
      (i ∉ [Instr.sex, .rex] → t.sexi = s.sexi)) (execInner i s) := by
  cases i with
  | ion | iof =>
    exact NextAll.ite ⟨rfl, rfl, rfl, fun h => absurd (by simp) h, fun _ => rfl, fun _ => rfl⟩
      ⟨rfl, rfl, rfl, fun _ => rfl, fun _ => rfl, fun _ => rfl⟩
  | pon | pof =>
    exact NextAll.ite ⟨rfl, rfl, rfl, fun _ => rfl, fun h => absurd (by simp) h, fun _ => rfl⟩
      ⟨rfl, rfl, rfl, fun _ => rfl, fun _ => rfl, fun _ => rfl⟩
  | pion | piof =>
    exact NextAll.ite ⟨rfl, rfl, rfl, fun h => absurd (by simp) h, fun h => absurd (by simp) h, fun _ => rfl⟩
      ⟨rfl, rfl, rfl, fun _ => rfl, fun _ => rfl, fun _ => rfl⟩
  | sex | rex =>
    exact NextAll.ite ⟨rfl, rfl, rfl, fun _ => rfl, fun _ => rfl, fun h => absurd (by simp) h⟩
      ⟨rfl, rfl, rfl, fun _ => rfl, fun _ => rfl, fun _ => rfl⟩
  | _ => cases hi

/-- What an instruction that EXR may execute keeps. -/
theorem commonStatus_execInner {i : Instr} {s t : State} (hexec : execInner i s = .next t) :
    t.pil = s.pil ∧ t.pvl = s.pvl ∧ t.cfg = s.cfg ∧
      (i ∉ [Instr.ion, .iof, .pion, .piof] → t.ioni = s.ioni) ∧
      (i ∉ [Instr.pon, .pof, .pion, .piof] → t.poni = s.poni) ∧
      (i ∉ [Instr.sex, .rex] → t.sexi = s.sexi) := by
  cases hi : isStatusSwitch i with
  | true => exact (statusSwitch_execInner hi s).of_eq_next hexec
  | false =>
    have hsame : t.common = s.common := (sameCommon_execInner hi s).of_eq_next hexec
    simp only [State.common, Prod.mk.injEq] at hsame
    obtain ⟨hcfg, hpil, hpvl, hioni, hponi, hsexi⟩ := hsame
    exact ⟨hpil, hpvl, hcfg, fun _ => hioni, fun _ => hponi, fun _ => hsexi⟩

/-- Settles O20: EXR executes another instruction or raises II, every other one is its own. -/
theorem commonStatusUntouched : Obligations.CommonStatusUntouched := by
  unfold Obligations.CommonStatusUntouched
  intro i s t hexec
  by_cases hexr : ∃ sr, i = .exr sr
  · obtain ⟨sr, rfl⟩ := hexr
    have hword : executeWord (s.regValue sr) s = .next t := hexec
    unfold executeWord at hword
    split at hword
    · obtain ⟨hpil, hpvl, hcfg, _⟩ := commonStatus_execInner hword
      exact ⟨hpil, hpvl, hcfg, fun h => absurd rfl (h sr)⟩
    · cases hword
      exact ⟨rfl, rfl, rfl, fun h => absurd rfl (h sr)⟩
  · rw [exec_eq_execInner (not_exists.1 hexr)] at hexec
    obtain ⟨hpil, hpvl, hcfg, hbits⟩ := commonStatus_execInner hexec
    exact ⟨hpil, hpvl, hcfg, fun _ => hbits⟩

end Sys2Proof.Machine
end

section
/-! Data accesses that the page tables refuse: the instruction ends there, whichever of its accesses it is
(`spec/60_exceptions.md` R672 to R676; `spec/40_memory_reference.md` R252). -/

namespace Sys2Proof.Machine

/-! ### A refused access -/

/-- What a refused access behind other accesses of an instruction leaves: the registers, and PF or MPV raised (R137, R672). -/
structure RefusedBehind (s s1 : State) : Prop where
  regs : s1.regs = s.regs
  pil : s1.pil = s.pil
  raised : s1.iid.getLsbD 2 = true ∨ s1.iid.getLsbD 3 = true

theorem refusedBehind_of_translate {s u s1 : State} {kind : Kind} {rel : Rel} {va : Word} (haccess : DataAccess s u)
    (h : u.translate kind rel va = .aborted s1) : RefusedBehind s s1 := by
  have hkept := onlyRead_of_refused h
  obtain ⟨_, r, _, rfl⟩ := State.translate_aborted h
  refine ⟨hkept.regs.trans haccess.regs, hkept.pil.trans haccess.pil, ?_⟩
  rw [State.refuseAccess_iid]
  cases r
  case pageFault => exact .inr (by rw [getLsbD_setBit _ _ _ _ (by decide)]; rfl)
  all_goals exact .inl (by rw [getLsbD_setBit _ _ _ _ (by decide)]; rfl)

theorem refusedBehind_of_memRead {s u s1 : State} {kind : Kind} {rel : Rel} {va : Word} (haccess : DataAccess s u)
    (h : u.memRead kind rel va = .aborted s1) : RefusedBehind s s1 :=
  refusedBehind_of_translate haccess (State.memRead_aborted h).2

theorem refusedBehind_of_memWrite {s u s1 : State} {rel : Rel} {va w : Word} (haccess : DataAccess s u)
    (h : u.memWrite rel va w = .aborted s1) : RefusedBehind s s1 :=
  refusedBehind_of_translate haccess (State.memWrite_aborted h).2

theorem RefusedBehind.abandoned {i : Instr} {s s1 : State} (h : RefusedBehind s s1) (hexec : exec i s = .next s1.advance) :
    abandoned i s s1 :=
  ⟨hexec, registersBecome_advance h.regs h.pil, h.raised⟩

/-- Only the location decides whether a store is refused (R130). -/
theorem memWrite_aborted_any {u s1 : State} {rel : Rel} {va w : Word} (h : u.memWrite rel va w = .aborted s1) (w' : Word) :
    u.memWrite rel va w' = .aborted s1 := by
  obtain ⟨hshadow, htranslate⟩ := State.memWrite_aborted h
  rw [State.memWrite, if_neg (by rw [hshadow]; exact Bool.false_ne_true), htranslate, Access.bind_aborted]

theorem keepsMemory_of_refused {s s1 : State} {kind : Kind} {rel : Rel} {va : Word}
    (h : s.memRead kind rel va = .aborted s1 ∨ ∃ w, s.memWrite rel va w = .aborted s1) : keepsMemory s s1 := by
  have htranslate : ∃ kind, s.translate kind rel va = .aborted s1 := by
    rcases h with h | ⟨w, h⟩
    · exact ⟨_, (State.memRead_aborted h).2⟩
    · exact ⟨_, (State.memWrite_aborted h).2⟩
  obtain ⟨kind, htranslate⟩ := htranslate
  rw [State.translate_aborted_frame htranslate]
  exact ⟨rfl, rfl⟩

/-! ### The effective location -/

theorem refusedBehind_of_effLoc {s s1 : State} {m : MemRef} (h : s.effLoc m = .aborted s1) : RefusedBehind s s1 := by
  unfold State.effLoc at h
  dsimp only at h
  split at h
  · cases hread : s.memRead .raddr (if m.b then .nonprel else .prel)
      ((if m.b then s.b else s.p) + sext8 m.disp) with
    | done w u => rw [hread] at h; cases h
    | aborted u =>
      rw [hread] at h
      cases h
      exact refusedBehind_of_memRead (.refl s) hread
  · split at h <;> cases h

/-- Of the memory reference and floating instructions each begins with its effective location (R251). -/
theorem exec_of_effLoc_aborted {s s1 : State} {m : MemRef} (h : s.effLoc m = .aborted s1) {i : Instr}
    (hi : i ∈ [Instr.stz m, .sta m, .stt m, .stx m, .std m, .lda m, .ldt m, .ldx m, .ldd m, .stf m, .ldf m, .min m, .add m,
      .sub m, .and m, .ora m, .fad m, .fsb m, .fmu m, .fdv m, .mpy m, .jmp m, .jpl m]) :
    exec i s = .next s1.advance := by
  have hstore (w : Word) : storeWord m w s = .next s1.advance := by
    rw [storeWord, State.writeOperand, h, Access.bind_aborted, Access.complete_aborted]
  have hoperand (f : Word → State → State) : withOperand m s f = .next s1.advance := by
    rw [withOperand, State.readOperand, h, Access.bind_aborted, Access.complete_aborted]
  have hfloating (op : FpOp) : floatingOp op m s = .next s1.advance := by
    rw [floatingOp, h]
    exact ite_self _
  have hbehind {α : Type} (f : Word × Rel → State → Access α) (k : α → State → Result) :
      ((s.effLoc m).bind f).complete k = .next s1.advance := by
    rw [h, Access.bind_aborted, Access.complete_aborted]
  have hjump (k : Word × Rel → State → Result) : (s.effLoc m).complete k = .next s1.advance := by
    rw [h, Access.complete_aborted]
  simp only [List.mem_cons, List.not_mem_nil, or_false] at hi
  rcases hi with rfl | rfl | rfl | rfl | rfl | rfl | rfl | rfl | rfl | rfl | rfl | rfl | rfl | rfl | rfl | rfl | rfl |
    rfl | rfl | rfl | rfl | rfl | rfl
  · exact hstore _
  · exact hstore _
  · exact hstore _
  · exact hstore _
  · exact hbehind _ _
  · exact hoperand _
  · exact hoperand _
  · exact hoperand _
  · exact hbehind _ _
  · exact hbehind _ _
  · exact hbehind _ _
  · exact hbehind _ _
  · exact hoperand _
  · exact hoperand _
  · exact hoperand _
  · exact hoperand _
  · exact hfloating _
  · exact hfloating _
  · exact hfloating _
  · exact hfloating _
  · exact hoperand _
  · exact hjump _
  · exact hjump _

/-! ### Reads behind the location -/

/-- `k` words are read one after another, and the next read is refused. -/
def readsThenRefused (rel : Rel) : Nat → State → Word → State → Prop
  | 0, u, va, s1 => u.memRead .rop rel va = .aborted s1
  | k + 1, u, va, s1 => ∃ w u', u.memRead .rop rel va = .done w u' ∧ readsThenRefused rel k u' (va + 1) s1

theorem refusedBehind_of_reads {rel : Rel} {k : Nat} {s u s1 : State} {va : Word} (haccess : DataAccess s u)
    (h : readsThenRefused rel k u va s1) : RefusedBehind s s1 := by
  induction k generalizing u va with
  | zero => exact refusedBehind_of_memRead haccess h
  | succ k ih =>
    obtain ⟨w, u', hread, hrest⟩ := h
    exact ih (haccess.trans (onlyRead_of_memRead (by decide) hread).dataAccess) hrest

theorem readDouble_of_refused {rel : Rel} {k : Nat} (hk : k < 2) {u s1 : State} {va : Word}
    (h : readsThenRefused rel k u va s1) : u.readDouble .rop rel va = .aborted s1 := by
  rcases k with _ | _ | k
  · have hread : u.memRead .rop rel va = .aborted s1 := h
    rw [State.readDouble, hread, Access.bind_aborted]
  · obtain ⟨w, u', hread, hread1⟩ := h
    have hread1 : u'.memRead .rop rel (va + 1) = .aborted s1 := hread1
    rw [State.readDouble, hread, Access.bind_done, hread1, Access.bind_aborted]
  · omega

theorem readTriple_of_refused {rel : Rel} {k : Nat} (hk : k < 3) {u s1 : State} {va : Word}
    (h : readsThenRefused rel k u va s1) : u.readTriple .rop rel va = .aborted s1 := by
  rcases k with _ | _ | _ | k
  · have hread : u.memRead .rop rel va = .aborted s1 := h
    rw [State.readTriple, hread, Access.bind_aborted]
  · obtain ⟨w, u', hread, hread1⟩ := h
    have hread1 : u'.memRead .rop rel (va + 1) = .aborted s1 := hread1
    rw [State.readTriple, hread, Access.bind_done, hread1, Access.bind_aborted]
  · obtain ⟨w, u', hread, w', u'', hread1, hread2⟩ := h
    have htwo : va + 1 + 1 = va + 2 := BitVec.add_assoc va 1 1
    have hread2 : u''.memRead .rop rel (va + 2) = .aborted s1 := htwo ▸ hread2
    rw [State.readTriple, hread, Access.bind_done, hread1, Access.bind_done, hread2, Access.bind_aborted]
  · omega

theorem loadWords_of_refused {k n : Nat} (hk : k < n) {u s1 : State} {va : Word}
    (h : readsThenRefused .nonprel k u va s1) : u.loadWords n va = .aborted s1 := by
  induction k generalizing u va n with
  | zero =>
    obtain ⟨n, rfl⟩ := Nat.exists_eq_succ_of_ne_zero (Nat.pos_iff_ne_zero.1 hk)
    have hread : u.memRead .rop .nonprel va = .aborted s1 := h
    rw [State.loadWords, hread, Access.bind_aborted]
  | succ k ih =>
    obtain ⟨n, rfl⟩ := Nat.exists_eq_succ_of_ne_zero (Nat.pos_iff_ne_zero.1 (Nat.zero_lt_of_lt hk))
    obtain ⟨w, u', hread, hrest⟩ := h
    rw [State.loadWords, hread, Access.bind_done, ih (Nat.lt_of_succ_lt_succ hk) hrest, Access.bind_aborted]

/-- Words loaded, and the next read refused. -/
theorem readsThenRefused_of_loadWords {k : Nat} {s u s1 : State} {va : Word} {ws : List Word}
    (hload : s.loadWords k va = .done ws u) (h : u.memRead .rop .nonprel (va + Word.ofNat k) = .aborted s1) :
    readsThenRefused .nonprel k s va s1 := by
  induction k generalizing s va ws with
  | zero =>
    cases hload
    rwa [word_add_ofNat_zero] at h
  | succ k ih =>
    obtain ⟨w, u', hread, hload⟩ := Access.bind_eq_done.1 hload
    obtain ⟨r, u'', hload, heq⟩ := Access.bind_eq_done.1 hload
    cases heq
    rw [word_add_ofNat_succ] at h
    exact ⟨w, u', hread, ih hload h⟩

/-! ### Stores behind the location -/

/-- The listed words are stored one after another, and the next store is refused. -/
def storesThenRefused (rel : Rel) : State → Word → List Word → State → Prop
  | u, va, [], s1 => ∃ w, u.memWrite rel va w = .aborted s1
  | u, va, w :: r, s1 => ∃ u', u.memWrite rel va w = .done () u' ∧ storesThenRefused rel u' (va + 1) r s1

theorem refusedBehind_of_stores {rel : Rel} {ws : List Word} {s u s1 : State} {va : Word} (haccess : DataAccess s u)
    (h : storesThenRefused rel u va ws s1) : RefusedBehind s s1 := by
  induction ws generalizing u va with
  | nil =>
    obtain ⟨w, hwrite⟩ := h
    exact refusedBehind_of_memWrite haccess hwrite
  | cons w r ih =>
    obtain ⟨u', hwrite, hrest⟩ := h
    exact ih (haccess.trans (dataAccess_of_memWrite hwrite)) hrest

theorem storeList_of_refused {rel : Rel} {ws rest : List Word} (hrest : rest ≠ []) {u s1 : State} {va : Word}
    (h : storesThenRefused rel u va ws s1) : u.storeList rel va (ws ++ rest) = .aborted s1 := by
  induction ws generalizing u va with
  | nil =>
    obtain ⟨w, hwrite⟩ := h
    obtain ⟨w', r, rfl⟩ := List.exists_cons_of_ne_nil hrest
    rw [List.nil_append, State.storeList, memWrite_aborted_any hwrite w', Access.bind_aborted]
  | cons w r ih =>
    obtain ⟨u', hwrite, hbehind⟩ := h
    rw [List.cons_append, State.storeList, hwrite, Access.bind_done, ih hbehind]

theorem storesThenRefused_of_storeList {rel : Rel} {ws : List Word} {s u s1 : State} {va w : Word}
    (hstore : s.storeList rel va ws = .done () u) (h : u.memWrite rel (va + Word.ofNat ws.length) w = .aborted s1) :
    storesThenRefused rel s va ws s1 := by
  induction ws generalizing s va with
  | nil =>
    cases hstore
    rw [List.length_nil, word_add_ofNat_zero] at h
    exact ⟨w, h⟩
  | cons w' r ih =>
    obtain ⟨_, u', hwrite, hstore⟩ := Access.bind_eq_done.1 hstore
    rw [List.length_cons, word_add_ofNat_succ] at h
    exact ⟨u', hwrite, ih hstore h⟩

/-- A storing instruction of which a store is refused ends there. -/
theorem abandoned_of_stores {i : Instr} {s sE s1 : State} {rel : Rel} {va : Word} {ws rest : List Word}
    (hsrb : ∀ level, i = .srb level → s.mayRunPrivileged = true)
    (hstores : storesOf i s = .done (rel, va, ws ++ rest) sE) (hrest : rest ≠ [])
    (h : storesThenRefused rel sE va ws s1) : abandoned i s s1 := by
  have hread := (onlyRead_storesOf i s).of_eq_done hstores
  refine (refusedBehind_of_stores hread.dataAccess h).abandoned ?_
  rw [exec_of_storesOf hsrb hstores, storeList_of_refused hrest h, Access.complete_aborted]

/-! ### The instructions behind their location -/

section Located

variable {s s1 sE : State} {m : MemRef} {el : Word} {rel : Rel} (hloc : s.effLoc m = .done (el, rel) sE)
include hloc

theorem dataAccess_of_effLoc : DataAccess s sE := (((OnlyRead.refl s).effLoc m).of_eq_done hloc).dataAccess

/-- A refused read of an instruction with one operand word. -/
theorem withOperand_of_refused (h : readsThenRefused rel 0 sE el s1) (f : Word → State → State) :
    withOperand m s f = .next s1.advance := by
  have hread : sE.memRead .rop rel el = .aborted s1 := h
  simp only [withOperand, State.readOperand, hloc, Access.bind_done, hread, Access.complete_aborted]

theorem ldd_of_refused {k : Nat} (hk : k < 2) (h : readsThenRefused rel k sE el s1) : exec (.ldd m) s = .next s1.advance := by
  show execLdd m s = _
  simp only [execLdd, hloc, Access.bind_done, readDouble_of_refused hk h, Access.complete_aborted]

theorem ldf_of_refused {k : Nat} (hk : k < 3) (h : readsThenRefused rel k sE el s1) : exec (.ldf m) s = .next s1.advance := by
  show execLdf m s = _
  simp only [execLdf, hloc, Access.bind_done, readTriple_of_refused hk h, Access.complete_aborted]

theorem min_of_refused (h : readsThenRefused rel 0 sE el s1) : exec (.min m) s = .next s1.advance := by
  have hread : sE.memRead .rop rel el = .aborted s1 := h
  show execMin m s = _
  simp only [execMin, hloc, Access.bind_done, hread, Access.bind_aborted, Access.complete_aborted]

/-- A floating instruction reads two words with the 32-bit option and three without it (R345). -/
theorem floatingOp_of_refused {k : Nat} (hk : k < 3) (hformat : k = 2 → s.cfg.fp32 = false)
    (h : readsThenRefused rel k sE el s1) (op : FpOp) : floatingOp op m s = .next s1.advance := by
  rw [floatingOp, hloc]
  split
  · rename_i hshort
    have hk : k < 2 := by
      rcases Nat.lt_succ_iff_lt_or_eq.1 hk with hk | rfl
      · exact hk
      · exact absurd hshort (by rw [hformat rfl]; exact Bool.false_ne_true)
    simp only [Access.bind_done, readDouble_of_refused hk h, Access.complete_aborted]
  · simp only [Access.bind_done, readTriple_of_refused hk h, Access.complete_aborted]

theorem float_of_refused {k : Nat} (hk : k < 3) (hformat : k = 2 → s.cfg.fp32 = false)
    (h : readsThenRefused rel k sE el s1) {i : Instr} (hi : i ∈ [Instr.fad m, .fsb m, .fmu m, .fdv m]) :
    abandoned i s s1 := by
  refine (refusedBehind_of_reads (dataAccess_of_effLoc hloc) h).abandoned ?_
  simp only [List.mem_cons, List.not_mem_nil, or_false] at hi
  rcases hi with rfl | rfl | rfl | rfl <;> exact floatingOp_of_refused hloc hk hformat h _

/-- The first word of an operand is refused. -/
theorem abandoned_of_firstRead (h : sE.memRead .rop rel el = .aborted s1) {i : Instr}
    (hi : i ∈ [Instr.lda m, .ldt m, .ldx m, .ldd m, .ldf m, .min m, .add m, .sub m, .and m, .ora m, .fad m, .fsb m,
      .fmu m, .fdv m, .mpy m]) : abandoned i s s1 := by
  have hrefused : readsThenRefused rel 0 sE el s1 := h
  refine (refusedBehind_of_reads (dataAccess_of_effLoc hloc) hrefused).abandoned ?_
  have hoperand := withOperand_of_refused hloc hrefused
  have hfloating := floatingOp_of_refused (k := 0) hloc (by decide) (fun h => absurd h (by decide)) hrefused
  simp only [List.mem_cons, List.not_mem_nil, or_false] at hi
  rcases hi with rfl | rfl | rfl | rfl | rfl | rfl | rfl | rfl | rfl | rfl | rfl | rfl | rfl | rfl | rfl
  · exact hoperand _
  · exact hoperand _
  · exact hoperand _
  · exact ldd_of_refused hloc (by decide) hrefused
  · exact ldf_of_refused hloc (by decide) hrefused
  · exact min_of_refused hloc hrefused
  · exact hoperand _
  · exact hoperand _
  · exact hoperand _
  · exact hoperand _
  · exact hfloating _
  · exact hfloating _
  · exact hfloating _
  · exact hfloating _
  · exact hoperand _

/-- The second word of an operand is refused. -/
theorem abandoned_of_secondRead {w : Word} {s2 : State} (hfirst : sE.memRead .rop rel el = .done w s2)
    (h : s2.memRead .rop rel (el + 1) = .aborted s1) {i : Instr}
    (hi : i ∈ [Instr.ldd m, .ldf m, .fad m, .fsb m, .fmu m, .fdv m]) : abandoned i s s1 := by
  have hrefused : readsThenRefused rel 1 sE el s1 := ⟨w, s2, hfirst, h⟩
  have hbehind := refusedBehind_of_reads (dataAccess_of_effLoc hloc) hrefused
  rcases List.mem_cons.1 hi with rfl | hi
  · exact hbehind.abandoned (ldd_of_refused hloc (by decide) hrefused)
  · rcases List.mem_cons.1 hi with rfl | hi
    · exact hbehind.abandoned (ldf_of_refused hloc (by decide) hrefused)
    · exact float_of_refused (k := 1) hloc (by decide) (fun h => absurd h (by decide)) hrefused hi

/-- The third word of an operand is refused. -/
theorem abandoned_of_thirdRead {w w' : Word} {s2 s3 : State} (hfirst : sE.memRead .rop rel el = .done w s2)
    (hsecond : s2.memRead .rop rel (el + 1) = .done w' s3) (h : s3.memRead .rop rel (el + 2) = .aborted s1) :
    abandoned (.ldf m) s s1 ∧ (s.cfg.fp32 = false → ∀ i ∈ [Instr.fad m, .fsb m, .fmu m, .fdv m], abandoned i s s1) := by
  have htwo : el + 1 + 1 = el + 2 := BitVec.add_assoc el 1 1
  have hrefused : readsThenRefused rel 2 sE el s1 := ⟨w, s2, hfirst, w', s3, hsecond, htwo ▸ h⟩
  exact ⟨(refusedBehind_of_reads (dataAccess_of_effLoc hloc) hrefused).abandoned (ldf_of_refused hloc (by decide) hrefused),
    fun hformat i hi => float_of_refused hloc (by decide) (fun _ => hformat) hrefused hi⟩

/-- The stores of a storing instruction behind its location. -/
theorem abandoned_of_firstStore {w : Word} (h : sE.memWrite rel el w = .aborted s1) {i : Instr}
    (hi : i ∈ [Instr.stz m, .sta m, .stt m, .stx m, .std m, .stf m]) : abandoned i s s1 := by
  have hrefused : storesThenRefused rel sE el [] s1 := ⟨w, h⟩
  have hstored {i : Instr} {v : Word} {rest : List Word} (hi : ∀ level, i ≠ .srb level)
      (hstores : storesOf i s = .done (rel, el, v :: rest) sE) : abandoned i s s1 :=
    abandoned_of_stores (ws := []) (fun level e => absurd e (hi level)) hstores (List.cons_ne_nil _ _) hrefused
  simp only [List.mem_cons, List.not_mem_nil, or_false] at hi
  rcases hi with rfl | rfl | rfl | rfl | rfl | rfl
  all_goals exact hstored nofun (by simp only [storesOf, hloc, Access.bind_done]; rfl)

theorem abandoned_min_of_store {w v : Word} {s2 : State} (hread : sE.memRead .rop rel el = .done w s2)
    (h : s2.memWrite rel el v = .aborted s1) : abandoned (.min m) s s1 :=
  abandoned_of_stores (ws := []) nofun (storesOf_min hloc hread) (List.cons_ne_nil _ _) ⟨v, h⟩

theorem storesOf_std : storesOf (.std m) s = .done (rel, el, [s.a, s.d]) sE := by
  simp only [storesOf, hloc, Access.bind_done]

theorem storesOf_stf : storesOf (.stf m) s = .done (rel, el, [s.t, s.a, s.d]) sE := by
  simp only [storesOf, hloc, Access.bind_done]

theorem abandoned_std_of_secondStore {s2 : State} {w : Word} (hfirst : sE.memWrite rel el s.a = .done () s2)
    (h : s2.memWrite rel (el + 1) w = .aborted s1) : abandoned (.std m) s s1 :=
  abandoned_of_stores (ws := [s.a]) nofun (storesOf_std hloc) (List.cons_ne_nil _ _) ⟨s2, hfirst, w, h⟩

theorem abandoned_stf_of_secondStore {s2 : State} {w : Word} (hfirst : sE.memWrite rel el s.t = .done () s2)
    (h : s2.memWrite rel (el + 1) w = .aborted s1) : abandoned (.stf m) s s1 :=
  abandoned_of_stores (ws := [s.t]) nofun (storesOf_stf hloc) (List.cons_ne_nil _ _) ⟨s2, hfirst, w, h⟩

theorem abandoned_stf_of_thirdStore {s2 s3 : State} {w : Word} (hfirst : sE.memWrite rel el s.t = .done () s2)
    (hsecond : s2.memWrite rel (el + 1) s.a = .done () s3) (h : s3.memWrite rel (el + 2) w = .aborted s1) :
    abandoned (.stf m) s s1 := by
  have htwo : el + 1 + 1 = el + 2 := BitVec.add_assoc el 1 1
  exact abandoned_of_stores (ws := [s.t, s.a]) nofun (storesOf_stf hloc) (List.cons_ne_nil _ _)
    ⟨s2, hfirst, s3, hsecond, w, htwo ▸ h⟩

end Located

/-! ### Bytes and register blocks -/

theorem abandoned_lbyt {s s1 : State} (h : s.memRead .rop .nonprel (s.t + BitVec.ofNat 16 (s.x.toNat / 2)) = .aborted s1) :
    abandoned .lbyt s s1 := by
  refine (refusedBehind_of_memRead (.refl s) h).abandoned ?_
  show execLbyt s = _
  simp only [execLbyt, State.loadByte, State.stringByte_eq, h, Access.bind_aborted, Access.complete_aborted]

theorem abandoned_sbyt_of_read {s s1 : State}
    (h : s.memRead .rop .nonprel (s.t + BitVec.ofNat 16 (s.x.toNat / 2)) = .aborted s1) : abandoned .sbyt s s1 := by
  refine (refusedBehind_of_memRead (.refl s) h).abandoned ?_
  show execSbyt s = _
  simp only [execSbyt, State.storeByte, State.stringByte_eq, h, Access.bind_aborted, Access.complete_aborted]

theorem abandoned_sbyt_of_store {s s1 s2 : State} {w w' : Word}
    (hread : s.memRead .rop .nonprel (s.t + BitVec.ofNat 16 (s.x.toNat / 2)) = .done w s2)
    (h : s2.memWrite .nonprel (s.t + BitVec.ofNat 16 (s.x.toNat / 2)) w' = .aborted s1) : abandoned .sbyt s s1 := by
  have hstores : storesOf .sbyt s = .done (.nonprel, s.t + BitVec.ofNat 16 (s.x.toNat / 2),
      [withHalf w (decide (s.x.toNat % 2 = 1)) (s.a.setWidth 8)]) s2 := by
    simp only [storesOf, State.stringByte_eq, hread, Access.bind_done]
  exact abandoned_of_stores (ws := []) nofun hstores (List.cons_ne_nil _ _) ⟨w', h⟩

theorem abandoned_lrb {s s1 s2 : State} (hallowed : s.mayRunPrivileged = true) (level : BitVec 4) {k : Nat} (hk : k < 8)
    {ws : List Word} (hload : s.loadWords k s.x = .done ws s2)
    (h : s2.memRead .rop .nonprel (s.x + BitVec.ofNat 16 k) = .aborted s1) : abandoned (.lrb level) s s1 := by
  have hrefused := readsThenRefused_of_loadWords hload h
  refine (refusedBehind_of_reads (.refl s) hrefused).abandoned ?_
  refine (State.privileged_of_allowed hallowed _).trans ?_
  rw [loadWords_of_refused hk hrefused, Access.complete_aborted]

theorem abandoned_srb {s s1 s2 : State} (hallowed : s.mayRunPrivileged = true) (level : BitVec 4) {k : Nat} (hk : k < 8)
    {w : Word} (hstore : s.storeWords s.x ((blockOrder.map (s.levelRegister level)).take k) = .done () s2)
    (h : s2.memWrite .nonprel (s.x + BitVec.ofNat 16 k) w = .aborted s1) : abandoned (.srb level) s s1 := by
  have hlength : (blockOrder.map (s.levelRegister level)).length = 8 := rfl
  have htake : ((blockOrder.map (s.levelRegister level)).take k).length = k := by
    rw [List.length_take, hlength]
    omega
  have hrest : (blockOrder.map (s.levelRegister level)).drop k ≠ [] := fun hnil => by
    have := congrArg List.length hnil
    rw [List.length_drop, hlength, List.length_nil] at this
    omega
  rw [State.storeWords_eq_storeList] at hstore
  rw [← htake] at h
  refine abandoned_of_stores (fun _ _ => hallowed) ?_ hrest (storesThenRefused_of_storeList hstore h)
  rw [List.take_append_drop]
  rfl

/-- Settles O10: the accesses before the refused one leave the registers, and the refused one ends the instruction. -/
theorem refusedDataAccess : Obligations.RefusedDataAccess := by
  unfold Obligations.RefusedDataAccess
  refine ⟨fun s s1 kind rel va h => keepsMemory_of_refused h, fun s s1 m hloc i hi => ?_, fun s s1 sE m el rel hloc => ?_,
    ?_, fun s s1 s2 level k hallowed hk => ?_⟩
  · exact (refusedBehind_of_effLoc hloc).abandoned (exec_of_effLoc_aborted hloc hi)
  · exact ⟨fun h i hi => abandoned_of_firstRead hloc h hi,
      fun w s2 hfirst => ⟨fun h i hi => abandoned_of_secondRead hloc hfirst h hi, fun h => abandoned_min_of_store hloc hfirst h,
        fun w' s3 hsecond h => abandoned_of_thirdRead hloc hfirst hsecond h⟩,
      fun w h i hi => abandoned_of_firstStore hloc h hi,
      fun s2 w hfirst h => abandoned_std_of_secondStore hloc hfirst h,
      fun s2 hfirst => ⟨fun w h => abandoned_stf_of_secondStore hloc hfirst h,
        fun s3 w hsecond h => abandoned_stf_of_thirdStore hloc hfirst hsecond h⟩⟩
  · rintro s s1 va rfl
    exact ⟨fun h => ⟨abandoned_lbyt h, abandoned_sbyt_of_read h⟩, fun w s2 w' hread h => abandoned_sbyt_of_store hread h⟩
  · exact ⟨fun ws hload h => abandoned_lrb hallowed level hk hload h, fun w hstore h => abandoned_srb hallowed level hk hstore h⟩

end Sys2Proof.Machine
end

section
/-! The stack instructions with physical addressing (`spec/53_ce_stack_misc.md` R610 to R615). -/

namespace Sys2Proof.Machine

/-! ### The frame header -/

theorem Access.bind_assoc {α β γ : Type} (x : Access α) (f : α → State → Access β) (g : β → State → Access γ) :
    (x.bind f).bind g = x.bind fun v s => (f v s).bind g := by
  cases x <;> rfl

theorem State.writeFrame_eq_storeList (s : State) (start : Word) (f : Frame) :
    s.writeFrame start f = s.storeList .nonprel start [f.link, f.prevb, f.stp, f.smax] := by
  simp [State.writeFrame, State.writeTriple, State.storeList, Access.bind_assoc, BitVec.add_assoc]

/-- What INIT and ENTR leave where they enter a frame that begins at `start`: its header is in memory, B points behind it, and
the program goes on at the normal return (R611). -/
structure FrameEntered (s t : State) (start : Word) (f : Frame) (normal : Word) : Prop where
  only : t = { s with regs := t.regs, mem := t.mem }
  regs : RegistersBecome s t [(.b, start + 128)] [] normal
  link : t.wordAt start = f.link
  prevb : t.wordAt (start + 1) = f.prevb
  stp : t.wordAt (start + 2) = f.stp
  smax : t.wordAt (start + 3) = f.smax
  others : ∀ va, va ≠ start → va ≠ start + 1 → va ≠ start + 2 → va ≠ start + 3 → t.wordAt va = s.wordAt va

theorem enterFrame_of_flat {s : State} (h : s.Flat) {start : Word} (hordinary : s.ordinary start 4) (f : Frame)
    (normal : Word) : ∃ t, enterFrame (start + 0o200) f normal s = .next t ∧ FrameEntered s t start f normal := by
  obtain ⟨u, horder, hu, hvalues, hothers⟩ :=
    storesInOrder_of_flat .nonprel [f.link, f.prevb, f.stp, f.smax] h start (by simp) hordinary
  have hwrite := (State.storeList_eq_done _ s start).2 horder
  refine ⟨(u.setB (start + 0o200)).setP normal, ?_, by rw [hu]; rfl, ?_, ?_, hvalues 1 (by simp), hvalues 2 (by simp),
    hvalues 3 (by simp), fun va h0 h1 h2 h3 => hothers va fun k hk => ?_⟩
  · rw [enterFrame, BitVec.add_sub_cancel, State.writeFrame_eq_storeList, hwrite, Access.complete_done]
  · refine registersBecome_of_writesOnly (dataAccess_of_storesInOrder _ horder)
      (((WritesOnly.refl [.b] [] u).setB (by simp) _).setP _) ?_ nofun (State.p_setP _ _)
    simp [RegSet.get, State.setP, State.setB]
  · have hfirst := hvalues 0 (by simp)
    rwa [word_add_ofNat_zero] at hfirst
  · match k, hk with
    | 0, _ => rwa [word_add_ofNat_zero]
    | 1, _ => exact h1
    | 2, _ => exact h2
    | 3, _ => exact h3

/-- STP of a new frame (R610). -/
theorem frameEnd_start (start demand : Word) : frameEnd (start + 0o200) demand = start + 6 + demand := by
  rw [frameEnd]
  bv_omega

/-- INIT and ENTR from their two conditions on: the error return, or a new frame (R611). -/
theorem enterFrame_or_error {s : State} (h : s.Flat) {start : Word} (hordinary : s.ordinary start 4) (error : Prop)
    [Decidable error] (f : Frame) (errorReturn normal : Word) :
    ∃ t, (if error then .next (s.setP errorReturn) else enterFrame (start + 0o200) f normal s) = (.next t : Result) ∧
      if error then onlyRegisters s t ∧ RegistersBecome s t [] [] errorReturn
      else FrameEntered s t start f normal := by
  by_cases herror : error
  · refine ⟨s.setP errorReturn, ?_, ?_⟩
    · rw [if_pos herror]
    · rw [if_pos herror]
      exact ⟨rfl, registersBecome_setP s errorReturn⟩
  · simpa only [if_neg herror] using enterFrame_of_flat h hordinary f normal

theorem frameEntered_iff {s t : State} {start : Word} {f : Frame} {normal : Word} :
    FrameEntered s t start f normal ↔
      t = { s with regs := t.regs, mem := t.mem } ∧ RegistersBecome s t [(.b, start + 128)] [] normal ∧
        t.wordAt start = f.link ∧ t.wordAt (start + 1) = f.prevb ∧ t.wordAt (start + 2) = f.stp ∧
        t.wordAt (start + 3) = f.smax ∧
        ∀ va, va ≠ start → va ≠ start + 1 → va ≠ start + 2 → va ≠ start + 3 → t.wordAt va = s.wordAt va :=
  ⟨fun ⟨h1, h2, h3, h4, h5, h6, h7⟩ => ⟨h1, h2, h3, h4, h5, h6, h7⟩,
    fun ⟨h1, h2, h3, h4, h5, h6, h7⟩ => ⟨h1, h2, h3, h4, h5, h6, h7⟩⟩

/-! ### The words read with physical addressing -/

section Flat

variable {s : State} (h : s.Flat)
include h

theorem State.Flat.memRead_nth {va : Word} {n k : Nat} (hordinary : s.ordinary va n) (hk : k < n) (rel : Rel) :
    s.memRead .rop rel (va + Word.ofNat k) = .done (s.wordAt (va + Word.ofNat k)) s :=
  h.memRead (hordinary k hk) .rop rel

theorem State.Flat.memRead_first {va : Word} {n : Nat} (hordinary : s.ordinary va (n + 1)) (rel : Rel) :
    s.memRead .rop rel va = .done (s.wordAt va) s := by
  simpa only [word_add_ofNat_zero] using h.memRead_nth hordinary n.succ_pos rel

theorem State.Flat.readDouble {va : Word} (hordinary : s.ordinary va 2) (rel : Rel) :
    s.readDouble .rop rel va = .done (s.wordAt va, s.wordAt (va + 1)) s := by
  have hsecond : s.memRead .rop rel (va + 1) = _ := h.memRead_nth hordinary (k := 1) (by decide) rel
  rw [State.readDouble, h.memRead_first hordinary, Access.bind_done, hsecond, Access.bind_done]
  rfl

theorem State.Flat.initParameters (hordinary : s.ordinary (s.p + 1) 4) :
    s.initParameters = .done (s.wordAt (s.p + 1), s.wordAt (s.p + 2), s.wordAt (s.p + 3), s.wordAt (s.p + 4)) s := by
  have hnth (k : Nat) (hk : k < 4) := h.memRead_nth hordinary hk .prel
  have h1 : s.memRead .rop .prel (s.p + 1 + 1) = _ := hnth 1 (by decide)
  have h2 : s.memRead .rop .prel (s.p + 1 + 2) = _ := hnth 2 (by decide)
  have h3 := hnth 3 (by decide)
  have hp1 : s.p + 1 + Word.ofNat 1 = s.p + 2 := BitVec.add_assoc _ 1 1
  have hp2 : s.p + 1 + Word.ofNat 2 = s.p + 3 := BitVec.add_assoc _ 1 2
  have hp3 : s.p + 1 + Word.ofNat 3 = s.p + 4 := BitVec.add_assoc _ 1 3
  rw [hp1] at h1
  rw [hp2] at h2
  rw [hp3] at h3
  simp only [State.initParameters, State.readTriple, h.memRead_first hordinary, Access.bind_done, h1, h2, h3]

theorem State.Flat.entrParameters (hparameter : s.ordinary (s.p + 1) 1) (hframe : s.ordinary (s.b - 126) 2) :
    s.entrParameters = .done (s.wordAt (s.p + 1), s.wordAt (s.b - 126), s.wordAt (s.b - 125)) s := by
  have hsmax : s.b - 126 + 1 = s.b - 125 := by bv_omega
  have hdouble : s.readDouble .rop .nonprel (s.b - 0o176) = _ := h.readDouble hframe .nonprel
  simp only [State.entrParameters, h.memRead_first hparameter, Access.bind_done, hdouble, hsmax]

theorem State.Flat.readLink (hframe : s.ordinary (s.b - 128) 2) :
    s.readLink = .done (s.wordAt (s.b - 128), s.wordAt (s.b - 127)) s := by
  have hprevb : s.b - 128 + 1 = s.b - 127 := by bv_omega
  have hdouble : s.readDouble .rop .nonprel (s.b - 0o200) = _ := h.readDouble hframe .nonprel
  rw [State.readLink, hdouble, hprevb]

/-! ### INIT and ENTR -/

theorem init_of_flat {demand start smax stp : Word} (hframe : s.ordinary start 4) (hordinary : s.ordinary (s.p + 1) 4)
    (hdemand : demand = s.wordAt (s.p + 1)) (hstart : start = s.wordAt (s.p + 2))
    (hsmax : smax = start + s.wordAt (s.p + 3)) (hstp : stp = start + 6 + demand) :
    ∃ t, exec .init s = .next t ∧
      if (s.wordAt (s.p + 4)).getLsbD 0 ≠ s.flag .ptm ∨ Config.stackOverflow stp smax = true then
        onlyRegisters s t ∧ RegistersBecome s t [] [] (s.p + 6)
      else FrameEntered s t start { link := s.l + 1, prevb := s.b, stp := stp, smax := smax } (s.p + 7) := by
  have hexec : exec .init s =
      if (s.wordAt (s.p + 4)).getLsbD 0 ≠ s.flag .ptm ∨ Config.stackOverflow stp smax = true then
        .next (s.setP (s.p + 6))
      else enterFrame (start + 0o200) { link := s.l + 1, prevb := s.b, stp := stp, smax := smax } (s.p + 7) s := by
    change execInit s = _
    simp only [execInit, h.initParameters hordinary, Access.complete_done, Bool.or_eq_true, bne_iff_ne, ← hdemand,
      ← hstart, ← hsmax, frameEnd_start, ← hstp]
  rw [hexec]
  exact enterFrame_or_error h hframe _ _ _ _

theorem entr_of_flat {demand start smax stp : Word} (hframe : s.ordinary start 4) (hparameter : s.ordinary (s.p + 1) 1)
    (hold : s.ordinary (s.b - 126) 2) (hdemand : demand = s.wordAt (s.p + 1)) (hstart : start = s.wordAt (s.b - 126))
    (hsmax : smax = s.wordAt (s.b - 125)) (hstp : stp = start + 6 + demand) :
    ∃ t, exec .entr s = .next t ∧
      if Config.stackOverflow stp smax = true then onlyRegisters s t ∧ RegistersBecome s t [] [] (s.p + 2)
      else FrameEntered s t start { link := s.l + 1, prevb := s.b, stp := stp, smax := smax } (s.p + 3) := by
  have hexec : exec .entr s =
      if Config.stackOverflow stp smax = true then .next (s.setP (s.p + 2))
      else enterFrame (start + 0o200) { link := s.l + 1, prevb := s.b, stp := stp, smax := smax } (s.p + 3) s := by
    change execEntr s = _
    simp only [execEntr, h.entrParameters hparameter hold, Access.complete_done, ← hdemand, ← hstart, ← hsmax,
      frameEnd_start, ← hstp]
  rw [hexec]
  exact enterFrame_or_error h hframe _ _ _ _

/-! ### LEAVE and ELEAV -/

theorem leave_of_flat (hframe : s.ordinary (s.b - 128) 2) :
    ∃ t, exec .leave s = .next t ∧ onlyRegisters s t ∧
      RegistersBecome s t [(.b, s.wordAt (s.b - 127))] [] (s.wordAt (s.b - 128)) := by
  have hwrites := ((WritesOnly.refl [.b] [] s).setP (s.wordAt (s.b - 128))).setB (by simp) (s.wordAt (s.b - 127))
  refine ⟨_, ?_, hwrites.only, registersBecome_of_writesOnly (.refl s) hwrites ?_ nofun ?_⟩
  · change execLeave s = _
    rw [execLeave, h.readLink hframe, Access.complete_done]
  · simp [RegSet.get, State.setB]
  · simp [State.p, State.setP, State.setB]

theorem eleav_of_flat (hframe : s.ordinary (s.b - 128) 2) (herror : s.ordinary (s.b - 123) 1) :
    ∃ t, exec .eleav s = .next t ∧ t = { s with regs := t.regs, mem := t.mem } ∧
      RegistersBecome s t [(.b, s.wordAt (s.b - 127))] [] (s.wordAt (s.b - 128) - 1) ∧
      t.wordAt (s.b - 128) = s.wordAt (s.b - 128) - 1 ∧ t.wordAt (s.b - 123) = s.a ∧
      ∀ va, va ≠ s.b - 128 → va ≠ s.b - 123 → t.wordAt va = s.wordAt va := by
  have hshadow : s.shadowReached (s.b - 128) = false := by
    rw [← word_add_ofNat_zero (s.b - 128)]
    exact hframe 0 (by decide)
  have hshadowError : s.shadowReached (s.b - 123) = false := by
    rw [← word_add_ofNat_zero (s.b - 123)]
    exact herror 0 (by decide)
  have hne : s.b - 128 ≠ s.b - 123 := by bv_omega
  obtain ⟨_, u, hlink, hu, huvalue, huother, _⟩ :=
    physicalAccess_of_flat h .sto .nonprel (s.wordAt (s.b - 128) - 1) hshadow
  obtain ⟨_, v, hcode, hv, hvvalue, hvother, _⟩ :=
    physicalAccess_of_flat (s := u) (by rw [hu]; exact h.of_mem _) .sto .nonprel s.a (by rw [hu]; exact hshadowError)
  have hvs : v = { s with mem := v.mem } := by rw [hv, hu]
  have haccess := (dataAccess_of_memWrite hlink).trans (dataAccess_of_memWrite hcode)
  have hub : u.b = s.b ∧ u.a = s.a := by rw [hu]; exact ⟨rfl, rfl⟩
  have hwrites := ((WritesOnly.refl [.b] [] v).setP (s.wordAt (s.b - 128) - 1)).setB (by simp) (s.wordAt (s.b - 127))
  refine ⟨_, ?_, by rw [hvs]; rfl, registersBecome_of_writesOnly haccess hwrites ?_ nofun ?_,
    (hvother _ hne).trans huvalue, hvvalue, fun va hva hva' => (hvother va hva').trans (huother va hva)⟩
  · change execEleav s = _
    rw [execEleav, h.readLink hframe, Access.bind_done]
    simp only [hlink, Access.bind_done, hub, hcode, Access.complete_done]
  · simp [RegSet.get, State.setB]
  · simp [State.p, State.setP, State.setB]

end Flat

/-- Settles O48. -/
theorem stackFrames : Obligations.StackFrames := by
  unfold Obligations.StackFrames
  refine ⟨fun s demand start smax stp h hframe => ⟨fun hordinary hdemand hstart hsmax hstp => ?_,
    fun hparameter hold hdemand hstart hsmax hstp => ?_⟩, fun s h hframe => ⟨leave_of_flat h hframe, eleav_of_flat h hframe⟩⟩
  · simpa only [frameEntered_iff] using init_of_flat h hframe hordinary hdemand hstart hsmax hstp
  · simpa only [frameEntered_iff] using entr_of_flat h hframe hparameter hold hdemand hstart hsmax hstp

end Sys2Proof.Machine
end

section
/-! Packed decimal fields with physical addressing: the nibbles of a byte string, what a field that is written holds then, and
what a field that is read is worth (`spec/52_ce_decimal.md` R580 to R584). -/

namespace Sys2Proof.Machine

/-! ### Digits -/

theorem magnitude_append (ds : List Nat) (d : Nat) : magnitude (ds ++ [d]) = 10 * magnitude ds + d := by
  simp [magnitude]

/-- The low-order digits are the number modulo a power of ten. -/
@[simp] theorem magnitude_lowDigits (n v : Nat) : magnitude (lowDigits n v) = v % 10 ^ n := by
  induction n generalizing v with
  | zero => simp [lowDigits, magnitude, Nat.mod_one]
  | succ n ih =>
    rw [lowDigits, magnitude_append, ih, pow_succ', Nat.mod_mul]
    omega

@[simp] theorem length_lowDigits (n v : Nat) : (lowDigits n v).length = n := by
  induction n generalizing v with
  | zero => rfl
  | succ n ih => simp [lowDigits, ih]

theorem lt_ten_of_mem_lowDigits {n v d : Nat} (h : d ∈ lowDigits n v) : d < 10 := by
  induction n generalizing v with
  | zero => cases h
  | succ n ih =>
    rcases List.mem_append.1 h with h | h
    · exact ih h
    · rw [List.mem_singleton.1 h]
      exact Nat.mod_lt _ (by decide)

theorem any_lowDigits (n v : Nat) : (lowDigits n v).any (fun d => decide (9 < d)) = false := by
  refine List.any_eq_false.2 fun d hd => ?_
  have := lt_ten_of_mem_lowDigits hd
  simp only [decide_eq_true_eq]
  omega

/-! ### Nibbles and bytes -/

/-- The bytes of an even number of nibbles, two in each. -/
def packNibbles : List Nat → List Byte
  | m :: n :: r => BitVec.ofNat 8 (m * 16 + n) :: packNibbles r
  | _ => []

theorem nibbles_ofNat {m n : Nat} (hm : m < 16) (hn : n < 16) : nibbles (BitVec.ofNat 8 (m * 16 + n)) = [m, n] := by
  rw [nibbles, BitVec.toNat_ofNat, Nat.mod_eq_of_lt (by omega)]
  congr 1
  · omega
  · congr 1
    omega

theorem flatMap_nibbles_packNibbles {ns : List Nat} (heven : ns.length % 2 = 0) (hns : ∀ n ∈ ns, n < 16) :
    (packNibbles ns).flatMap nibbles = ns := by
  induction ns using packNibbles.induct with
  | case1 m n r ih =>
    simp only [List.length_cons, List.forall_mem_cons] at heven hns
    obtain ⟨hm, hn, hr⟩ := hns
    rw [packNibbles, List.flatMap_cons, nibbles_ofNat hm hn, ih (by omega) hr]
    rfl
  | case2 ns h =>
    match ns, h, heven with
    | [], _, _ => rfl
    | [_], _, hodd => simp at hodd
    | m :: n :: r, h, _ => exact absurd rfl (h m n r)

@[simp] theorem length_flatMap_nibbles (bytes : List Byte) : (bytes.flatMap nibbles).length = 2 * bytes.length := by
  induction bytes with
  | nil => rfl
  | cons b r ih =>
    rw [List.flatMap_cons, List.length_append, ih, List.length_cons, nibbles, List.length_cons, List.length_singleton]
    omega

/-! ### Byte strings in memory -/

theorem State.bytesAt_succ (s : State) (a : ByteAddr) (n : Nat) :
    s.bytesAt a (n + 1) = s.bytesAt a n ++ [s.byteAt (a.plus n)] := by
  simp [State.bytesAt, List.range_succ]

theorem State.bytesAt_cons (s : State) (a : ByteAddr) (n : Nat) :
    s.bytesAt a (n + 1) = s.byteAt a :: s.bytesAt a.next n := by
  simp [State.bytesAt, List.range_succ_eq_map]

/-- With physical addressing a byte string is read as memory holds it. -/
theorem State.Flat.readBytes {s : State} (h : s.Flat) (rel : Rel) {a : ByteAddr} {n : Nat} (hordinary : s.ordinaryBytes a n) :
    Sys2Proof.Machine.readBytes rel n a s = .done (s.bytesAt a n) s :=
  (readBytes_eq_done n s a _).2 ⟨s.length_bytesAt a n, readsBytes_of_flat rel n h hordinary⟩

/-- With physical addressing a byte string that is written is in memory then. -/
theorem State.Flat.writeBytes {s : State} (h : s.Flat) (rel : Rel) {bytes : List Byte} {a : ByteAddr}
    (hlen : bytes.length ≤ 131072) (hordinary : s.ordinaryBytes a bytes.length) :
    ∃ u, Sys2Proof.Machine.writeBytes rel bytes a s = .done () u ∧ u = { s with mem := u.mem } ∧
      u.bytesAt a bytes.length = bytes ∧ sameBytesOutside s u a bytes.length := by
  obtain ⟨u, hstore, hu, hvalues, hothers⟩ := storesBytes_of_flat rel bytes h hlen hordinary
  refine ⟨u, (writeBytes_eq_done bytes s a).2 hstore, hu, List.ext_getElem (u.length_bytesAt a _) fun k hk hk' => ?_, hothers⟩
  rw [State.getElem_bytesAt, hvalues k hk']

/-! ### Writing nibbles -/

theorem writeNibbles_of_even {ns : List Nat} (heven : ns.length % 2 = 0) (a : ByteAddr) (s : State) :
    writeNibbles false ns a s = writeBytes .nonprel (packNibbles ns) a s := by
  induction ns using packNibbles.induct generalizing a s with
  | case1 m n r ih =>
    simp only [List.length_cons] at heven
    simp only [writeNibbles, packNibbles, writeBytes, ih (by omega)]
  | case2 ns h =>
    match ns, h, heven with
    | [], _, _ => rfl
    | [_], _, hodd => simp at hodd
    | m :: n :: r, h, _ => exact absurd rfl (h m n r)

/-- With physical addressing a byte replaced by a function of itself is a byte stored. -/
theorem State.Flat.updateByte {s : State} (h : s.Flat) (rel : Rel) {a : ByteAddr} (hshadow : s.shadowReached a.word = false)
    (f : Byte → Byte) : s.updateByte rel a f = s.storeByte rel a (f (s.byteAt a)) := by
  rw [State.updateByte, State.storeByte, h.memRead hshadow .rop rel, Access.bind_done, Access.bind_done, s.halfOf_wordAt]

/-- The nibble in front of an odd number of nibbles: the upper half of the first byte, which is kept (R583). -/
def keptNibble (s : State) (a : ByteAddr) (length : Nat) : List Nat :=
  if length % 2 = 1 then [(s.byteAt a).toNat / 16] else []

/-- With physical addressing the nibbles of a field are written as the bytes that they make up with the kept one. -/
theorem writeNibbles_of_flat {s : State} (h : s.Flat) {a : ByteAddr} {ns : List Nat}
    (hordinary : s.ordinaryBytes a ((ns.length + 1) / 2)) :
    writeNibbles (ns.length % 2 == 1) ns a s =
      writeBytes .nonprel (packNibbles (keptNibble s a ns.length ++ ns)) a s := by
  rcases Nat.mod_two_eq_zero_or_one ns.length with heven | hodd
  · rw [heven, keptNibble, heven]
    exact writeNibbles_of_even heven a s
  · rw [hodd, keptNibble, hodd]
    cases ns with
    | nil => cases hodd
    | cons n r =>
      rw [List.length_cons] at hodd
      have hr : r.length % 2 = 0 := by omega
      have hfirst : s.shadowReached a.word = false := by
        rw [List.length_cons, show (r.length + 1 + 1) / 2 = r.length / 2 + 1 by omega] at hordinary
        exact hordinary.head
      simp only [BEq.rfl, writeNibbles, h.updateByte .nonprel hfirst, if_true, List.singleton_append, packNibbles,
        writeBytes, writeNibbles_of_even hr]

theorem lt_sixteen_of_mem_keptNibble {s : State} {a : ByteAddr} {length n : Nat} (h : n ∈ keptNibble s a length) : n < 16 := by
  have hbyte := (s.byteAt a).isLt
  rw [keptNibble] at h
  split at h
  · rw [List.mem_singleton.1 h]
    omega
  · cases h

theorem length_keptNibble (s : State) (a : ByteAddr) (length : Nat) : (keptNibble s a length).length = length % 2 := by
  rw [keptNibble]
  split <;> simp <;> omega

/-- With physical addressing a field that is written holds the nibbles then, and other bytes are as before (R583). -/
theorem State.Flat.writeField {s : State} (h : s.Flat) {d1 d2 : Word} {ns : List Nat} (hlen : ns.length = decLength d2)
    (hns : ∀ n ∈ ns, n < 16) (hordinary : s.ordinaryField d1 (packedBytes d2)) :
    ∃ u, s.writeField d1 d2 ns = .done () u ∧ u = { s with mem := u.mem } ∧
      (u.bytesAt (descAddr d1 d2) (packedBytes d2)).flatMap nibbles = keptNibble s (descAddr d1 d2) (decLength d2) ++ ns ∧
      sameBytesOutside s u (descAddr d1 d2) (packedBytes d2) := by
  have hbytes : packedBytes d2 = (ns.length + 1) / 2 := by rw [packedBytes, hlen]
  set all := keptNibble s (descAddr d1 d2) ns.length ++ ns with hall
  have hsmall : ∀ n ∈ all, n < 16 := fun n hn =>
    (List.mem_append.1 hn).elim lt_sixteen_of_mem_keptNibble (hns n)
  have heven : all.length % 2 = 0 := by
    rw [hall, List.length_append, length_keptNibble]
    omega
  have hpack := flatMap_nibbles_packNibbles heven hsmall
  have hcount : (packNibbles all).length = packedBytes d2 := by
    have htwice := length_flatMap_nibbles (packNibbles all)
    have hsum : all.length = ns.length % 2 + ns.length := by rw [hall, List.length_append, length_keptNibble]
    rw [hpack] at htwice
    omega
  have hfield : s.ordinaryBytes (descAddr d1 d2) (packedBytes d2) := State.ordinaryBytes_of_ordinary hordinary
  have hsize : decLength d2 < 32 := (d2.extractLsb' 0 5).isLt
  obtain ⟨u, hwrite, hu, hread, hothers⟩ :=
    h.writeBytes .nonprel (bytes := packNibbles all) (a := descAddr d1 d2) (by omega) (by rwa [hcount])
  rw [hcount] at hread hothers
  refine ⟨u, ?_, hu, by rw [hread, hpack, hall, hlen], hothers⟩
  rw [State.writeField, writeNibbles_of_flat h (by rwa [← hbytes])]
  exact hwrite

/-! ### Packed operands -/

/-- What a packed field that is written with a sign and a magnitude holds then: its low-order digits and the sign, by the codes
of the descriptor; other bytes are as before (R583). -/
structure PackedWritten (s t : State) (d1 d2 : Word) (neg : Bool) (mag : Nat) : Prop where
  digits : magnitude (t.packedAt d1 d2).digits = mag % 10 ^ packedDigits d2
  legal : (t.packedAt d1 d2).illegal = false
  sign : (t.packedAt d1 d2).neg = (neg && !decUnsigned d2 && decide (decLength d2 ≠ 0))
  codes : packedCodes s t d1 d2
  others : sameBytesOutside s t (descAddr d1 d2) (packedBytes d2)

theorem packedNegative_signCode (d2 : Word) (neg : Bool) : packedNegative (signCode d2 neg) = (neg && !decUnsigned d2) := by
  rw [signCode]
  cases decUnsigned d2 <;> cases neg <;> rfl

theorem signCode_lt (d2 : Word) (neg : Bool) : signCode d2 neg < 16 := by
  rw [signCode]
  cases decUnsigned d2 <;> cases neg <;> decide

/-- An operand whose field holds digits and a sign code. -/
theorem packedValue_of_nibbles {length : Nat} {bytes : List Byte} {kept ds : List Nat} {code : Nat}
    (h : bytes.flatMap nibbles = kept ++ (ds ++ [code])) (hlen : ds.length + 1 = length) :
    packedValue length bytes = { neg := packedNegative code, digits := ds } := by
  have hdrop : (kept ++ (ds ++ [code])).length - length = kept.length := by
    simp only [List.length_append, List.length_singleton]
    omega
  simp only [packedValue, h, hdrop, List.drop_left, List.getLastD_concat, List.dropLast_concat]

theorem packedWritten_empty {s : State} {d1 d2 : Word} (hzero : decLength d2 = 0) (neg : Bool) (mag : Nat) :
    PackedWritten s s d1 d2 neg mag := by
  have hvalue : s.packedAt d1 d2 = { neg := false, digits := [] } := by
    rw [State.packedAt, hzero, packedBytes, hzero]
    rfl
  refine ⟨?_, ?_, ?_, fun hne => absurd hzero hne, fun _ _ => rfl⟩
  · rw [hvalue, packedDigits, hzero]
    exact (Nat.mod_one mag).symm
  · rw [hvalue]
    rfl
  · simp [hvalue, hzero]

/-- The digits and the sign code in the nibbles of a field make it a packed field written with them. -/
theorem packedWritten_of_nibbles {s u : State} {d1 d2 : Word} {neg : Bool} {mag : Nat} (hne : decLength d2 ≠ 0)
    (hread : (u.bytesAt (descAddr d1 d2) (packedBytes d2)).flatMap nibbles =
      keptNibble s (descAddr d1 d2) (decLength d2) ++ (lowDigits (packedDigits d2) mag ++ [signCode d2 neg]))
    (hothers : sameBytesOutside s u (descAddr d1 d2) (packedBytes d2)) : PackedWritten s u d1 d2 neg mag := by
  have hvalue : u.packedAt d1 d2 = { neg := neg && !decUnsigned d2, digits := lowDigits (packedDigits d2) mag } := by
    rw [← packedNegative_signCode]
    exact packedValue_of_nibbles hread (by rw [length_lowDigits, packedDigits]; omega)
  obtain ⟨n, hn⟩ : ∃ n, packedBytes d2 = n + 1 := ⟨(decLength d2 - 1) / 2, by rw [packedBytes]; omega⟩
  refine ⟨by rw [hvalue, magnitude_lowDigits], by rw [hvalue]; exact any_lowDigits _ _, by simp [hvalue, hne],
    fun _ => ⟨?_, fun hodd => ?_⟩, hothers⟩
  · rw [hn, State.bytesAt_succ, List.flatMap_append, ← List.append_assoc] at hread
    have hsplit : nibbles (u.byteAt ((descAddr d1 d2).plus n)) =
        [(u.byteAt ((descAddr d1 d2).plus n)).toNat / 16] ++ [(u.byteAt ((descAddr d1 d2).plus n)).toNat % 16] := rfl
    rw [List.flatMap_singleton, hsplit, ← List.append_assoc] at hread
    have hlast := List.singleton_inj.1 (List.append_inj' hread rfl).2
    rw [hn, Nat.add_sub_cancel, hlast, hvalue, signCode]
    cases decUnsigned d2 <;> simp
  · rw [hn, State.bytesAt_cons, List.flatMap_cons, keptNibble, if_pos hodd] at hread
    exact (List.cons.inj hread).1

/-- With physical addressing a packed operand is written (R583). -/
theorem State.Flat.writePacked {s : State} (h : s.Flat) {d1 d2 : Word} (hordinary : s.ordinaryField d1 (packedBytes d2))
    (neg : Bool) (mag : Nat) :
    ∃ u, s.writePacked d1 d2 neg mag = .done () u ∧ u = { s with mem := u.mem } ∧ PackedWritten s u d1 d2 neg mag := by
  by_cases hzero : decLength d2 = 0
  · exact ⟨s, by rw [State.writePacked, if_pos hzero], rfl, packedWritten_empty hzero neg mag⟩
  · have hlen : (lowDigits (packedDigits d2) mag ++ [signCode d2 neg]).length = decLength d2 := by
      rw [List.length_append, length_lowDigits, List.length_singleton, packedDigits]
      omega
    have hsmall : ∀ n ∈ lowDigits (packedDigits d2) mag ++ [signCode d2 neg], n < 16 := fun n hn =>
      (List.mem_append.1 hn).elim (fun hn => (lt_ten_of_mem_lowDigits hn).trans (by decide)) fun hn =>
        List.mem_singleton.1 hn ▸ signCode_lt d2 neg
    obtain ⟨u, hwrite, hu, hread, hothers⟩ := h.writeField hlen hsmall hordinary
    exact ⟨u, by rw [State.writePacked, if_neg hzero, hwrite], hu, packedWritten_of_nibbles hzero hread hothers⟩

/-- With physical addressing a packed operand is read as memory holds it (R583). -/
theorem State.Flat.readPacked {s : State} (h : s.Flat) {d1 d2 : Word} (hordinary : s.ordinaryField d1 (packedBytes d2)) :
    s.readPacked d1 d2 = .done (s.packedAt d1 d2) s := by
  have hfield : s.ordinaryBytes (descAddr d1 d2) (packedBytes d2) := State.ordinaryBytes_of_ordinary hordinary
  rw [State.readPacked, h.readBytes .nonprel hfield, Access.bind_done]
  rfl

/-- With physical addressing the operands A, D and X, T are read as memory holds them (R584). -/
theorem State.Flat.readBoth {s : State} (h : s.Flat) (hfirst : s.ordinaryField s.a (packedBytes s.d))
    (hsecond : s.ordinaryField s.x (packedBytes s.t)) :
    s.readBoth = .done (s.packedAt s.a s.d, s.packedAt s.x s.t) s := by
  rw [State.readBoth, h.readPacked hfirst, Access.bind_done, h.readPacked hsecond, Access.bind_done]

end Sys2Proof.Machine
end

section
/-! Arithmetic on packed decimal operands with physical addressing: ADDD, SUBD, COMD and SHDE
(`spec/52_ce_decimal.md` R584 to R587, R591, R594). -/

namespace Sys2Proof.Machine

/-! ### The end of a decimal instruction -/

theorem withCx_of_hasCx {s : State} (hcx : s.cfg.hasCx = true) (r : Result) : withCx s r = r := if_pos hcx

/-- What has been written into a field is a matter of memory alone. -/
theorem PackedWritten.of_mem {s s' u : State} {d1 d2 : Word} {neg : Bool} {mag : Nat}
    (h : PackedWritten s u d1 d2 neg mag) (hmem : s.mem = s'.mem) : PackedWritten s' u d1 d2 neg mag := by
  have hbyte (a : ByteAddr) : s.byteAt a = s'.byteAt a := by rw [State.byteAt, hmem, State.byteAt]
  refine ⟨h.digits, h.legal, h.sign, fun hlen => (h.codes hlen).imp_right fun hkept hodd => ?_, fun b hb => ?_⟩
  · rw [hkept hodd, hbyte]
  · rw [h.others b hb, hbyte]

theorem PackedWritten.skipIf {s u : State} {d1 d2 : Word} {neg : Bool} {mag : Nat} (h : PackedWritten s u d1 d2 neg mag)
    (c : Bool) : PackedWritten s (u.skipIf c) d1 d2 neg mag := by
  cases c <;> exact ⟨h.digits, h.legal, h.sign, h.codes, h.others⟩

/-- A return of a decimal instruction writes no register but P (R584). -/
theorem registersBecome_skipIf {s u : State} (hregs : u.regs = s.regs) (hpil : u.pil = s.pil) (c : Bool) :
    RegistersBecome s (u.skipIf c) [] [] (s.p + if c then 2 else 1) := by
  have hwrites := (WritesOnly.refl [] [] u).skipIf c
  refine ⟨hwrites.pil.trans hpil, nofun, nofun, ?_, keepsRegisters_of_regs hregs hpil hwrites.kept⟩
  rw [State.p_skipIf, State.p, State.cur_of_regs hregs hpil, State.p]

/-- A decimal instruction from where it writes its result on, in a state in which nothing has been drawn but arbitrary bits
(R584). -/
theorem decimalReturn_writePacked {s u : State} (h : s.Flat) (hu : u = { s with freeCount := u.freeCount }) {d1 d2 : Word}
    (hordinary : s.ordinaryField d1 (packedBytes d2)) (neg : Bool) (mag : Nat) {fits : State → Bool}
    (hfits : ∀ mem, fits { u with mem := mem } = decide (mag < 10 ^ packedDigits d2)) :
    ∃ t, decimalReturn ((u.writePacked d1 d2 neg mag).bind fun _ s => .done (fits s) s) = .next t ∧
      t = { u with regs := t.regs, mem := t.mem } ∧
      RegistersBecome s t [] [] (s.p + if mag < 10 ^ packedDigits d2 then 2 else 1) ∧
      PackedWritten s t d1 d2 neg mag := by
  have huflat : u.Flat := by rw [hu]; exact ⟨h.bus, h.paging, h.cache, h.memory, h.checks, h.tests, h.monitor⟩
  obtain ⟨v, hwrite, hv, hwritten⟩ := huflat.writePacked (d1 := d1) (d2 := d2) (by rw [hu]; exact hordinary) neg mag
  have hmem : u.mem = s.mem := by rw [hu]
  refine ⟨v.skipIf (decide (mag < 10 ^ packedDigits d2)), ?_, by rw [v.skipIf_frame, hv], ?_,
    (hwritten.of_mem hmem).skipIf _⟩
  · rw [hwrite, ← hfits v.mem, ← hv]
    rfl
  · simpa only [decide_eq_true_eq] using registersBecome_skipIf (s := s) (u := v) (by rw [hv, hu]) (by rw [hv, hu])
      (decide (mag < 10 ^ packedDigits d2))

/-! ### ADDD, SUBD and COMD -/

/-- The sign of a result is that of the number, where the rule does not leave it open (R585, R586; log 39). -/
theorem sumSign_spec (r : Int) (isOpen : Bool) (s : State) :
    ∃ neg u, sumSign r isOpen s = (neg, u) ∧ u = { s with freeCount := u.freeCount } ∧
      (r ≠ 0 ∨ isOpen = false → neg = decide (r < 0)) := by
  by_cases hopen : r = 0 ∧ isOpen = true
  · refine ⟨_, _, if_pos hopen, rfl, fun hclosed => ?_⟩
    rcases hclosed with hr | ho
    · exact absurd hopen.1 hr
    · exact absurd hopen.2 (ho ▸ Bool.false_ne_true)
  · exact ⟨_, _, if_neg hopen, rfl, fun _ => rfl⟩

section Flat

variable {s : State} (h : s.Flat) (hcx : s.cfg.hasCx = true) (hfirst : s.ordinaryField s.a (packedBytes s.d))
  (hsecond : s.ordinaryField s.x (packedBytes s.t)) {v1 v2 : DecimalValue} (hv1 : v1 = s.packedAt s.a s.d)
  (hv2 : v2 = s.packedAt s.x s.t) (hlegal1 : v1.illegal = false) (hlegal2 : v2.illegal = false)
include h hfirst hsecond hv1 hv2 hlegal1 hlegal2

/-- ADDD and SUBD, the sign of a zero result left open as R585 and R586 do. -/
theorem decimalAdd_of_flat (negate : Bool) {r : Int}
    (hr : r = if negate then v1.toInt - v2.toInt else v1.toInt + v2.toInt) :
    ∃ t neg, decimalAdd negate s = .next t ∧ t = { s with regs := t.regs, mem := t.mem, freeCount := t.freeCount } ∧
      RegistersBecome s t [] [] (s.p + if r.natAbs < 10 ^ packedDigits s.d then 2 else 1) ∧
      (r ≠ 0 ∨ (negate || v1.neg != v2.neg) = false → neg = decide (r < 0)) ∧ PackedWritten s t s.a s.d neg r.natAbs := by
  obtain ⟨neg, u, hsign, hu, hneg⟩ := sumSign_spec r (negate || v1.neg != v2.neg) s
  have hcur : u.cur = s.cur := by rw [hu]; rfl
  obtain ⟨t, hreturn, ht, hregs, hwritten⟩ := decimalReturn_writePacked h hu hfirst neg r.natAbs
    (fits := fun w => decide (r.natAbs < 10 ^ packedDigits w.d)) fun mem => by
      rw [show ({ u with mem := mem } : State).d = u.cur.d from rfl, hcur]
      rfl
  refine ⟨t, neg, ?_, by rw [ht, hu], hregs, hneg, hwritten⟩
  rw [decimalAdd, h.readBoth hfirst hsecond, Access.bind_done, ← hv1, ← hv2]
  simp only [hlegal1, hlegal2, Bool.or_false, Bool.false_eq_true, if_false, ← hr, hsign]
  rw [State.a, State.d, hcur]
  exact hreturn

section Comd

include hcx

theorem comd_of_flat :
    ∃ t, exec .comd s = .next t ∧ onlyRegisters s t ∧
      RegistersBecome s t
        [(.a, if v1.toInt = v2.toInt then 0 else if v2.toInt < v1.toInt then 1 else 0o177777)] [] (s.p + 2) := by
  have hwrites := (((WritesOnly.refl [.a] [] s).setA (by simp) (compareCode v1.toInt v2.toInt))).skip
  refine ⟨_, ?_, hwrites.only, registersBecome_of_writesOnly (.refl s) hwrites ?_ nofun ?_⟩
  · change execComd s = _
    rw [execComd, withCx_of_hasCx hcx, h.readBoth hfirst hsecond, Access.complete_done, ← hv1, ← hv2]
    simp only [hlegal1, hlegal2, Bool.or_false, Bool.false_eq_true, if_false]
  · simp [RegSet.get, compareCode, State.skip, State.setP, State.setA]
  · simp [State.p, State.skip, State.setP, State.setA]

end Comd

/-- The clause of O45 for an instruction that adds or subtracts. -/
theorem addition_of_flat {i : Instr} {negate : Bool} {r : Int} (hexec : exec i s = decimalAdd negate s)
    (hi : i = .addd → negate = false)
    (hr : r = if negate then v1.toInt - v2.toInt else v1.toInt + v2.toInt) :
    ∃ t, exec i s = .next t ∧ t = { s with regs := t.regs, mem := t.mem, freeCount := t.freeCount } ∧
      RegistersBecome s t [] [] (s.p + (if r.natAbs < 10 ^ packedDigits s.d then 2 else 1)) ∧
      magnitude (t.packedAt s.a s.d).digits = r.natAbs % 10 ^ packedDigits s.d ∧
      (t.packedAt s.a s.d).illegal = false ∧
      (decLength s.d ≠ 0 → decUnsigned s.d = false → r ≠ 0 ∨ (i = .addd ∧ v1.neg = v2.neg) →
        (t.packedAt s.a s.d).neg = decide (r < 0)) ∧
      (decUnsigned s.d = true → decLength s.d ≠ 0 → (t.packedAt s.a s.d).neg = false) ∧
      packedCodes s t s.a s.d ∧ sameBytesOutside s t (descAddr s.a s.d) (packedBytes s.d) := by
  obtain ⟨t, neg, hdone, ht, hregs, hneg, hwritten⟩ :=
    decimalAdd_of_flat h hfirst hsecond hv1 hv2 hlegal1 hlegal2 negate hr
  refine ⟨t, hexec.trans hdone, ht, hregs, hwritten.digits, hwritten.legal, fun hlen hsigned hclosed => ?_,
    fun hunsigned _ => ?_, hwritten.codes, hwritten.others⟩
  · rw [hwritten.sign, hsigned, decide_eq_true hlen, Bool.not_false, Bool.and_true, Bool.and_true]
    refine hneg (hclosed.imp_right fun ⟨haddd, hsame⟩ => ?_)
    rw [hi haddd, hsame, bne_self_eq_false]
    rfl
  · rw [hwritten.sign, hunsigned, Bool.not_true, Bool.and_false, Bool.false_and]

end Flat

/-- Settles O45. -/
theorem decimalArithmetic : Obligations.DecimalArithmetic := by
  unfold Obligations.DecimalArithmetic
  refine ⟨?_, fun s v1 v2 h hcx hfirst hsecond hv1 hv2 hlegal1 hlegal2 =>
    comd_of_flat h hcx hfirst hsecond hv1 hv2 hlegal1 hlegal2⟩
  rintro s v1 v2 i r h hcx hfirst hsecond hv1 hv2 hlegal1 hlegal2 (⟨rfl, hr⟩ | ⟨rfl, hr⟩)
  · exact addition_of_flat h hfirst hsecond hv1 hv2 hlegal1 hlegal2 (withCx_of_hasCx hcx _) (fun _ => rfl) hr
  · exact addition_of_flat h hfirst hsecond hv1 hv2 hlegal1 hlegal2 (withCx_of_hasCx hcx _) nofun hr

/-! ### SHDE -/

theorem decPoint_eq (d2 : Word) : decPoint d2 = d2.toNat / 32 % 32 := by
  rw [decPoint, BitVec.extractLsb'_toNat, Nat.shiftRight_eq_div_pow]

/-- Rounding by the last digit that leaves is rounding to the nearest multiple (R594). -/
theorem round_half_up (v k : Nat) :
    v / 10 ^ (k + 1) + (if 5 ≤ v / 10 ^ k % 10 then 1 else 0) = (v + 5 * 10 ^ k) / 10 ^ (k + 1) := by
  rw [pow_succ, ← Nat.div_div_eq_div_mul, ← Nat.div_div_eq_div_mul, Nat.add_mul_div_right _ _ (by positivity)]
  split <;> omega

/-- SHDE shifts the magnitude by the difference of the decimal positions, with rounding where it is asked for (R591, R594). -/
theorem shiftDecimal_eq {v p1 p2 m : Nat} {rounding : Bool} (hleft : p1 ≤ p2 → m = v * 10 ^ (p2 - p1))
    (hcut : p2 < p1 → rounding = false → m = v / 10 ^ (p1 - p2))
    (hround : p2 < p1 → rounding = true → m = (v + 5 * 10 ^ (p1 - p2 - 1)) / 10 ^ (p1 - p2)) :
    shiftDecimal v p1 p2 rounding = m := by
  rcases Nat.lt_or_ge p2 p1 with hlt | hle
  · obtain ⟨k, hk⟩ : ∃ k, p1 - p2 = k + 1 := ⟨p1 - p2 - 1, by omega⟩
    rw [shiftDecimal, if_neg (by omega)]
    cases rounding with
    | false => simp [hcut hlt rfl]
    | true => simp [hround hlt rfl, hk, ← round_half_up]
  · rw [shiftDecimal, if_pos hle, hleft hle]

/-- Settles O47. -/
theorem decimalShift : Obligations.DecimalShift := by
  unfold Obligations.DecimalShift
  rintro s v p1 p2 m h hcx hfirst hsecond hv hlegal rfl rfl hleft hcut hround
  have hm : shiftDecimal (magnitude v.digits) (decPoint s.d) (decPoint s.t) (!s.t.getLsbD 10) = m := by
    rw [decPoint_eq, decPoint_eq]
    exact shiftDecimal_eq hleft (fun hlt hbit => hcut hlt (by simpa using hbit)) fun hlt hbit => hround hlt (by simpa using hbit)
  obtain ⟨t, hreturn, ht, hregs, hwritten⟩ := decimalReturn_writePacked h rfl hsecond v.neg m
    (fits := fun w => decide (m < 10 ^ packedDigits w.t)) fun _ => rfl
  refine ⟨t, ?_, ht, hregs, hwritten.digits, hwritten.sign, hwritten.codes, hwritten.others⟩
  change execShde s = _
  rw [execShde, withCx_of_hasCx hcx, h.readBoth hfirst hsecond, Access.bind_done, ← hv]
  simp only [hlegal, Bool.false_eq_true, if_false, hm]
  exact hreturn

end Sys2Proof.Machine
end

section
/-! Conversion between ASCII and packed decimal operands with physical addressing: the byte codes, UPACK's field read back, and
PACK and UPACK with their error returns (`spec/52_ce_decimal.md` R581, R588 to R590). -/

namespace Sys2Proof.Machine

/-! ### The codes of the bytes -/

theorem digitCode_digitByte {d : Nat} (hd : d < 10) : digitCode (digitByte d) = some (.digit d) := by
  revert d; decide

theorem separateCode_signByte (neg : Bool) : separateCode (signByte neg) = some (.sign neg) := by
  cases neg <;> rfl

theorem embeddedCode_embeddedByte (neg : Bool) {d : Nat} (hd : d < 10) :
    embeddedCode (embeddedByte neg d) = some (.both neg d) := by
  revert neg d; decide

theorem digitByte_lt {d : Nat} (hd : d < 10) : (digitByte d).toNat < 128 := by
  revert d; decide

theorem signByte_lt (neg : Bool) : (signByte neg).toNat < 128 := by
  cases neg <;> decide

theorem embeddedByte_lt (neg : Bool) {d : Nat} (hd : d < 10) : (embeddedByte neg d).toNat < 128 := by
  revert neg d; decide

/-! ### Reading ASCII bytes -/

theorem scanAscii_cons {form : SignForm} {length i : Nat} {b : Byte} {r : List Byte} {v : DecimalValue} {c : AsciiCode}
    (hrest : scanAscii form length (i + 1) r = .ok v) (hcode : asciiCode form length i b = some c) :
    scanAscii form length i (b :: r) = .ok (c.prepend v) := by
  simp only [scanAscii, hrest, hcode]

/-- Digit bytes in front of other bytes put their digits in front of the value of those. -/
theorem scanAscii_digits {form : SignForm} {length : Nat} {tail : List Byte} {v : DecimalValue} (ds : List Nat) (i : Nat)
    (hds : ∀ d ∈ ds, d < 10) (hcode : ∀ j b, i ≤ j → j < i + ds.length → asciiCode form length j b = digitCode b)
    (htail : scanAscii form length (i + ds.length) tail = .ok v) :
    scanAscii form length i (ds.map digitByte ++ tail) = .ok { v with digits := ds ++ v.digits } := by
  induction ds generalizing i with
  | nil => exact htail
  | cons d r ih =>
    rw [List.forall_mem_cons] at hds
    simp only [List.length_cons] at hcode htail
    have hrest := ih (i + 1) hds.2 (fun j b hj hj' => hcode j b (by omega) (by omega))
      (by rwa [Nat.add_assoc, Nat.add_comm 1])
    refine scanAscii_cons hrest (c := .digit d) ?_
    rw [hcode i _ le_rfl (by omega), digitCode_digitByte hds.1]

/-- What an ASCII field holds that is written with a sign and digits: these, but for the sign of an unsigned field (R581). -/
theorem scanAscii_asciiBytes (form : SignForm) (neg : Bool) {ds : List Nat} {length : Nat} (hds : ∀ d ∈ ds, d < 10)
    (hlen : (asciiBytes form neg ds).length = length) (hne : length ≠ 0) :
    scanAscii form length 0 (asciiBytes form neg ds) = .ok { neg := neg && decide (form ≠ .unsigned), digits := ds } := by
  have hnil : scanAscii form length length [] = .ok { neg := false, digits := [] } := rfl
  cases form with
  | unsigned =>
    have hall : ds.map digitByte ++ [] = asciiBytes .unsigned neg ds := List.append_nil _
    have hlength : 0 + ds.length = length := by simpa [asciiBytes] using hlen
    rw [← hall, scanAscii_digits ds 0 hds (fun _ _ _ _ => rfl) (by rw [hlength]; exact hnil)]
    simp
  | separateTrailing =>
    have hlength : 0 + ds.length + 1 = length := by simpa [asciiBytes] using hlen
    have hinner (j : Nat) (b : Byte) (hj : j + 1 ≠ length) : asciiCode .separateTrailing length j b = digitCode b :=
      if_neg hj
    have hlast : asciiCode .separateTrailing length (0 + ds.length) (signByte neg) = some (.sign neg) :=
      (if_pos hlength).trans (separateCode_signByte neg)
    have hsign := scanAscii_cons (r := []) (by rw [hlength]; exact hnil) hlast
    rw [asciiBytes, scanAscii_digits ds 0 hds (fun j b _ hj => hinner j b (by omega)) hsign]
    simp [AsciiCode.prepend]
  | embeddedTrailing =>
    rcases List.eq_nil_or_concat ds with rfl | ⟨r, d, rfl⟩
    · exact absurd hlen.symm hne
    · have hr : ∀ e ∈ r, e < 10 := fun e he => hds e (by simp [he])
      have hd : d < 10 := hds d (by simp)
      have hall : asciiBytes .embeddedTrailing neg (r.concat d) = r.map digitByte ++ [embeddedByte neg d] := by
        simp [asciiBytes]
      have hlength : 0 + r.length + 1 = length := by
        rw [hall] at hlen
        simpa using hlen
      have hinner (j : Nat) (b : Byte) (hj : j + 1 ≠ length) : asciiCode .embeddedTrailing length j b = digitCode b :=
        if_neg hj
      have hlast : asciiCode .embeddedTrailing length (0 + r.length) (embeddedByte neg d) = some (.both neg d) :=
        (if_pos hlength).trans (embeddedCode_embeddedByte neg hd)
      have hsign := scanAscii_cons (r := []) (by rw [hlength]; exact hnil) hlast
      rw [hall, scanAscii_digits r 0 hr (fun j b _ hj => hinner j b (by omega)) hsign]
      simp [AsciiCode.prepend]
  | separateLeading =>
    have hlength : 1 + ds.length = length := by simpa [asciiBytes, Nat.add_comm] using hlen
    have hdigits := scanAscii_digits ds 1 hds (form := .separateLeading) (fun j _ hj _ => if_neg (by omega))
      (by rw [hlength]; exact hnil)
    rw [List.append_nil] at hdigits
    rw [asciiBytes, scanAscii_cons hdigits (c := .sign neg) (separateCode_signByte neg)]
    simp [AsciiCode.prepend]
  | embeddedLeading =>
    cases ds with
    | nil => exact absurd hlen.symm hne
    | cons d r =>
      rw [List.forall_mem_cons] at hds
      have hlength : 1 + r.length = length := by simpa [asciiBytes, Nat.add_comm] using hlen
      have hdigits := scanAscii_digits r 1 hds.2 (form := .embeddedLeading) (fun j _ hj _ => if_neg (by omega))
        (by rw [hlength]; exact hnil)
      rw [List.append_nil] at hdigits
      rw [asciiBytes, scanAscii_cons hdigits (c := .both neg d) (embeddedCode_embeddedByte neg hds.1)]
      simp [AsciiCode.prepend]

theorem lt_of_mem_asciiBytes {form : SignForm} {neg : Bool} {ds : List Nat} (hds : ∀ d ∈ ds, d < 10) {b : Byte}
    (hb : b ∈ asciiBytes form neg ds) : b.toNat < 128 := by
  have hdigit (r : List Nat) (hr : ∀ d ∈ r, d < 10) (h : b ∈ r.map digitByte) : b.toNat < 128 := by
    obtain ⟨d, hd, rfl⟩ := List.mem_map.1 h
    exact digitByte_lt (hr d hd)
  cases form with
  | unsigned => exact hdigit ds hds hb
  | separateTrailing =>
    rcases List.mem_append.1 hb with h | h
    · exact hdigit ds hds h
    · rw [List.mem_singleton.1 h]
      exact signByte_lt neg
  | embeddedTrailing =>
    rcases List.mem_append.1 hb with h | h
    · exact hdigit _ (fun d hd => hds d (List.mem_of_mem_dropLast hd)) h
    · obtain ⟨d, hd, rfl⟩ := List.mem_map.1 h
      exact embeddedByte_lt neg (hds d (List.mem_of_getLast? (Option.mem_toList.1 hd)))
  | separateLeading =>
    rcases List.mem_cons.1 hb with rfl | h
    · exact signByte_lt neg
    · exact hdigit ds hds h
  | embeddedLeading =>
    cases ds with
    | nil => cases hb
    | cons d r =>
      rw [List.forall_mem_cons] at hds
      rcases List.mem_cons.1 hb with rfl | h
      · exact embeddedByte_lt neg hds.1
      · exact hdigit r hds.2 h

/-! ### ASCII fields in memory -/

/-- As many digits fill the field as it has room for (R583). -/
theorem length_asciiBytes {d2 : Word} {neg : Bool} {ds : List Nat} (hlen : ds.length = asciiDigits d2)
    (hne : decLength d2 ≠ 0) : (asciiBytes (signForm d2) neg ds).length = decLength d2 := by
  rw [asciiDigits] at hlen
  cases hform : signForm d2 <;> rw [hform] at hlen <;> simp only at hlen
  case embeddedTrailing =>
    rcases List.eq_nil_or_concat ds with rfl | ⟨r, d, rfl⟩
    · exact absurd hlen.symm hne
    · simpa [asciiBytes] using hlen
  case embeddedLeading =>
    cases ds with
    | nil => exact absurd hlen.symm hne
    | cons d r => simpa [asciiBytes] using hlen
  case unsigned => simpa [asciiBytes] using hlen
  all_goals
    simp only [asciiBytes, List.length_append, List.length_cons, List.length_map, List.length_nil]
    omega

/-- A descriptor asks for an unsigned field by its bit 13 (R582). -/
theorem signForm_eq_unsigned_iff (d2 : Word) : signForm d2 = .unsigned ↔ decUnsigned d2 = true := by
  rw [signForm, decUnsigned]
  split
  · simp_all
  · split <;> simp_all

/-- What an ASCII field that is written with a sign and a magnitude holds then: its low-order digits and the sign, in bytes
with bit 7 zero; other bytes are as before (R581, R590). -/
structure AsciiWritten (s t : State) (d1 d2 : Word) (neg : Bool) (mag : Nat) : Prop where
  value : ∃ v, scanAscii (signForm d2) (decLength d2) 0 (t.bytesAt (descAddr d1 d2) (decLength d2)) = .ok v ∧
    magnitude v.digits = mag % 10 ^ asciiDigits d2 ∧ v.neg = (neg && !decUnsigned d2 && decide (decLength d2 ≠ 0))
  parity : ∀ k, k < decLength d2 → (t.byteAt ((descAddr d1 d2).plus k)).toNat < 128
  others : sameBytesOutside s t (descAddr d1 d2) (decLength d2)

theorem asciiDigits_of_empty {d2 : Word} (hzero : decLength d2 = 0) : asciiDigits d2 = 0 := by
  rw [asciiDigits, hzero]
  cases signForm d2 <;> rfl

theorem asciiWritten_empty {s : State} {d1 d2 : Word} (hzero : decLength d2 = 0) (neg : Bool) (mag : Nat) :
    AsciiWritten s s d1 d2 neg mag := by
  refine ⟨⟨{ neg := false, digits := [] }, ?_, ?_, ?_⟩, ?_, fun _ _ => rfl⟩
  · rw [hzero]
    rfl
  · rw [asciiDigits_of_empty hzero]
    exact (Nat.mod_one mag).symm
  · simp [hzero]
  · rw [hzero]
    nofun

/-- With physical addressing an ASCII operand is written (R590). -/
theorem State.Flat.writeAscii {s : State} (h : s.Flat) {d1 d2 : Word} (hordinary : s.ordinaryField d1 (decLength d2))
    (neg : Bool) (mag : Nat) :
    ∃ u, s.writeAscii d1 d2 neg mag = .done () u ∧ u = { s with mem := u.mem } ∧ AsciiWritten s u d1 d2 neg mag := by
  by_cases hzero : decLength d2 = 0
  · exact ⟨s, by rw [State.writeAscii, if_pos hzero], rfl, asciiWritten_empty hzero neg mag⟩
  · set bytes := asciiBytes (signForm d2) neg (lowDigits (asciiDigits d2) mag) with hbytes
    have hds : ∀ d ∈ lowDigits (asciiDigits d2) mag, d < 10 := fun _ => lt_ten_of_mem_lowDigits
    have hlen : bytes.length = decLength d2 := length_asciiBytes (length_lowDigits _ _) hzero
    have hsize : decLength d2 < 32 := (d2.extractLsb' 0 5).isLt
    have hfield : s.ordinaryBytes (descAddr d1 d2) (decLength d2) := State.ordinaryBytes_of_ordinary hordinary
    obtain ⟨u, hwrite, hu, hread, hothers⟩ := h.writeBytes .nonprel (bytes := bytes) (by omega) (by rwa [hlen])
    rw [hlen] at hread hothers
    have hscan := scanAscii_asciiBytes (signForm d2) neg hds hlen hzero
    rw [← hbytes, ← hread] at hscan
    refine ⟨u, by rw [State.writeAscii, if_neg hzero, hwrite], hu, ⟨_, hscan, magnitude_lowDigits _ mag, ?_⟩,
      fun k hk => lt_of_mem_asciiBytes hds (form := signForm d2) (neg := neg) ?_, hothers⟩
    · have hform : decide (signForm d2 ≠ .unsigned) = !decUnsigned d2 := by
        rw [Bool.eq_iff_iff, decide_eq_true_iff, Ne, signForm_eq_unsigned_iff, Bool.not_eq_true', Bool.not_eq_true]
      simp [hform, hzero]
    · rw [← hbytes, ← hread]
      exact List.mem_map.2 ⟨k, List.mem_range.2 hk, rfl⟩

/-! ### The error returns -/

/-- The low five bits of a word replaced (R588). -/
theorem replaceLowBits (d : Word) (code : BitVec 5) :
    d.extractLsb' 5 11 ++ code = d &&& 0o177740 ||| code.setWidth 16 := by
  refine BitVec.eq_of_getLsbD_eq fun i hi => ?_
  rw [BitVec.getLsbD_append]
  interval_cases i <;> simp

theorem illegalWord (d : Word) (right : Bool) :
    (BitVec.ofBool right ++ d.extractLsb' 0 15) &&& 0o177740 = (if right then 0o100000 else 0) ||| d &&& 0o077740 := by
  refine BitVec.eq_of_getLsbD_eq fun i hi => ?_
  rw [BitVec.getLsbD_and, BitVec.getLsbD_append]
  cases right <;> interval_cases i <;> simp

/-- An error return writes the code into D and no other register (R588). -/
theorem registersBecome_decimalError {s u : State} (hregs : u.regs = s.regs) (hpil : u.pil = s.pil) (code : BitVec 5) :
    RegistersBecome s (u.decimalError code) [(.d, s.d &&& 0o177740 ||| code.setWidth 16)] [] (s.p + 1) := by
  have hcur := State.cur_of_regs hregs hpil
  have hwrites := ((WritesOnly.refl [.d] [] u).setD (by simp) (u.d.extractLsb' 5 11 ++ code)).advance
  refine ⟨hwrites.pil.trans hpil, ?_, nofun, ?_, keepsRegisters_of_regs hregs hpil hwrites.kept⟩
  · simp only [List.forall_mem_singleton]
    rw [← replaceLowBits, State.d, ← hcur]
    simp [State.decimalError, RegSet.get, State.advance, State.setP, State.setD, State.d]
  · rw [State.decimalError, State.p_advance, State.p_setD, State.p, hcur, State.p]

/-- An illegal code is reported in A and D, and no other register is written (R588). -/
theorem registersBecome_illegalCode (s : State) (place : ByteAddr) :
    RegistersBecome s (s.illegalCode place)
      [(.a, place.word), (.d, (if place.right then 0o100000 else 0) ||| s.d &&& 0o077740 ||| 2)] [] (s.p + 1) := by
  have hend : s.illegalCode place =
      (((s.setA place.word).setD (BitVec.ofBool place.right ++ s.d.extractLsb' 0 15)).setD
        ((if place.right then 0o100000 else 0) ||| s.d &&& 0o077740 ||| 2)).advance := by
    rw [← illegalWord, State.illegalCode, State.decimalError, replaceLowBits]
    simp [State.d, State.setD, State.setA]
  have hwrites := ((((WritesOnly.refl [.a, .d] [] s).setA (by simp) place.word).setD (by simp)
    (BitVec.ofBool place.right ++ s.d.extractLsb' 0 15)).setD (by simp)
      ((if place.right then 0o100000 else 0) ||| s.d &&& 0o077740 ||| 2)).advance
  rw [hend]
  refine registersBecome_of_writesOnly (.refl s) hwrites ?_ nofun ?_
  · simp [RegSet.get, State.advance, State.setP, State.setD, State.setA]
  · simp [State.advance, State.p, State.setP, State.setD, State.setA]

/-! ### The end of a conversion -/

/-- Where PACK and UPACK end: the skip return, or the error return of an overflow (R588). -/
def State.convertEnd (s : State) (fits : Bool) : State := if fits then s.skip else s.decimalError 3

theorem convertReturn_done (fits : Bool) (s : State) : convertReturn (.done fits s) = .next (s.convertEnd fits) := rfl

theorem PackedWritten.convertEnd {s u : State} {d1 d2 : Word} {neg : Bool} {mag : Nat} (h : PackedWritten s u d1 d2 neg mag)
    (fits : Bool) : PackedWritten s (u.convertEnd fits) d1 d2 neg mag := by
  cases fits <;> exact ⟨h.digits, h.legal, h.sign, h.codes, h.others⟩

theorem AsciiWritten.convertEnd {s u : State} {d1 d2 : Word} {neg : Bool} {mag : Nat} (h : AsciiWritten s u d1 d2 neg mag)
    (fits : Bool) : AsciiWritten s (u.convertEnd fits) d1 d2 neg mag := by
  cases fits <;> exact ⟨h.value, h.parity, h.others⟩

theorem State.convertEnd_frame {s u : State} (hu : u = { s with mem := u.mem }) (fits : Bool) :
    u.convertEnd fits = { s with regs := (u.convertEnd fits).regs, mem := (u.convertEnd fits).mem } := by
  rw [hu]
  cases fits <;> rfl

theorem registersBecome_convertEnd {s u : State} (hu : u = { s with mem := u.mem }) (mag bound : Nat) :
    (mag < bound → RegistersBecome s (u.convertEnd (decide (mag < bound))) [] [] (s.p + 2)) ∧
    (bound ≤ mag →
      RegistersBecome s (u.convertEnd (decide (mag < bound))) [(.d, s.d &&& 0o177740 ||| 3)] [] (s.p + 1)) := by
  have hregs : u.regs = s.regs := by rw [hu]
  have hpil : u.pil = s.pil := by rw [hu]
  refine ⟨fun hfits => ?_, fun hlost => ?_⟩
  · rw [decide_eq_true hfits]
    exact registersBecome_skipIf hregs hpil true
  · rw [decide_eq_false (Nat.not_lt.2 hlost)]
    exact registersBecome_decimalError hregs hpil 3

/-! ### PACK and UPACK -/

/-- With physical addressing bytes are read and nothing changes, in the page tables too. -/
theorem State.Flat.readBytes_anywhere {s : State} (h : s.Flat) (rel : Rel) (n : Nat) (a : ByteAddr) :
    ∃ bytes, Sys2Proof.Machine.readBytes rel n a s = .done bytes s := by
  have hword (va : Word) : ∃ w, s.memRead .rop rel va = .done w s := by
    cases hshadow : s.shadowReached va with
    | true => exact ⟨_, State.memRead_of_shadow hshadow .rop rel⟩
    | false => exact ⟨_, h.memRead hshadow .rop rel⟩
  induction n generalizing a with
  | zero => exact ⟨[], rfl⟩
  | succ n ih =>
    obtain ⟨w, hw⟩ := hword a.word
    obtain ⟨bytes, hbytes⟩ := ih a.next
    exact ⟨_, by rw [Sys2Proof.Machine.readBytes, State.loadByte, hw, Access.bind_done, Access.bind_done, hbytes,
      Access.bind_done]⟩

/-- With physical addressing PACK and UPACK read their source field as memory holds it (R584). -/
theorem State.Flat.readFields {s : State} (h : s.Flat) {n1 : Nat} (hfirst : s.ordinaryField s.a n1) (n2 : Nat) :
    s.readFields n1 n2 = .done (s.bytesAt (descAddr s.a s.d) n1) s := by
  have hfield : s.ordinaryBytes (descAddr s.a s.d) n1 := State.ordinaryBytes_of_ordinary hfirst
  obtain ⟨old, hold⟩ := h.readBytes_anywhere .nonprel n2 (descAddr s.x s.t)
  rw [State.readFields, h.readBytes .nonprel hfield, Access.bind_done, hold, Access.bind_done]

theorem lastIllegal_of_legal {ds : List Nat} (h : ds.any (fun d => decide (9 < d)) = false) (i : Nat) :
    lastIllegal i ds = none := by
  induction ds generalizing i with
  | nil => rfl
  | cons d r ih =>
    rw [List.any_cons, Bool.or_eq_false_iff, decide_eq_false_iff_not] at h
    rw [lastIllegal, ih h.2]
    exact if_neg h.1

section Flat

variable {s : State} (h : s.Flat) (hcx : s.cfg.hasCx = true)
include h hcx

theorem pack_of_flat {v : DecimalValue} (hsource : s.ordinaryField s.a (decLength s.d))
    (hdest : s.ordinaryField s.x (packedBytes s.t))
    (hscan : scanAscii (signForm s.d) (decLength s.d) 0 (s.bytesAt (descAddr s.a s.d) (decLength s.d)) = .ok v) :
    ∃ t, exec .pack s = .next t ∧ t = { s with regs := t.regs, mem := t.mem } ∧
      (magnitude v.digits < 10 ^ packedDigits s.t → RegistersBecome s t [] [] (s.p + 2)) ∧
      (10 ^ packedDigits s.t ≤ magnitude v.digits → RegistersBecome s t [(.d, s.d &&& 0o177740 ||| 3)] [] (s.p + 1)) ∧
      PackedWritten s t s.x s.t v.neg (magnitude v.digits) := by
  obtain ⟨u, hwrite, hu, hwritten⟩ := h.writePacked hdest v.neg (magnitude v.digits)
  have hut : u.t = s.t := by rw [hu]; rfl
  obtain ⟨hfits, hlost⟩ := registersBecome_convertEnd hu (magnitude v.digits) (10 ^ packedDigits s.t)
  refine ⟨_, ?_, State.convertEnd_frame hu _, hfits, hlost, hwritten.convertEnd _⟩
  change execPack s = _
  rw [execPack, withCx_of_hasCx hcx, h.readFields hsource, Access.complete_done]
  simp only [hscan, hwrite, Access.bind_done, convertReturn_done, hut]

theorem upack_of_flat {v : DecimalValue} (hsource : s.ordinaryField s.a (packedBytes s.d))
    (hdest : s.ordinaryField s.x (decLength s.t)) (hv : v = s.packedAt s.a s.d) (hlegal : v.illegal = false) :
    ∃ t, exec .upack s = .next t ∧ t = { s with regs := t.regs, mem := t.mem } ∧
      (magnitude v.digits < 10 ^ asciiDigits s.t → RegistersBecome s t [] [] (s.p + 2)) ∧
      (10 ^ asciiDigits s.t ≤ magnitude v.digits → RegistersBecome s t [(.d, s.d &&& 0o177740 ||| 3)] [] (s.p + 1)) ∧
      AsciiWritten s t s.x s.t v.neg (magnitude v.digits) := by
  obtain ⟨u, hwrite, hu, hwritten⟩ := h.writeAscii hdest v.neg (magnitude v.digits)
  have hut : u.t = s.t := by rw [hu]; rfl
  have hvalue : packedValue (decLength s.d) (s.bytesAt (descAddr s.a s.d) (packedBytes s.d)) = v := hv.symm
  obtain ⟨hfits, hlost⟩ := registersBecome_convertEnd hu (magnitude v.digits) (10 ^ asciiDigits s.t)
  refine ⟨_, ?_, State.convertEnd_frame hu _, hfits, hlost, hwritten.convertEnd _⟩
  change execUpack s = _
  rw [execUpack, withCx_of_hasCx hcx, h.readFields hsource, Access.complete_done]
  simp only [hvalue, lastIllegal_of_legal hlegal, hwrite, Access.bind_done, convertReturn_done, hut]

theorem exec_pack_of_illegal {j : Nat} (hsource : s.ordinaryField s.a (decLength s.d))
    (hscan : scanAscii (signForm s.d) (decLength s.d) 0 (s.bytesAt (descAddr s.a s.d) (decLength s.d)) = .error j) :
    exec .pack s = .next (s.illegalCode ((descAddr s.a s.d).plus j)) := by
  change execPack s = _
  rw [execPack, withCx_of_hasCx hcx, h.readFields hsource, Access.complete_done]
  simp only [hscan]

theorem exec_upack_of_illegal {j : Nat} (hsource : s.ordinaryField s.a (packedBytes s.d))
    (hillegal : lastIllegal 0 (s.packedAt s.a s.d).digits = some j) :
    exec .upack s = .next (s.illegalCode ((descAddr s.a s.d).plus (packedByteOf s.d j))) := by
  rw [State.packedAt] at hillegal
  change execUpack s = _
  rw [execUpack, withCx_of_hasCx hcx, h.readFields hsource, Access.complete_done]
  simp only [hillegal]

end Flat

/-- Settles O46. -/
theorem decimalConversion : Obligations.DecimalConversion := by
  unfold Obligations.DecimalConversion
  refine ⟨fun s v h hcx => ⟨fun hsource hdest hscan => ?_, fun hsource hdest hv hlegal => ?_⟩,
    fun s j h hcx => ⟨fun hsource hscan => ?_, fun hsource hillegal => ?_⟩⟩
  · obtain ⟨t, hexec, hframe, hfits, hlost, hwritten⟩ := pack_of_flat h hcx hsource hdest hscan
    exact ⟨t, hexec, hframe, hfits, hlost, hwritten.digits, hwritten.sign, hwritten.codes, hwritten.others⟩
  · obtain ⟨t, hexec, hframe, hfits, hlost, hwritten⟩ := upack_of_flat h hcx hsource hdest hv hlegal
    obtain ⟨v', hscan, hdigits, hsign⟩ := hwritten.value
    exact ⟨t, v', hexec, hframe, hfits, hlost, hscan, hdigits, hsign, hwritten.parity, hwritten.others⟩
  · exact ⟨_, exec_pack_of_illegal h hcx hsource hscan, rfl, registersBecome_illegalCode s _⟩
  · exact ⟨_, exec_upack_of_illegal h hcx hsource hillegal, rfl, registersBecome_illegalCode s _⟩

end Sys2Proof.Machine
end
